-- ==== Sys2Proof/Word.lean ====
section
/-! DEFINITION. The word types of the SDS 930 (00_scope R3, R5): 24-bit words, 14-bit program addresses, 15-bit
physical addresses. Bit 0 of the manual is the most significant bit, so `BitVec.getMsbD w k` is the manual's bit `k`. -/

namespace Sys2Proof

/-- A memory word or a programmer's register: 24 bits (00_scope R3). -/
abbrev Word := BitVec 24

/-- A program address: 14 bits (20_memory R61). -/
abbrev Addr := BitVec 14

/-- A physical address: 15 bits (20_memory R60). -/
abbrev PAddr := BitVec 15

end Sys2Proof
end

