-- ==== Sys2Proof/Machine/Bits.lean ====
section
/-! DEFINITION. Fields of words, in the manual's bit numbering (00_scope R5, R8). -/

namespace Sys2Proof.Machine

open Sys2Proof

/-- The low `n` bits of `w`, the rest those of `free` (48_io_instructions R363; log 12). -/
def keepLow (n : Nat) (w free : Word) : Word :=
  if 24 ≤ n then w else BitVec.ofNat 24 (w.toNat % 2 ^ n + free.toNat / 2 ^ n * 2 ^ n)

/-- A character of `b` bits shifted in on the right (48_io_instructions R363). -/
def shiftIn (b : Nat) (w c : Word) : Word := BitVec.ofNat 24 (w.toNat * 2 ^ b + c.toNat % 2 ^ b)

/-- The leading `b` bits of a word, on the right (48_io_instructions R364). -/
def leading (b : Nat) (w : Word) : Word := BitVec.ofNat 24 (w.toNat / 2 ^ (24 - b))

/-- A word shifted left, zeros entering on the right (48_io_instructions R363, R364). -/
def shiftOut (b : Nat) (w : Word) : Word := BitVec.ofNat 24 (w.toNat * 2 ^ b)

/-- `w[k]`. -/
def bit (w : Word) (k : Nat) : Bool := w.getMsbD k

/-- `w[10:23]`. -/
def addrField (w : Word) : Addr := w.setWidth 14

/-- `w[15:23]`, the exponent field. -/
def low9 (w : Word) : BitVec 9 := w.setWidth 9

/-- `w[0] <- b`: the carry position of X (10_state R26). -/
def setBit0 (w : Word) (b : Bool) : Word := BitVec.ofBool b ++ w.setWidth 23

/-- `w[10:23] <- a`. -/
def setAddrField (w : Word) (a : Addr) : Word := w.extractLsb' 14 10 ++ a

/-- `w[15:23] <- e`. -/
def setLow9 (w : Word) (e : BitVec 9) : Word := w.extractLsb' 9 15 ++ e

/-- `sext_9(e)`. -/
def sext9 (e : BitVec 9) : Word := e.signExtend 24

/-- The 48-bit `A ++ B` (46_shift R280). -/
def joinAB (a b : Word) : BitVec 48 := a ++ b

/-- The A half of a 48-bit value. -/
def highWord (v : BitVec 48) : Word := v.extractLsb' 24 24

/-- The B half of a 48-bit value. -/
def lowWord (v : BitVec 48) : Word := v.setWidth 24

end Sys2Proof.Machine
end

