-- ==== Sys2Proof/Config.lean ====
section
/-! DEFINITION. What an installation fixes (00_scope R4, 92_eei_decisions D1 to D42) and the one source of values the
spec leaves undefined. The parameters are plain data, held in `State.cfg`, so that a statement about every state is a
statement about every installation. -/

namespace Sys2Proof

/-- The eight input/output channels, numbered 0 to 7 in this order (30_encoding R120). -/
inductive ChannelId where
  | w | y | c | d | e | f | g | h
  deriving DecidableEq, Repr

/-- The open parameter ARMED_AFTER_START (92_eei_decisions D15). -/
inductive ArmedAfterStart where
  | allDisarmed | unchanged
  deriving DecidableEq, Repr

/-- The open parameter RTC_SKR_SYNC_CONDITION (60_exceptions R549, 92_eei_decisions D41). -/
inductive SkrSync where
  | never | resultZero | resultNegative
  deriving DecidableEq, Repr

/-- LOCKOUT_CONTROL: how the write lock-out is set (10_state R33): console switches, or a register. -/
inductive LockoutControl where
  | manual | program
  deriving DecidableEq, Repr

/-- The sizes a character can have (48_io_instructions R398; 10_state R38, `SCR`). -/
inductive CharSize where
  | six | eight | twelve | twentyFour
  deriving DecidableEq, Repr

def CharSize.bits : CharSize → Nat
  | .six => 6
  | .eight => 8
  | .twelve => 12
  | .twentyFour => 24

/-- The parameters of one installation (00_scope R4) and the open parameters of the spec. -/
structure Config where
  /-- MEM_WORDS: the number of core memory words installed (20_memory R60). -/
  memWords : Nat
  /-- HAS_MEMORY_EXTENSION (D1). -/
  hasMemExt : Bool
  /-- HAS_WRITE_LOCKOUT (20_memory R64). -/
  hasLockout : Bool
  lockoutControl : LockoutControl
  /-- HAS_POWER_FAILSAFE: levels 036 and 037 (60_exceptions R546). -/
  hasPowerFailsafe : Bool
  /-- HAS_RTC: levels 074 and 075 (60_exceptions R547). -/
  hasRtc : Bool
  /-- HAS_PARITY_INTERRUPTS with PARITY_INT_LOC_CPU and PARITY_INT_LOC_IO (60_exceptions R544, D42). -/
  parityLevels : Option (Nat × Nat)
  /-- PARITY_INT_GATED (D42). -/
  parityGated : Bool
  /-- CHANNELS: the channels installed. -/
  channels : List ChannelId
  /-- The channels W and Y that have interlace (C to H always have it: 10_state R38). -/
  interlaced : List ChannelId
  /-- The character sizes wider than six bits that a channel's options give it (93_implementation_defined section 3). -/
  charSizes : List (ChannelId × CharSize)
  /-- N_SYSTEM_INTERRUPTS: system levels installed from 0200 upward (60_exceptions R525). -/
  nSystem : Nat
  /-- The system levels wired as single-instruction levels (60_exceptions R522). -/
  singles : List Nat
  /-- The optional arming feature of the system levels (60_exceptions R539, corner case 5). -/
  armingFeature : Bool
  /-- The system levels that lack the arming feature where others have it (93_implementation_defined section 3). -/
  unarmable : List Nat
  armedAfterStart : ArmedAfterStart
  /-- SUB_CARRY_POLARITY: false is `adder`, true is `borrow` (41_arithmetic R169, D7). -/
  subBorrow : Bool
  /-- SKD_COMPARE: false is `unsigned`, true is `signed` (45_test_skip R268, D9). -/
  skdSigned : Bool
  skrSync : SkrSync
  /-- The installation has special internal signals (48_io_instructions R392). -/
  hasSpecialSignals : Bool
  /-- The Data Multiplexing System is fitted (49_io_devices R500). -/
  hasDms : Bool
  /-- DEVICES: the unit addresses attached to each channel (00_scope R4). -/
  units : List (ChannelId × BitVec 6)
  deriving DecidableEq, Repr

/-- The direct access channels (48 R398). -/
def isDirect : ChannelId → Bool
  | .w | .y | .c | .d => false
  | .e | .f | .g | .h => true

/-- The ranges that R4 states: memory of 4,096 to 32,768 words in multiples of 4,096; channel W always, as it is
standard; up to 896 system interrupts in groups of 16; optional interlace on W and Y only; eight-bit characters on
direct access channels only (10_state R38). -/
def Config.ok (c : Config) : Bool :=
  4096 ≤ c.memWords && c.memWords ≤ 32768 && c.memWords % 4096 == 0 && c.channels.contains .w &&
    c.nSystem ≤ 896 && c.nSystem % 16 == 0 && c.interlaced.all (fun ch => ch == .w || ch == .y) &&
    c.charSizes.all fun p => p.2 != .eight || isDirect p.1

/-- The installation of `State.reset`: every option fitted but the Data Multiplexing System and the parity interrupts,
whose locations the manual does not give, and the open parameters at the spec's defaults. DESIGN CHOICE, unsafe for a
claim about `State.reset` alone (log 8). -/
def Config.standard : Config :=
  { memWords := 32768
    hasMemExt := true
    hasLockout := true
    lockoutControl := .manual
    hasPowerFailsafe := true
    hasRtc := true
    parityLevels := none
    parityGated := true
    channels := [.w, .y, .c, .d, .e, .f, .g, .h]
    interlaced := [.w, .y]
    charSizes := []
    nSystem := 896
    singles := []
    armingFeature := true
    unarmable := []
    armedAfterStart := .allDisarmed
    subBorrow := false
    skdSigned := false
    skrSync := .never
    hasSpecialSignals := false
    hasDms := false
    units := [] }

/-- A value the spec leaves undefined (93_implementation_defined, treatment "any value"): the n-th draw of a run is
`Config.freeWord n`, and nothing is known of it. Safe (log 9). -/
opaque Config.freeWord : Nat → Word

end Sys2Proof
end

