-- ==== Sys2Proof/Syntax.lean ====
section
/-! DEFINITION. The instructions: one constructor of `Instr` per row of spec/opcode_table.json. Bits a row marks as
ignored (bit 0 of most words) are not kept, except where the whole word is handed to the host (R390, R391). -/

namespace Sys2Proof

/-- The operand fields of a memory-reference word: bit 1, bit 9 and bits 10-23 (30_encoding R100). -/
structure Ref where
  indexed : Bool
  indirect : Bool
  addr : Addr
  deriving DecidableEq, Repr

/-- The function bits of a register-change word: bit 1 and bits 14 to 23 (43_register_change R200). -/
structure RegFn where
  /-- bit 1 -/
  clearX : Bool := false
  /-- bit 14 -/
  negA : Bool := false
  /-- bit 15 -/
  aToX : Bool := false
  /-- bit 16 -/
  xToA : Bool := false
  /-- bit 17 -/
  expOnly : Bool := false
  /-- bit 18 -/
  xToB : Bool := false
  /-- bit 19 -/
  bToX : Bool := false
  /-- bit 20 -/
  bToA : Bool := false
  /-- bit 21 -/
  aToB : Bool := false
  /-- bit 22 -/
  clearB : Bool := false
  /-- bit 23 -/
  clearA : Bool := false
  deriving DecidableEq, Repr

/-- The function fields of a general EOM, EOD or SKS word: bits 1, 9, 10-11 and 12-23 (48_io_instructions R351). -/
structure IoFn where
  b1 : Bool
  b9 : Bool
  mode : BitVec 2
  fn : BitVec 12
  deriving DecidableEq, Repr

/-- The fields of a Buffer Control word below the channel (48_io_instructions R355). `cpw` is bits 15-16, characters per
word less one. -/
structure Conn where
  alert : Bool
  reverse : Bool
  noLeader : Bool
  binary : Bool
  cpw : BitVec 2
  unit : BitVec 6
  deriving DecidableEq, Repr

/-- The fields of an interlace-control word below the channel (48_io_instructions R359). -/
structure IlcFn where
  ia : Bool
  er : Bool
  zc : Bool
  fc : BitVec 2
  hiAddr : Bool
  hiCount : BitVec 5
  deriving DecidableEq, Repr

/-- The bits of a System-mode word that the host sees: bits 0, 1, 9 and 12-23 (48_io_instructions R390, R391). -/
structure SysFn where
  b0 : Bool
  b1 : Bool
  b9 : Bool
  dest : BitVec 12
  deriving DecidableEq, Repr

/-- The two fields a device read, write, punch or print mnemonic leaves free: bit 9 (the interlace alert) and bits
15-16 (49_io_devices R432). -/
structure DevFn where
  alert : Bool
  cpw : BitVec 2
  deriving DecidableEq, Repr

/-- The instructions of the SDS 930, one constructor per row of spec/opcode_table.json. -/
inductive Instr where
  -- 40_load_store
  | lda (r : Ref)
  | sta (r : Ref)
  | ldb (r : Ref)
  | stb (r : Ref)
  | ldx (r : Ref)
  | stx (r : Ref)
  | eax (r : Ref)
  | xma (r : Ref)
  -- 41_arithmetic
  | add (r : Ref)
  | adc (r : Ref)
  | adm (r : Ref)
  | min (r : Ref)
  | sub (r : Ref)
  | suc (r : Ref)
  | mul (r : Ref)
  | div (r : Ref)
  -- 42_logical
  | etr (r : Ref)
  | mrg (r : Ref)
  | eor (r : Ref)
  -- 44_branch
  | bru (r : Ref)
  | brx (r : Ref)
  | brm (r : Ref)
  | brr (r : Ref)
  -- 45_test_skip
  | ske (r : Ref)
  | skg (r : Ref)
  | skm (r : Ref)
  | ska (r : Ref)
  | skb (r : Ref)
  | skn (r : Ref)
  | skr (r : Ref)
  | skd (r : Ref)
  -- 47_control and 48_io_instructions, with an operand address
  | exu (r : Ref)
  | miw (r : Ref)
  | wim (r : Ref)
  | miy (r : Ref)
  | yim (r : Ref)
  | pin (r : Ref)
  | pot (r : Ref)
  -- 47_control
  | hlt
  | nop
  /-- A Programmed Operator: `code` is bits 3-8; the operand fields are the subroutine's (R319). -/
  | pop (code : BitVec 6) (r : Ref)
  -- 43_register_change
  | cla
  | clb
  | clr
  | cab
  | cba
  | xab
  | bac
  | abc
  | clx
  | cxa
  | cax
  | xxa
  | cbx
  | cxb
  | xxb
  | ste
  | lde
  | xee
  | cna
  | rch (f : RegFn)
  -- 46_shift: the kind is decoded on the shift effective address (R280)
  | rsh (r : Ref)
  | rcy (r : Ref)
  | lrsh (r : Ref)
  | lsh (r : Ref)
  | lcy (r : Ref)
  | nod (r : Ref)
  -- 48_io_instructions, general forms
  | eom (f : IoFn)
  | eod (f : IoFn)
  | sks (f : IoFn)
  -- 48_io_instructions, Buffer Control and Input/Output Control
  | connect (ch : ChannelId) (k : Conn)
  | dsc (ch : ChannelId)
  | alc (ch : ChannelId)
  | asc (ch : ChannelId)
  | top (ch : ChannelId)
  | ilc (ch : ChannelId) (k : IlcFn)
  | ioctl (ch : ChannelId) (fn : BitVec 5) (unit : BitVec 6)
  | syseom (k : SysFn)
  -- 47_control, 60_exceptions: Internal Control
  | rov
  | eir
  | dir
  | reo
  | air
  | rtcarm
  | rtcdisarm
  | setext (s3 s2 : Bool) (r3 r2 : BitVec 3)
  -- Internal Test
  | ovt
  | idt
  | iet
  | betw
  | bety
  | bpt4
  | bpt3
  | bpt2
  | bpt1
  | brtw
  | brty
  | pfst
  /-- EXTENSION REGISTER TEST: `t3` is bit 22 (test EM3), `t2` bit 23 (test EM2) (R318). -/
  | exttest (t3 t2 : Bool)
  | syssks (k : SysFn)
  | devtest (ch : ChannelId) (test : BitVec 5) (unit : BitVec 6)
  | cat (ch : ChannelId)
  | czt (ch : ChannelId)
  | cet (ch : ChannelId)
  | cit (ch : ChannelId)
  -- 49_io_devices: connects
  | rkb (ch : ChannelId) (k : DevFn)
  | typ (ch : ChannelId) (k : DevFn)
  | rpt (ch : ChannelId) (k : DevFn)
  | ptl (ch : ChannelId) (k : DevFn)
  | ppt (ch : ChannelId) (k : DevFn)
  | rcd (ch : ChannelId) (k : DevFn)
  | rcb (ch : ChannelId) (k : DevFn)
  | pcd (ch : ChannelId) (k : DevFn)
  | pcb (ch : ChannelId) (k : DevFn)
  | wtb (ch : ChannelId) (k : DevFn) (n : BitVec 3)
  | wtd (ch : ChannelId) (k : DevFn) (n : BitVec 3)
  | eft (ch : ChannelId) (k : DevFn) (n : BitVec 3)
  | ert (ch : ChannelId) (k : DevFn) (n : BitVec 3)
  | rtb (ch : ChannelId) (k : DevFn) (n : BitVec 3)
  | rtd (ch : ChannelId) (k : DevFn) (n : BitVec 3)
  | sfb (ch : ChannelId) (k : DevFn) (n : BitVec 3)
  | sfd (ch : ChannelId) (k : DevFn) (n : BitVec 3)
  | srb (ch : ChannelId) (k : DevFn) (n : BitVec 3)
  | srd (ch : ChannelId) (k : DevFn) (n : BitVec 3)
  | plp (ch : ChannelId) (k : DevFn)
  -- 49_io_devices: device control
  | src (ch : ChannelId)
  | rts (ch : ChannelId)
  | rew (ch : ChannelId) (n : BitVec 3)
  | srr (ch : ChannelId)
  | pol (ch : ChannelId)
  | psc (ch : ChannelId) (n : BitVec 3)
  | psp (ch : ChannelId) (n : BitVec 3)
  -- 49_io_devices: device tests
  | crt (ch : ChannelId)
  | fct (ch : ChannelId)
  | cft (ch : ChannelId)
  | pbt (ch : ChannelId)
  | cpt (ch : ChannelId)
  | trt (ch : ChannelId) (n : BitVec 3)
  | fpt (ch : ChannelId) (n : BitVec 3)
  | btt (ch : ChannelId) (n : BitVec 3)
  | ett (ch : ChannelId) (n : BitVec 3)
  | dt2 (ch : ChannelId) (n : BitVec 3)
  | dt5 (ch : ChannelId) (n : BitVec 3)
  | dt8 (ch : ChannelId) (n : BitVec 3)
  | tgt (ch : ChannelId) (n : BitVec 3)
  | magpak (ch : ChannelId) (n : BitVec 3)
  | tft (ch : ChannelId)
  | pft (ch : ChannelId)
  | prt (ch : ChannelId)
  | ept (ch : ChannelId)
  deriving DecidableEq, Repr

/-- What the state of a channel says to the decoder: an Input/Output Control word is an interlace-control word exactly
while the channel's interlace is alerted (48_io_instructions R357), and the word of TOP is the word of RTS, which it
names while the channel reads tape (49_io_devices R463; log 20). -/
inductive ChanCtx where
  | plain
  | alerted
  | tapeInput
  deriving DecidableEq, Repr

end Sys2Proof
end

