-- ==== Sys2Proof/Machine/State.lean ====
section
/-! DEFINITION. The state of the machine as plain data: the state 10_state lists, what the host side presents, and the
model's own bookkeeping (INVENTORY.md, heading State). Numbers written 0o are octal. -/

namespace Sys2Proof.Machine

open Sys2Proof

/-- Core memory: the words that are not zero, by physical address, addresses strictly rising (log 1, log 2). -/
abbrev Memory := List (Nat × Word)

/-- The canonical form of a memory: addresses strictly rising, no zero word listed, every address below `2^15`. -/
def Memory.wf : Memory → Bool
  | [] => true
  | [(a, v)] => v != 0 && a < 32768
  | (a, v) :: (b, w) :: r => v != 0 && a < b && Memory.wf ((b, w) :: r)

/-- What the C register holds (70 R592, and the words an unfinished instruction leaves there: log 17, log 18). -/
inductive CState where
  /-- C is only a display: the next instruction is fetched. -/
  | none
  /-- The word in C is the next instruction (`c_forced`, 70 R592). -/
  | forced
  /-- C holds the instruction in execution, just fetched, or put there by an EXU as part of it (47_control R312). -/
  | subject
  /-- The address of the instruction in C is decoded in part (30_encoding R105, R106). -/
  | chain
  /-- The address of the instruction in C is decoded and its operand is in M (20_memory R74; log 16). -/
  | operand
  /-- The instruction in C holds the processor until a channel or device is ready (48 R350). -/
  | waiting
  deriving DecidableEq, Repr

/-- Where the instruction in execution came from (30_encoding R101). -/
inductive Origin where
  | sequence
  | interrupt (level : Nat)
  | console
  deriving DecidableEq, Repr

/-- Main power (70 R591): `unstarted` is power on with START not yet pressed. -/
inductive Power where
  | on | off | unstarted
  deriving DecidableEq, Repr

/-- The RUN-IDLE-STEP switch (70 R593). -/
inductive RunSwitch where
  | run | idle | step
  deriving DecidableEq, Repr

/-- The REGISTER select switch (70 R594). -/
inductive ConsoleReg where
  | c | a | b | x
  deriving DecidableEq, Repr

/-- The console switches (10_state R37). -/
structure Console where
  runSwitch : RunSwitch
  hold : Bool
  regSelect : ConsoleReg
  ioDisplay : ChannelId
  /-- INTERRUPT ENABLED held at ENABLE (60 R551). -/
  enableSwitch : Bool
  /-- MEMORY PARITY at HALT (70 R599). -/
  parityHalt : Bool
  /-- BREAKPOINT switches: true is SET. -/
  bp1 : Bool
  bp2 : Bool
  bp3 : Bool
  bp4 : Bool
  deriving DecidableEq, Repr

/-- What the host side presents at the moment (48 R397). -/
structure Lines where
  /-- The device signals that read as set: channel, bits 12-16, unit. -/
  deviceSignals : List (ChannelId × BitVec 5 × BitVec 6)
  /-- The System Test words whose line reads as set (48 R391). -/
  systemSignals : List SysFn
  /-- The Special Internal Test words whose signal reads as set (48 R392). -/
  specialSignals : List IoFn
  /-- An external device is ready to take the word of a POT (48 R389). -/
  potReady : Bool
  /-- An external device is ready with the word of a PIN (48 R388). -/
  pinReady : Option Word
  /-- The power-off signal of the fail-safe system (60 R546). -/
  powerOff : Bool
  deriving DecidableEq, Repr

/-- One input/output channel (10_state R38). -/
structure Chan where
  uar : BitVec 6
  war : Word
  scr : Word
  ior : Word
  iorFull : Bool
  /-- characters per word less one -/
  cpw : BitVec 2
  reverse : Bool
  noLeader : Bool
  binary : Bool
  output : Bool
  charCount : Nat
  /-- The size of the characters the device moves (48 R398). -/
  size : CharSize
  /-- How many bits of WAR, from the right, hold characters of this record (49 R453). -/
  recBits : Nat
  /-- How many bits of a word held in WAR, from the right, are specified (48 R363). -/
  fullBits : Nat
  wordReady : Bool
  error : Bool
  zeroCount : Bool
  interRecord : Bool
  eorSeen : Bool
  wcr : BitVec 15
  mar : PAddr
  ia : Bool
  erArm : Bool
  zcArm : Bool
  fc : BitVec 2
  hiCount : BitVec 5
  hiAddr : Bool
  ilcActive : Bool
  ilcAlert : Bool
  ascAlert : Bool
  topPending : Bool
  lastWord : Bool
  loadDue : Bool
  scan : Bool
  /-- A rate error has left the words of this transfer undefined (48 R372; log 12). -/
  garbled : Bool
  deriving DecidableEq, Repr

/-- The eight channels; one that is not installed keeps its reset value (00_scope R4). -/
structure Channels where
  w : Chan
  y : Chan
  c : Chan
  d : Chan
  e : Chan
  f : Chan
  g : Chan
  h : Chan
  deriving DecidableEq, Repr

def Channels.get (t : Channels) : ChannelId → Chan
  | .w => t.w | .y => t.y | .c => t.c | .d => t.d | .e => t.e | .f => t.f | .g => t.g | .h => t.h

def Channels.set (t : Channels) (ch : ChannelId) (v : Chan) : Channels :=
  match ch with
  | .w => { t with w := v }
  | .y => { t with y := v }
  | .c => { t with c := v }
  | .d => { t with d := v }
  | .e => { t with e := v }
  | .f => { t with f := v }
  | .g => { t with g := v }
  | .h => { t with h := v }

/-- What the machine tells devices and external equipment (48 R397, machine to device; log 24). -/
inductive Message where
  | connect (ch : ChannelId) (unit : BitVec 6) (reverse noLeader binary : Bool)
  | disconnect (ch : ChannelId)
  /-- An Input/Output Control word: bit 9, bits 12 to 16, bits 18 to 23 (48 R357, R395). -/
  | ioControl (ch : ChannelId) (bit9 : Bool) (fn : BitVec 5) (unit : BitVec 6)
  /-- The character stands in the low bits of `c`. -/
  | charOut (ch : ChannelId) (size : CharSize) (c : Word)
  | lastChar (ch : ChannelId)
  | potRequest
  | potOut (w : Word)
  | pinRequest
  /-- The bits of a System-mode EOM (48 R390). -/
  | systemPulse (k : SysFn)
  /-- The word of a POT delivered to a Data Multiplexing subchannel with its C field (49 R500). -/
  | dmsOut (subchannel : BitVec 8) (c : BitVec 2) (w : Word)
  /-- The word a device on the second memory path has read, or an increment's result (49 R499, R501). -/
  | memOut (a : PAddr) (w : Word)
  deriving DecidableEq, Repr

/-- The half of a word a memory increment counts in (49 R501). -/
inductive IncPart where
  | whole | upper | lower
  deriving DecidableEq, Repr

/-- What the host side does to the machine: devices, external equipment, clock, power and operator (48 R397, 60 R523,
R544 to R547, 70 R601, 49 R499, R501). -/
inductive HostEvent where
  | powerOn
  | powerOff
  | start
  | runSwitch (v : RunSwitch)
  | hold (on : Bool)
  | fill (unit : BitVec 6)
  | clearRegister (r : ConsoleReg)
  /-- `bit` counts from the left, as the manual numbers bits. -/
  | setBit (r : ConsoleReg) (bit : Fin 24)
  | memoryClear
  | enableSwitch (held : Bool)
  | paritySwitch (halt : Bool)
  | breakpoint (i : Fin 4) (set : Bool)
  | registerSelect (r : ConsoleReg)
  | ioDisplaySelect (ch : ChannelId)
  | lockout (blocks : BitVec 15) (subs : BitVec 4)
  /-- The character stands in the low bits of `c`. -/
  | charIn (ch : ChannelId) (size : CharSize) (c : Word) (parityOk : Bool)
  | charReq (ch : ChannelId) (size : CharSize)
  | eor (ch : ChannelId)
  | gapEnd (ch : ChannelId)
  | devError (ch : ChannelId)
  | deviceSignal (ch : ChannelId) (test : BitVec 5) (unit : BitVec 6) (set : Bool)
  | systemSignal (k : SysFn) (set : Bool)
  | specialSignal (k : IoFn) (set : Bool)
  | potReady (ready : Bool)
  | pinReady (v : Option Word)
  | interruptSignal (level : Nat)
  | clockPulse
  | powerFail
  | powerReturn
  /-- A memory parity error; `io` says it was found on the second memory path. -/
  | parityError (io : Bool)
  | dmaWrite (a : PAddr) (w : Word)
  | dmaRead (a : PAddr)
  | dmaIncrement (a : PAddr) (part : IncPart)
  deriving DecidableEq, Repr

/-- Whose turn it is (00_scope R12, 20_memory R72; log 16). -/
inductive Turn where
  /-- The processor finishes an instruction, or one subject of an EXU. -/
  | processor
  /-- The processor takes one memory cycle of an instruction. -/
  | cycle
  | event (e : HostEvent)
  deriving DecidableEq, Repr

/-- The machine. -/
structure State where
  a : Word
  b : Word
  x : Word
  p : Addr
  ov : Bool
  em2 : BitVec 3
  em3 : BitVec 3
  ien : Bool
  c : Word
  /-- The M register (10_state R31): the operand an unfinished instruction has read (log 50). -/
  m : Word
  cState : CState
  origin : Origin
  /-- The level acknowledged, whose location holds the next instruction (60 R530). -/
  ack : Option Nat
  halted : Bool
  noIntNext : Bool
  parityError : Bool
  airAlert : Bool
  rtcArmed : Bool
  /-- The selected Data Multiplexing subchannel and the C field of its select EOM (49 R500). -/
  dmsSelect : Option (BitVec 8 × BitVec 2)
  /-- The levels that are Waiting, rising; a level in neither list is Inactive (60 R522). -/
  waiting : List Nat
  /-- The levels that are Active, rising. -/
  active : List Nat
  /-- The system levels whose arm bit is 1, rising. -/
  armed : List Nat
  mem : Memory
  /-- Protect bits of blocks 1 to 15: bit k - 1 for block k (20_memory R65; log 7). -/
  lockBlocks : BitVec 15
  /-- Protect bits of the four sub-blocks of block 0. -/
  lockSubs : BitVec 4
  chans : Channels
  console : Console
  lines : Lines
  power : Power
  /-- What the machine has told the outside, newest first (log 24). -/
  out : List Message
  /-- Whose turn is next; when empty, the processor's (log 16). -/
  schedule : List Turn
  /-- How many undefined values this run has drawn (log 9). -/
  draws : Nat
  cfg : Config
  deriving DecidableEq, Repr

/-- There are no faults: the SDS 930 has no synchronous exceptions (60 R520; log 47). -/
inductive Fault where
  deriving DecidableEq, Repr

/-- Why the model declines to go on: the outcomes of 93_implementation_defined section 2, and the host's own
constraints. A refusal says nothing about the hardware (70 R605), so each is safe. -/
inductive Refusal where
  /-- Raised by the dispatch for an instruction that has no meaning yet. Safe. -/
  | notModelled (mnemonic : String)
  /-- Raised by the step for one of the 18 codes the manual does not assign (30_encoding R110). Safe. -/
  | unassignedCode
  /-- Raised by EOM, EOD and SKS for a function code that is not listed (48 R395). Safe. -/
  | unlistedFunction
  /-- Raised by the step and by the general register change for undefined combinations (43 R221). Safe. -/
  | undefinedRegisterChange
  /-- Raised by the step and by the shifts for an undefined kind (46 R289). Safe. -/
  | undefinedShift
  /-- Raised by the step when the instruction after AIR is not a POT (60 R539). Safe. -/
  | airWithoutPot
  /-- Raised by POT and PIN when two alerts are outstanding (48 R388, R389). Safe. -/
  | multipleAlerts
  /-- Raised by POT for an interlace load with a count of zero (48 R361). Safe. -/
  | zeroCountLoad
  /-- Raised by the step for a one-cycle instruction in a single-instruction location (60 R533). Safe. -/
  | shortSingleInstruction
  /-- Raised by an operator event outside its stated procedure (70 R590), and by the step in RUN with HOLD on
  (70 R595). Safe. -/
  | operatorPrecondition
  /-- Raised by a device event that breaks a constraint a host must keep (48 R397). Safe. -/
  | hostConstraint
  deriving DecidableEq, Repr

/-- What a step or an instruction ends in. -/
abbrev Result := Host.Outcome State Fault Refusal

/-- A channel right after START (10_state R39, D16): DSC's effect, alerts cleared; the values R39 leaves unspecified
are zero (log 6). Channels E to H assume bit IA (48 R359). -/
def Chan.reset (ia : Bool) : Chan :=
  { uar := 0, war := 0, scr := 0, ior := 0, iorFull := false, cpw := 0, reverse := false, noLeader := false
    binary := false, output := false, charCount := 0, size := .six, recBits := 0, fullBits := 0
    wordReady := false, error := false, zeroCount := false, interRecord := false, eorSeen := false, wcr := 0
    mar := 0, ia := ia, erArm := false, zcArm := false, fc := 0
    hiCount := 0, hiAddr := false, ilcActive := false, ilcAlert := false, ascAlert := false, topPending := false
    lastWord := false, loadDue := false, scan := false, garbled := false }

def Channels.reset : Channels :=
  { w := Chan.reset false, y := Chan.reset false, c := Chan.reset false, d := Chan.reset false
    e := Chan.reset true, f := Chan.reset true, g := Chan.reset true, h := Chan.reset true }

/-- The console with START just pressed: IDLE and C (70 R590); the other switches off (log 6). -/
def Console.reset : Console :=
  { runSwitch := .idle, hold := false, regSelect := .c, ioDisplay := .w, enableSwitch := false, parityHalt := false
    bp1 := false, bp2 := false, bp3 := false, bp4 := false }

def Lines.reset : Lines :=
  { deviceSignals := [], systemSignals := [], specialSignals := [], potReady := false, pinReady := none
    powerOff := false }

/-- The machine right after START (10_state R39, 70 R590), a HLT in C, idle. What R39 leaves unspecified is zero
(logs 2 to 7). -/
def State.reset : State :=
  { a := 0, b := 0, x := 0, p := 0, ov := false, em2 := 2, em3 := 3, ien := false, c := 0, m := 0, cState := .forced
    origin := .sequence, ack := none, halted := false, noIntNext := false, parityError := false, airAlert := false
    rtcArmed := false, dmsSelect := none, waiting := [], active := [], armed := [], mem := [], lockBlocks := 0
    lockSubs := 0, chans := Channels.reset, console := Console.reset, lines := Lines.reset, power := .on, out := []
    schedule := [], draws := 0, cfg := Config.standard }

end Sys2Proof.Machine
end

