-- ==== Sys2Proof/Machine/Ops.lean ====
section
/-! DEFINITION. The named operations of the machine: memory (20_memory), interrupt levels (60_exceptions), taking an
interrupt and clearing it, and the ways an instruction ends (30_encoding R101). An operation that may change several
fields is one record update, so that what it leaves alone is seen at once. -/

namespace Sys2Proof.Machine

open Sys2Proof

/-! ### Memory -/

/-- The word a memory holds; an address not listed reads as zero (log 2). -/
def memGet : Memory → Nat → Word
  | [], _ => 0
  | (k, v) :: r, a => if k = a then v else memGet r a

/-- Puts a word that is not zero in its place. -/
def memInsert : Memory → Nat → Word → Memory
  | [], a, v => [(a, v)]
  | (k, x) :: r, a, v =>
    if a < k then (a, v) :: (k, x) :: r
    else if a = k then (a, v) :: r
    else (k, x) :: memInsert r a v

/-- Takes an address off the list. -/
def memErase : Memory → Nat → Memory
  | [], _ => []
  | (k, x) :: r, a => if k = a then memErase r a else (k, x) :: memErase r a

/-- A memory with one word changed, in canonical form: a zero is not listed. -/
def memSet (m : Memory) (a : Nat) (v : Word) : Memory := if v = 0 then memErase m a else memInsert m a v

/-- `MemRead(a)` (20_memory R63): memory that is not installed reads as zero. -/
def State.memRead (s : State) (a : PAddr) : Word := if a.toNat < s.cfg.memWords then memGet s.mem a.toNat else 0

/-- `Phys(e)` (20_memory R62). -/
def State.phys (s : State) (e : Addr) : PAddr :=
  if s.cfg.hasMemExt && e.getMsbD 0 then
    if e.getMsbD 1 then s.em3 ++ e.setWidth 12 else s.em2 ++ e.setWidth 12
  else e.setWidth 15

/-- `MemRead(Phys(e))`. -/
def State.read (s : State) (e : Addr) : Word := s.memRead (s.phys e)

/-- `Protected(a)` (20_memory R65). -/
def State.isProtected (s : State) (a : PAddr) : Bool :=
  if a.toNat < 2048 then s.lockSubs.getLsbD (a.toNat / 512) else s.lockBlocks.getLsbD (a.toNat / 2048 - 1)

/-- A store to `a` is refused by the write lock-out (20_memory R64). -/
def State.lockedOut (s : State) (a : PAddr) : Bool :=
  a.toNat < s.cfg.memWords && s.cfg.hasLockout && s.isProtected a

/-- A store to `a` changes the cell (20_memory R64). -/
def State.writable (s : State) (a : PAddr) : Bool :=
  a.toNat < s.cfg.memWords && !(s.cfg.hasLockout && s.isProtected a)

/-! ### Interrupt levels -/

/-- A level put in a rising list of levels. -/
def levelInsert (l : Nat) : List Nat → List Nat
  | [] => [l]
  | k :: r => if l < k then l :: k :: r else if l = k then k :: r else k :: levelInsert l r

/-- A level taken off a list of levels. -/
def levelErase (l : Nat) : List Nat → List Nat
  | [] => []
  | k :: r => if k = l then levelErase l r else k :: levelErase l r

/-- Location of the level a channel signals: Count Equals Zero (End-of-Word) (48 R373). -/
def zcLevel : ChannelId → Nat
  | .w => 0o31 | .y => 0o30 | .c => 0o60 | .d => 0o62 | .e => 0o64 | .f => 0o66 | .g => 0o70 | .h => 0o72

/-- Location of the level a channel signals: End-of-Record (End-of-Transmission) (48 R373). -/
def erLevel : ChannelId → Nat
  | .w => 0o33 | .y => 0o32 | .c => 0o61 | .d => 0o63 | .e => 0o65 | .f => 0o67 | .g => 0o71 | .h => 0o73

/-- A system level, whose location is 0200 or above (60 R525). -/
def isSystemLevel (l : Nat) : Bool := 0o200 ≤ l

/-- A level of the memory parity option (60 R544, D42). -/
def isParityLevel (c : Config) (l : Nat) : Bool :=
  match c.parityLevels with
  | none => false
  | some (k, m) => l == k || l == m

/-- The levels the installation has (60 R525). -/
def levelPresent (c : Config) (l : Nat) : Bool :=
  if isSystemLevel l then l < 0o200 + c.nSystem || isParityLevel c l
  else
    c.channels.any (fun ch => l == zcLevel ch || l == erLevel ch) || (l == 0o35 && c.hasLockout) ||
      ((l == 0o36 || l == 0o37) && c.hasPowerFailsafe) || ((l == 0o74 || l == 0o75) && c.hasRtc) ||
      isParityLevel c l

/-- `single(l)`: Clock Pulse, and the system levels so wired (60 R522). Of the parity levels, whose kind R525 leaves
open, one below 0200 is normal and one from 0200 up is as the installation wires it (log 27). -/
def levelSingle (c : Config) (l : Nat) : Bool := l == 0o75 || (isSystemLevel l && c.singles.contains l)

/-- The levels with the optional arming feature: the system levels to which the installation gives it (60 R539 corner
case 5, 93_implementation_defined section 3). The parity levels have none (log 27). -/
def levelArmable (c : Config) (l : Nat) : Bool :=
  isSystemLevel l && c.armingFeature && !c.unarmable.contains l && !isParityLevel c l

/-- `armed(l)` where rule R523 asks for it: the clock's own bit for 75, the arm bit of a system level with the arming
feature, 1 otherwise. -/
def State.isArmed (s : State) (l : Nat) : Bool :=
  if l = 0o75 then s.rtcArmed
  else if levelArmable s.cfg l then s.armed.contains l
  else true

/-- The Waiting levels after a signal on level `l` (60 R523). -/
def State.requested (s : State) (l : Nat) : List Nat :=
  if levelPresent s.cfg l && s.isArmed l && !s.active.contains l then levelInsert l s.waiting else s.waiting

/-- `raise Interrupt(l)` (60 R523). -/
def State.raise (s : State) (l : Nat) : State := { s with waiting := s.requested l }

/-- `enable_eff` (60 R530). -/
def State.enableEff (s : State) : Bool := s.ien || s.console.enableSwitch

/-- `prio(l)`: the place of a level in the priority order, smaller first (60 R526). -/
def prio (l : Nat) : Nat := if l = 0o36 then 0 else if l = 0o37 then 1 else l + 2

/-- Of a list of levels the one of highest priority. -/
def highest : List Nat → Option Nat
  | [] => none
  | l :: r =>
    match highest r with
    | none => some l
    | some k => some (if prio k < prio l then k else l)

/-- The enable gates every level but power fail-safe and, as the installation says, parity (60 R552, D40, D42). -/
def State.gateOpen (s : State) (l : Nat) : Bool :=
  s.enableEff || l == 0o36 || l == 0o37 || (isParityLevel s.cfg l && !s.cfg.parityGated)

/-- `eligible(l)` of a Waiting level (60 R530). -/
def State.eligible (s : State) (l : Nat) : Bool :=
  levelPresent s.cfg l && s.gateOpen l && s.active.all (fun h => prio l ≤ prio h)

/-- The level to acknowledge now, if any (60 R530). -/
def State.nextLevel (s : State) : Option Nat := highest (s.waiting.filter s.eligible)

/-- Taking an interrupt: the one way into an interrupt level (60 R530). The level becomes Active and its location holds
the next instruction; a halt ends; no other register changes, and P keeps the address to return to. -/
def State.acknowledge (s : State) (l : Nat) : State :=
  { s with waiting := levelErase l s.waiting, active := levelInsert l s.active, ack := some l, halted := false }

/-- `ClearHighestActive()` (60 R534): the return from an interrupt, with the branch of an indirect BRU. -/
def State.clearHighestActive (s : State) : State :=
  { s with active := match highest s.active with | none => s.active | some l => levelErase l s.active }

/-- A single-instruction level after its one instruction (60 R533). -/
def State.clearLevel (s : State) (l : Nat) : State := { s with active := levelErase l s.active }

/-! ### Stores -/

/-- Memory after `MemWrite(a, v)`. -/
def State.storedMem (s : State) (a : PAddr) (v : Word) : Memory :=
  if s.writable a then memSet s.mem a.toNat v else s.mem

/-- The Waiting levels after a store to `a`: a refused store requests the level at 035. -/
def State.storedWaiting (s : State) (a : PAddr) : List Nat := if s.lockedOut a then s.requested 0o35 else s.waiting

/-- `MemWrite(a, v)` (20_memory R64): no effect where no memory is installed; a protected cell is not altered and the
interrupt at 035 is requested. -/
def State.store (s : State) (a : PAddr) (v : Word) : State :=
  { s with mem := s.storedMem a v, waiting := s.storedWaiting a }

/-- `MemWrite(Phys(e), v)`. -/
def State.write (s : State) (e : Addr) (v : Word) : State := s.store (s.phys e) v

/-! ### Channels, messages, undefined values -/

def State.chan (s : State) (ch : ChannelId) : Chan := s.chans.get ch

def State.setChan (s : State) (ch : ChannelId) (c : Chan) : State := { s with chans := s.chans.set ch c }

/-- The channel is installed (00_scope R4). -/
def State.hasChan (s : State) (ch : ChannelId) : Bool := s.cfg.channels.contains ch

/-- The channel has interlace (10_state R38). -/
def State.hasInterlace (s : State) (ch : ChannelId) : Bool :=
  match ch with
  | .w | .y => s.cfg.interlaced.contains ch
  | _ => true

def State.send (s : State) (m : Message) : State := { s with out := m :: s.out }

/-- The next instruction word: that of the level acknowledged (60 R530), else that at P. -/
def State.nextWord (s : State) : Word :=
  match s.ack with
  | some l => s.memRead (BitVec.ofNat 15 l)
  | none => s.read s.p

/-- The next instruction brought to C to be displayed (47_control R310, 70 R593); it is read again when it runs
(20_memory R75). -/
def State.showNext (s : State) : State := { s with c := s.nextWord }

/-- The next undefined value (log 9). -/
def State.freeWord (s : State) : Word := Config.freeWord s.draws

/-- The state with `n` undefined values drawn. -/
def State.draw (s : State) (n : Nat) : State := { s with draws := s.draws + n }

/-! ### The ends of an instruction -/

/-- P after an instruction that goes `n` words on: not advanced in an interrupt location (60 R531) nor with HOLD on
(70 R595, log 32). -/
def State.advanced (s : State) (n : Addr) : Addr :=
  match s.origin with
  | .interrupt _ => s.p
  | .sequence | .console => if s.console.hold then s.p else s.p + n

/-- `next <- sequential`. -/
def State.sequential (s : State) : State := { s with p := s.advanced 1, cState := .none }

/-- `next <- skip` where `skip` holds, `next <- sequential` otherwise (30_encoding R116). -/
def State.skipIf (s : State) (skip : Bool) : State :=
  { s with p := s.advanced (if skip then 2 else 1), cState := .none }

/-- `pc <- t`. -/
def State.branch (s : State) (t : Addr) : State := { s with p := t, cState := .none }

/-- `no_int_next <- 1; next <- sequential`: the end of every EOM and EOD (60 R532). -/
def State.endEom (s : State) : State := { s with noIntNext := true, p := s.advanced 1, cState := .none }

/-- A word with a memory-reference format: bits 3-8, 9 and 10-23. -/
def refWord (code : BitVec 6) (indirect : Bool) (a : Addr) : Word :=
  0#3 ++ code ++ BitVec.ofBool indirect ++ a

/-- The hold of an input/output instruction whose effective address is `t` (48 R350): nothing else changes, and the
same instruction goes on (log 17). -/
def State.holdAt (s : State) (code : BitVec 6) (t : Addr) : State :=
  { s with c := refWord code false t, cState := .waiting }

/-- An indirect chain that has come to `t` and is not at its end (30_encoding R105, R106; log 17). -/
def State.holdChain (s : State) (code : BitVec 6) (t : Addr) : State :=
  { s with c := refWord code true t, cState := .chain }

end Sys2Proof.Machine
end

