-- ==== Sys2Proof/Machine/Channel.lean ====
section
/-! DEFINITION. What a channel does (48_io_instructions sections 3 to 5): connect, alert, the interlace, assembly and
disassembly, termination, interrupt signals. The instructions call some of these, the device events the rest. -/

namespace Sys2Proof.Machine

open Sys2Proof

/-- Extended mode: bit IA, which a direct access channel assumes (48 R362, R398). -/
def extended (ch : ChannelId) (c : Chan) : Bool := isDirect ch || c.ia

/-- The two signals of a channel (48 R373). -/
inductive Signal where
  | zc | er
  deriving DecidableEq, Repr

def signalLevel (ch : ChannelId) : Signal → Nat
  | .zc => zcLevel ch
  | .er => erLevel ch

/-- The signal reaches its level: armed by the interlace-control EOM in Extended mode, by the enable otherwise
(48 R373, 60 R541, R542). -/
def State.signalOpen (s : State) (ch : ChannelId) (k : Signal) : Bool :=
  let c := s.chan ch
  if extended ch c then (match k with | .zc => c.zcArm | .er => c.erArm) else s.enableEff

/-- `ChanInt(ch, k)` (48 R373). -/
def State.chanInt (s : State) (ch : ChannelId) (k : Signal) : State :=
  { s with waiting := if s.signalOpen ch k then s.requested (signalLevel ch k) else s.waiting }

/-- The disconnected channel (48 R356, R366). The error indicator, WAR, WCR, MAR and the zero-count, inter-record and
word-ready states are kept. -/
def Chan.disconnected (ch : ChannelId) (c : Chan) : Chan :=
  { c with uar := 0, ilcActive := false, erArm := false, zcArm := false, ia := isDirect ch, topPending := false
           lastWord := false, loadDue := false, scan := false }

/-- `Disconnect(ch)` (48 R366). -/
def State.disconnect (s : State) (ch : ChannelId) : State :=
  (s.setChan ch (Chan.disconnected ch (s.chan ch))).send (.disconnect ch)

/-- DSC (48 R356): a disconnect that also clears the error indicator; the message goes out if a unit was connected. -/
def State.dsc (s : State) (ch : ChannelId) : State :=
  let c := s.chan ch
  let t := s.setChan ch { Chan.disconnected ch c with error := false }
  if c.uar = 0 then t else t.send (.disconnect ch)

/-- The alerted channel (48 R358): the interlace-control fields at their defaults. -/
def Chan.alerted (ch : ChannelId) (c : Chan) : Chan :=
  { c with ilcAlert := true, hiCount := 0, hiAddr := false, erArm := false, zcArm := false, fc := 0
           ia := isDirect ch }

/-- `Alert(ch)` (48 R358): no effect without interlace. -/
def State.alert (s : State) (ch : ChannelId) : State :=
  if s.hasInterlace ch then s.setChan ch (Chan.alerted ch (s.chan ch)) else s

/-! ### Words between buffer and memory -/

/-- `CountZero(ch)` on input (48 R366 to R370). In the Compatible mode the interlace disengages. Function 10 leaves the
inter-record indicator, as in R368's steps; R378's sentence on Proceed functions would set it (log 62). -/
def State.countZeroIn (s : State) (ch : ChannelId) : State :=
  let c := s.chan ch
  if extended ch c then
    match c.fc.toNat with
    | 0 | 2 => s.chanInt ch .zc
    | 1 => ((s.chanInt ch .zc).chanInt ch .er).disconnect ch
    | _ => (s.chanInt ch .zc).setChan ch { c with interRecord := true }
  else s.setChan ch { c with ilcActive := false }

/-- `CountZero(ch)` on output (48 R366 to R370): functions 00, 01, 10 and the Compatible mode mark the word just fetched
as the last; function 11 waits for a reload or a TOP. Function 10 leaves the inter-record indicator (log 62). -/
def State.countZeroOut (s : State) (ch : ChannelId) : State :=
  let c := s.chan ch
  if extended ch c then
    match c.fc.toNat with
    | 3 => (s.chanInt ch .zc).setChan ch { c with interRecord := true }
    | _ => (s.chanInt ch .zc).setChan ch { c with lastWord := true }
  else s.setChan ch { c with lastWord := true }

/-- The channel after the interlace has moved one word (48 R365): MAR and WCR step, and the zero-count indicator is set
with the count at zero. -/
def Chan.stepped (c : Chan) : Chan :=
  { c with mar := c.mar + 1, wcr := c.wcr - 1, zeroCount := c.zeroCount || c.wcr == 1 }

/-- One assembled word to memory (48 R365); `w` leaves through IOR on a direct access channel (48 R363). -/
def State.storeWord (s : State) (ch : ChannelId) (w : Word) : State :=
  let c := s.chan ch
  let t := (s.store c.mar w).setChan ch { c.stepped with ior := if isDirect ch then w else c.ior }
  if c.wcr = 1 then t.countZeroIn ch else t

/-- A full word of which the low `n` bits are specified, kept in the buffer: on a direct access channel it is copied to
IOR while IOR is free, one more word of slack (48 R363; log 34). -/
def State.keepWord (s : State) (ch : ChannelId) (n : Nat) : State :=
  let c := s.chan ch
  if isDirect ch && !c.iorFull then
    (s.setChan ch { c with ior := keepLow n c.war s.freeWord, iorFull := true }).draw 1
  else s.setChan ch { c with wordReady := true, fullBits := n }

/-- `WordAssembled(ch)` (48 R365) for a word of which the low `n` bits are specified. Beyond the count a word is
discarded, or under function 11 held (48 R369). -/
def State.wordAssembled (s : State) (ch : ChannelId) (n : Nat) : State :=
  let c := s.chan ch
  if c.ilcActive then
    if c.wcr ≠ 0 then (s.draw 1).storeWord ch (keepLow n c.war s.freeWord)
    else if c.fc = 3 then s.keepWord ch n
    else s
  else (s.keepWord ch n).chanInt ch .zc

/-- `NeedWord(ch)` (48 R365): the output buffer is empty. -/
def State.needWord (s : State) (ch : ChannelId) : State :=
  let c := s.chan ch
  if c.ilcActive then
    if c.wcr ≠ 0 then
      let t := s.setChan ch { c.stepped with war := s.memRead c.mar, wordReady := false }
      if c.wcr = 1 then t.countZeroOut ch else t
    else s.setChan ch { c with wordReady := true }
  else (s.setChan ch { c with wordReady := true }).chanInt ch .zc

/-- A TOP that takes effect (48 R360, R365, R369, R371): without interlace, and under function 11; under the other
functions it has no documented effect (log 35). -/
def topActs (ch : ChannelId) (c : Chan) : Bool := c.topPending && (!c.ilcActive || (extended ch c && c.fc == 3))

/-- `LastWordOut(ch)` (48 R365 to R371): functions 00, 10 and 11 tell the device and wait for its End-of-Record; the
others disconnect with the End-of-Record signal. -/
def State.lastWordOut (s : State) (ch : ChannelId) : State :=
  let c := s.chan ch
  if c.ilcActive && extended ch c && c.fc != 1 then
    (s.setChan ch { c with lastWord := true, wordReady := true }).send (.lastChar ch)
  else ((s.setChan ch { c with wordReady := true }).chanInt ch .er).disconnect ch

/-- `WordSent(ch)` (48 R365). -/
def State.wordSent (s : State) (ch : ChannelId) : State :=
  let c := s.chan ch
  if c.lastWord || topActs ch c then s.lastWordOut ch
  else (s.setChan ch { c with wordReady := true }).needWord ch

/-! ### Connect, terminate, load -/

/-- The channel right after a connect of a unit (48 R355). -/
def Chan.connected (c : Chan) (k : Conn) (alerts : Bool) : Chan :=
  { c with uar := k.unit, reverse := k.reverse, noLeader := k.noLeader, binary := k.binary, cpw := k.cpw
           error := false, interRecord := false, eorSeen := false, topPending := false, charCount := 0
           recBits := 0, output := k.unit.msb, wordReady := k.unit.msb, lastWord := false, iorFull := false
           scan := k.unit.extractLsb' 3 3 == 3, loadDue := alerts, garbled := false }

/-- A Buffer Control EOM on a channel (48 R355, R356): UNIT 00 disconnects. An output unit asks for its first word at
once, unless the load it alerts is still to come: that load serves it (log 36). -/
def State.connectUnit (s : State) (ch : ChannelId) (k : Conn) : State :=
  if k.unit = 0 then (if k.alert then (s.dsc ch).alert ch else s.dsc ch)
  else
    let alerts := k.alert && s.hasInterlace ch
    let t := s.setChan ch ((s.chan ch).connected k alerts)
    let u := (if k.alert then t.alert ch else t).send (.connect ch k.unit k.reverse k.noLeader k.binary)
    if k.unit.msb && !alerts then u.needWord ch else u

/-- `Terminate(ch)` (48 R360): with the output buffer already empty the channel acts at once (log 35); a read in
progress on a tape unit becomes a scan (49 R463). -/
def State.terminate (s : State) (ch : ChannelId) : State :=
  let c := s.chan ch
  let c' := { c with topPending := true, scan := c.scan || c.uar.extractLsb' 3 3 == 1 }
  let t := (s.setChan ch c').send (.ioControl ch false 0b10000 0)
  if c.uar ≠ 0 && c.output && c.wordReady && !c.lastWord && topActs ch c' then t.lastWordOut ch else t

/-- The word IOR holds for the interlace, stored (48 R369). -/
def State.takeIor (s : State) (ch : ChannelId) : State :=
  let c := s.chan ch
  if c.iorFull then (s.setChan ch { c with iorFull := false }).storeWord ch c.ior else s

/-- A word the buffer holds for the interlace, stored when the interlace is loaded (48 R369, log 36). -/
def State.takeHeld (s : State) (ch : ChannelId) : State :=
  let c := s.chan ch
  if c.uar = 0 then s
  else if c.output then
    if c.wordReady && !c.lastWord then s.needWord ch else s
  else
    let t := s.takeIor ch
    if c.wordReady && (t.chan ch).uar != 0 then
      (t.setChan ch { t.chan ch with wordReady := false }).wordAssembled ch (t.chan ch).fullBits
    else t

/-- The channel with the interlace loaded by the word `m` of a POT (48 R361); in the End-of-Record condition the load
has no lasting effect (48 R368): the interlace does not start, and the alert, WCR, MAR and the zero-count indicator go
by the load all the same (log 67). -/
def Chan.loaded (c : Chan) (m : Word) : Chan :=
  { c with wcr := c.hiCount ++ m.extractLsb' 14 10, mar := BitVec.ofBool c.hiAddr ++ addrField m
           zeroCount := false, ilcAlert := false, loadDue := false, ilcActive := !c.eorSeen
           interRecord := c.eorSeen && c.interRecord }

/-- `LoadInterlace(ch, m)` with a count that is not zero (48 R361). -/
def State.loadInterlace (s : State) (ch : ChannelId) (m : Word) : State :=
  let c := (s.chan ch).loaded m
  let t := s.setChan ch c
  if c.ilcActive then t.takeHeld ch else t

/-- The interlace-control word's effect (48 R359). -/
def Chan.controlled (ch : ChannelId) (c : Chan) (k : IlcFn) : Chan :=
  let on := isDirect ch || k.ia
  { c with ia := on, erArm := on && k.er, zcArm := on && k.zc, fc := if on then k.fc else 0
           hiAddr := k.hiAddr, hiCount := k.hiCount }

def State.interlaceControl (s : State) (ch : ChannelId) (k : IlcFn) : State :=
  s.setChan ch (Chan.controlled ch (s.chan ch) k)

/-! ### Characters and device signals -/

/-- The bits of a word that its characters fill (48 R363): none is known of a garbled word (48 R372; log 12). -/
def Chan.wordBits (c : Chan) (size : CharSize) : Nat :=
  if c.garbled then 0 else min 24 (size.bits * (c.cpw.toNat + 1))

/-- One character on input (48 R363, R372). A scan only shifts (49 R453). A character that comes while a word waits is a
rate error, on W to D under function 11 the first one after the held word (R363, R369; log 34); then WAR, IOR and every
word until the next connect are undefined. -/
def State.charIn (s : State) (ch : ChannelId) (size : CharSize) (v : Word) (parityOk : Bool) : State :=
  let c := s.chan ch
  let c1 := { c with
    error := c.error || !parityOk, size := size, scr := if isDirect ch then c.scr else keepLow size.bits v 0 }
  if c.wordReady then
    (s.setChan ch { c1 with
      error := true, garbled := true, fullBits := 0, war := s.freeWord
      ior := if isDirect ch then Config.freeWord (s.draws + 1) else c.ior }).draw 2
  else
    let c2 := { c1 with war := shiftIn size.bits c.war v, recBits := min 24 (c.recBits + size.bits) }
    if c.scan then s.setChan ch { c2 with charCount := min 4 (c.charCount + 1) }
    else if c.cpw.toNat ≤ c.charCount then
      (s.setChan ch { c2 with charCount := 0 }).wordAssembled ch (c.wordBits size)
    else s.setChan ch { c2 with charCount := c.charCount + 1 }

/-- The device takes the next output character (48 R364, R372). It leaves SCR as it was: R363 sends the characters of an
input through SCR, and R364 does not name it (log 73). -/
def State.charReq (s : State) (ch : ChannelId) (size : CharSize) : State :=
  let c := s.chan ch
  if c.wordReady then (if c.lastWord then s else (s.setChan ch { c with error := true, war := s.freeWord }).draw 1)
  else
    let t := s.send (.charOut ch size (leading size.bits c.war))
    let c1 := { c with size := size, war := shiftOut size.bits c.war }
    if c.cpw.toNat ≤ c.charCount then (t.setChan ch { c1 with charCount := 0 }).wordSent ch
    else t.setChan ch { c1 with charCount := c.charCount + 1 }

/-- The last, partial word of a record, filled with zeros on the right (48 R363); without interlace it is left in the
buffer with no End-of-Word signal, and a buffer already emptied reads zeros once (48 R371). The word of a scan is what
WAR holds of the record (49 R453, R463). -/
def State.finishRecord (s : State) (ch : ChannelId) : State :=
  let c := s.chan ch
  if c.scan then
    (s.setChan ch { c with charCount := 0 }).wordAssembled ch (if c.garbled then 0 else c.recBits)
  else if c.charCount = 0 then
    if c.ilcActive || c.wordReady then s
    else s.setChan ch { c with war := 0, wordReady := true, fullBits := if c.garbled then 0 else 24 }
  else
    let t := s.setChan ch { c with
      war := shiftOut (c.size.bits * (c.cpw.toNat + 1 - c.charCount)) c.war, charCount := 0 }
    if c.ilcActive then t.wordAssembled ch (c.wordBits c.size) else t.keepWord ch (c.wordBits c.size)

/-- End-of-Record by mode (48 R366 to R371): the Proceed functions 10 and 11 go to the Inter-record condition, the rest
disconnect: on output under function 01 also with the count at zero and characters still to go (log 69). In the
Inter-record condition no interlace runs, and a further End-of-Record disconnects (log 68). -/
def State.recordAction (s : State) (ch : ChannelId) : State :=
  let c := s.chan ch
  if c.uar = 0 then s
  else if c.ilcActive && extended ch c && c.fc.msb then
    (s.setChan ch { c with eorSeen := true, interRecord := true, ilcActive := false }).chanInt ch .er
  else (s.chanInt ch .er).disconnect ch

/-- The device signals End-of-Record (48 R363, R366 to R371). On a channel whose UAR is 00 it has no effect (log 64). -/
def State.endOfRecord (s : State) (ch : ChannelId) : State :=
  if (s.chan ch).uar = 0 then s
  else if (s.chan ch).output then s.recordAction ch
  else (s.finishRecord ch).recordAction ch

/-- The tape gap ends with no new EOM (48 R368): a disconnect without an interrupt; on a
channel whose UAR is 00 nothing (log 64). -/
def State.gapEnd (s : State) (ch : ChannelId) : State := if (s.chan ch).uar = 0 then s else s.disconnect ch

/-- A device fault or validity error (48 R372). -/
def State.devError (s : State) (ch : ChannelId) : State := s.setChan ch { s.chan ch with error := true }

end Sys2Proof.Machine
end

