-- ==== Sys2Proof/Machine/Events.lean ====
section
/-! DEFINITION. What the host side does to the machine: the events of 48 R397, 60 R523 and R544 to R547, the console of
70_reset_and_hazards, the second memory path of 49 R499 and R501. -/

namespace Sys2Proof.Machine

open Sys2Proof

/-! ### START, power and the console -/

/-- One channel at START (10_state R39, D16): DSC's effect with the alerts cleared; WAR, WCR, MAR and the zero-count
indicator are undefined (log 29). -/
def Chan.started (ch : ChannelId) (c : Chan) (n : Nat) : Chan :=
  { Chan.disconnected ch c with
    error := false, ilcAlert := false, ascAlert := false, garbled := false
    war := Config.freeWord n, wcr := (Config.freeWord (n + 1)).setWidth 15
    mar := (Config.freeWord (n + 2)).setWidth 15, zeroCount := (Config.freeWord (n + 2)).msb }

/-- All the channels at START. -/
def Channels.started (t : Channels) (n : Nat) : Channels :=
  { w := Chan.started .w t.w n, y := Chan.started .y t.y (n + 3), c := Chan.started .c t.c (n + 6)
    d := Chan.started .d t.d (n + 9), e := Chan.started .e t.e (n + 12), f := Chan.started .f t.f (n + 15)
    g := Chan.started .g t.g (n + 18), h := Chan.started .h t.h (n + 21) }

/-- The units disconnected by START are told. -/
def Channels.disconnects (t : Channels) : List Message :=
  [ChannelId.w, .y, .c, .d, .e, .f, .g, .h].filterMap fun ch =>
    if (t.get ch).uar = 0 then none else some (.disconnect ch)

/-- START (70 R590, 10_state R39). -/
def State.start (s : State) : State :=
  { s with
    p := 0, ov := false, parityError := false, c := 0, cState := .forced, origin := .sequence, em3 := 3, em2 := 2
    ien := false, waiting := [], active := [], ack := none, airAlert := false, noIntNext := false, halted := false
    dmsSelect := none, power := .on
    armed := match s.cfg.armedAfterStart with | .allDisarmed => [] | .unchanged => s.armed
    rtcArmed := match s.cfg.armedAfterStart with | .allDisarmed => false | .unchanged => s.rtcArmed
    chans := s.chans.started s.draws, draws := s.draws + 24, out := s.chans.disconnects ++ s.out }

/-- An undefined bit. -/
def freeBit (n : Nat) : Bool := (Config.freeWord n).msb

/-- The levels up to 01777 for which `f` holds, rising. -/
def levelsWhere (f : Nat → Bool) : List Nat := (List.range 1024).filter f

/-- One installed channel after power loss: anything (70 R591), but that bit IA of a direct access channel is one and
that only an interlace can be alerted or running. -/
def Chan.unknown (ch : ChannelId) (interlace : Bool) (n : Nat) (c : Chan) : Chan :=
  let w (k : Nat) : Word := Config.freeWord (n + k)
  { uar := (w 0).setWidth 6, war := w 1, scr := w 2, ior := w 3, iorFull := freeBit (n + 4)
    cpw := (w 5).setWidth 2, reverse := freeBit (n + 6), noLeader := freeBit (n + 7), binary := freeBit (n + 8)
    output := freeBit (n + 9), charCount := (w 10).toNat % 5, size := c.size, recBits := 0, fullBits := 0
    wordReady := freeBit (n + 11), error := freeBit (n + 12), zeroCount := freeBit (n + 13)
    interRecord := freeBit (n + 14), eorSeen := freeBit (n + 15), wcr := (w 16).setWidth 15, mar := (w 17).setWidth 15
    ia := isDirect ch || freeBit (n + 18), erArm := freeBit (n + 19), zcArm := freeBit (n + 20)
    fc := (w 21).setWidth 2, hiCount := (w 22).setWidth 5, hiAddr := freeBit (n + 23)
    ilcActive := interlace && freeBit (n + 24), ilcAlert := interlace && freeBit (n + 25)
    ascAlert := freeBit (n + 26), topPending := freeBit (n + 27), lastWord := freeBit (n + 28)
    loadDue := freeBit (n + 29), scan := freeBit (n + 30), garbled := true }

/-- A channel after power loss; one that is not installed keeps its reset value. -/
def State.unknownChan (s : State) (ch : ChannelId) (n : Nat) : Chan :=
  if s.hasChan ch then Chan.unknown ch (s.hasInterlace ch) n (s.chan ch) else s.chan ch

/-- The channels after power loss. -/
def State.unknownChans (s : State) (n : Nat) : Channels :=
  { w := s.unknownChan .w n, y := s.unknownChan .y (n + 32), c := s.unknownChan .c (n + 64)
    d := s.unknownChan .d (n + 96), e := s.unknownChan .e (n + 128), f := s.unknownChan .f (n + 160)
    g := s.unknownChan .g (n + 192), h := s.unknownChan .h (n + 224) }

/-- Power off (70 R591): memory and the switches are kept; every register, indicator and channel, each level's state and
the arm bits hold anything until START, or until the routine of the Power ON level sets them (93 U25; log 28). A
lock-out register is lost too, the switches of the manual option are not (10_state R33). -/
def State.losePower (s : State) : State :=
  let n := s.draws
  let w (k : Nat) : Word := Config.freeWord (n + k)
  { s with
    power := .off, a := w 0, b := w 1, x := w 2, c := w 3, m := w 4, p := (w 5).setWidth 14, ov := freeBit (n + 6)
    em2 := (w 7).setWidth 3, em3 := (w 8).setWidth 3, ien := freeBit (n + 9), parityError := freeBit (n + 10)
    noIntNext := freeBit (n + 11), airAlert := freeBit (n + 12), rtcArmed := freeBit (n + 13)
    dmsSelect := if freeBit (n + 14) then some ((w 15).setWidth 8, (w 16).setWidth 2) else none
    halted := freeBit (n + 17), cState := .none, origin := .sequence, ack := none
    lockBlocks := if s.cfg.lockoutControl = .program then (w 18).setWidth 15 else s.lockBlocks
    lockSubs := if s.cfg.lockoutControl = .program then (w 19).setWidth 4 else s.lockSubs
    chans := s.unknownChans (n + 32)
    active := levelsWhere fun l => levelPresent s.cfg l && freeBit (n + 1024 + l)
    waiting := levelsWhere fun l => levelPresent s.cfg l && !freeBit (n + 1024 + l) && freeBit (n + 2048 + l)
    armed := levelsWhere fun l => isSystemLevel l && freeBit (n + 3072 + l), draws := n + 4096 }

/-- A channel with no alert outstanding and no load due. -/
def Chan.unalerted (c : Chan) : Chan := { c with ilcAlert := false, ascAlert := false, loadDue := false }

/-- The channels with no alert outstanding. -/
def Channels.unalerted (t : Channels) : Channels :=
  { w := t.w.unalerted, y := t.y.unalerted, c := t.c.unalerted, d := t.d.unalerted
    e := t.e.unalerted, f := t.f.unalerted, g := t.g.unalerted, h := t.h.unalerted }

/-- No EOM is owed anything: no alert is outstanding, no interrupt inhibited, no subchannel selected. -/
def State.unalerted (s : State) : State :=
  { s with airAlert := false, noIntNext := false, dmsSelect := none, chans := s.chans.unalerted }

/-- Main power returns (60 R546): the power-off signal goes and the Power ON level is requested. A machine that was off
and has the fail-safe system goes on at that level's location, whatever the registers hold, with nothing outstanding of
the instructions before the loss, and its routine resumes the program; one without it waits for START. A machine with
power on but not yet started counts as one that was off (log 28). -/
def State.powerReturns (s : State) : State :=
  let t := { s with lines := { s.lines with powerOff := false } }
  if s.power = .on then t.raise 0o36
  else if s.cfg.hasPowerFailsafe then { t.unalerted.acknowledge 0o36 with power := .on }
  else { t with power := .unstarted }

/-- The processor is idle: the switch is in IDLE and no instruction is unfinished (70 R593). -/
def State.isIdle (s : State) : Bool :=
  s.power != .off && s.console.runSwitch == .idle && (s.cState == .none || s.cState == .forced)

/-- The RUN-IDLE-STEP switch in a position; leaving RUN ends a halt (47_control R310). -/
def State.setSwitch (s : State) (v : RunSwitch) : State :=
  { s with console := { s.console with runSwitch := v }, halted := s.halted && v == .run }

/-- A change of the RUN-IDLE-STEP switch: in IDLE, with nothing unfinished, C shows the next instruction (70 R593). -/
def State.turnSwitch (s : State) (v : RunSwitch) : State :=
  let t := s.setSwitch v
  if v = .idle ∧ s.power = .on ∧ s.cState = .none then t.showNext else t

/-- FILL from unit `u` (70 R596): `WIM 2` in C, -7 in X, channel W connected forward, binary, four characters per word.
Bit 13 is one (log 33). -/
def State.fill (s : State) (u : BitVec 6) : State :=
  let t := { s with c := 0o03200002, cState := .forced, x := 0o77777771, halted := false }
  if t.hasChan .w then
    t.connectUnit .w { alert := false, reverse := false, noLeader := true, binary := true, cpw := 3, unit := u }
  else t

/-- The selected register with `f` applied; a change of C makes it the next instruction (70 R592, R594). -/
def State.editRegister (s : State) (r : ConsoleReg) (f : Word → Word) : State :=
  match r with
  | .c => { s with c := f s.c, cState := .forced }
  | .a => { s with a := f s.a }
  | .b => { s with b := f s.b }
  | .x => { s with x := f s.x }

/-- Zero stored at the first `n` program addresses. -/
def State.clearMemory (s : State) : Nat → State
  | 0 => s
  | n + 1 => (s.clearMemory n).write (BitVec.ofNat 14 n) 0

/-- A memory parity error (70 R599, 60 R544): at HALT the machine idles; with the option its level is requested. -/
def State.parityFault (s : State) (io : Bool) : State :=
  let t := { s with parityError := true }
  let u := if s.console.parityHalt then t.turnSwitch .idle else t
  match s.cfg.parityLevels with
  | none => u
  | some (cpu, ch) => u.raise (if io then ch else cpu)

/-! ### The second memory path -/

/-- A word with its whole, its upper or its lower half counted up by one (49 R501). -/
def increment (part : IncPart) (w : Word) : Word :=
  match part with
  | .whole => w + 1
  | .upper => (w.extractLsb' 12 12 + 1) ++ w.setWidth 12
  | .lower => w.extractLsb' 12 12 ++ (w.setWidth 12 + 1)

/-! ### Events -/

/-- An entry put in or taken out of a list of set signals. -/
def mark {α : Type} [DecidableEq α] (l : List α) (v : α) (set : Bool) : List α :=
  let r := l.filter (· ≠ v)
  if set then v :: r else r

/-- An event that a machine without power does not see (70 R591; log 28). -/
def State.poweredEvent (s : State) (ok : Bool) (k : State) : Result :=
  if s.power == .on && ok then .next k else .refused .hostConstraint

/-- A device event on channel `ch`, within the constraints a host must keep: none between an alerting connect and its
POT, none on a channel that is not installed (48 R361, R397; log 41). -/
def State.deviceEvent (s : State) (ch : ChannelId) (ok : Bool) (k : State) : Result :=
  s.poweredEvent (s.hasChan ch && !(s.chan ch).loadDue && ok) k

/-- The channel moves characters of this size (48 R398), and has moved no other since its word or record began
(log 52). -/
def State.sizeFits (s : State) (ch : ChannelId) (size : CharSize) : Bool :=
  (size == .six || s.cfg.charSizes.contains (ch, size)) &&
    (size == (s.chan ch).size || ((s.chan ch).recBits == 0 && (s.chan ch).charCount == 0))

/-- An operator event with a precondition (70 R601). -/
def operatorEvent (ok : Bool) (k : State) : Result := if ok then .next k else .refused .operatorPrecondition

/-- One event of the host side. Among the console's there is none that sets EM2 or EM3: the operator sets them by a SET
EXTENSION REGISTER run from C (70 R598; log 72). A memory increment of the Data Multiplexing System is one indivisible
turn: nothing comes between its read and its write (49 R501; log 51). -/
def applyEvent (e : HostEvent) (s : State) : Result :=
  match e with
  | .powerOn => .next (if s.power = .off then { s with power := .unstarted } else s)
  | .powerOff => .next s.losePower
  | .start =>
    operatorEvent (s.power != .off && s.console.runSwitch == .idle && s.console.regSelect == .c) s.start
  | .runSwitch v => .next (s.turnSwitch v)
  | .hold v => .next { s with console := { s.console with hold := v } }
  | .fill u =>
    operatorEvent ((u == 0o04 || u == 0o06 || u == 0o26 || u == 0o10) && s.power == .on &&
      s.console.runSwitch == .run && s.halted && s.p == 1) (s.fill u)
  | .clearRegister r => operatorEvent s.isIdle (s.editRegister r fun _ => 0)
  | .setBit r i => operatorEvent s.isIdle (s.editRegister r fun w => w ||| BitVec.twoPow 24 (23 - i.val))
  | .memoryClear => operatorEvent s.isIdle (s.clearMemory 16384)
  | .enableSwitch v => .next { s with console := { s.console with enableSwitch := v } }
  | .paritySwitch v =>
    .next { s with console := { s.console with parityHalt := v }, parityError := v && s.parityError }
  | .breakpoint i v =>
    .next { s with console :=
      match i with
      | 0 => { s.console with bp1 := v }
      | 1 => { s.console with bp2 := v }
      | 2 => { s.console with bp3 := v }
      | 3 => { s.console with bp4 := v } }
  | .registerSelect r => .next { s with console := { s.console with regSelect := r } }
  | .ioDisplaySelect ch => .next { s with console := { s.console with ioDisplay := ch } }
  | .lockout blocks subs =>
    operatorEvent (s.cfg.lockoutControl == .manual) { s with lockBlocks := blocks, lockSubs := subs }
  | .charIn ch size v ok =>
    s.deviceEvent ch ((s.chan ch).uar != 0 && !(s.chan ch).output && s.sizeFits ch size) (s.charIn ch size v ok)
  | .charReq ch size =>
    s.deviceEvent ch ((s.chan ch).uar != 0 && (s.chan ch).output && s.sizeFits ch size) (s.charReq ch size)
  | .eor ch => s.deviceEvent ch true (s.endOfRecord ch)
  | .gapEnd ch => s.deviceEvent ch true (s.gapEnd ch)
  | .devError ch => s.deviceEvent ch true (s.devError ch)
  | .deviceSignal ch test unit v =>
    .next { s with lines := { s.lines with deviceSignals := mark s.lines.deviceSignals (ch, test, unit) v } }
  | .systemSignal k v => .next { s with lines := { s.lines with systemSignals := mark s.lines.systemSignals k v } }
  | .specialSignal k v => .next { s with lines := { s.lines with specialSignals := mark s.lines.specialSignals k v } }
  | .potReady v => .next { s with lines := { s.lines with potReady := v } }
  | .pinReady v => .next { s with lines := { s.lines with pinReady := v } }
  | .interruptSignal l => s.poweredEvent (isSystemLevel l) (s.raise l)
  | .clockPulse => s.poweredEvent true (s.raise 0o75)
  | .powerFail => s.poweredEvent true { s.raise 0o37 with lines := { s.lines with powerOff := true } }
  | .powerReturn => .next s.powerReturns
  | .parityError io => s.poweredEvent true (s.parityFault io)
  | .dmaWrite a w => s.poweredEvent true (s.store a w)
  | .dmaRead a => s.poweredEvent true (s.send (.memOut a (s.memRead a)))
  | .dmaIncrement a part =>
    let v := increment part (s.memRead a)
    s.poweredEvent true ((s.store a v).send (.memOut a v))

end Sys2Proof.Machine
end

