-- ==== Sys2Proof/Machine/Flags.lean ====
section
/-! DEFINITION. The 24-bit adder with its carry and overflow (41_arithmetic R160 to R169), the double-length products
and quotients (R167, R168), and the exponent difference (45_test_skip R268). -/

namespace Sys2Proof.Machine

open Sys2Proof

/-- The sum the adder leaves. -/
def addSum (a m : Word) (carryIn : Bool) : Word := a + m + BitVec.setWidth 24 (BitVec.ofBool carryIn)

/-- The carry out of bit 0 of the adder: `sum div 2^24`. -/
def addCarry (a m : Word) (carryIn : Bool) : Bool := 2 ^ 24 ≤ a.toNat + m.toNat + carryIn.toNat

/-- Overflow: the operands have one sign and the sum the other (41_arithmetic R161). -/
def addOverflow (a m : Word) (carryIn : Bool) : Bool := a.msb == m.msb && (addSum a m carryIn).msb != a.msb

/-- `CarryOut` and `CarryIn` of rule R169, which are one function: `borrow` is the parameter SUB_CARRY_POLARITY. -/
def carryPolarity (borrow : Bool) (c : Bool) : Bool := if borrow then !c else c

/-- The value a signed integer leaves in a word. -/
def wordOfInt (z : Int) : Word := BitVec.ofInt 24 z

/-- The operands whose product MUL cannot hold (41_arithmetic R167). -/
def mulOverflows (a m : Word) : Bool := a == 0o40000000 && m == 0o40000000

/-- The 48-bit product of MUL: twice the integer product (41_arithmetic R167). -/
def mulProduct (a m : Word) : BitVec 48 := BitVec.ofInt 48 (2 * (a.toInt * m.toInt))

/-- `N` of DIV: the signed integer of the sign and 46 digits, without B23 (41_arithmetic R168). -/
def divNumerator (a b : Word) : Int := (joinAB a b).toInt / 2

/-- DIV overflows: the divisor is zero, or `N / D` is outside `[-2^23, 2^23)` (41_arithmetic R168). The real quotient
is compared without dividing: the bounds times the divisor, by its sign. -/
def divOverflows (n d : Int) : Bool :=
  if d = 0 then true
  else if 0 < d then decide (d * 2 ^ 23 ≤ n) || decide (n < -(d * 2 ^ 23))
  else decide (n ≤ d * 2 ^ 23) || decide (-(d * 2 ^ 23) < n)

/-- The quotient of DIV, toward zero. -/
def divQuotient (n d : Int) : Int := n.tdiv d

/-- The remainder of DIV, of the numerator's sign. -/
def divRemainder (n d : Int) : Int := n - divQuotient n d * d

/-- The value of an exponent field under the parameter SKD_COMPARE (45_test_skip R268). -/
def exponentValue (signed : Bool) (e : BitVec 9) : Int := if signed then e.toInt else (e.toNat : Int)

/-- `|d| mod 2^9` of SKD. -/
def exponentDistance (signed : Bool) (eb em : BitVec 9) : BitVec 9 :=
  BitVec.ofNat 9 (exponentValue signed eb - exponentValue signed em).natAbs

end Sys2Proof.Machine
end

