-- ==== Sys2Proof/Machine/Operands.lean ====
section
/-! DEFINITION. Effective addresses (30_encoding R105 to R108) and the operand forms of the meanings. -/

namespace Sys2Proof.Machine

open Sys2Proof

/-- Where address decoding ends: at an effective address, or in an endless chain that has come to `at`
(30_encoding R106). -/
inductive EARes where
  | addr (t : Addr)
  | endless (t : Addr)
  deriving DecidableEq, Repr

/-- One level's address: the address field, indexed where bit 1 is set (30_encoding R105). -/
def State.indexedAddr (s : State) (indexed : Bool) (a : Addr) : Addr := if indexed then a + addrField s.x else a

/-- Address decoding (30_encoding R105) of a word with the fields given, through at most `n` indirect words. Where the
levels run out the chain is at an address it has been at before. -/
def State.eaLevels (s : State) : Nat → Bool → Bool → Addr → EARes
  | n, indexed, indirect, a =>
    let t := s.indexedAddr indexed a
    if indirect then
      match n with
      | 0 => .endless t
      | m + 1 =>
        let w := s.read t
        s.eaLevels m (bit w 1) (bit w 9) (addrField w)
    else .addr t

/-- The levels of indirect words after which a chain must have come back to an address it was at: there are `2^14`
addresses (log 19). -/
def chainBound : Nat := 16384

/-- `EA(w)` (30_encoding R105, R106). -/
def State.ea (s : State) (r : Ref) : EARes := s.eaLevels chainBound r.indexed r.indirect r.addr

/-- `ShiftEA(w)` (30_encoding R108): a direct address is indexed in its count only. -/
def State.shiftEA (s : State) (r : Ref) : EARes :=
  if r.indirect then s.ea r
  else if r.indexed then .addr (r.addr.extractLsb' 9 5 ++ (r.addr.setWidth 9 + low9 s.x))
  else .addr r.addr

/-- The form of every instruction with an effective address: `k` on the address; an endless chain holds the processor
inside the instruction, whose code is `code`. -/
def State.atEA (s : State) (code : BitVec 6) (r : Ref) (k : Addr → Result) : Result :=
  match s.ea r with
  | .addr t => k t
  | .endless t => .next (s.holdChain code t)

/-- The operand of a read-modify-write instruction or of a POT at `t`: the word M holds where a turn before this one has
read it, else the word in memory (20_memory R74, 48 R389; log 50). -/
def State.operand (s : State) (t : Addr) : Word :=
  match s.cState with
  | .operand | .waiting => s.m
  | .none | .forced | .subject | .chain => s.read t

/-- The form of an instruction that reads its effective operand `M`. -/
def State.withOperand (s : State) (code : BitVec 6) (r : Ref) (k : Word → State) : Result :=
  s.atEA code r fun t => .next (k (s.read t))

end Sys2Proof.Machine
end

