-- ==== Sys2Proof/Machine/Arithmetic.lean ====
section
/-! DEFINITION. The arithmetic instructions (41_arithmetic). -/

namespace Sys2Proof.Machine

open Sys2Proof

/-- The state after the adder has added `m` to A with the carry given: A, the carry in bit 0 of X as `carryOut` of it
says, and OV from `ov` (41_arithmetic R160). -/
def State.addToA (s : State) (m : Word) (carryIn : Bool) (ov : Bool) (carryOut : Bool → Bool) : State :=
  { s with a := addSum s.a m carryIn, x := setBit0 s.x (carryOut (addCarry s.a m carryIn))
           ov := ov || addOverflow s.a m carryIn }

/-- ADD (R161). -/
def execAdd (r : Ref) (s : State) : Result :=
  s.withOperand 0o55 r fun m => (s.addToA m false s.ov id).sequential

/-- ADC (R162): OV is cleared first; the carry comes in from bit 0 of X. -/
def execAdc (r : Ref) (s : State) : Result :=
  s.withOperand 0o57 r fun m => (s.addToA m s.x.msb false id).sequential

/-- ADM (R163). X is not changed. -/
def execAdm (r : Ref) (s : State) : Result :=
  s.atEA 0o63 r fun t =>
    let m := s.operand t
    .next { s.write t (addSum s.a m false) with ov := s.ov || addOverflow s.a m false }.sequential

/-- The clock's Sync interrupt after a MIN or SKR in location 75, where `sync` holds of its result (60 R548, R549). -/
def State.clockSync (s : State) (sync : Bool) : State :=
  { s with waiting := if s.origin == .interrupt 0o75 && sync then s.requested 0o74 else s.waiting }

/-- MIN (R164; 60 R548). -/
def execMin (r : Ref) (s : State) : Result :=
  s.atEA 0o61 r fun t =>
    let m := s.operand t
    let v := m + 1
    .next ({ s.write t v with ov := s.ov || m == 0o37777777 }.clockSync (v == 0)).sequential

/-- SUB (R165, R169): the adder forms A + ~m + 1. -/
def execSub (r : Ref) (s : State) : Result :=
  s.withOperand 0o54 r fun m => (s.addToA (~~~m) true s.ov (carryPolarity s.cfg.subBorrow)).sequential

/-- SUC (R166, R169): OV is cleared first; the adder's carry input is that of the last subtraction. -/
def execSuc (r : Ref) (s : State) : Result :=
  s.withOperand 0o56 r fun m =>
    (s.addToA (~~~m) (carryPolarity s.cfg.subBorrow s.x.msb) false (carryPolarity s.cfg.subBorrow)).sequential

/-- The state with a double-length result in A and B. -/
def State.setAB (s : State) (v : BitVec 48) : State := { s with a := highWord v, b := lowWord v }

/-- OV set, and A and B undefined: what MUL and DIV leave on overflow (log 10). -/
def State.overflowAB (s : State) : State :=
  { s with ov := true, a := Config.freeWord s.draws, b := Config.freeWord (s.draws + 1), draws := s.draws + 2 }

/-- MUL (R167). -/
def execMul (r : Ref) (s : State) : Result :=
  s.withOperand 0o64 r fun m =>
    (if mulOverflows s.a m then s.overflowAB else s.setAB (mulProduct s.a m)).sequential

/-- DIV (R168). B23 does not enter (log 13). -/
def execDiv (r : Ref) (s : State) : Result :=
  s.withOperand 0o65 r fun m =>
    let n := divNumerator s.a s.b
    let d := m.toInt
    (if divOverflows n d then s.overflowAB
     else { s with a := wordOfInt (divQuotient n d), b := wordOfInt (divRemainder n d) }).sequential

end Sys2Proof.Machine
end

