-- ==== Sys2Proof/Machine/Branch.lean ====
section
/-! DEFINITION. The branch instructions (44_branch). -/

namespace Sys2Proof.Machine

open Sys2Proof

/-- BRU (R241): with its own bit 9 set it also returns from the interrupt (60 R534). -/
def execBru (r : Ref) (s : State) : Result :=
  s.atEA 0o01 r fun t => .next ((if r.indirect then s.clearHighestActive else s).branch t)

/-- BRX (R242): the address is of the old X, the test is on the new. -/
def execBrx (r : Ref) (s : State) : Result :=
  s.atEA 0o41 r fun t =>
    let u := { s with x := s.x + 1 }
    .next (if bit u.x 9 then { u with noIntNext := true }.branch t else u.sequential)

/-- The mark of BRM (R243): OV, EM3, EM2 and P; bits 1 and 2 are zero (D26, log 15). Without the Memory Extension
System, where R243 does not say what bits 3 to 8 hold, they hold the two fields all the same (log 60). -/
def State.brmMark (s : State) : Word := BitVec.ofBool s.ov ++ 0#2 ++ s.em3 ++ s.em2 ++ 0#1 ++ s.p

/-- BRM (R243). -/
def execBrm (r : Ref) (s : State) : Result :=
  s.atEA 0o43 r fun t => .next ((s.write t s.brmMark).branch (t + 1))

/-- BRR (R244). -/
def execBrr (r : Ref) (s : State) : Result :=
  s.withOperand 0o51 r fun m => { s with ov := s.ov || bit m 0 }.branch (addrField m + 1)

end Sys2Proof.Machine
end

