-- ==== Sys2Proof/Machine/Control.lean ====
section
/-! DEFINITION. The control instructions, the memory extension instructions and the Programmed Operator sequence
(47_control). -/

namespace Sys2Proof.Machine

open Sys2Proof

/-- HLT (R310): P goes on, the next instruction comes to C to be displayed, and in RUN the processor halts. -/
def execHlt (s : State) : Result :=
  .next { s with halted := s.halted || s.console.runSwitch == RunSwitch.run }.sequential.showNext

/-- NOP (R311). -/
def execNop (s : State) : Result := .next s.sequential

/-- EXU (R312): its subject goes to C and runs next, P unchanged; nothing comes between the two (log 18). -/
def execExu (r : Ref) (s : State) : Result :=
  s.atEA 0o23 r fun t => .next { s with c := s.read t, cState := .subject }

/-- The mark of a Programmed Operator: OV, bits 1 to 8 zero (D25), bit 9 one, P (R319). -/
def State.popMark (s : State) : Word := BitVec.ofBool s.ov ++ 0#8 ++ 1#1 ++ s.p

/-- The linkage location of a Programmed Operator's code: 0100 to 0177 (R319). -/
def popTarget (code : BitVec 6) : Addr := 0#7 ++ 1#1 ++ code

/-- The Programmed Operator sequence (R319). The operand fields are the subroutine's. -/
def execPop (code : BitVec 6) (_r : Ref) (s : State) : Result :=
  .next ({ s.store 0 s.popMark with ov := false }.branch (popTarget code))

/-- BPT 1 (R313). -/
def execBpt1 (s : State) : Result := .next (s.skipIf !s.console.bp1)
/-- BPT 2 (R313). -/
def execBpt2 (s : State) : Result := .next (s.skipIf !s.console.bp2)
/-- BPT 3 (R313). -/
def execBpt3 (s : State) : Result := .next (s.skipIf !s.console.bp3)
/-- BPT 4 (R313). -/
def execBpt4 (s : State) : Result := .next (s.skipIf !s.console.bp4)

/-- OVT (R314): skips if OV is off, and turns it off. -/
def execOvt (s : State) : Result := .next ({ s with ov := false }.skipIf !s.ov)

/-- ROV (R315). -/
def execRov (s : State) : Result := .next { s with ov := false }.endEom

/-- REO (R316). -/
def execReo (s : State) : Result := .next { s with ov := s.ov || bit s.x 14 != bit s.x 15 }.endEom

/-- SET EXTENSION REGISTER (R317): refused where the Memory Extension System is absent (D1). -/
def execSetext (s3 s2 : Bool) (r3 r2 : BitVec 3) (s : State) : Result :=
  if s.cfg.hasMemExt then
    .next { s with em3 := if s3 then r3 else s.em3, em2 := if s2 then r2 else s.em2 }.endEom
  else .refused .unlistedFunction

/-- EXTENSION REGISTER TEST (R318): refused where the Memory Extension System is absent (D1). -/
def execExttest (t3 t2 : Bool) (s : State) : Result :=
  if s.cfg.hasMemExt then .next (s.skipIf ((t2 && s.em2 != 2) || (t3 && s.em3 != 3)))
  else .refused .unlistedFunction

end Sys2Proof.Machine
end

