-- ==== Sys2Proof/WellFormed.lean ====
section
/-! DEFINITION. Which instructions stand for a word of the machine: each word has one constructor, the row of
spec/opcode_table.json that names it most closely, so a general form is well formed only where no row of its own names
the word. The check of a word of the Input/Output Control mode depends on the channel (`ChanCtx`, log 20). -/

namespace Sys2Proof

/-- Bits 10 to 14 of a shift word: the kind of the shift (46_shift R280). -/
def Ref.kindBits (r : Ref) : BitVec 5 := r.addr.extractLsb' 9 5

/-- Bits 12 to 16 of an EOM, EOD or SKS word. -/
def IoFn.fn5 (f : IoFn) : BitVec 5 := f.fn.extractLsb' 7 5

/-- Bits 18 to 23 of an EOM, EOD or SKS word. -/
def IoFn.unit (f : IoFn) : BitVec 6 := f.fn.extractLsb' 0 6

/-- The function bits of ALC: the word `0 02 50000` of R358 has bits 12 to 16 zero (R357 prints them 10000; log 57).
Bit 9 is tested apart. -/
def isAlcFn (f : IoFn) : Bool := f.fn5 == 0#5 && f.unit == 0#6

/-- The register-change words that have a row of their own (43_register_change R202 to R220). -/
def RegFn.named (f : RegFn) : Bool :=
  [{ clearA := true }, { clearB := true }, { clearB := true, clearA := true }, { aToB := true },
   { bToA := true }, { bToA := true, aToB := true }, { bToA := true, clearB := true },
   { aToB := true, clearA := true }, { clearX := true }, { xToA := true }, { aToX := true },
   { aToX := true, xToA := true }, { bToX := true }, { xToB := true }, { xToB := true, bToX := true },
   { expOnly := true, bToX := true, clearB := true }, { expOnly := true, xToB := true },
   { expOnly := true, xToB := true, bToX := true }, { negA := true }].contains f

/-- The Buffer Control words of 49_io_devices that have a row of their own: bits 12 to 14 and the unit. -/
def namedConnect (rld : BitVec 3) (unit : BitVec 6) : Bool :=
  match unit.toNat with
  | 0o01 => rld == 2 | 0o41 => rld == 2 | 0o04 => rld == 2 | 0o44 => rld == 0 || rld == 2
  | 0o06 => rld == 2 || rld == 3 | 0o46 => rld == 2 || rld == 3 | 0o60 => rld == 2
  | _ =>
    match (unit.extractLsb' 3 3).toNat with
    | 0o5 => rld == 2 || rld == 3
    | 0o7 => rld == 3 || rld == 7
    | 0o1 => rld == 2 || rld == 3
    | 0o3 => rld == 2 || rld == 3 || rld == 6 || rld == 7
    | _ => false

/-- The device commands of 49_io_devices that have a row of their own. -/
def namedIoctl (fn : BitVec 5) (unit : BitVec 6) : Bool :=
  (unit == 0o06 && fn == 0b01000) || (unit == 0o10 && fn == 0b01111) ||
  (unit.extractLsb' 3 3 == 1 && fn == 0b10000) || (unit == 0o60 && fn == 0b00001) ||
  (unit == 0o60 && (fn.extractLsb' 0 2 == 0b10 || fn.extractLsb' 0 2 == 0b11))

/-- The device tests of 49_io_devices that have a row of their own. -/
def namedDevtest (fn : BitVec 5) (unit : BitVec 6) : Bool :=
  (unit == 0o06 && (fn == 0b01000 || fn == 0b10000 || fn == 0b00100)) ||
  (unit == 0o46 && (fn == 0b01000 || fn == 0b10000)) ||
  (unit.extractLsb' 3 3 == 1 &&
    [0b00010, 0b10000, 0b01000, 0b00100, 0b11001, 0b11011, 0b11101, 0b01011, 0b00001].contains fn.toNat) ||
  (unit == 0o10 && fn == 0b01111) ||
  (unit == 0o60 && (fn == 0b00100 || fn == 0b01000 || fn == 0b10000))

/-- Every operand at a value the encoding admits, and the word named by no closer row. `ctx` is what the decoder knows
of the channels. -/
def Instr.wellFormed (ctx : ChannelId → ChanCtx) : Instr → Bool
  | .rch f => !f.named
  | .rsh r =>
    if r.indirect then r.kindBits != 0b10000 && r.kindBits != 0b10100 else r.kindBits == 0
  | .rcy r => r.kindBits == 0b10000
  | .lrsh r => r.kindBits == 0b10100
  | .lsh r =>
    if r.indirect then r.kindBits != 0b10000 && r.kindBits != 0b01000 else r.kindBits == 0
  | .lcy r => r.kindBits == 0b10000
  | .nod r => r.kindBits == 0b01000
  | .eom f =>
    (f.mode == 1 && f.b9 && !isAlcFn f) ||
    (f.mode == 2 && !(!f.b1 && !f.b9 && [1, 2, 4, 8, 16, 64, 128].contains f.fn.toNat))
  | .eod f =>
    (f.mode == 1 && f.b9 && !isAlcFn f) ||
    (f.mode == 2 && !(!f.b1 && !f.b9 && f.fn.extractLsb' 8 4 == 0)) || f.mode == 3
  | .sks f =>
    (f.mode == 0 && !(f.b9 && !f.b1 && f.fn.extractLsb' 2 10 == 0)) ||
    (f.mode == 1 && f.unit == 0 && !([16, 8, 4, 2].contains f.fn5.toNat)) ||
    (f.mode == 2 && !(!f.b1 && !f.b9 &&
      [1, 2, 4, 8, 16, 32, 64, 128, 256, 512, 1024, 2048].contains f.fn.toNat))
  | .connect _ k =>
    !namedConnect (BitVec.ofBool k.reverse ++ BitVec.ofBool k.noLeader ++ BitVec.ofBool k.binary) k.unit &&
    !(!k.alert && !k.reverse && !k.noLeader && !k.binary && k.cpw == 0 && k.unit == 0)
  | .asc ch => ctx ch != .alerted
  | .top ch => ctx ch == .plain
  | .rts ch => ctx ch == .tapeInput
  | .ilc ch k =>
    ctx ch == .alerted ||
    (!k.hiAddr && k.hiCount == 0 &&
      !(!k.ia && k.er && !k.zc && k.fc == 0) && !(k.ia && !k.er && !k.zc && k.fc == 0))
  | .ioctl ch fn unit => ctx ch != .alerted && unit != 0 && !namedIoctl fn unit
  | .src ch | .rew ch _ | .srr ch | .pol ch | .psc ch _ | .psp ch _ => ctx ch != .alerted
  | .devtest _ fn unit => unit != 0 && !namedDevtest fn unit
  | .lda _ | .sta _ | .ldb _ | .stb _ | .ldx _ | .stx _ | .eax _ | .xma _
  | .add _ | .adc _ | .adm _ | .min _ | .sub _ | .suc _ | .mul _ | .div _
  | .etr _ | .mrg _ | .eor _ | .bru _ | .brx _ | .brm _ | .brr _
  | .ske _ | .skg _ | .skm _ | .ska _ | .skb _ | .skn _ | .skr _ | .skd _
  | .exu _ | .miw _ | .wim _ | .miy _ | .yim _ | .pin _ | .pot _ | .hlt | .nop | .pop _ _
  | .cla | .clb | .clr | .cab | .cba | .xab | .bac | .abc | .clx | .cxa | .cax | .xxa
  | .cbx | .cxb | .xxb | .ste | .lde | .xee | .cna
  | .dsc _ | .alc _ | .syseom _ | .rov | .eir | .dir | .reo | .air | .rtcarm | .rtcdisarm | .setext _ _ _ _
  | .ovt | .idt | .iet | .betw | .bety | .bpt4 | .bpt3 | .bpt2 | .bpt1 | .brtw | .brty | .pfst
  | .exttest _ _ | .syssks _ | .cat _ | .czt _ | .cet _ | .cit _
  | .rkb _ _ | .typ _ _ | .rpt _ _ | .ptl _ _ | .ppt _ _ | .rcd _ _ | .rcb _ _ | .pcd _ _ | .pcb _ _
  | .wtb _ _ _ | .wtd _ _ _ | .eft _ _ _ | .ert _ _ _ | .rtb _ _ _ | .rtd _ _ _ | .sfb _ _ _ | .sfd _ _ _
  | .srb _ _ _ | .srd _ _ _ | .plp _ _
  | .crt _ | .fct _ | .cft _ | .pbt _ | .cpt _ | .trt _ _ | .fpt _ _ | .btt _ _ | .ett _ _
  | .dt2 _ _ | .dt5 _ _ | .dt8 _ _ | .tgt _ _ | .magpak _ _ | .tft _ | .pft _ | .prt _ | .ept _ => true

end Sys2Proof
end

