-- ==== Sys2Proof/Decode.lean ====
section
/-! DEFINITION. Decoding (30_encoding) and encoding. A word is split into the fields of R100, with the address field cut
where the EOM, EOD and SKS formats cut it; `decodeFields` names the instruction. Decoding is total, and refuses by name.
The kinds of word that the spec cannot tell apart by encoding are told apart by the context (R357; log 20). -/

namespace Sys2Proof

/-- The fields of a word (30_encoding R100): bits 0, 1, 2, 3-8, 9, 10-11, 12-16, 17 and 18-23. -/
structure Fields where
  b0 : Bool
  b1 : Bool
  b2 : Bool
  code : BitVec 6
  b9 : Bool
  mode : BitVec 2
  fn : BitVec 5
  b17 : Bool
  unit : BitVec 6
  deriving DecidableEq, Repr

/-- Why a word stands for no instruction: an unassigned code (R110), a shift of an undefined kind (46_shift R289), a
register-change word with bits 9 to 13 not zero (43_register_change R221). -/
inductive DecodeError where
  | unassignedCode
  | undefinedShift
  | undefinedRegisterChange
  deriving DecidableEq, Repr

def Fields.split (w : Word) : Fields :=
  { b0 := w.getMsbD 0
    b1 := w.getMsbD 1
    b2 := w.getMsbD 2
    code := w.extractLsb' 15 6
    b9 := w.getMsbD 9
    mode := w.extractLsb' 12 2
    fn := w.extractLsb' 7 5
    b17 := w.getMsbD 17
    unit := w.extractLsb' 0 6 }

def Fields.join (f : Fields) : Word :=
  BitVec.ofBool f.b0 ++ BitVec.ofBool f.b1 ++ BitVec.ofBool f.b2 ++ f.code ++ BitVec.ofBool f.b9 ++ f.mode ++ f.fn ++
    BitVec.ofBool f.b17 ++ f.unit

/-- Bits 10 to 23 of the word. -/
def Fields.addr (f : Fields) : Addr := f.mode ++ f.fn ++ BitVec.ofBool f.b17 ++ f.unit

/-- The fields with bits 10 to 23 given whole. -/
def Fields.ofAddr (b0 b1 b2 : Bool) (code : BitVec 6) (b9 : Bool) (a : Addr) : Fields :=
  { b0 := b0, b1 := b1, b2 := b2, code := code, b9 := b9, mode := a.extractLsb' 12 2, fn := a.extractLsb' 7 5
    b17 := a.getMsbD 7, unit := a.extractLsb' 0 6 }

def Fields.ref (f : Fields) : Ref := { indexed := f.b1, indirect := f.b9, addr := f.addr }

/-- Bits 12 to 23 of the word. -/
def Fields.fn12 (f : Fields) : BitVec 12 := f.fn ++ BitVec.ofBool f.b17 ++ f.unit

def Fields.ioFn (f : Fields) : IoFn := { b1 := f.b1, b9 := f.b9, mode := f.mode, fn := f.fn12 }

def Fields.sysFn (f : Fields) : SysFn := { b0 := f.b0, b1 := f.b1, b9 := f.b9, dest := f.fn12 }

/-- The channel of its number's three bits (R120). -/
def ChannelId.ofBits (hi mid lo : Bool) : ChannelId :=
  match hi, mid, lo with
  | false, false, false => .w
  | false, false, true => .y
  | false, true, false => .c
  | false, true, true => .d
  | true, false, false => .e
  | true, false, true => .f
  | true, true, false => .g
  | true, true, true => .h

def ChannelId.hi : ChannelId → Bool
  | .w | .y | .c | .d => false
  | .e | .f | .g | .h => true

def ChannelId.mid : ChannelId → Bool
  | .w | .y | .e | .f => false
  | .c | .d | .g | .h => true

def ChannelId.lo : ChannelId → Bool
  | .w | .c | .e | .g => false
  | .y | .d | .f | .h => true

/-- The register-change word's function bits (43_register_change R200). -/
def Fields.regFn (f : Fields) : RegFn :=
  { clearX := f.b1
    negA := f.fn.getMsbD 2
    aToX := f.fn.getMsbD 3
    xToA := f.fn.getMsbD 4
    expOnly := f.b17
    xToB := f.unit.getMsbD 0
    bToX := f.unit.getMsbD 1
    bToA := f.unit.getMsbD 2
    aToB := f.unit.getMsbD 3
    clearB := f.unit.getMsbD 4
    clearA := f.unit.getMsbD 5 }

/-- The row of a register-change word (43_register_change R202 to R220; the general form otherwise). -/
def decodeRegFn (f : RegFn) : Instr :=
  if f = { clearA := true } then .cla
  else if f = { clearB := true } then .clb
  else if f = { clearB := true, clearA := true } then .clr
  else if f = { aToB := true } then .cab
  else if f = { bToA := true } then .cba
  else if f = { bToA := true, aToB := true } then .xab
  else if f = { bToA := true, clearB := true } then .bac
  else if f = { aToB := true, clearA := true } then .abc
  else if f = { clearX := true } then .clx
  else if f = { xToA := true } then .cxa
  else if f = { aToX := true } then .cax
  else if f = { aToX := true, xToA := true } then .xxa
  else if f = { bToX := true } then .cbx
  else if f = { xToB := true } then .cxb
  else if f = { xToB := true, bToX := true } then .xxb
  else if f = { expOnly := true, bToX := true, clearB := true } then .ste
  else if f = { expOnly := true, xToB := true } then .lde
  else if f = { expOnly := true, xToB := true, bToX := true } then .xee
  else if f = { negA := true } then .cna
  else .rch f

/-- Codes 66 and 67: a direct word's kind is its bits 10 to 14 (9-bit indexing cannot change them, R108), and a kind the
manual does not define is refused (46_shift R289); an indirect word is named by the pattern its own bits match, its
kind being decoded on the shift effective address when it runs (log 21). -/
def decodeShift (left : Bool) (f : Fields) : Except DecodeError Instr :=
  let kind := f.mode ++ f.fn.extractLsb' 2 3
  if left then
    if kind = 0b10000#5 then .ok (.lcy f.ref)
    else if kind = 0b01000#5 then .ok (.nod f.ref)
    else if kind = 0#5 || f.b9 then .ok (.lsh f.ref)
    else .error .undefinedShift
  else
    if kind = 0b10000#5 then .ok (.rcy f.ref)
    else if kind = 0b10100#5 then .ok (.lrsh f.ref)
    else if kind = 0#5 || f.b9 then .ok (.rsh f.ref)
    else .error .undefinedShift

/-- The fields of a Buffer Control word (48_io_instructions R355). -/
def Fields.conn (f : Fields) : Conn :=
  { alert := f.b9, reverse := f.fn.getMsbD 0, noLeader := f.fn.getMsbD 1, binary := f.fn.getMsbD 2
    cpw := f.fn.extractLsb' 0 2, unit := f.unit }

/-- The row of a Buffer Control word (48_io_instructions R355, R356, 49_io_devices R432). -/
def decodeConnect (ch : ChannelId) (c : Conn) : Instr :=
  let k : DevFn := { alert := c.alert, cpw := c.cpw }
  let n := c.unit.extractLsb' 0 3
  let other := Instr.connect ch c
  match (c.unit.extractLsb' 3 3).toNat, n.toNat, c.reverse, c.noLeader, c.binary with
  | 0o0, 0o0, false, false, false =>
    if c.alert = false ∧ c.cpw = 0 then .dsc ch else other
  | 0o0, 0o1, false, true, false => .rkb ch k
  | 0o4, 0o1, false, true, false => .typ ch k
  | 0o0, 0o4, false, true, false => .rpt ch k
  | 0o4, 0o4, false, false, false => .ptl ch k
  | 0o4, 0o4, false, true, false => .ppt ch k
  | 0o0, 0o6, false, true, false => .rcd ch k
  | 0o0, 0o6, false, true, true => .rcb ch k
  | 0o4, 0o6, false, true, false => .pcd ch k
  | 0o4, 0o6, false, true, true => .pcb ch k
  | 0o6, 0o0, false, true, false => .plp ch k
  | 0o5, _, false, true, true => .wtb ch k n
  | 0o5, _, false, true, false => .wtd ch k n
  | 0o7, _, false, true, true => .eft ch k n
  | 0o7, _, true, true, true => .ert ch k n
  | 0o1, _, false, true, true => .rtb ch k n
  | 0o1, _, false, true, false => .rtd ch k n
  | 0o3, _, false, true, true => .sfb ch k n
  | 0o3, _, false, true, false => .sfd ch k n
  | 0o3, _, true, true, true => .srb ch k n
  | 0o3, _, true, true, false => .srd ch k n
  | _, _, _, _, _ => other

/-- The fields of an interlace-control word (48_io_instructions R359). -/
def Fields.ilcFn (f : Fields) : IlcFn :=
  { ia := f.fn.getMsbD 0, er := f.fn.getMsbD 1, zc := f.fn.getMsbD 2, fc := f.fn.extractLsb' 0 2
    hiAddr := f.unit.getMsbD 0, hiCount := f.unit.extractLsb' 0 5 }

/-- The row of a device command: bits 12-16 and a unit that is not 00 (49_io_devices). -/
def decodeIoctl (ch : ChannelId) (fn : BitVec 5) (unit : BitVec 6) : Instr :=
  let n := unit.extractLsb' 0 3
  let other := Instr.ioctl ch fn unit
  match (unit.extractLsb' 3 3).toNat, n.toNat, fn.toNat with
  | 0o0, 0o6, 0b01000 => .src ch
  | 0o1, 0o0, 0b01111 => .srr ch
  | 0o1, _, 0b10000 => .rew ch n
  | 0o6, 0o0, 0b00001 => .pol ch
  | 0o6, 0o0, _ =>
    if fn.extractLsb' 0 2 = 0b10 then .psc ch (fn.extractLsb' 2 3)
    else if fn.extractLsb' 0 2 = 0b11 then .psp ch (fn.extractLsb' 2 3)
    else other
  | _, _, _ => other

/-- The Input/Output Control mode (48_io_instructions R357). `general` is the form of a word no row lists. -/
def decodeIoControl (ctx : ChannelId → ChanCtx) (general : IoFn → Instr) (ch : ChannelId) (f : Fields) : Instr :=
  if f.b9 then
    if isAlcFn f.ioFn then .alc ch else general f.ioFn
  else if ctx ch = .alerted then .ilc ch f.ilcFn
  else if f.unit = 0 then
    if f.fn = 0b01000 then .asc ch
    else if f.fn = 0b10000 then (if ctx ch = .tapeInput then .rts ch else .top ch)
    else .ilc ch f.ilcFn
  else decodeIoctl ch f.fn f.unit

/-- The Internal Control mode of EOM (48_io_instructions R393). -/
def decodeInternalControl (f : Fields) : Instr :=
  if f.b1 || f.b9 then .eom f.ioFn
  else
    match f.fn12.toNat with
    | 0o0001 => .rov
    | 0o0002 => .eir
    | 0o0004 => .dir
    | 0o0010 => .reo
    | 0o0020 => .air
    | 0o0100 => .rtcarm
    | 0o0200 => .rtcdisarm
    | _ => .eom f.ioFn

/-- Code 02 (30_encoding R111). -/
def decodeEom (ctx : ChannelId → ChanCtx) (f : Fields) : Instr :=
  let ch := ChannelId.ofBits false f.b1 f.b17
  match f.mode.toNat with
  | 0 => decodeConnect ch f.conn
  | 1 => decodeIoControl ctx .eom ch f
  | 2 => decodeInternalControl f
  | _ => .syseom f.sysFn

/-- Code 06 (30_encoding R111, 47_control R317). -/
def decodeEod (ctx : ChannelId → ChanCtx) (f : Fields) : Instr :=
  let ch := ChannelId.ofBits true f.b1 f.b17
  match f.mode.toNat with
  | 0 => decodeConnect ch f.conn
  | 1 => decodeIoControl ctx .eod ch f
  | 2 =>
    if f.b1 || f.b9 || f.fn.extractLsb' 1 4 != 0 then .eod f.ioFn
    else .setext (f.fn.getMsbD 4) f.b17 (f.unit.extractLsb' 3 3) (f.unit.extractLsb' 0 3)
  | _ => .eod f.ioFn

/-- The device tests (49_io_devices): bits 12-16 and a unit that is not 00. -/
def decodeDevtest (ch : ChannelId) (fn : BitVec 5) (unit : BitVec 6) : Instr :=
  let n := unit.extractLsb' 0 3
  let other := Instr.devtest ch fn unit
  match (unit.extractLsb' 3 3).toNat, n.toNat, fn.toNat with
  | 0o0, 0o6, 0b01000 => .crt ch
  | 0o0, 0o6, 0b10000 => .fct ch
  | 0o0, 0o6, 0b00100 => .cft ch
  | 0o4, 0o6, 0b01000 => .pbt ch
  | 0o4, 0o6, 0b10000 => .cpt ch
  | 0o1, 0o0, 0b01111 => .tft ch
  | 0o1, _, 0b00010 => .trt ch n
  | 0o1, _, 0b10000 => .fpt ch n
  | 0o1, _, 0b01000 => .btt ch n
  | 0o1, _, 0b00100 => .ett ch n
  | 0o1, _, 0b11001 => .dt2 ch n
  | 0o1, _, 0b11011 => .dt5 ch n
  | 0o1, _, 0b11101 => .dt8 ch n
  | 0o1, _, 0b01011 => .tgt ch n
  | 0o1, _, 0b00001 => .magpak ch n
  | 0o6, 0o0, 0b00100 => .pft ch
  | 0o6, 0o0, 0b01000 => .prt ch
  | 0o6, 0o0, 0b10000 => .ept ch
  | _, _, _ => other

/-- The Internal Test mode of SKS (48_io_instructions R394). -/
def decodeInternalTest (f : Fields) : Instr :=
  if f.b1 || f.b9 then .sks f.ioFn
  else
    match f.fn12.toNat with
    | 0o0001 => .ovt
    | 0o0002 => .idt
    | 0o0004 => .iet
    | 0o0010 => .betw
    | 0o0020 => .bety
    | 0o0040 => .bpt4
    | 0o0100 => .bpt3
    | 0o0200 => .bpt2
    | 0o0400 => .bpt1
    | 0o1000 => .brtw
    | 0o2000 => .brty
    | 0o4000 => .pfst
    | _ => .sks f.ioFn

/-- Code 40 (30_encoding R111, 48_io_instructions R353). -/
def decodeSks (f : Fields) : Instr :=
  let ch := ChannelId.ofBits f.b9 f.b1 f.b17
  match f.mode.toNat with
  | 0 =>
    if f.b9 && !f.b1 && f.fn == 0 && !f.b17 && f.unit.extractLsb' 2 4 == 0 then
      .exttest (f.unit.getMsbD 4) (f.unit.getMsbD 5)
    else .sks f.ioFn
  | 1 =>
    if f.unit = 0 then
      match f.fn.toNat with
      | 0b10000 => .cat ch
      | 0b01000 => .czt ch
      | 0b00100 => .cet ch
      | 0b00010 => .cit ch
      | _ => .sks f.ioFn
    else decodeDevtest ch f.fn f.unit
  | 2 => decodeInternalTest f
  | _ => .syssks f.sysFn

/-- The instruction of a word's fields (30_encoding R102, R109). -/
def decodeFields (ctx : ChannelId → ChanCtx) (f : Fields) : Except DecodeError Instr :=
  if f.b2 then .ok (.pop f.code f.ref)
  else
    match f.code.toNat with
    | 0o00 => .ok .hlt
    | 0o01 => .ok (.bru f.ref)
    | 0o02 => .ok (decodeEom ctx f)
    | 0o06 => .ok (decodeEod ctx f)
    | 0o10 => .ok (.miy f.ref)
    | 0o12 => .ok (.miw f.ref)
    | 0o13 => .ok (.pot f.ref)
    | 0o14 => .ok (.etr f.ref)
    | 0o16 => .ok (.mrg f.ref)
    | 0o17 => .ok (.eor f.ref)
    | 0o20 => .ok .nop
    | 0o23 => .ok (.exu f.ref)
    | 0o30 => .ok (.yim f.ref)
    | 0o32 => .ok (.wim f.ref)
    | 0o33 => .ok (.pin f.ref)
    | 0o35 => .ok (.sta f.ref)
    | 0o36 => .ok (.stb f.ref)
    | 0o37 => .ok (.stx f.ref)
    | 0o40 => .ok (decodeSks f)
    | 0o41 => .ok (.brx f.ref)
    | 0o43 => .ok (.brm f.ref)
    | 0o46 =>
      if f.b9 || f.mode != 0 || f.fn.extractLsb' 3 2 != 0 then .error .undefinedRegisterChange
      else .ok (decodeRegFn f.regFn)
    | 0o50 => .ok (.ske f.ref)
    | 0o51 => .ok (.brr f.ref)
    | 0o52 => .ok (.skb f.ref)
    | 0o53 => .ok (.skn f.ref)
    | 0o54 => .ok (.sub f.ref)
    | 0o55 => .ok (.add f.ref)
    | 0o56 => .ok (.suc f.ref)
    | 0o57 => .ok (.adc f.ref)
    | 0o60 => .ok (.skr f.ref)
    | 0o61 => .ok (.min f.ref)
    | 0o62 => .ok (.xma f.ref)
    | 0o63 => .ok (.adm f.ref)
    | 0o64 => .ok (.mul f.ref)
    | 0o65 => .ok (.div f.ref)
    | 0o66 => decodeShift false f
    | 0o67 => decodeShift true f
    | 0o70 => .ok (.skm f.ref)
    | 0o71 => .ok (.ldx f.ref)
    | 0o72 => .ok (.ska f.ref)
    | 0o73 => .ok (.skg f.ref)
    | 0o74 => .ok (.skd f.ref)
    | 0o75 => .ok (.ldb f.ref)
    | 0o76 => .ok (.lda f.ref)
    | 0o77 => .ok (.eax f.ref)
    | _ => .error .unassignedCode

/-- The instruction a word stands for, in the context `ctx` of the channels. -/
def decode (ctx : ChannelId → ChanCtx) (w : Word) : Except DecodeError Instr := decodeFields ctx (Fields.split w)

/-- The decoder of one row of spec/opcode_table.json, every channel in the plain context: the 24-bit word of the row's
bits, the bits above `nbits` zero. -/
def decodeTableWord (nbits w : Nat) : Option Instr :=
  match decode (fun _ => .plain) (BitVec.ofNat 24 (w % 2 ^ nbits)) with
  | .ok i => some i
  | .error _ => none

/-! ### The encoder -/

/-- A memory-reference word (30_encoding R100). -/
def Ref.fields (r : Ref) (code : BitVec 6) : Fields := Fields.ofAddr false r.indexed false code r.indirect r.addr

/-- A general EOM, EOD or SKS word. -/
def IoFn.fields (f : IoFn) (code : BitVec 6) : Fields :=
  Fields.ofAddr false f.b1 false code f.b9 (f.mode ++ f.fn)

/-- A System-mode word (48_io_instructions R390). -/
def SysFn.fields (k : SysFn) (code : BitVec 6) : Fields :=
  Fields.ofAddr k.b0 k.b1 false code k.b9 (0b11#2 ++ k.dest)

/-- A word of the Internal Control or Internal Test mode. -/
def internalFields (code : BitVec 6) (fn : BitVec 12) : Fields :=
  Fields.ofAddr false false false code false (0b10#2 ++ fn)

/-- An EOM or EOD word that names a channel (30_encoding R120). -/
def chanFields (ch : ChannelId) (b9 : Bool) (mode : BitVec 2) (fn : BitVec 5) (unit : BitVec 6) : Fields :=
  { b0 := false, b1 := ch.mid, b2 := false, code := if ch.hi then 0o06 else 0o02, b9 := b9, mode := mode, fn := fn
    b17 := ch.lo, unit := unit }

/-- An SKS word that names a channel (30_encoding R120). -/
def testFields (ch : ChannelId) (fn : BitVec 5) (unit : BitVec 6) : Fields :=
  { b0 := false, b1 := ch.mid, b2 := false, code := 0o40, b9 := ch.hi, mode := 0b01, fn := fn
    b17 := ch.lo, unit := unit }

/-- A named device word of the Buffer Control mode: `rld` is bits 12 to 14. -/
def devFields (ch : ChannelId) (k : DevFn) (rld : BitVec 3) (unit : BitVec 6) : Fields :=
  chanFields ch k.alert 0b00 (rld ++ k.cpw) unit

/-- A register-change word (43_register_change R200). -/
def RegFn.fields (f : RegFn) : Fields :=
  { b0 := false, b1 := f.clearX, b2 := false, code := 0o46, b9 := false, mode := 0
    fn := 0#2 ++ BitVec.ofBool f.negA ++ BitVec.ofBool f.aToX ++ BitVec.ofBool f.xToA
    b17 := f.expOnly
    unit := BitVec.ofBool f.xToB ++ BitVec.ofBool f.bToX ++ BitVec.ofBool f.bToA ++ BitVec.ofBool f.aToB ++
      BitVec.ofBool f.clearB ++ BitVec.ofBool f.clearA }

/-- The fields of an instruction's word, the bits its row ignores at zero. -/
def encodeFields : Instr → Fields
  | .lda r => r.fields 0o76
  | .sta r => r.fields 0o35
  | .ldb r => r.fields 0o75
  | .stb r => r.fields 0o36
  | .ldx r => r.fields 0o71
  | .stx r => r.fields 0o37
  | .eax r => r.fields 0o77
  | .xma r => r.fields 0o62
  | .add r => r.fields 0o55
  | .adc r => r.fields 0o57
  | .adm r => r.fields 0o63
  | .min r => r.fields 0o61
  | .sub r => r.fields 0o54
  | .suc r => r.fields 0o56
  | .mul r => r.fields 0o64
  | .div r => r.fields 0o65
  | .etr r => r.fields 0o14
  | .mrg r => r.fields 0o16
  | .eor r => r.fields 0o17
  | .bru r => r.fields 0o01
  | .brx r => r.fields 0o41
  | .brm r => r.fields 0o43
  | .brr r => r.fields 0o51
  | .ske r => r.fields 0o50
  | .skg r => r.fields 0o73
  | .skm r => r.fields 0o70
  | .ska r => r.fields 0o72
  | .skb r => r.fields 0o52
  | .skn r => r.fields 0o53
  | .skr r => r.fields 0o60
  | .skd r => r.fields 0o74
  | .exu r => r.fields 0o23
  | .miw r => r.fields 0o12
  | .wim r => r.fields 0o32
  | .miy r => r.fields 0o10
  | .yim r => r.fields 0o30
  | .pin r => r.fields 0o33
  | .pot r => r.fields 0o13
  | .hlt => Fields.ofAddr false false false 0o00 false 0
  | .nop => Fields.ofAddr false false false 0o20 false 0
  | .pop code r => Fields.ofAddr false r.indexed true code r.indirect r.addr
  | .cla => RegFn.fields { clearA := true }
  | .clb => RegFn.fields { clearB := true }
  | .clr => RegFn.fields { clearB := true, clearA := true }
  | .cab => RegFn.fields { aToB := true }
  | .cba => RegFn.fields { bToA := true }
  | .xab => RegFn.fields { bToA := true, aToB := true }
  | .bac => RegFn.fields { bToA := true, clearB := true }
  | .abc => RegFn.fields { aToB := true, clearA := true }
  | .clx => RegFn.fields { clearX := true }
  | .cxa => RegFn.fields { xToA := true }
  | .cax => RegFn.fields { aToX := true }
  | .xxa => RegFn.fields { aToX := true, xToA := true }
  | .cbx => RegFn.fields { bToX := true }
  | .cxb => RegFn.fields { xToB := true }
  | .xxb => RegFn.fields { xToB := true, bToX := true }
  | .ste => RegFn.fields { expOnly := true, bToX := true, clearB := true }
  | .lde => RegFn.fields { expOnly := true, xToB := true }
  | .xee => RegFn.fields { expOnly := true, xToB := true, bToX := true }
  | .cna => RegFn.fields { negA := true }
  | .rch f => f.fields
  | .rsh r => r.fields 0o66
  | .rcy r => r.fields 0o66
  | .lrsh r => r.fields 0o66
  | .lsh r => r.fields 0o67
  | .lcy r => r.fields 0o67
  | .nod r => r.fields 0o67
  | .eom f => f.fields 0o02
  | .eod f => f.fields 0o06
  | .sks f => f.fields 0o40
  | .connect ch k =>
    chanFields ch k.alert 0b00
      (BitVec.ofBool k.reverse ++ BitVec.ofBool k.noLeader ++ BitVec.ofBool k.binary ++ k.cpw) k.unit
  | .dsc ch => chanFields ch false 0b00 0 0
  | .alc ch => chanFields ch true 0b01 0 0
  | .asc ch => chanFields ch false 0b01 0b01000 0
  | .top ch => chanFields ch false 0b01 0b10000 0
  | .ilc ch k =>
    chanFields ch false 0b01 (BitVec.ofBool k.ia ++ BitVec.ofBool k.er ++ BitVec.ofBool k.zc ++ k.fc)
      (BitVec.ofBool k.hiAddr ++ k.hiCount)
  | .ioctl ch fn unit => chanFields ch false 0b01 fn unit
  | .syseom k => k.fields 0o02
  | .rov => internalFields 0o02 0o0001
  | .eir => internalFields 0o02 0o0002
  | .dir => internalFields 0o02 0o0004
  | .reo => internalFields 0o02 0o0010
  | .air => internalFields 0o02 0o0020
  | .rtcarm => internalFields 0o02 0o0100
  | .rtcdisarm => internalFields 0o02 0o0200
  | .setext s3 s2 r3 r2 =>
    { b0 := false, b1 := false, b2 := false, code := 0o06, b9 := false, mode := 0b10
      fn := 0#4 ++ BitVec.ofBool s3, b17 := s2, unit := r3 ++ r2 }
  | .ovt => internalFields 0o40 0o0001
  | .idt => internalFields 0o40 0o0002
  | .iet => internalFields 0o40 0o0004
  | .betw => internalFields 0o40 0o0010
  | .bety => internalFields 0o40 0o0020
  | .bpt4 => internalFields 0o40 0o0040
  | .bpt3 => internalFields 0o40 0o0100
  | .bpt2 => internalFields 0o40 0o0200
  | .bpt1 => internalFields 0o40 0o0400
  | .brtw => internalFields 0o40 0o1000
  | .brty => internalFields 0o40 0o2000
  | .pfst => internalFields 0o40 0o4000
  | .exttest t3 t2 =>
    { b0 := false, b1 := false, b2 := false, code := 0o40, b9 := true, mode := 0, fn := 0, b17 := false
      unit := 0#4 ++ BitVec.ofBool t3 ++ BitVec.ofBool t2 }
  | .syssks k => k.fields 0o40
  | .devtest ch fn unit => testFields ch fn unit
  | .cat ch => testFields ch 0b10000 0
  | .czt ch => testFields ch 0b01000 0
  | .cet ch => testFields ch 0b00100 0
  | .cit ch => testFields ch 0b00010 0
  | .rkb ch k => devFields ch k 0b010 0o01
  | .typ ch k => devFields ch k 0b010 0o41
  | .rpt ch k => devFields ch k 0b010 0o04
  | .ptl ch k => devFields ch k 0b000 0o44
  | .ppt ch k => devFields ch k 0b010 0o44
  | .rcd ch k => devFields ch k 0b010 0o06
  | .rcb ch k => devFields ch k 0b011 0o06
  | .pcd ch k => devFields ch k 0b010 0o46
  | .pcb ch k => devFields ch k 0b011 0o46
  | .wtb ch k n => devFields ch k 0b011 (0b101#3 ++ n)
  | .wtd ch k n => devFields ch k 0b010 (0b101#3 ++ n)
  | .eft ch k n => devFields ch k 0b011 (0b111#3 ++ n)
  | .ert ch k n => devFields ch k 0b111 (0b111#3 ++ n)
  | .rtb ch k n => devFields ch k 0b011 (0b001#3 ++ n)
  | .rtd ch k n => devFields ch k 0b010 (0b001#3 ++ n)
  | .sfb ch k n => devFields ch k 0b011 (0b011#3 ++ n)
  | .sfd ch k n => devFields ch k 0b010 (0b011#3 ++ n)
  | .srb ch k n => devFields ch k 0b111 (0b011#3 ++ n)
  | .srd ch k n => devFields ch k 0b110 (0b011#3 ++ n)
  | .plp ch k => devFields ch k 0b010 0o60
  | .src ch => chanFields ch false 0b01 0b01000 0o06
  | .rts ch => chanFields ch false 0b01 0b10000 0
  | .rew ch n => chanFields ch false 0b01 0b10000 (0b001#3 ++ n)
  | .srr ch => chanFields ch false 0b01 0b01111 0o10
  | .pol ch => chanFields ch false 0b01 0b00001 0o60
  | .psc ch n => chanFields ch false 0b01 (n ++ 0b10#2) 0o60
  | .psp ch n => chanFields ch false 0b01 (n ++ 0b11#2) 0o60
  | .crt ch => testFields ch 0b01000 0o06
  | .fct ch => testFields ch 0b10000 0o06
  | .cft ch => testFields ch 0b00100 0o06
  | .pbt ch => testFields ch 0b01000 0o46
  | .cpt ch => testFields ch 0b10000 0o46
  | .trt ch n => testFields ch 0b00010 (0b001#3 ++ n)
  | .fpt ch n => testFields ch 0b10000 (0b001#3 ++ n)
  | .btt ch n => testFields ch 0b01000 (0b001#3 ++ n)
  | .ett ch n => testFields ch 0b00100 (0b001#3 ++ n)
  | .dt2 ch n => testFields ch 0b11001 (0b001#3 ++ n)
  | .dt5 ch n => testFields ch 0b11011 (0b001#3 ++ n)
  | .dt8 ch n => testFields ch 0b11101 (0b001#3 ++ n)
  | .tgt ch n => testFields ch 0b01011 (0b001#3 ++ n)
  | .magpak ch n => testFields ch 0b00001 (0b001#3 ++ n)
  | .tft ch => testFields ch 0b01111 0o10
  | .pft ch => testFields ch 0b00100 0o60
  | .prt ch => testFields ch 0b01000 0o60
  | .ept ch => testFields ch 0b10000 0o60

/-- The word of an instruction. -/
def encode (i : Instr) : Word := (encodeFields i).join

end Sys2Proof
end

