-- ==== Sys2Proof/Machine/Interrupts.lean ====
section
/-! DEFINITION. The interrupt control instructions and the clock's arm bit (60_exceptions sections 4 to 6), and the arm
word that the POT after AIR delivers. -/

namespace Sys2Proof.Machine

open Sys2Proof

/-- EIR (R535). -/
def execEir (s : State) : Result := .next { s with ien := true }.endEom
/-- DIR (R536): no level's state changes. -/
def execDir (s : State) : Result := .next { s with ien := false }.endEom
/-- IET (R537): the indicator, not the console's override. -/
def execIet (s : State) : Result := .next (s.skipIf s.ien)
/-- IDT (R538). -/
def execIdt (s : State) : Result := .next (s.skipIf !s.ien)
/-- AIR (R539). Without the arming feature the alert is set all the same, so that the POT that must follow is still the
arm unit's, and changes nothing (log 66). -/
def execAir (s : State) : Result := .next { s with airAlert := true }.endEom
/-- Arm the Clock Pulse interrupt (R547). Without the real-time clock, where R32 does not say what the word does, it
completes and the bit has no effect (log 59). -/
def execRtcarm (s : State) : Result := .next { s with rtcArmed := true }.endEom
/-- Disarm the Clock Pulse interrupt (R547); without the real-time clock as above (log 59). -/
def execRtcdisarm (s : State) : Result := .next { s with rtcArmed := false }.endEom
/-- The power fail-safe test: no skip if the OFF interrupt has just occurred (R546); without the fail-safe system it
reads the power-off line all the same (log 42). -/
def execPfst (s : State) : Result := .next (s.skipIf !s.lines.powerOff)

/-- The level that bit `8 + i` of an arm word of group `g` names (R539). -/
def groupLevel (g i : Nat) : Nat := 0o200 + 16 * g + i

/-- The arm bit of one level after an arm word with control field `c` selects it or not (R539). -/
def armOne (c : Nat) (selected : Bool) (l : Nat) (armed : List Nat) : List Nat :=
  match c with
  | 1 => if selected then levelInsert l armed else armed
  | 2 => if selected then armed else levelErase l armed
  | 3 => if selected then levelInsert l armed else levelErase l armed
  | _ => armed

/-- The arm bits after the first `n` selection bits of an arm word `m`, bits 8 and on (R539). -/
def State.armFrom (s : State) (m : Word) : Nat → List Nat
  | 0 => s.armed
  | n + 1 =>
    let l := groupLevel (m.extractLsb' 18 6).toNat n
    let rest := s.armFrom m n
    if levelPresent s.cfg l && levelArmable s.cfg l then
      armOne (m.extractLsb' 16 2).toNat (bit m (8 + n)) l rest
    else rest

/-- `ArmInterrupts(m)` (R539): no effect on a level without the arming feature; with no such level the word is swallowed
(log 66). -/
def State.armInterrupts (s : State) (m : Word) : State :=
  { s with airAlert := false, armed := s.armFrom m 16 }

end Sys2Proof.Machine
end

