-- ==== Sys2Proof/Machine/Io.lean ====
section
/-! DEFINITION. EOM, EOD and SKS in every mode, the channel commands and tests, the single-word transfers, PIN and POT
(48_io_instructions). -/

namespace Sys2Proof.Machine

open Sys2Proof

/-! ### Buffer Control and Input/Output Control -/

/-- A Buffer Control EOM or EOD (R355); one that names a channel not installed has no effect (R395). -/
def State.bufferControl (s : State) (ch : ChannelId) (k : Conn) : Result :=
  .next (if s.hasChan ch then s.connectUnit ch k else s).endEom

/-- The interlace-control fields of bits 12-16 and 18-23 (R359). -/
def ilcOf (fn : BitVec 5) (unit : BitVec 6) : IlcFn :=
  { ia := fn.getMsbD 0, er := fn.getMsbD 1, zc := fn.getMsbD 2, fc := fn.extractLsb' 0 2
    hiAddr := unit.getMsbD 0, hiCount := unit.extractLsb' 0 5 }

/-- Bits 12-16 of an interlace-control word. -/
def ilcFn5 (k : IlcFn) : BitVec 5 := BitVec.ofBool k.ia ++ BitVec.ofBool k.er ++ BitVec.ofBool k.zc ++ k.fc

/-- Bits 18-23 of an interlace-control word. -/
def ilcUnit (k : IlcFn) : BitVec 6 := BitVec.ofBool k.hiAddr ++ k.hiCount

/-- ASC's effect (R360): the next PIN reads MAR. A channel without interlace has none (log 39). -/
def State.ascAlert (s : State) (ch : ChannelId) : State :=
  if s.hasInterlace ch then s.setChan ch { s.chan ch with ascAlert := true } else s

/-- `IOControl(ch, w)` (R357): what the word does is decided by the channel's alert (D34). An interlace-control word
goes to no device, also where bits 18 to 23 are a unit's address (log 63). A word with bit 9 one that
is not ALC's goes to the device it addresses (R395; log 70), and with unit 00 is unlisted. -/
def State.ioControl (s : State) (ch : ChannelId) (b9 : Bool) (fn : BitVec 5) (unit : BitVec 6) : Result :=
  if !s.hasChan ch then .next s.endEom
  else if b9 then
    if unit ≠ 0 then .next (s.send (.ioControl ch true fn unit)).endEom
    else if fn = 0 then .next (s.alert ch).endEom
    else .refused .unlistedFunction
  else if (s.chan ch).ilcAlert then .next (s.interlaceControl ch (ilcOf fn unit)).endEom
  else if unit ≠ 0 then .next (s.send (.ioControl ch false fn unit)).endEom
  else if fn = 0b01000 then .next (s.ascAlert ch).endEom
  else if fn = 0b10000 then .next (s.terminate ch).endEom
  else .refused .unlistedFunction

/-- Buffer Control, any unit (R355, R356). -/
def execConnect (ch : ChannelId) (k : Conn) (s : State) : Result := s.bufferControl ch k

/-- DSC (R356). -/
def execDsc (ch : ChannelId) (s : State) : Result :=
  s.bufferControl ch { alert := false, reverse := false, noLeader := false, binary := false, cpw := 0, unit := 0 }

/-- ALC (R358). -/
def execAlc (ch : ChannelId) (s : State) : Result := s.ioControl ch true 0 0
/-- ASC (R360). -/
def execAsc (ch : ChannelId) (s : State) : Result := s.ioControl ch false 0b01000 0
/-- TOP (R360). -/
def execTop (ch : ChannelId) (s : State) : Result := s.ioControl ch false 0b10000 0
/-- The interlace-control word (R359). -/
def execIlc (ch : ChannelId) (k : IlcFn) (s : State) : Result := s.ioControl ch false (ilcFn5 k) (ilcUnit k)
/-- A device command (R357). -/
def execIoctl (ch : ChannelId) (fn : BitVec 5) (unit : BitVec 6) (s : State) : Result := s.ioControl ch false fn unit

/-! ### The System mode -/

/-- The Data Multiplexing subchannel a System-mode word selects, with its C field (49 R500). Bits 0 and 1, part of the
system address (R390), are zero in the select word; C = 11, which names no mode, selects too (log 40). -/
def dmsOf (k : SysFn) : Option (BitVec 8 × BitVec 2) :=
  if !k.b0 && !k.b1 && k.b9 && !k.dest.getMsbD 0 && !k.dest.getMsbD 3 && !k.dest.getMsbD 11 then
    some (k.dest.extractLsb' 0 8, k.dest.extractLsb' 9 2)
  else none

/-- System Control EOM (R390; 49 R500): the pulse goes to the host. -/
def execSyseom (k : SysFn) (s : State) : Result :=
  let t := s.send (.systemPulse k)
  let sel := if s.cfg.hasDms then dmsOf k else none
  .next { t with dmsSelect := if sel.isSome then sel else s.dmsSelect }.endEom

/-- Special System Test SKS (R391). -/
def execSyssks (k : SysFn) (s : State) : Result := .next (s.skipIf !s.lines.systemSignals.contains k)

/-! ### Tests -/

/-- The host's answer: a signal of a device or of an absent channel reads as set (R379, R395). -/
def State.deviceSet (s : State) (ch : ChannelId) (fn : BitVec 5) (unit : BitVec 6) : Bool :=
  s.lines.deviceSignals.contains (ch, fn, unit)

/-- The unit is attached to the channel (00_scope R4). -/
def State.attached (s : State) (ch : ChannelId) (unit : BitVec 6) : Bool :=
  s.hasChan ch && s.cfg.units.contains (ch, unit)

/-- A Device Test (R379): skip if the signal is not set. For a tape unit that is absent from an installed channel TRT
skips, and FPT, BTT and ETT do not (49 R455 to R458); for a channel that is not installed the host answers these too
(R395; log 23). -/
def State.deviceTest (s : State) (ch : ChannelId) (fn : BitVec 5) (unit : BitVec 6) : Result :=
  let set := s.deviceSet ch fn unit
  .next (s.skipIf
    (if s.hasChan ch && unit.extractLsb' 3 3 == 1 && !s.attached ch unit &&
        (fn == 0b00010 || fn == 0b10000 || fn == 0b01000 || fn == 0b00100) then fn == 0b00010
     else !set))

/-- A test of a channel's own indicator (R374): the host answers for a channel that is not installed (R395). -/
def State.channelTest (s : State) (ch : ChannelId) (fn : BitVec 5) (skip : Bool) : Result :=
  .next (s.skipIf (if s.hasChan ch then skip else !s.deviceSet ch fn 0))

/-- CAT (R375): skip if the channel is not active. -/
def execCat (ch : ChannelId) (s : State) : Result := s.channelTest ch 0b10000 ((s.chan ch).uar == 0)
/-- CZT (R377): skip if the zero-count indicator is set; without interlace the host answers (log 39). -/
def execCzt (ch : ChannelId) (s : State) : Result :=
  s.channelTest ch 0b01000 (if s.hasInterlace ch then (s.chan ch).zeroCount else !s.deviceSet ch 0b01000 0)
/-- CET (R376): skip if no error. -/
def execCet (ch : ChannelId) (s : State) : Result := s.channelTest ch 0b00100 (!(s.chan ch).error)
/-- CIT (R378): skip if the inter-record indicator is set. -/
def execCit (ch : ChannelId) (s : State) : Result := s.channelTest ch 0b00010 (s.chan ch).interRecord
/-- BRTW (R384). -/
def execBrtw (s : State) : Result := s.channelTest .w 0b10000 ((s.chan .w).uar == 0)
/-- BRTY (R385). -/
def execBrty (s : State) : Result := s.channelTest .y 0b10000 ((s.chan .y).uar == 0)
/-- BETW (R386). -/
def execBetw (s : State) : Result := s.channelTest .w 0b00100 (!(s.chan .w).error)
/-- BETY (R387). -/
def execBety (s : State) : Result := s.channelTest .y 0b00100 (!(s.chan .y).error)
/-- A Device Test (R379). -/
def execDevtest (ch : ChannelId) (fn : BitVec 5) (unit : BitVec 6) (s : State) : Result := s.deviceTest ch fn unit

/-! ### The general forms -/

/-- The Buffer Control fields of a general word (R355). -/
def connOf (f : IoFn) : Conn :=
  { alert := f.b9, reverse := f.fn.getMsbD 0, noLeader := f.fn.getMsbD 1, binary := f.fn.getMsbD 2
    cpw := f.fn.extractLsb' 7 2, unit := f.unit }

/-- The channel a general EOM or EOD names: `hi` says it is an EOD. -/
def eomChannel (hi : Bool) (f : IoFn) : ChannelId := ChannelId.ofBits hi f.b1 (f.fn.getMsbD 5)

/-- EOM in the general form, every mode (R351, R390, R393, R395). -/
def execEom (f : IoFn) (s : State) : Result :=
  match f.mode.toNat with
  | 0 => s.bufferControl (eomChannel false f) (connOf f)
  | 1 => s.ioControl (eomChannel false f) f.b9 f.fn5 f.unit
  | 2 =>
    if f.b1 || f.b9 then .refused .unlistedFunction
    else
      match f.fn.toNat with
      | 0o0001 => execRov s
      | 0o0002 => execEir s
      | 0o0004 => execDir s
      | 0o0010 => execReo s
      | 0o0020 => execAir s
      | 0o0100 => execRtcarm s
      | 0o0200 => execRtcdisarm s
      | _ => .refused .unlistedFunction
  | _ => execSyseom { b0 := false, b1 := f.b1, b9 := f.b9, dest := f.fn } s

/-- EOD in the general form, every mode (R352, R317, R395). -/
def execEod (f : IoFn) (s : State) : Result :=
  match f.mode.toNat with
  | 0 => s.bufferControl (eomChannel true f) (connOf f)
  | 1 => s.ioControl (eomChannel true f) f.b9 f.fn5 f.unit
  | 2 =>
    if f.b1 || f.b9 || f.fn.extractLsb' 8 4 != 0 then .refused .unlistedFunction
    else execSetext (f.fn.getMsbD 4) (f.fn.getMsbD 5) (f.fn.extractLsb' 3 3) (f.fn.extractLsb' 0 3) s
  | _ => .refused .unlistedFunction

/-- A BREAKPOINT TEST of any combination (47_control R313): skip if a switch tested is reset. -/
def State.breakpointTest (s : State) (fn : BitVec 12) : State :=
  s.skipIf ((fn.getMsbD 3 && !s.console.bp1) || (fn.getMsbD 4 && !s.console.bp2) ||
    (fn.getMsbD 5 && !s.console.bp3) || (fn.getMsbD 6 && !s.console.bp4))

/-- The Internal Test mode (R394): one test, or any combination of breakpoints (R354). -/
def State.internalTest (s : State) (f : IoFn) : Result :=
  if f.b1 || f.b9 then .refused .unlistedFunction
  else
    match f.fn.toNat with
    | 0o0001 => execOvt s
    | 0o0002 => execIdt s
    | 0o0004 => execIet s
    | 0o0010 => execBetw s
    | 0o0020 => execBety s
    | 0o1000 => execBrtw s
    | 0o2000 => execBrty s
    | 0o4000 => execPfst s
    | _ =>
      if f.fn &&& 0o740 ≠ 0 ∧ f.fn &&& ~~~0o740 = 0 then .next (s.breakpointTest f.fn)
      else .refused .unlistedFunction

/-- SKS in the general form, every mode (R353, R354, R374, R379, R391, R392, R394, R395). -/
def execSks (f : IoFn) (s : State) : Result :=
  match f.mode.toNat with
  | 0 =>
    if f.b9 then
      if f.b1 || f.fn.extractLsb' 2 10 != 0 then .refused .unlistedFunction
      else execExttest (f.fn.getMsbD 10) (f.fn.getMsbD 11) s
    else if s.cfg.hasSpecialSignals then .next (s.skipIf !s.lines.specialSignals.contains f)
    else .refused .unlistedFunction
  | 1 =>
    let ch := ChannelId.ofBits f.b9 f.b1 (f.fn.getMsbD 5)
    if f.unit ≠ 0 then s.deviceTest ch f.fn5 f.unit
    else
      match f.fn5.toNat with
      | 0b10000 => execCat ch s
      | 0b01000 => execCzt ch s
      | 0b00100 => execCet ch s
      | 0b00010 => execCit ch s
      | _ => if s.hasChan ch then .refused .unlistedFunction else .next (s.skipIf !s.deviceSet ch f.fn5 0)
  | 2 => s.internalTest f
  | _ => execSyssks { b0 := false, b1 := f.b1, b9 := f.b9, dest := f.fn } s

/-! ### Single-word transfers -/

/-- MIW and MIY (R380, R382): wait until the buffer is empty, on an output (log 38), then give it the operand, read at
the turn the wait ends (log 61). -/
def State.memoryIntoBuffer (s : State) (code : BitVec 6) (ch : ChannelId) (r : Ref) : Result :=
  s.atEA code r fun t =>
    let c := s.chan ch
    if c.output && c.wordReady && c.uar != 0 then
      .next (s.setChan ch { c with war := s.read t, wordReady := false, charCount := 0 }).sequential
    else .next (s.holdAt code t)

/-- WIM and YIM (R381, R383): wait until the buffer is full, on an input (log 38), then store its word, of which the
bits above the characters assembled are undefined (R363). -/
def State.bufferIntoMemory (s : State) (code : BitVec 6) (ch : ChannelId) (r : Ref) : Result :=
  s.atEA code r fun t =>
    let c := s.chan ch
    if !c.output && c.wordReady then
      .next (((s.write t (keepLow c.fullBits c.war s.freeWord)).draw 1).setChan ch
        { c with wordReady := false }).sequential
    else .next (s.holdAt code t)

/-- MIW (R380). -/
def execMiw (r : Ref) (s : State) : Result := s.memoryIntoBuffer 0o12 .w r
/-- MIY (R382). -/
def execMiy (r : Ref) (s : State) : Result := s.memoryIntoBuffer 0o10 .y r
/-- WIM (R381). -/
def execWim (r : Ref) (s : State) : Result := s.bufferIntoMemory 0o32 .w r
/-- YIM (R383). -/
def execYim (r : Ref) (s : State) : Result := s.bufferIntoMemory 0o30 .y r

/-! ### Parallel input and output -/

/-- All the channels, in their order. -/
def allChannels : List ChannelId := [.w, .y, .c, .d, .e, .f, .g, .h]

/-- The channels whose interlace is alerted. -/
def State.ilcAlerted (s : State) : List ChannelId := allChannels.filter fun ch => (s.chan ch).ilcAlert

/-- The channels alerted to give their address. -/
def State.ascAlerted (s : State) : List ChannelId := allChannels.filter fun ch => (s.chan ch).ascAlert

/-- The request to the external device, sent once as the instruction begins (log 48). -/
def State.request (s : State) (m : Message) : State := if s.cState = .waiting then s else s.send m

/-- PIN (R388): a channel's MAR after ASC, else the external device's word when it is ready. -/
def execPin (r : Ref) (s : State) : Result :=
  s.atEA 0o33 r fun t =>
    match s.ascAlerted with
    | [] =>
      let u := s.request .pinRequest
      match s.lines.pinReady with
      | some v => .next { u.write t v with lines := { s.lines with pinReady := none } }.sequential
      | none => .next (u.holdAt 0o33 t)
    | [ch] =>
      .next ((s.write t (0#10 ++ (s.chan ch).mar.setWidth 14)).setChan ch
        { s.chan ch with ascAlert := false }).sequential
    | _ => .refused .multipleAlerts

/-- How many units a POT could go to (R389). -/
def State.potAlerts (s : State) : Nat :=
  s.airAlert.toNat + s.ilcAlerted.length + s.dmsSelect.isSome.toNat

/-- POT (R389, D36): the arm-interrupt unit, else the alerted interlace, else the selected subchannel, else the external
device when it is ready. The operand is read once, before the wait, and stays in M. -/
def execPot (r : Ref) (s : State) : Result :=
  s.atEA 0o13 r fun t =>
    let m := s.operand t
    if 1 < s.potAlerts then .refused .multipleAlerts
    else if s.airAlert then .next (s.armInterrupts m).sequential
    else
      match s.ilcAlerted with
      | ch :: _ =>
        if ((s.chan ch).loaded m).wcr = 0 then .refused .zeroCountLoad
        else .next (s.loadInterlace ch m).sequential
      | [] =>
        match s.dmsSelect with
        | some (n, c) => .next { s.send (.dmsOut n c m) with dmsSelect := none }.sequential
        | none =>
          let u := s.request .potRequest
          if s.lines.potReady then
            .next { u.send (.potOut m) with lines := { s.lines with potReady := false } }.sequential
          else .next { u.holdAt 0o13 t with m := m }

end Sys2Proof.Machine
end

