-- ==== Sys2Proof/Machine/Devices.lean ====
section
/-! DEFINITION. The device instructions (49_io_devices): to the machine a connect is a Buffer Control word, a device
command an Input/Output Control word and a test a Device Test; what the device then does is the host's (R431). -/

namespace Sys2Proof.Machine

open Sys2Proof

/-- The Buffer Control fields of a device instruction: its free fields, bits 12 to 14 and the unit (R432). -/
def devConn (k : DevFn) (reverse noLeader binary : Bool) (unit : BitVec 6) : Conn :=
  { alert := k.alert, reverse := reverse, noLeader := noLeader, binary := binary, cpw := k.cpw, unit := unit }

/-! ### Connects -/

/-- RKB (R434). -/
def execRkb (ch : ChannelId) (k : DevFn) (s : State) : Result := s.bufferControl ch (devConn k false true false 0o01)
/-- TYP (R435). -/
def execTyp (ch : ChannelId) (k : DevFn) (s : State) : Result := s.bufferControl ch (devConn k false true false 0o41)
/-- RPT (R437). -/
def execRpt (ch : ChannelId) (k : DevFn) (s : State) : Result := s.bufferControl ch (devConn k false true false 0o04)
/-- PTL (R438). -/
def execPtl (ch : ChannelId) (k : DevFn) (s : State) : Result := s.bufferControl ch (devConn k false false false 0o44)
/-- PPT (R439). -/
def execPpt (ch : ChannelId) (k : DevFn) (s : State) : Result := s.bufferControl ch (devConn k false true false 0o44)
/-- RCD (R444). -/
def execRcd (ch : ChannelId) (k : DevFn) (s : State) : Result := s.bufferControl ch (devConn k false true false 0o06)
/-- RCB (R445). -/
def execRcb (ch : ChannelId) (k : DevFn) (s : State) : Result := s.bufferControl ch (devConn k false true true 0o06)
/-- PCD (R449). -/
def execPcd (ch : ChannelId) (k : DevFn) (s : State) : Result := s.bufferControl ch (devConn k false true false 0o46)
/-- PCB (R450). -/
def execPcb (ch : ChannelId) (k : DevFn) (s : State) : Result := s.bufferControl ch (devConn k false true true 0o46)
/-- PLP (R479). -/
def execPlp (ch : ChannelId) (k : DevFn) (s : State) : Result := s.bufferControl ch (devConn k false true false 0o60)
/-- WTB (R466). -/
def execWtb (ch : ChannelId) (k : DevFn) (n : BitVec 3) (s : State) : Result :=
  s.bufferControl ch (devConn k false true true (0b101#3 ++ n))
/-- WTD (R467). -/
def execWtd (ch : ChannelId) (k : DevFn) (n : BitVec 3) (s : State) : Result :=
  s.bufferControl ch (devConn k false true false (0b101#3 ++ n))
/-- EFT (R468). -/
def execEft (ch : ChannelId) (k : DevFn) (n : BitVec 3) (s : State) : Result :=
  s.bufferControl ch (devConn k false true true (0b111#3 ++ n))
/-- ERT (R469). -/
def execErt (ch : ChannelId) (k : DevFn) (n : BitVec 3) (s : State) : Result :=
  s.bufferControl ch (devConn k true true true (0b111#3 ++ n))
/-- RTB (R470). -/
def execRtb (ch : ChannelId) (k : DevFn) (n : BitVec 3) (s : State) : Result :=
  s.bufferControl ch (devConn k false true true (0b001#3 ++ n))
/-- RTD (R471). -/
def execRtd (ch : ChannelId) (k : DevFn) (n : BitVec 3) (s : State) : Result :=
  s.bufferControl ch (devConn k false true false (0b001#3 ++ n))
/-- SFB (R472). -/
def execSfb (ch : ChannelId) (k : DevFn) (n : BitVec 3) (s : State) : Result :=
  s.bufferControl ch (devConn k false true true (0b011#3 ++ n))
/-- SFD (R473). -/
def execSfd (ch : ChannelId) (k : DevFn) (n : BitVec 3) (s : State) : Result :=
  s.bufferControl ch (devConn k false true false (0b011#3 ++ n))
/-- SRB (R474). -/
def execSrb (ch : ChannelId) (k : DevFn) (n : BitVec 3) (s : State) : Result :=
  s.bufferControl ch (devConn k true true true (0b011#3 ++ n))
/-- SRD (R475). -/
def execSrd (ch : ChannelId) (k : DevFn) (n : BitVec 3) (s : State) : Result :=
  s.bufferControl ch (devConn k true true false (0b011#3 ++ n))

/-! ### Device commands -/

/-- SRC (R446). -/
def execSrc (ch : ChannelId) (s : State) : Result := s.ioControl ch false 0b01000 0o06
/-- SRR (R477). -/
def execSrr (ch : ChannelId) (s : State) : Result := s.ioControl ch false 0b01111 0o10
/-- POL (R480). -/
def execPol (ch : ChannelId) (s : State) : Result := s.ioControl ch false 0b00001 0o60
/-- RTS (R463: the word of TOP). -/
def execRts (ch : ChannelId) (s : State) : Result := s.ioControl ch false 0b10000 0
/-- REW (R476). -/
def execRew (ch : ChannelId) (n : BitVec 3) (s : State) : Result := s.ioControl ch false 0b10000 (0b001#3 ++ n)
/-- PSC (R481). -/
def execPsc (ch : ChannelId) (n : BitVec 3) (s : State) : Result := s.ioControl ch false (n ++ 0b10#2) 0o60
/-- PSP (R482). -/
def execPsp (ch : ChannelId) (n : BitVec 3) (s : State) : Result := s.ioControl ch false (n ++ 0b11#2) 0o60

/-! ### Tests -/

/-- CRT (R441). -/
def execCrt (ch : ChannelId) (s : State) : Result := s.deviceTest ch 0b01000 0o06
/-- FCT (R442). -/
def execFct (ch : ChannelId) (s : State) : Result := s.deviceTest ch 0b10000 0o06
/-- CFT (R443). -/
def execCft (ch : ChannelId) (s : State) : Result := s.deviceTest ch 0b00100 0o06
/-- PBT (R447). -/
def execPbt (ch : ChannelId) (s : State) : Result := s.deviceTest ch 0b01000 0o46
/-- CPT (R448). -/
def execCpt (ch : ChannelId) (s : State) : Result := s.deviceTest ch 0b10000 0o46
/-- TFT (R462). -/
def execTft (ch : ChannelId) (s : State) : Result := s.deviceTest ch 0b01111 0o10
/-- PFT (R483). -/
def execPft (ch : ChannelId) (s : State) : Result := s.deviceTest ch 0b00100 0o60
/-- PRT (R486). -/
def execPrt (ch : ChannelId) (s : State) : Result := s.deviceTest ch 0b01000 0o60
/-- EPT (R487). -/
def execEpt (ch : ChannelId) (s : State) : Result := s.deviceTest ch 0b10000 0o60
/-- TRT (R455). -/
def execTrt (ch : ChannelId) (n : BitVec 3) (s : State) : Result := s.deviceTest ch 0b00010 (0b001#3 ++ n)
/-- FPT (R456). -/
def execFpt (ch : ChannelId) (n : BitVec 3) (s : State) : Result := s.deviceTest ch 0b10000 (0b001#3 ++ n)
/-- BTT (R457). -/
def execBtt (ch : ChannelId) (n : BitVec 3) (s : State) : Result := s.deviceTest ch 0b01000 (0b001#3 ++ n)
/-- ETT (R458). -/
def execEtt (ch : ChannelId) (n : BitVec 3) (s : State) : Result := s.deviceTest ch 0b00100 (0b001#3 ++ n)
/-- DT2 (R459). -/
def execDt2 (ch : ChannelId) (n : BitVec 3) (s : State) : Result := s.deviceTest ch 0b11001 (0b001#3 ++ n)
/-- DT5 (R460). -/
def execDt5 (ch : ChannelId) (n : BitVec 3) (s : State) : Result := s.deviceTest ch 0b11011 (0b001#3 ++ n)
/-- DT8 (R461). -/
def execDt8 (ch : ChannelId) (n : BitVec 3) (s : State) : Result := s.deviceTest ch 0b11101 (0b001#3 ++ n)
/-- TGT (R464). -/
def execTgt (ch : ChannelId) (n : BitVec 3) (s : State) : Result := s.deviceTest ch 0b01011 (0b001#3 ++ n)
/-- The MAGPAK test (R465). -/
def execMagpak (ch : ChannelId) (n : BitVec 3) (s : State) : Result := s.deviceTest ch 0b00001 (0b001#3 ++ n)

end Sys2Proof.Machine
end

