-- ==== Sys2Proof/Machine/LoadStore.lean ====
section
/-! DEFINITION. The load and store instructions (40_load_store). -/

namespace Sys2Proof.Machine

open Sys2Proof

/-- LDA (R141). -/
def execLda (r : Ref) (s : State) : Result := s.withOperand 0o76 r fun m => { s with a := m }.sequential

/-- STA (R142). -/
def execSta (r : Ref) (s : State) : Result := s.atEA 0o35 r fun t => .next (s.write t s.a).sequential

/-- LDB (R143). -/
def execLdb (r : Ref) (s : State) : Result := s.withOperand 0o75 r fun m => { s with b := m }.sequential

/-- STB (R144). -/
def execStb (r : Ref) (s : State) : Result := s.atEA 0o36 r fun t => .next (s.write t s.b).sequential

/-- LDX (R145): all 24 bits, the carry position with them. -/
def execLdx (r : Ref) (s : State) : Result := s.withOperand 0o71 r fun m => { s with x := m }.sequential

/-- STX (R146). -/
def execStx (r : Ref) (s : State) : Result := s.atEA 0o37 r fun t => .next (s.write t s.x).sequential

/-- EAX (R147): the address itself, to bits 10 to 23 of X. -/
def execEax (r : Ref) (s : State) : Result :=
  s.atEA 0o77 r fun t => .next { s with x := setAddrField s.x t }.sequential

/-- XMA (R148). A refused store still loads A (D31). -/
def execXma (r : Ref) (s : State) : Result :=
  s.atEA 0o62 r fun t => .next { s.write t s.a with a := s.operand t }.sequential

end Sys2Proof.Machine
end

