-- ==== Sys2Proof/Machine/Logical.lean ====
section
/-! DEFINITION. The logical instructions (42_logical). -/

namespace Sys2Proof.Machine

open Sys2Proof

/-- ETR (R190). -/
def execEtr (r : Ref) (s : State) : Result := s.withOperand 0o14 r fun m => { s with a := s.a &&& m }.sequential

/-- MRG (R191). -/
def execMrg (r : Ref) (s : State) : Result := s.withOperand 0o16 r fun m => { s with a := s.a ||| m }.sequential

/-- EOR (R192). -/
def execEor (r : Ref) (s : State) : Result := s.withOperand 0o17 r fun m => { s with a := s.a ^^^ m }.sequential

end Sys2Proof.Machine
end

