-- ==== Sys2Proof/Machine/RegisterChange.lean ====
section
/-! DEFINITION. The register change instructions, code 46 (43_register_change). -/

namespace Sys2Proof.Machine

open Sys2Proof

/-- `v` where the function bit is set, nothing to merge otherwise. -/
def pick (c : Bool) (v : Word) : Word := if c then v else 0

/-- A destination in full-word mode: the merge of the copies into it; cleared where there is no copy and the clear bit
is set (R201). -/
def merged (anyCopy : Bool) (src : Word) (clear : Bool) (old : Word) : Word :=
  if anyCopy then src else if clear then 0 else old

/-- The three registers after a register-change word of bits `f`, all from the old values (R201). -/
def State.registerChange (s : State) (f : RegFn) : State :=
  if f.expOnly then
    { s with
      b := setLow9 s.b (if f.xToB then low9 s.x else if f.clearB then 0 else low9 s.b)
      x := if f.bToX then sext9 (low9 s.b) else s.x }
  else
    { s with
      a := merged (f.bToA || f.xToA || f.negA) (pick f.bToA s.b ||| pick f.xToA s.x ||| pick f.negA (-s.a)) f.clearA s.a
      b := merged (f.aToB || f.xToB) (pick f.aToB s.a ||| pick f.xToB s.x) f.clearB s.b
      x := merged (f.aToX || f.bToX) (pick f.aToX s.a ||| pick f.bToX s.b) f.clearX s.x }

/-- Bit 17 with a function bit that involves A or with Clear X: not defined (R221). -/
def undefinedExp (f : RegFn) : Bool :=
  f.expOnly && (f.negA || f.aToX || f.xToA || f.bToA || f.aToB || f.clearA || f.clearX)

/-- CLA (R202). -/
def execCla (s : State) : Result := .next (s.registerChange { clearA := true }).sequential
/-- CLB (R203). -/
def execClb (s : State) : Result := .next (s.registerChange { clearB := true }).sequential
/-- CLR (R204). -/
def execClr (s : State) : Result := .next (s.registerChange { clearB := true, clearA := true }).sequential
/-- CAB (R205). -/
def execCab (s : State) : Result := .next (s.registerChange { aToB := true }).sequential
/-- CBA (R206). -/
def execCba (s : State) : Result := .next (s.registerChange { bToA := true }).sequential
/-- XAB (R207). -/
def execXab (s : State) : Result := .next (s.registerChange { bToA := true, aToB := true }).sequential
/-- BAC (R208). -/
def execBac (s : State) : Result := .next (s.registerChange { bToA := true, clearB := true }).sequential
/-- ABC (R209). -/
def execAbc (s : State) : Result := .next (s.registerChange { aToB := true, clearA := true }).sequential
/-- CLX (R210). -/
def execClx (s : State) : Result := .next (s.registerChange { clearX := true }).sequential
/-- CXA (R211). -/
def execCxa (s : State) : Result := .next (s.registerChange { xToA := true }).sequential
/-- CAX (R212). -/
def execCax (s : State) : Result := .next (s.registerChange { aToX := true }).sequential
/-- XXA (R213). -/
def execXxa (s : State) : Result := .next (s.registerChange { aToX := true, xToA := true }).sequential
/-- CBX (R214). -/
def execCbx (s : State) : Result := .next (s.registerChange { bToX := true }).sequential
/-- CXB (R215). -/
def execCxb (s : State) : Result := .next (s.registerChange { xToB := true }).sequential
/-- XXB (R216). -/
def execXxb (s : State) : Result := .next (s.registerChange { xToB := true, bToX := true }).sequential
/-- STE (R217). -/
def execSte (s : State) : Result :=
  .next (s.registerChange { expOnly := true, bToX := true, clearB := true }).sequential
/-- LDE (R218). -/
def execLde (s : State) : Result := .next (s.registerChange { expOnly := true, xToB := true }).sequential
/-- XEE (R219). -/
def execXee (s : State) : Result :=
  .next (s.registerChange { expOnly := true, xToB := true, bToX := true }).sequential
/-- CNA (R220): OV is not written (D23). -/
def execCna (s : State) : Result := .next (s.registerChange { negA := true }).sequential
/-- Any other combination of the function bits (R201, R221). -/
def execRch (f : RegFn) (s : State) : Result :=
  if undefinedExp f then .refused .undefinedRegisterChange else .next (s.registerChange f).sequential

end Sys2Proof.Machine
end

