-- ==== Sys2Proof/Machine/Shift.lean ====
section
/-! DEFINITION. The shift instructions (46_shift). The kind and the count are read from the shift effective address,
so every shift runs the one function of its code (R280). -/

namespace Sys2Proof.Machine

open Sys2Proof

/-- The count of a shift (R281). -/
def shiftCount (t : Addr) : Nat := min (t.setWidth 9).toNat 48

/-- Bits 10 to 14 of the shift effective address: the kind (R280). -/
def shiftKind (t : Addr) : Nat := (t.extractLsb' 9 5).toNat

/-- `n` places left, zeros entering on the right, and whether a bit unlike the original sign reached the sign position
(LSH, R285). -/
def leftShift (v : BitVec 48) (sign : Bool) : Nat → Bool → BitVec 48 × Bool
  | 0, ov => (v, ov)
  | n + 1, ov =>
    let w := v <<< (1 : Nat)
    leftShift w sign n (ov || w.msb != sign)

/-- Places shifted by NOD: left until bits 0 and 1 differ, at most `n` places (R287). -/
def normalizeLeft (v : BitVec 48) : Nat → Nat → BitVec 48 × Nat
  | 0, k => (v, k)
  | n + 1, k => if v.getMsbD 0 == v.getMsbD 1 then normalizeLeft (v <<< (1 : Nat)) n (k + 1) else (v, k)

/-- Code 66 at shift effective address `t` (R280, R282 to R284). -/
def State.shiftRight (s : State) (t : Addr) : Result :=
  let v := joinAB s.a s.b
  let n := shiftCount t
  match shiftKind t with
  | 0b00000 => .next (s.setAB (v.sshiftRight n)).sequential
  | 0b10000 => .next (s.setAB (v.rotateRight n)).sequential
  | 0b10100 => .next (s.setAB (v >>> n)).sequential
  | _ => .refused .undefinedShift

/-- Code 67 at shift effective address `t` (R280, R285 to R287). -/
def State.shiftLeft (s : State) (t : Addr) : Result :=
  let v := joinAB s.a s.b
  let n := shiftCount t
  match shiftKind t with
  | 0b00000 =>
    let w := leftShift v v.msb n false
    .next { s.setAB w.1 with ov := s.ov || w.2 }.sequential
  | 0b10000 => .next (s.setAB (v.rotateLeft n)).sequential
  | 0b01000 =>
    let w := normalizeLeft v n 0
    .next { s.setAB w.1 with x := s.x - BitVec.ofNat 24 w.2 }.sequential
  | _ => .refused .undefinedShift

/-- A shift word: `k` at its shift effective address (30_encoding R108). -/
def State.atShiftEA (s : State) (code : BitVec 6) (r : Ref) (k : Addr → Result) : Result :=
  match s.shiftEA r with
  | .addr t => k t
  | .endless t => .next (s.holdChain code t)

/-- RSH (R282). -/
def execRsh (r : Ref) (s : State) : Result := s.atShiftEA 0o66 r s.shiftRight
/-- RCY (R284). -/
def execRcy (r : Ref) (s : State) : Result := s.atShiftEA 0o66 r s.shiftRight
/-- LRSH (R283). -/
def execLrsh (r : Ref) (s : State) : Result := s.atShiftEA 0o66 r s.shiftRight
/-- LSH (R285). -/
def execLsh (r : Ref) (s : State) : Result := s.atShiftEA 0o67 r s.shiftLeft
/-- LCY (R286). -/
def execLcy (r : Ref) (s : State) : Result := s.atShiftEA 0o67 r s.shiftLeft
/-- NOD (R287). -/
def execNod (r : Ref) (s : State) : Result := s.atShiftEA 0o67 r s.shiftLeft

end Sys2Proof.Machine
end

