-- ==== Sys2Proof/Machine/TestSkip.lean ====
section
/-! DEFINITION. The test and skip instructions (45_test_skip). -/

namespace Sys2Proof.Machine

open Sys2Proof

/-- SKE (R261). -/
def execSke (r : Ref) (s : State) : Result := s.withOperand 0o50 r fun m => s.skipIf (s.a == m)

/-- SKG (R262): a signed comparison. -/
def execSkg (r : Ref) (s : State) : Result := s.withOperand 0o73 r fun m => s.skipIf (m.toInt < s.a.toInt)

/-- SKM (R263). -/
def execSkm (r : Ref) (s : State) : Result := s.withOperand 0o70 r fun m => s.skipIf ((s.a ^^^ m) &&& s.b == 0)

/-- SKA (R264). -/
def execSka (r : Ref) (s : State) : Result := s.withOperand 0o72 r fun m => s.skipIf (s.a &&& m == 0)

/-- SKB (R265). -/
def execSkb (r : Ref) (s : State) : Result := s.withOperand 0o52 r fun m => s.skipIf (s.b &&& m == 0)

/-- SKN (R266). -/
def execSkn (r : Ref) (s : State) : Result := s.withOperand 0o53 r fun m => s.skipIf m.msb

/-- When an SKR in location 75 requests Clock Sync: the open parameter of 60 R549. -/
def skrSyncs (c : SkrSync) (v : Word) : Bool :=
  match c with
  | .never => false
  | .resultZero => v == 0
  | .resultNegative => v.msb

/-- SKR (R267; 60 R549). -/
def execSkr (r : Ref) (s : State) : Result :=
  s.atEA 0o60 r fun t =>
    let m := s.operand t
    let v := m - 1
    .next (({ s.write t v with ov := s.ov || m == 0o40000000 }.clockSync (skrSyncs s.cfg.skrSync v)).skipIf v.msb)

/-- SKD (R268): bits 0 to 14 of X are undefined afterwards (log 11). -/
def execSkd (r : Ref) (s : State) : Result :=
  s.withOperand 0o74 r fun m =>
    let sg := s.cfg.skdSigned
    let d := exponentDistance sg (low9 s.b) (low9 m)
    ({ s with x := setLow9 s.freeWord d }.draw 1).skipIf
      (exponentValue sg (low9 s.b) < exponentValue sg (low9 m))

end Sys2Proof.Machine
end

