-- ==== Sys2Proof/Machine/Dispatch.lean ====
section
/-! DEFINITION. The dispatch: one arm per instruction, each one call of its meaning. -/

namespace Sys2Proof.Machine

open Sys2Proof

def exec (i : Instr) (s : State) : Host.Outcome State Fault Refusal :=
  match i with
  | .lda r => Sys2Proof.Machine.execLda r s
  | .sta r => Sys2Proof.Machine.execSta r s
  | .ldb r => Sys2Proof.Machine.execLdb r s
  | .stb r => Sys2Proof.Machine.execStb r s
  | .ldx r => Sys2Proof.Machine.execLdx r s
  | .stx r => Sys2Proof.Machine.execStx r s
  | .eax r => Sys2Proof.Machine.execEax r s
  | .xma r => Sys2Proof.Machine.execXma r s
  | .add r => Sys2Proof.Machine.execAdd r s
  | .adc r => Sys2Proof.Machine.execAdc r s
  | .adm r => Sys2Proof.Machine.execAdm r s
  | .min r => Sys2Proof.Machine.execMin r s
  | .sub r => Sys2Proof.Machine.execSub r s
  | .suc r => Sys2Proof.Machine.execSuc r s
  | .mul r => Sys2Proof.Machine.execMul r s
  | .div r => Sys2Proof.Machine.execDiv r s
  | .etr r => Sys2Proof.Machine.execEtr r s
  | .mrg r => Sys2Proof.Machine.execMrg r s
  | .eor r => Sys2Proof.Machine.execEor r s
  | .bru r => Sys2Proof.Machine.execBru r s
  | .brx r => Sys2Proof.Machine.execBrx r s
  | .brm r => Sys2Proof.Machine.execBrm r s
  | .brr r => Sys2Proof.Machine.execBrr r s
  | .ske r => Sys2Proof.Machine.execSke r s
  | .skg r => Sys2Proof.Machine.execSkg r s
  | .skm r => Sys2Proof.Machine.execSkm r s
  | .ska r => Sys2Proof.Machine.execSka r s
  | .skb r => Sys2Proof.Machine.execSkb r s
  | .skn r => Sys2Proof.Machine.execSkn r s
  | .skr r => Sys2Proof.Machine.execSkr r s
  | .skd r => Sys2Proof.Machine.execSkd r s
  | .exu r => Sys2Proof.Machine.execExu r s
  | .miw r => Sys2Proof.Machine.execMiw r s
  | .wim r => Sys2Proof.Machine.execWim r s
  | .miy r => Sys2Proof.Machine.execMiy r s
  | .yim r => Sys2Proof.Machine.execYim r s
  | .pin r => Sys2Proof.Machine.execPin r s
  | .pot r => Sys2Proof.Machine.execPot r s
  | .hlt => Sys2Proof.Machine.execHlt s
  | .nop => Sys2Proof.Machine.execNop s
  | .pop code r => Sys2Proof.Machine.execPop code r s
  | .cla => Sys2Proof.Machine.execCla s
  | .clb => Sys2Proof.Machine.execClb s
  | .clr => Sys2Proof.Machine.execClr s
  | .cab => Sys2Proof.Machine.execCab s
  | .cba => Sys2Proof.Machine.execCba s
  | .xab => Sys2Proof.Machine.execXab s
  | .bac => Sys2Proof.Machine.execBac s
  | .abc => Sys2Proof.Machine.execAbc s
  | .clx => Sys2Proof.Machine.execClx s
  | .cxa => Sys2Proof.Machine.execCxa s
  | .cax => Sys2Proof.Machine.execCax s
  | .xxa => Sys2Proof.Machine.execXxa s
  | .cbx => Sys2Proof.Machine.execCbx s
  | .cxb => Sys2Proof.Machine.execCxb s
  | .xxb => Sys2Proof.Machine.execXxb s
  | .ste => Sys2Proof.Machine.execSte s
  | .lde => Sys2Proof.Machine.execLde s
  | .xee => Sys2Proof.Machine.execXee s
  | .cna => Sys2Proof.Machine.execCna s
  | .rch f => Sys2Proof.Machine.execRch f s
  | .rsh r => Sys2Proof.Machine.execRsh r s
  | .rcy r => Sys2Proof.Machine.execRcy r s
  | .lrsh r => Sys2Proof.Machine.execLrsh r s
  | .lsh r => Sys2Proof.Machine.execLsh r s
  | .lcy r => Sys2Proof.Machine.execLcy r s
  | .nod r => Sys2Proof.Machine.execNod r s
  | .eom f => Sys2Proof.Machine.execEom f s
  | .eod f => Sys2Proof.Machine.execEod f s
  | .sks f => Sys2Proof.Machine.execSks f s
  | .connect ch k => Sys2Proof.Machine.execConnect ch k s
  | .dsc ch => Sys2Proof.Machine.execDsc ch s
  | .alc ch => Sys2Proof.Machine.execAlc ch s
  | .asc ch => Sys2Proof.Machine.execAsc ch s
  | .top ch => Sys2Proof.Machine.execTop ch s
  | .ilc ch k => Sys2Proof.Machine.execIlc ch k s
  | .ioctl ch fn unit => Sys2Proof.Machine.execIoctl ch fn unit s
  | .syseom k => Sys2Proof.Machine.execSyseom k s
  | .rov => Sys2Proof.Machine.execRov s
  | .eir => Sys2Proof.Machine.execEir s
  | .dir => Sys2Proof.Machine.execDir s
  | .reo => Sys2Proof.Machine.execReo s
  | .air => Sys2Proof.Machine.execAir s
  | .rtcarm => Sys2Proof.Machine.execRtcarm s
  | .rtcdisarm => Sys2Proof.Machine.execRtcdisarm s
  | .setext s3 s2 r3 r2 => Sys2Proof.Machine.execSetext s3 s2 r3 r2 s
  | .ovt => Sys2Proof.Machine.execOvt s
  | .idt => Sys2Proof.Machine.execIdt s
  | .iet => Sys2Proof.Machine.execIet s
  | .betw => Sys2Proof.Machine.execBetw s
  | .bety => Sys2Proof.Machine.execBety s
  | .bpt4 => Sys2Proof.Machine.execBpt4 s
  | .bpt3 => Sys2Proof.Machine.execBpt3 s
  | .bpt2 => Sys2Proof.Machine.execBpt2 s
  | .bpt1 => Sys2Proof.Machine.execBpt1 s
  | .brtw => Sys2Proof.Machine.execBrtw s
  | .brty => Sys2Proof.Machine.execBrty s
  | .pfst => Sys2Proof.Machine.execPfst s
  | .exttest t3 t2 => Sys2Proof.Machine.execExttest t3 t2 s
  | .syssks k => Sys2Proof.Machine.execSyssks k s
  | .devtest ch test unit => Sys2Proof.Machine.execDevtest ch test unit s
  | .cat ch => Sys2Proof.Machine.execCat ch s
  | .czt ch => Sys2Proof.Machine.execCzt ch s
  | .cet ch => Sys2Proof.Machine.execCet ch s
  | .cit ch => Sys2Proof.Machine.execCit ch s
  | .rkb ch k => Sys2Proof.Machine.execRkb ch k s
  | .typ ch k => Sys2Proof.Machine.execTyp ch k s
  | .rpt ch k => Sys2Proof.Machine.execRpt ch k s
  | .ptl ch k => Sys2Proof.Machine.execPtl ch k s
  | .ppt ch k => Sys2Proof.Machine.execPpt ch k s
  | .rcd ch k => Sys2Proof.Machine.execRcd ch k s
  | .rcb ch k => Sys2Proof.Machine.execRcb ch k s
  | .pcd ch k => Sys2Proof.Machine.execPcd ch k s
  | .pcb ch k => Sys2Proof.Machine.execPcb ch k s
  | .wtb ch k n => Sys2Proof.Machine.execWtb ch k n s
  | .wtd ch k n => Sys2Proof.Machine.execWtd ch k n s
  | .eft ch k n => Sys2Proof.Machine.execEft ch k n s
  | .ert ch k n => Sys2Proof.Machine.execErt ch k n s
  | .rtb ch k n => Sys2Proof.Machine.execRtb ch k n s
  | .rtd ch k n => Sys2Proof.Machine.execRtd ch k n s
  | .sfb ch k n => Sys2Proof.Machine.execSfb ch k n s
  | .sfd ch k n => Sys2Proof.Machine.execSfd ch k n s
  | .srb ch k n => Sys2Proof.Machine.execSrb ch k n s
  | .srd ch k n => Sys2Proof.Machine.execSrd ch k n s
  | .plp ch k => Sys2Proof.Machine.execPlp ch k s
  | .src ch => Sys2Proof.Machine.execSrc ch s
  | .rts ch => Sys2Proof.Machine.execRts ch s
  | .rew ch n => Sys2Proof.Machine.execRew ch n s
  | .srr ch => Sys2Proof.Machine.execSrr ch s
  | .pol ch => Sys2Proof.Machine.execPol ch s
  | .psc ch n => Sys2Proof.Machine.execPsc ch n s
  | .psp ch n => Sys2Proof.Machine.execPsp ch n s
  | .crt ch => Sys2Proof.Machine.execCrt ch s
  | .fct ch => Sys2Proof.Machine.execFct ch s
  | .cft ch => Sys2Proof.Machine.execCft ch s
  | .pbt ch => Sys2Proof.Machine.execPbt ch s
  | .cpt ch => Sys2Proof.Machine.execCpt ch s
  | .trt ch n => Sys2Proof.Machine.execTrt ch n s
  | .fpt ch n => Sys2Proof.Machine.execFpt ch n s
  | .btt ch n => Sys2Proof.Machine.execBtt ch n s
  | .ett ch n => Sys2Proof.Machine.execEtt ch n s
  | .dt2 ch n => Sys2Proof.Machine.execDt2 ch n s
  | .dt5 ch n => Sys2Proof.Machine.execDt5 ch n s
  | .dt8 ch n => Sys2Proof.Machine.execDt8 ch n s
  | .tgt ch n => Sys2Proof.Machine.execTgt ch n s
  | .magpak ch n => Sys2Proof.Machine.execMagpak ch n s
  | .tft ch => Sys2Proof.Machine.execTft ch s
  | .pft ch => Sys2Proof.Machine.execPft ch s
  | .prt ch => Sys2Proof.Machine.execPrt ch s
  | .ept ch => Sys2Proof.Machine.execEpt ch s

end Sys2Proof.Machine
end

