-- ==== Sys2Proof/Machine/Timing.lean ====
section
/-! DEFINITION. Instruction times in memory cycles (70 R615, 46 R288), without waits. They matter to the machine only
for the instruction of a single-instruction interrupt (60 R533; log 49). -/

namespace Sys2Proof.Machine

open Sys2Proof

/-- The levels of indirect addressing of a word: one cycle each (30_encoding R115). -/
def State.levels (s : State) : Nat → Bool → Bool → Addr → Nat
  | 0, _, _, _ => 0
  | n + 1, indexed, indirect, a =>
    if indirect then
      let w := s.read (s.indexedAddr indexed a)
      s.levels n (bit w 1) (bit w 9) (addrField w) + 1
    else 0

/-- The instruction skips: what P would be after it, in sequence from 0. -/
def State.skips (s : State) (i : Instr) : Bool :=
  match exec i { s with origin := .sequence, p := 0, console := { s.console with hold := false } } with
  | .next t => t.p == 2
  | _ => false

/-- The cycles of a right shift by its count (46 R288). -/
def rightShiftCycles (n : Nat) : Nat :=
  if n ≤ 3 then 2 else if n ≤ 14 then 3 else if n ≤ 25 then 4
  else if n ≤ 36 then 5 else if n ≤ 47 then 6 else 7

/-- The cycles of a left shift by its count (46 R288, D30). -/
def leftShiftCycles (n : Nat) : Nat := if n ≤ 6 then 2 else if n ≤ 28 then 3 else 4

/-- The shift effective address, zero in an endless chain. -/
def State.shiftAddr (s : State) (r : Ref) : Addr :=
  match s.shiftEA r with
  | .addr t => t
  | .endless _ => 0

/-- The count that sets the time of a left shift: for NOD the places shifted (46 R288; log 49). -/
def State.leftCount (s : State) (t : Addr) : Nat :=
  if shiftKind t = 0b01000 then (normalizeLeft (joinAB s.a s.b) (shiftCount t) 0).2 else shiftCount t

/-- The cycles of an instruction; the time of a Programmed Operator is not stated. EXU's is its own, without its
subject's. -/
def cycles (i : Instr) (s : State) : Option Nat :=
  let at_ (r : Ref) (n : Nat) : Option Nat := some (n + s.levels chainBound r.indexed r.indirect r.addr)
  let skip (n : Nat) : Option Nat := some (if s.skips i then n + 1 else n)
  match i with
  | .lda r | .ldb r | .ldx r | .eax r | .add r | .adc r | .sub r | .suc r | .etr r | .mrg r | .eor r
  | .brm r | .brr r | .miw r | .miy r => at_ r 2
  | .sta r | .stb r | .stx r | .xma r | .adm r | .min r | .skr r | .wim r | .yim r | .pot r => at_ r 3
  | .mul r | .pin r => at_ r 4
  | .div r => at_ r 10
  | .bru r | .exu r => at_ r 1
  | .brx r => at_ r (if bit (s.x + 1) 9 then 1 else 2)
  | .ske r | .skg r | .skm r | .ska r | .skb r | .skn r | .skd r => at_ r (if s.skips i then 3 else 2)
  | .rsh r | .rcy r | .lrsh r => at_ r (rightShiftCycles (shiftCount (s.shiftAddr r)))
  | .lsh r | .lcy r | .nod r => at_ r (leftShiftCycles (s.leftCount (s.shiftAddr r)))
  | .pop _ _ => none
  | .ovt | .idt | .iet | .betw | .bety | .bpt4 | .bpt3 | .bpt2 | .bpt1 | .brtw | .brty | .pfst | .exttest _ _ =>
    skip 1
  | .sks f => if f.mode.getLsbD 0 then skip 2 else skip 1
  | .syssks _ | .devtest _ _ _ | .cat _ | .czt _ | .cet _ | .cit _ | .crt _ | .fct _ | .cft _ | .pbt _ | .cpt _
  | .trt _ _ | .fpt _ _ | .btt _ _ | .ett _ _ | .dt2 _ _ | .dt5 _ _ | .dt8 _ _ | .tgt _ _ | .magpak _ _ | .tft _
  | .pft _ | .prt _ | .ept _ => skip 2
  | .hlt | .nop | .cla | .clb | .clr | .cab | .cba | .xab | .bac | .abc | .clx | .cxa | .cax | .xxa | .cbx | .cxb
  | .xxb | .ste | .lde | .xee | .cna | .rch _ | .eom _ | .eod _ | .connect _ _ | .dsc _ | .alc _ | .asc _ | .top _
  | .ilc _ _ | .ioctl _ _ _ | .syseom _ | .rov | .eir | .dir | .reo | .air | .rtcarm | .rtcdisarm
  | .setext _ _ _ _ | .rkb _ _ | .typ _ _ | .rpt _ _ | .ptl _ _ | .ppt _ _ | .rcd _ _ | .rcb _ _ | .pcd _ _
  | .pcb _ _ | .wtb _ _ _ | .wtd _ _ _ | .eft _ _ _ | .ert _ _ _ | .rtb _ _ _ | .rtd _ _ _ | .sfb _ _ _
  | .sfd _ _ _ | .srb _ _ _ | .srd _ _ _ | .plp _ _ | .src _ | .rts _ | .rew _ _ | .srr _ | .pol _ | .psc _ _
  | .psp _ _ => some 1

end Sys2Proof.Machine
end

