-- ==== Sys2Proof/Machine/Cycle.lean ====
section
/-! DEFINITION. One turn of the processor (30_encoding R101, 47_control R310, 60 R530): what is fetched, the checks
around an instruction, and its end. -/

namespace Sys2Proof.Machine

open Sys2Proof

/-- What the channels tell the decoder (48 R357, 49 R463; log 20). -/
def State.context (s : State) (ch : ChannelId) : ChanCtx :=
  if (s.chan ch).ilcAlert then .alerted
  else if (s.chan ch).uar.extractLsb' 3 3 == 1 then .tapeInput
  else .plain

/-- The next instruction word brought to C: the word forced in C (70 R592), the word at the location of the level
acknowledged (60 R530), or the word at P. A forced word goes before a level's location: the level stays acknowledged,
and no other is acknowledged before its location is run (log 65). -/
def State.fetch (s : State) : State :=
  match s.cState, s.ack with
  | .forced, _ => { s with origin := .console, cState := .none }
  | _, some l => { s with c := s.nextWord, origin := .interrupt l, ack := none, cState := .none }
  | _, none => { s with c := s.nextWord, origin := .sequence, cState := .none }

/-- A single-instruction level ends with its one instruction (60 R533). -/
def State.endLevel (s : State) : State :=
  match s.origin with
  | .interrupt l => if levelSingle s.cfg l then s.clearLevel l else s
  | .sequence | .console => s

/-- The test for an interrupt at the end of an instruction (60 R530, R532): the highest eligible level is acknowledged,
unless the instruction forbids it. A level that is acknowledged already stays the one, and ends a halt that the
instruction made, as its acknowledgement does (47_control R310; log 65). -/
def State.interruptTest (s : State) : State :=
  if s.noIntNext then { s with noIntNext := false }
  else
    match s.ack, s.nextLevel with
    | some _, _ => { s with halted := false }
    | none, some l => s.acknowledge l
    | none, none => s

/-- The end of an instruction: a single-instruction level is cleared (60 R533), an interrupt may be taken, STEP returns
to idle, and in idle C shows the next instruction (70 R593). The test is made also where the switch has been put to IDLE
during the instruction (log 71). -/
def State.endInstruction (s : State) : State :=
  if s.console.runSwitch = .run then s.endLevel.interruptTest
  else (s.endLevel.setSwitch .idle).interruptTest.showNext

/-- The instruction after AIR is a POT (60 R539), if need be through EXU (log 53). -/
def afterAir : Instr → Bool
  | .pot _ | .exu _ => true
  | _ => false

/-- A one-cycle instruction, just fetched from the location of a single-instruction level (60 R533); EXU's time goes
with its subject's. With memory-cycle turns a skip test's time is judged here, at its fetch, and not again at its
effect, though an event between the two may change the skip; both are the model's choices (log 30). -/
def State.tooShort (s : State) (i : Instr) : Bool :=
  match s.origin, s.cState with
  | .interrupt l, .none =>
    levelSingle s.cfg l &&
      (match i with | .exu _ => false | _ => match cycles i s with | some n => n < 2 | none => false)
  | _, _ => false

/-- What a word that stands for no instruction is refused with. -/
def refusalOf : DecodeError → Refusal
  | .unassignedCode => .unassignedCode
  | .undefinedShift => .undefinedShift
  | .undefinedRegisterChange => .undefinedRegisterChange

/-- Around an instruction's own effect: an instruction that is not finished goes on at the next turn. -/
def finish : Result → Result
  | .next t => .next (if t.cState = .none then t.endInstruction else t)
  | .fault r => .fault r
  | .refused r => .refused r

/-- The instruction in C, where it stands for one that may run here, with `k` on it. Without the arming feature the
instruction after AIR must be a POT all the same (log 66). -/
def State.checked (s : State) (k : Instr → Result) : Result :=
  match decode s.context s.c with
  | .error e => .refused (refusalOf e)
  | .ok i =>
    if s.airAlert && !afterAir i then .refused .airWithoutPot
    else if s.tooShort i then .refused .shortSingleInstruction
    else k i

/-- The instruction in C is executed. -/
def State.runC (s : State) : Result := s.checked fun i => finish (exec i s)

/-- The turn at the boundary of two instructions (47_control R310): idle does nothing; a halt ends with an eligible
level; otherwise the next instruction is fetched, and goes on as `k` says. -/
def State.atBoundary (s : State) (k : State → Result) : Result :=
  match s.console.runSwitch with
  | .idle => .next s
  | .run =>
    if s.halted then
      match s.nextLevel with
      | some l => .next (s.acknowledge l)
      | none => .next s
    else k s.fetch
  | .step => k s.fetch

/-- A turn of the processor: an unfinished instruction goes on as `inside` says, the next one, just fetched, as
`fetched` says. Without power nothing happens. RUN with HOLD on is refused, also inside an instruction (70 R595;
log 32). -/
def State.processorTurn (s : State) (inside fetched : State → Result) : Result :=
  if s.power ≠ .on then .next s
  else if s.console.runSwitch = .run ∧ s.console.hold = true then .refused .operatorPrecondition
  else
    match s.cState with
    | .subject | .chain | .operand | .waiting => inside s
    | .none | .forced => s.atBoundary fetched

/-- One turn of the processor, in which an instruction comes to its end. -/
def State.cpuStep (s : State) : Result := s.processorTurn State.runC State.runC

/-! ### One memory cycle -/

/-- The fields of an instruction with an effective address. -/
def refOf : Instr → Option Ref
  | .lda r | .sta r | .ldb r | .stb r | .ldx r | .stx r | .eax r | .xma r | .add r | .adc r | .adm r | .min r | .sub r
  | .suc r | .mul r | .div r | .etr r | .mrg r | .eor r | .bru r | .brx r | .brm r | .brr r | .ske r | .skg r | .skm r
  | .ska r | .skb r | .skn r | .skr r | .skd r | .exu r | .miw r | .wim r | .miy r | .yim r | .pin r | .pot r | .rsh r
  | .rcy r | .lrsh r | .lsh r | .lcy r | .nod r => some r
  | _ => none

/-- The instructions that do something after they have read their operand that another agent could come before: the
read-modify-write instructions (20_memory R74) and POT (48 R389). -/
def readsFirst : Instr → Bool
  | .xma _ | .adm _ | .min _ | .skr _ | .pot _ => true
  | _ => false

/-- An indirect BRU, whose own bit 9 has an effect beyond its address (60 R534). -/
def isReturn : Instr → Bool
  | .bru r => r.indirect
  | _ => false

/-- One memory cycle of the instruction in C that is not its last: one level of indirect addressing, or the read of an
operand that goes to M. None where the next cycle is the last (log 16). -/
def State.oneCycle (s : State) (i : Instr) : Option State :=
  match refOf i with
  | none => none
  | some r =>
    let code : BitVec 6 := s.c.extractLsb' 15 6
    let a := s.indexedAddr r.indexed r.addr
    if r.indirect then
      let w := s.read a
      let t := s.indexedAddr (bit w 1) (addrField w)
      if bit w 9 then some (s.holdChain code t)
      else if isReturn i then none
      else some { s with c := refWord code false t, cState := .chain }
    else if readsFirst i && !(s.cState == .operand || s.cState == .waiting) then
      some { s with c := refWord code false a, m := s.read a, cState := .operand }
    else none

/-- The instruction in C takes one memory cycle. -/
def State.cycleC (s : State) : Result :=
  s.checked fun i =>
    match s.oneCycle i with
    | some t => .next t
    | none => finish (exec i s)

/-- The instruction just fetched goes on at a later turn. Whether it is too short for its location is judged here, as
its signals and registers stand at the fetch, and not again (log 30). -/
def State.fetchedC (s : State) : Result := s.checked fun _ => .next { s with cState := .subject }

/-- One memory cycle of the processor, between which a channel's access can fall (20_memory R72, R74; log 16): the
fetch, a level of indirect addressing, the read of an operand, or the last, in which the instruction has its effect. -/
def State.cpuCycle (s : State) : Result := s.processorTurn State.cycleC State.fetchedC

end Sys2Proof.Machine
end

