-- ==== Sys2Proof/Machine/Step.lean ====
section
/-! DEFINITION. The step: the turn the schedule names (log 16), and how the host places an instruction (log 46). -/

namespace Sys2Proof.Machine

open Sys2Proof

/-- One step: the next turn of the schedule, the processor's when there is none. -/
def step (s : State) : Host.Outcome State Fault Refusal :=
  match s.schedule with
  | [] => s.cpuStep
  | .processor :: r => State.cpuStep { s with schedule := r }
  | .cycle :: r => State.cpuCycle { s with schedule := r }
  | .event e :: r => applyEvent e { s with schedule := r }

/-- The instruction whose bits are `w` at the word P names, with the machine running and about to fetch it. Where no
memory is installed at P the word stands in C, as the operator would set it (log 46). -/
def State.withFetchWord (s : State) (nbits w : Nat) : State :=
  let v := BitVec.ofNat 24 (w % 2 ^ nbits)
  let t : State :=
    { s with
      cState := .none, ack := none, halted := false, power := .on, schedule := []
      console := { s.console with runSwitch := .run, hold := false } }
  if (s.phys s.p).toNat < s.cfg.memWords then { t with mem := memSet s.mem (s.phys s.p).toNat v }
  else { t with c := v, cState := .forced }

end Sys2Proof.Machine
end

