-- ==== Sys2Proof/Safety.lean ====
section
/-! DEFINITION. The terms that claims about the machine use: address decoding as a relation, the invariant of every
step, and what a store leaves. -/

namespace Sys2Proof.Machine

open Sys2Proof

/-- `EA` as 30_encoding R105 words it, for a word of the fields given: index the address field where bit 1 is set; if
bit 9 is clear that is the address, else decode the word found there in the same way. -/
inductive EAChain (s : State) : Bool → Bool → Addr → Addr → Prop
  | direct (indexed : Bool) (a : Addr) : EAChain s indexed false a (if indexed then a + addrField s.x else a)
  | indirect (indexed : Bool) (a : Addr) (w : Word) (t : Addr)
      (read : w = s.read (if indexed then a + addrField s.x else a))
      (rest : EAChain s (bit w 1) (bit w 9) (addrField w) t) : EAChain s indexed true a t

/-- What every step keeps: memory in canonical form; the lists of levels strictly rising, no level both Waiting and
Active, none of them a level that is not installed; arm bits of system levels only; bit IA of every direct access
channel; the alert and the interlace only where there is an interlace; the parameters in the ranges R4 states. -/
structure State.Inv (s : State) : Prop where
  memory : s.mem.wf = true
  waitingRising : s.waiting.Pairwise (· < ·)
  activeRising : s.active.Pairwise (· < ·)
  armedRising : s.armed.Pairwise (· < ·)
  oneState : ∀ l ∈ s.waiting, l ∉ s.active
  waitingPresent : ∀ l ∈ s.waiting, levelPresent s.cfg l = true
  activePresent : ∀ l ∈ s.active, levelPresent s.cfg l = true
  armedSystem : ∀ l ∈ s.armed, isSystemLevel l = true
  directExtended : ∀ ch, isDirect ch = true → (s.chan ch).ia = true
  alertInterlaced : ∀ ch, (s.chan ch).ilcAlert = true → s.hasInterlace ch = true
  activeInterlaced : ∀ ch, (s.chan ch).ilcActive = true → s.hasInterlace ch = true
  installation : s.cfg.ok = true

/-- What `MemWrite(a, v)` (20_memory R64) leaves of memory and of the Waiting levels, said through reads: no other
address reads differently; the cell reads `v` if it may be written and as before if not; a write the lock-out refuses
requests the level at 035. -/
structure Stored (s : State) (m : Memory) (levels : List Nat) (a : PAddr) (v : Word) : Prop where
  others : ∀ k : PAddr, k ≠ a → State.memRead { s with mem := m } k = s.memRead k
  cell : State.memRead { s with mem := m } a = if s.writable a then v else s.memRead a
  requests : levels = if s.lockedOut a then s.requested 0o35 else s.waiting

/-- What one input word leaves that the interlace moves to memory (48 R365 to R370): `s` is the state and `k` the
channel before it. The word goes to MAR, MAR goes on and the count goes down. With the count then at zero the zero-count
indicator is set, and by mode: functions 00 and 10 request an armed Count Equals Zero interrupt; 01 then an armed
End-of-Record interrupt, and disconnects; 11 requests the first and sets the inter-record indicator; in the Compatible
mode the interlace disengages, with no interrupt. -/
def MovedIn (s : State) (ch : ChannelId) (k : Chan) (word : Word) (t : State) : Prop :=
  ∃ (m : Memory) (w : List Nat), Stored s m w k.mar word ∧
    let zc := if k.zcArm then State.requested { s with waiting := w } (zcLevel ch) else w
    let er := if k.erArm then State.requested { s with waiting := zc } (erLevel ch) else zc
    let moved := { k with
      mar := k.mar + 1, wcr := k.wcr - 1, zeroCount := k.zeroCount || k.wcr == 1
      ior := if isDirect ch then word else k.ior }
    (k.wcr ≠ 1 → t = { s with mem := m, waiting := w, chans := s.chans.set ch moved }) ∧
    (k.wcr = 1 → extended ch k = true → k.fc = 0 ∨ k.fc = 2 →
      t = { s with mem := m, waiting := zc, chans := s.chans.set ch moved }) ∧
    (k.wcr = 1 → extended ch k = true → k.fc = 1 →
      t = { s with
        mem := m, waiting := er, out := .disconnect ch :: s.out
        chans := s.chans.set ch { moved with
          uar := 0, ilcActive := false, erArm := false, zcArm := false, ia := isDirect ch, topPending := false
          lastWord := false, loadDue := false, scan := false } }) ∧
    (k.wcr = 1 → extended ch k = true → k.fc = 3 →
      t = { s with mem := m, waiting := zc, chans := s.chans.set ch { moved with interRecord := true } }) ∧
    (k.wcr = 1 → extended ch k = false →
      t = { s with mem := m, waiting := w, chans := s.chans.set ch { moved with ilcActive := false } })

/-- The processor is about to fetch the instruction at P: power on, the switch at RUN, no HOLD, no halt, nothing
unfinished, no level acknowledged, no agent before it in the schedule. -/
structure State.AtFetch (s : State) : Prop where
  power : s.power = .on
  run : s.console.runSwitch = .run
  hold : s.console.hold = false
  halted : s.halted = false
  cState : s.cState = .none
  ack : s.ack = none
  schedule : s.schedule = []

/-- The instruction skips where `cond` holds and goes on in sequence where it does not, and does nothing else
(30_encoding R116). -/
def SkipsWhen (s : State) (i : Instr) (cond : Prop) : Prop :=
  (cond → exec i s = .next { s with p := s.advanced 2, cState := .none }) ∧
    (¬ cond → exec i s = .next { s with p := s.advanced 1, cState := .none })

/-- A run of `n` steps that meets no refusal: each step answers a next state, the last `t`. -/
inductive Runs : State → Nat → State → Prop
  | done (s : State) : Runs s 0 s
  | more (s u t : State) (n : Nat) (first : step s = .next u) (rest : Runs u n t) : Runs s (n + 1) t

/-! ### The end of a run (70_reset_and_hazards R605) -/

/-- The host side has no further event: every turn left is the processor's. -/
def State.NoEvents (s : State) : Prop := ∀ t ∈ s.schedule, t = .processor ∨ t = .cycle

/-- The processor is at the boundary of two instructions. -/
def State.Between (s : State) : Prop := s.cState = .none ∨ s.cState = .forced

/-- How a run ends. -/
inductive RunEnd where
  | halted
  | hung
  | refused (r : Refusal)
  | stoppedByOperator
  deriving DecidableEq, Repr

/-- The run is over in `s`, with this outcome. Every progress of a channel is an event here, so that no further event
means no further progress without the processor. -/
def State.EndsAs (s : State) : RunEnd → Prop
  | .halted =>
    s.NoEvents ∧ s.power = .on ∧ s.Between ∧ s.console.runSwitch = .run ∧ s.console.hold = false ∧ s.halted = true ∧
      s.nextLevel = none
  | .hung => s.NoEvents ∧ s.power = .on ∧ ∀ n, ∃ t, Runs s n t ∧ ¬ t.Between
  | .refused r => step s = .refused r
  | .stoppedByOperator => s.NoEvents ∧ s.power = .on ∧ s.Between ∧ s.console.runSwitch = .idle

/-! ### Instructions of one shape -/

/-- Every instruction with an effective address, with its code (30_encoding R107, R109). -/
def memoryReferences (r : Ref) : List (Instr × BitVec 6) :=
  [(.lda r, 0o76), (.sta r, 0o35), (.ldb r, 0o75), (.stb r, 0o36), (.ldx r, 0o71), (.stx r, 0o37), (.eax r, 0o77),
   (.xma r, 0o62), (.add r, 0o55), (.adc r, 0o57), (.adm r, 0o63), (.min r, 0o61), (.sub r, 0o54), (.suc r, 0o56),
   (.mul r, 0o64), (.div r, 0o65), (.etr r, 0o14), (.mrg r, 0o16), (.eor r, 0o17), (.bru r, 0o01), (.brx r, 0o41),
   (.brm r, 0o43), (.brr r, 0o51), (.ske r, 0o50), (.skg r, 0o73), (.skm r, 0o70), (.ska r, 0o72), (.skb r, 0o52),
   (.skn r, 0o53), (.skr r, 0o60), (.skd r, 0o74), (.exu r, 0o23), (.miw r, 0o12), (.wim r, 0o32), (.miy r, 0o10),
   (.yim r, 0o30), (.pin r, 0o33), (.pot r, 0o13), (.rsh r, 0o66), (.rcy r, 0o66), (.lrsh r, 0o66), (.lsh r, 0o67),
   (.lcy r, 0o67), (.nod r, 0o67)]

/-- The instruction codes the manual does not assign (30_encoding R110). -/
def unassignedCodes : List Nat :=
  [0o03, 0o04, 0o05, 0o07, 0o11, 0o15, 0o21, 0o22, 0o24, 0o25, 0o26, 0o27, 0o31, 0o34, 0o42, 0o44, 0o45, 0o47]

/-- The interrupt levels below 0200 in the order of their priority, highest first (60 R526). -/
def priorityOrder : List Nat :=
  [0o36, 0o37, 0o30, 0o31, 0o32, 0o33, 0o35, 0o60, 0o61, 0o62, 0o63, 0o64, 0o65, 0o66, 0o67, 0o70, 0o71, 0o72, 0o73,
   0o74, 0o75]

/-- The two levels of each channel (48 R373): Count Equals Zero (End-of-Word), End-of-Record (End-of-Transmission). -/
def channelLevels : List (ChannelId × Nat × Nat) :=
  [(.w, 0o31, 0o33), (.y, 0o30, 0o32), (.c, 0o60, 0o61), (.d, 0o62, 0o63), (.e, 0o64, 0o65), (.f, 0o66, 0o67),
   (.g, 0o70, 0o71), (.h, 0o72, 0o73)]

/-- Each instruction that connects a unit (48 R355, 49 R434 to R479), with the fields its word gives the channel: bit 9,
bits 12 to 14 (reverse, no leader, binary), bits 15-16 and the unit. -/
def connects (ch : ChannelId) (k : DevFn) (n : BitVec 3) (c : Conn) : List (Instr × Conn) :=
  [(.connect ch c, c),
   (.rkb ch k, ⟨k.alert, false, true, false, k.cpw, 0o01⟩), (.typ ch k, ⟨k.alert, false, true, false, k.cpw, 0o41⟩),
   (.rpt ch k, ⟨k.alert, false, true, false, k.cpw, 0o04⟩), (.ptl ch k, ⟨k.alert, false, false, false, k.cpw, 0o44⟩),
   (.ppt ch k, ⟨k.alert, false, true, false, k.cpw, 0o44⟩), (.rcd ch k, ⟨k.alert, false, true, false, k.cpw, 0o06⟩),
   (.rcb ch k, ⟨k.alert, false, true, true, k.cpw, 0o06⟩), (.pcd ch k, ⟨k.alert, false, true, false, k.cpw, 0o46⟩),
   (.pcb ch k, ⟨k.alert, false, true, true, k.cpw, 0o46⟩), (.plp ch k, ⟨k.alert, false, true, false, k.cpw, 0o60⟩),
   (.wtb ch k n, ⟨k.alert, false, true, true, k.cpw, 0b101#3 ++ n⟩),
   (.wtd ch k n, ⟨k.alert, false, true, false, k.cpw, 0b101#3 ++ n⟩),
   (.eft ch k n, ⟨k.alert, false, true, true, k.cpw, 0b111#3 ++ n⟩),
   (.ert ch k n, ⟨k.alert, true, true, true, k.cpw, 0b111#3 ++ n⟩),
   (.rtb ch k n, ⟨k.alert, false, true, true, k.cpw, 0b001#3 ++ n⟩),
   (.rtd ch k n, ⟨k.alert, false, true, false, k.cpw, 0b001#3 ++ n⟩),
   (.sfb ch k n, ⟨k.alert, false, true, true, k.cpw, 0b011#3 ++ n⟩),
   (.sfd ch k n, ⟨k.alert, false, true, false, k.cpw, 0b011#3 ++ n⟩),
   (.srb ch k n, ⟨k.alert, true, true, true, k.cpw, 0b011#3 ++ n⟩),
   (.srd ch k n, ⟨k.alert, true, true, false, k.cpw, 0b011#3 ++ n⟩)]

/-- Each device command (48 R357, 49 R446 to R482), with bits 12 to 16 and the unit of its word. -/
def commands (ch : ChannelId) (n : BitVec 3) (fn : BitVec 5) (unit : BitVec 6) : List (Instr × BitVec 5 × BitVec 6) :=
  [(.ioctl ch fn unit, fn, unit), (.src ch, 0b01000, 0o06), (.srr ch, 0b01111, 0o10), (.pol ch, 0b00001, 0o60),
   (.rew ch n, 0b10000, 0b001#3 ++ n), (.psc ch n, n ++ 0b10#2, 0o60), (.psp ch n, n ++ 0b11#2, 0o60)]

/-- The tests of a device that is no tape unit, and the tape tests that are the same for every unit (49 R441 to R487),
with bits 12 to 16 and the unit of each word. -/
def deviceTests (ch : ChannelId) (n : BitVec 3) : List (Instr × BitVec 5 × BitVec 6) :=
  [(.crt ch, 0b01000, 0o06), (.fct ch, 0b10000, 0o06), (.cft ch, 0b00100, 0o06), (.pbt ch, 0b01000, 0o46),
   (.cpt ch, 0b10000, 0o46), (.tft ch, 0b01111, 0o10), (.pft ch, 0b00100, 0o60), (.prt ch, 0b01000, 0o60),
   (.ept ch, 0b10000, 0o60), (.dt2 ch n, 0b11001, 0b001#3 ++ n), (.dt5 ch n, 0b11011, 0b001#3 ++ n),
   (.dt8 ch n, 0b11101, 0b001#3 ++ n), (.tgt ch n, 0b01011, 0b001#3 ++ n), (.magpak ch n, 0b00001, 0b001#3 ++ n)]

/-- The tape tests that say themselves what they answer for a unit that is absent (49 R455 to R458), with bits 12 to 16
of each word and whether it then skips. -/
def tapeTests (ch : ChannelId) (n : BitVec 3) : List (Instr × BitVec 5 × Bool) :=
  [(.trt ch n, 0b00010, true), (.fpt ch n, 0b10000, false), (.btt ch n, 0b01000, false), (.ett ch n, 0b00100, false)]

end Sys2Proof.Machine
end

