-- ==== Sys2Proof/Certificates/Slice0/Obligations.lean ====
section
/-! DEFINITION. The statements about the machine. Numbers written 0o are octal; a word's bits are numbered from the
left, as the manual numbers them. A statement of an instruction's result gives the whole next state: what a record
update does not name is unchanged. -/

open Sys2Proof Sys2Proof.Machine

/-! ### Reset, invariants, whole-machine rules -/

/-- 10_state R39: what the machine holds right after START. C = 0 is the spec's choice D14, the channels' part its
choice D16. -/
def Obligations.ResetState : Prop :=
  State.reset.p = 0 ∧ State.reset.ov = false ∧ State.reset.parityError = false ∧ State.reset.c = 0 ∧
  State.reset.em3 = 3 ∧ State.reset.em2 = 2 ∧ State.reset.ien = false ∧ State.reset.waiting = [] ∧
  State.reset.active = [] ∧ State.reset.halted = false ∧ State.reset.airAlert = false ∧
  State.reset.noIntNext = false ∧ State.reset.dmsSelect = none ∧
  ∀ ch, (State.reset.chan ch).uar = 0 ∧ (State.reset.chan ch).error = false ∧
    (State.reset.chan ch).ilcAlert = false ∧ (State.reset.chan ch).ascAlert = false ∧
    (State.reset.chan ch).ilcActive = false ∧ (State.reset.chan ch).topPending = false ∧
    (State.reset.chan ch).erArm = false ∧ (State.reset.chan ch).zcArm = false

/-- 10_state R39, 70 R590: START from any state that meets its precondition. C = 0 is the spec's choice D14, the
channels' part its choice D16. That A, B, X and the lock-out register stay as they were is the model's choice: R39 calls
them unspecified after START (log 3, log 7). -/
def Obligations.StartInitialises : Prop :=
  ∀ s : State, s.power ≠ .off → s.console.runSwitch = .idle → s.console.regSelect = .c →
    ∃ t, applyEvent .start s = .next t ∧
      t.p = 0 ∧ t.ov = false ∧ t.parityError = false ∧ t.c = 0 ∧ t.cState = .forced ∧ t.em3 = 3 ∧ t.em2 = 2 ∧
      t.ien = false ∧ t.waiting = [] ∧ t.active = [] ∧ t.halted = false ∧ t.airAlert = false ∧
      t.noIntNext = false ∧ t.dmsSelect = none ∧ t.power = .on ∧
      (∀ ch, (t.chan ch).uar = 0 ∧ (t.chan ch).error = false ∧ (t.chan ch).ilcAlert = false ∧
        (t.chan ch).ascAlert = false ∧ (t.chan ch).ilcActive = false ∧ (t.chan ch).topPending = false ∧
        (t.chan ch).erArm = false ∧ (t.chan ch).zcArm = false) ∧
      t.a = s.a ∧ t.b = s.b ∧ t.x = s.x ∧ t.mem = s.mem ∧ t.lockBlocks = s.lockBlocks ∧ t.lockSubs = s.lockSubs ∧
      t.console = s.console ∧ t.lines = s.lines ∧ t.cfg = s.cfg

/-- The machine after reset has the invariant of Safety.lean. Memory with nothing listed, no armed level and the
installation of State.reset are the model's choices (log 2, log 5, log 8). -/
def Obligations.ResetInvariant : Prop := State.reset.Inv

/-- Every step, of the processor or of the host side, keeps the invariant and the installation; so do a memory cycle,
and the loss of power, where the registers hold anything (log 28). -/
def Obligations.StepKeepsInvariant : Prop :=
  ∀ s t : State, step s = .next t → t.cfg = s.cfg ∧ (s.Inv → t.Inv)

/-- 20 R64, R65: no step of any agent alters a word the write lock-out protects. That this holds for MEMORY CLEAR and
the second memory path too is the model's reading (log 43, log 51). -/
def Obligations.ProtectedWordsStay : Prop :=
  ∀ (s t : State) (a : PAddr), step s = .next t → s.lockedOut a = true → t.memRead a = s.memRead a

/-- What only certain instructions change: IEN only EIR and DIR, the extension registers only SET EXTENSION REGISTER,
the clock's arm bit only its two EOMs; the switches, the power, the lock-out register, the parity indicator and the
installation no instruction at all. That no instruction changes the lock-out register is the model's choice: R33 and R65
speak of one a program controls, by an instruction the manual does not give (log 7). -/
def Obligations.ControlStateChanges : Prop :=
  ∀ (ctx : ChannelId → ChanCtx) (i : Instr) (s t : State), i.wellFormed ctx = true → exec i s = .next t →
    (t.ien ≠ s.ien → i = .eir ∨ i = .dir) ∧
    (t.em2 ≠ s.em2 ∨ t.em3 ≠ s.em3 → ∃ s3 s2 r3 r2, i = .setext s3 s2 r3 r2) ∧
    (t.rtcArmed ≠ s.rtcArmed → i = .rtcarm ∨ i = .rtcdisarm) ∧
    t.console = s.console ∧ t.power = s.power ∧ t.lockBlocks = s.lockBlocks ∧ t.lockSubs = s.lockSubs ∧
    t.parityError = s.parityError ∧ t.schedule = s.schedule ∧ t.cfg = s.cfg

/-! ### Memory and addresses -/

/-- 20 R62 to R64: a write changes its own cell only, and that only where memory is installed and not protected; where
it is protected the level at 035 is requested (R64); where no memory is installed nothing changes and a read gives zero
(R63). What is not installed is the spec's choice D13; that protection goes by the physical address and that the
instruction completes are its choice D31. -/
def Obligations.MemoryWrite : Prop :=
  ∀ (s : State) (a : PAddr) (v : Word),
    (∃ m w, s.store a v = { s with mem := m, waiting := w } ∧ Stored s m w a v) ∧
    (s.cfg.memWords ≤ a.toNat → s.store a v = s ∧ s.memRead a = 0)

/-- 20 R62: program addresses below 020000 are physical; 02xxxx goes through EM2 and 03xxxx through EM3; without the
Memory Extension System every program address is physical. 30 R108: an indirect shift address is the effective
address; a direct one is indexed in its nine count bits only. The spec's choices D1 and D17. -/
def Obligations.Addresses : Prop :=
  (∀ (s : State) (e : Addr),
    (s.cfg.hasMemExt = false → (s.phys e).toNat = e.toNat) ∧
    (e.toNat < 0o20000 → (s.phys e).toNat = e.toNat) ∧
    (s.cfg.hasMemExt = true → 0o20000 ≤ e.toNat → e.toNat < 0o30000 →
      (s.phys e).toNat = s.em2.toNat * 0o10000 + e.toNat % 0o10000) ∧
    (s.cfg.hasMemExt = true → 0o30000 ≤ e.toNat → (s.phys e).toNat = s.em3.toNat * 0o10000 + e.toNat % 0o10000) ∧
    (s.em2 = 2 → s.em3 = 3 → (s.phys e).toNat = e.toNat)) ∧
  ∀ (s : State) (r : Ref),
    (r.indirect = true → s.shiftEA r = s.ea r) ∧
    (r.indirect = false → ∃ t, s.shiftEA r = .addr t ∧ t.toNat / 512 = r.addr.toNat / 512 ∧
      t.toNat % 512 = (r.addr.toNat + (if r.indexed then s.x.toNat else 0)) % 512)

/-- 30 R105, R106: the effective address computed is the one rule R105 gives, and the chain is found endless exactly
where rule R105 gives none. That an endless chain is found, within the number of addresses there are, is the model's way
to R106 (log 19). -/
def Obligations.EffectiveAddress : Prop :=
  ∀ (s : State) (r : Ref),
    (∀ t, s.ea r = .addr t ↔ EAChain s r.indexed r.indirect r.addr t) ∧
    ((∃ t, s.ea r = .endless t) ↔ ¬ ∃ t, EAChain s r.indexed r.indirect r.addr t)

/-- 30 R106: an instruction whose indirect chain never ends changes nothing but C and is not finished; nor does it ever
end: after any number of steps the machine is still inside it, nothing but C has changed, no interrupt is taken, and the
run is over as `hung` (70 R605). The hold is the spec's choice D12, that it ends a run its choice D35; the use of C is
the model's (log 17, log 19). -/
def Obligations.EndlessChain : Prop :=
  ∀ (s : State) (r : Ref) (t : Addr) (i : Instr) (code : BitVec 6), (i, code) ∈ memoryReferences r →
    s.ea r = .endless t →
    exec i s = .next { s with c := refWord code true t, cState := .chain } ∧
    (s.schedule = [] → s.power = .on → s.airAlert = false → (s.console.runSwitch = .run → s.console.hold = false) →
      (∀ n, ∃ u, Runs { s with c := refWord code true t, cState := .chain } n
        { s with c := refWord code true u, cState := .chain }) ∧
      State.EndsAs { s with c := refWord code true t, cState := .chain } .hung)

/-! ### Encoding -/

/-- Every well-formed instruction is read back from the word the encoder writes for it. -/
def Obligations.DecodeEncode : Prop :=
  ∀ (ctx : ChannelId → ChanCtx) (i : Instr), i.wellFormed ctx = true → decode ctx (encode i) = .ok i

/-- What the decoder answers is well formed: a general form never stands for a word that has a row of its own. 30
R110: the words refused as unassigned are those of the 18 codes the manual does not assign. Refusing them is the
spec's choice D10 (log 45). -/
def Obligations.DecodeWellFormed : Prop :=
  (∀ (ctx : ChannelId → ChanCtx) (w : Word) (i : Instr), decode ctx w = .ok i → i.wellFormed ctx = true) ∧
  ∀ (ctx : ChannelId → ChanCtx) (w : Word),
    decode ctx w = .error .unassignedCode ↔ bit w 2 = false ∧ (w.extractLsb' 15 6).toNat ∈ unassignedCodes

/-- Words written out from the spec's encodings, and the instructions they stand for. -/
def Obligations.DecodeSamples : Prop :=
  decode (fun _ => .plain) 0o07601750 = .ok (.lda ⟨false, false, 0o01750⟩) ∧
  decode (fun _ => .plain) 0o24100017 = .ok (.brx ⟨true, false, 0o00017⟩) ∧
  decode (fun _ => .plain) 0o00142000 = .ok (.bru ⟨false, true, 0o02000⟩) ∧
  decode (fun _ => .plain) 0o14002163 = .ok (.pop 0o40 ⟨false, false, 0o02163⟩) ∧
  decode (fun _ => .plain) 0o04600122 = .ok .ste ∧
  decode (fun _ => .plain) 0o06624003 = .ok (.lrsh ⟨false, false, 0o24003⟩) ∧
  decode (fun _ => .plain) 0o00620354 = .ok (.setext true true 5 4) ∧
  decode (fun _ => .plain) 0o04020010 = .ok .betw ∧
  decode (fun _ => .plain) 0o00642000 = .ok (.connect .e ⟨true, false, true, false, 0, 0⟩) ∧
  decode (fun _ => .plain) 0o00242610 = .ok (.rtd .w ⟨true, 3⟩ 0) ∧
  decode (fun _ => .alerted) 0o00215001 = .ok (.ilc .w ⟨true, false, true, 0, false, 1⟩) ∧
  decode (fun _ => .plain) 0o00400000 = .error .unassignedCode

/-! ### The step -/

/-- 30 R101: the processor runs the instruction that the word at P stands for; at a level just acknowledged, the one
at the level's location; with a word set in C, that one; and an instruction that is not finished goes on from C. 60
R531, 70 R592, R595: how far P goes on: not in an interrupt location, not with HOLD on. The model's readings: log 17 and
log 18 (an instruction that is not finished goes on from C), log 20 (decoding in the channels' context), log 30, log 32
(HOLD), log 53 (after AIR), log 65 (a word set in C goes before the location of a level already acknowledged). -/
def Obligations.StepRunsDecoded : Prop :=
  (∀ (s : State) (i : Instr), s.AtFetch → (s.airAlert = true → afterAir i = true) →
    decode s.context (s.read s.p) = .ok i →
    step s = finish (exec i { s with c := s.read s.p, origin := .sequence })) ∧
  (∀ (s : State) (i : Instr) (l : Nat), State.AtFetch { s with ack := none } → s.ack = some l →
    (s.airAlert = true → afterAir i = true) →
    decode s.context (s.memRead (BitVec.ofNat 15 l)) = .ok i →
    let u : State := { s with c := s.memRead (BitVec.ofNat 15 l), origin := .interrupt l, ack := none }
    u.tooShort i = false → step s = finish (exec i u)) ∧
  (∀ (s : State) (i : Instr), State.AtFetch { s with cState := .none, ack := none } → s.cState = .forced →
    (s.airAlert = true → afterAir i = true) → decode s.context s.c = .ok i →
    step s = finish (exec i { s with origin := .console, cState := .none })) ∧
  (∀ (s : State) (i : Instr), s.schedule = [] → s.power = .on → (s.console.runSwitch = .run → s.console.hold = false) →
    (s.cState = .subject ∨ s.cState = .chain ∨ s.cState = .operand ∨ s.cState = .waiting) →
    (s.airAlert = true → afterAir i = true) → decode s.context s.c = .ok i → step s = finish (exec i s)) ∧
  ∀ (s : State) (n : Addr),
    (s.origin = .sequence ∨ s.origin = .console → s.console.hold = false → s.advanced n = s.p + n) ∧
    (∀ l, s.origin = .interrupt l → s.advanced n = s.p) ∧
    (s.console.hold = true → s.advanced n = s.p)

/-- 60 R530, R532, R533: the end of an instruction. A single-instruction level is cleared first; after an EOM, EOD or
taken BRX nothing is acknowledged; else the level that is due is. 47 R310, 70 R593: in STEP, and where the switch has
been put to IDLE, the processor is then idle, and C shows the next instruction. That the test is made also where the
switch has been put to IDLE during the instruction is the model's choice (log 71); so is that a level acknowledged
already stays the one, and ends a halt (log 65). -/
def Obligations.EndOfInstruction : Prop :=
  ∀ s : State, s.cState = .none →
    let t : State := match s.origin with
      | .interrupt l => if levelSingle s.cfg l then { s with active := levelErase l s.active } else s
      | _ => s
    let u : State := { t with console := { t.console with runSwitch := .idle }, halted := false }
    (s.console.runSwitch = .run →
      (s.noIntNext = true → finish (.next s) = .next { t with noIntNext := false }) ∧
      (s.noIntNext = false → s.ack = none → t.nextLevel = none → finish (.next s) = .next t) ∧
      (∀ l, s.noIntNext = false → s.ack = none → t.nextLevel = some l → finish (.next s) = .next (t.acknowledge l)) ∧
      (∀ l, s.noIntNext = false → s.ack = some l → finish (.next s) = .next { t with halted := false })) ∧
    (s.console.runSwitch = .step ∨ s.console.runSwitch = .idle → ∀ l, s.ack = some l →
      finish (.next s) = .next { u with noIntNext := false, c := s.memRead (BitVec.ofNat 15 l) }) ∧
    (s.console.runSwitch = .step ∨ s.console.runSwitch = .idle → s.ack = none →
      (s.noIntNext = true → finish (.next s) = .next { u with noIntNext := false, c := s.read s.p }) ∧
      (s.noIntNext = false → u.nextLevel = none → finish (.next s) = .next { u with c := s.read s.p }) ∧
      (∀ l, s.noIntNext = false → u.nextLevel = some l →
        finish (.next s) = .next { u.acknowledge l with c := s.memRead (BitVec.ofNat 15 l) }))

/-- 60 R526, R530: the level due is the eligible Waiting level of highest priority, in the order of rule R526. R551,
R552: the enable lets a level through where the indicator is on or the console switch is held; power fail-safe needs
none. That 36 is before 37 is the spec's own total order; that 35, 74, 75 are gated is its choice D40; the parity levels
are the open parameters D42, their place by number (log 27); several requests of one moment are taken by priority
(log 56). -/
def Obligations.PriorityOrder : Prop :=
  (priorityOrder.Pairwise fun l k => prio l < prio k) ∧
  (∀ l k, l ∈ priorityOrder → 0o200 ≤ k → prio l < prio k) ∧
  (∀ l k, 0o200 ≤ l → l < k → prio l < prio k) ∧
  (∀ (s : State) (l : Nat), s.gateOpen l = true ↔
    s.ien = true ∨ s.console.enableSwitch = true ∨ l = 0o36 ∨ l = 0o37 ∨
      (s.cfg.parityGated = false ∧ ∃ cpu io, s.cfg.parityLevels = some (cpu, io) ∧ (l = cpu ∨ l = io))) ∧
  ∀ (s : State) (l : Nat), s.nextLevel = some l ↔
    (l ∈ s.waiting ∧ levelPresent s.cfg l = true ∧ s.gateOpen l = true ∧ ∀ h ∈ s.active, prio l ≤ prio h) ∧
    ∀ k ∈ s.waiting, levelPresent s.cfg k = true → s.gateOpen k = true → (∀ h ∈ s.active, prio k ≤ prio h) →
      prio l ≤ prio k

/-- 60 R523, R530: a signal makes its level Waiting if the level is installed, armed and not Active, and changes nothing
else; taking an interrupt makes its level Active and no longer Waiting, ends a halt, and changes no register. Dropping a
second signal is the spec's choice D39. 60 R544, R546, R547, 70 R599: the signals that no instruction gives: the clock
pulse, main power failing and returning, a system signal, a memory parity error, which idles the processor with the
switch at HALT; its indicator goes out with the switch at CONTINUE. R523, R525: the levels an installation has; the
clock pulse is armed by its own bit, a system level with the arming feature by its arm bit, the rest always. 48 R373, 60
R541, R542: a channel's signal reaches its level by its arm bit in the Extended mode, else while the interrupt system is
enabled. What power loss leaves and how a machine that was off goes on are the model's readings (log 28), so is the
power-off line that the two power signals set and clear (log 42); the parity levels are the open parameters D42, always
armed (log 27). -/
def Obligations.RequestAndTake : Prop :=
  (∀ (c : Config) (l : Nat),
    let parity : Prop := ∃ cpu io, c.parityLevels = some (cpu, io) ∧ (l = cpu ∨ l = io)
    (l < 0o200 → (levelPresent c l = true ↔
      (∃ ch zc er, ch ∈ c.channels ∧ (ch, zc, er) ∈ channelLevels ∧ (l = zc ∨ l = er)) ∨
        (l = 0o35 ∧ c.hasLockout = true) ∨ ((l = 0o36 ∨ l = 0o37) ∧ c.hasPowerFailsafe = true) ∨
        ((l = 0o74 ∨ l = 0o75) ∧ c.hasRtc = true) ∨ parity)) ∧
    (0o200 ≤ l → (levelPresent c l = true ↔ l < 0o200 + c.nSystem ∨ parity)) ∧
    ∀ s : State, s.cfg = c →
      (l = 0o75 → s.isArmed l = s.rtcArmed) ∧
      (0o200 ≤ l → c.armingFeature = true → l ∉ c.unarmable → ¬ parity → (s.isArmed l = true ↔ l ∈ s.armed)) ∧
      (l ≠ 0o75 → l < 0o200 ∨ c.armingFeature = false ∨ l ∈ c.unarmable ∨ parity → s.isArmed l = true)) ∧
  (∀ (s : State) (ch : ChannelId) (zc er : Nat), (ch, zc, er) ∈ channelLevels →
    signalLevel ch .zc = zc ∧ signalLevel ch .er = er ∧
    (isDirect ch = true ∨ (s.chan ch).ia = true →
      s.signalOpen ch .zc = (s.chan ch).zcArm ∧ s.signalOpen ch .er = (s.chan ch).erArm) ∧
    (isDirect ch = false → (s.chan ch).ia = false →
      ∀ k, s.signalOpen ch k = (s.ien || s.console.enableSwitch))) ∧
  (∀ (s : State) (l : Nat), ∃ w, s.raise l = { s with waiting := w } ∧
    ∀ k, k ∈ w ↔
      k ∈ s.waiting ∨ (k = l ∧ levelPresent s.cfg l = true ∧ s.isArmed l = true ∧ l ∉ s.active)) ∧
  (∀ (s : State) (l : Nat), ∃ w act,
    s.acknowledge l = { s with waiting := w, active := act, ack := some l, halted := false } ∧
    (∀ k, k ∈ w ↔ k ∈ s.waiting ∧ k ≠ l) ∧ (∀ k, k ∈ act ↔ k ∈ s.active ∨ k = l)) ∧
  (∀ s : State, s.power = .on →
    applyEvent .clockPulse s = .next (s.raise 0o75) ∧
    applyEvent .powerFail s = .next { s.raise 0o37 with lines := { s.lines with powerOff := true } } ∧
    applyEvent .powerReturn s = .next { s.raise 0o36 with lines := { s.lines with powerOff := false } } ∧
    (∀ l, 0o200 ≤ l → applyEvent (.interruptSignal l) s = .next (s.raise l)) ∧
    (∀ io, s.console.parityHalt = false → s.cfg.parityLevels = none →
      applyEvent (.parityError io) s = .next { s with parityError := true }) ∧
    (∀ cpu other, s.console.parityHalt = false → s.cfg.parityLevels = some (cpu, other) →
      applyEvent (.parityError false) s = .next { s.raise cpu with parityError := true } ∧
      applyEvent (.parityError true) s = .next { s.raise other with parityError := true }) ∧
    (∀ io, s.console.parityHalt = true → ∃ t, applyEvent (.parityError io) s = .next t ∧ t.parityError = true ∧
      t.console.runSwitch = .idle ∧ t.halted = false)) ∧
  (∀ s : State, applyEvent (.paritySwitch false) s =
    .next { s with console := { s.console with parityHalt := false }, parityError := false }) ∧
  (∀ s : State, ∃ t, applyEvent .powerOff s = .next t ∧ t.power = .off ∧ t.mem = s.mem ∧ t.console = s.console) ∧
  ∀ s : State, s.power = .off → s.cfg.hasPowerFailsafe = true → ∃ t, applyEvent .powerReturn s = .next t ∧
    t.power = .on ∧ t.ack = some 0o36 ∧ 0o36 ∈ t.active ∧ t.p = s.p ∧ t.mem = s.mem ∧ t.halted = false ∧
      t.airAlert = false ∧ t.noIntNext = false ∧ t.dmsSelect = none ∧ t.ilcAlerted = [] ∧ t.ascAlerted = []

/-- 44 R241, 60 R534: BRU goes to its effective address; with its own bit 9 set it also ends the Active level of highest
priority. -/
def Obligations.BranchAndReturn : Prop :=
  ∀ (s : State) (r : Ref) (t : Addr), s.ea r = .addr t →
    (r.indirect = false → exec (.bru r) s = .next { s with p := t, cState := .none }) ∧
    (r.indirect = true → ∃ act, exec (.bru r) s = .next { s with active := act, p := t, cState := .none } ∧
      (s.active = [] → act = []) ∧
      ∀ l ∈ s.active, (∀ k ∈ s.active, prio l ≤ prio k) → ∀ k, k ∈ act ↔ k ∈ s.active ∧ k ≠ l)

/-! ### Loads, stores, arithmetic -/

/-- 40 R141, R143, R145, 42 R190 to R192: the loads and the logical instructions. -/
def Obligations.LoadAndLogical : Prop :=
  ∀ (s : State) (r : Ref) (t : Addr), s.ea r = .addr t →
    exec (.lda r) s = .next { s with a := s.read t, p := s.advanced 1, cState := .none } ∧
    exec (.ldb r) s = .next { s with b := s.read t, p := s.advanced 1, cState := .none } ∧
    exec (.ldx r) s = .next { s with x := s.read t, p := s.advanced 1, cState := .none } ∧
    (∃ v, exec (.etr r) s = .next { s with a := v, p := s.advanced 1, cState := .none } ∧
      ∀ k, bit v k = (bit s.a k && bit (s.read t) k)) ∧
    (∃ v, exec (.mrg r) s = .next { s with a := v, p := s.advanced 1, cState := .none } ∧
      ∀ k, bit v k = (bit s.a k || bit (s.read t) k)) ∧
    (∃ v, exec (.eor r) s = .next { s with a := v, p := s.advanced 1, cState := .none } ∧
      ∀ k, bit v k = (bit s.a k ^^ bit (s.read t) k))

/-- 40 R142, R144, R146: the stores, with all that they leave alone. A store where no memory is installed (20 R63) or
that the lock-out refuses (R64) completes too: P goes on. That is the spec's choice D31. -/
def Obligations.Stores : Prop :=
  ∀ (s : State) (r : Ref) (t : Addr), s.ea r = .addr t →
    (∃ m w, exec (.sta r) s = .next { s with mem := m, waiting := w, p := s.advanced 1, cState := .none } ∧
      Stored s m w (s.phys t) s.a) ∧
    (∃ m w, exec (.stb r) s = .next { s with mem := m, waiting := w, p := s.advanced 1, cState := .none } ∧
      Stored s m w (s.phys t) s.b) ∧
    (∃ m w, exec (.stx r) s = .next { s with mem := m, waiting := w, p := s.advanced 1, cState := .none } ∧
      Stored s m w (s.phys t) s.x)

/-- 40 R147, R148: EAX copies the address itself to bits 10 to 23 of X; XMA exchanges A and the word. That it loads A
where the store is refused too is R148's own inference from the spec's choice D31. The operand is the word of memory, or
the one M holds where a memory cycle before this turn has read it (log 50). -/
def Obligations.AddressAndExchange : Prop :=
  ∀ (s : State) (r : Ref) (t : Addr), s.ea r = .addr t →
    (∃ x, exec (.eax r) s = .next { s with x := x, p := s.advanced 1, cState := .none } ∧
      addrField x = t ∧ ∀ k, k < 10 → bit x k = bit s.x k) ∧
    (∃ m w, exec (.xma r) s =
        .next { s with a := s.operand t, mem := m, waiting := w, p := s.advanced 1, cState := .none } ∧
      Stored s m w (s.phys t) s.a)

/-- 41 R161, R162: the sum modulo 2^24, the carry out of bit 0 in bit 0 of X, the rest of X unchanged, OV where the true
signed sum is out of range; ADD only sets OV, ADC takes bit 0 of X in and clears OV first. -/
def Obligations.AddInstructions : Prop :=
  ∀ (s : State) (r : Ref) (t : Addr), s.ea r = .addr t →
    let m := s.read t
    (∃ a x ov, exec (.add r) s = .next { s with a := a, x := x, ov := ov, p := s.advanced 1, cState := .none } ∧
      a.toNat = (s.a.toNat + m.toNat) % 2 ^ 24 ∧ (bit x 0 = true ↔ 2 ^ 24 ≤ s.a.toNat + m.toNat) ∧
      (∀ k, 0 < k → bit x k = bit s.x k) ∧
      (ov = true ↔ s.ov = true ∨ ¬ (-2 ^ 23 ≤ s.a.toInt + m.toInt ∧ s.a.toInt + m.toInt < 2 ^ 23))) ∧
    (∃ a x ov, exec (.adc r) s = .next { s with a := a, x := x, ov := ov, p := s.advanced 1, cState := .none } ∧
      a.toNat = (s.a.toNat + m.toNat + (bit s.x 0).toNat) % 2 ^ 24 ∧
      (bit x 0 = true ↔ 2 ^ 24 ≤ s.a.toNat + m.toNat + (bit s.x 0).toNat) ∧
      (∀ k, 0 < k → bit x k = bit s.x k) ∧
      (ov = true ↔ ¬ (-2 ^ 23 ≤ s.a.toInt + m.toInt + (bit s.x 0).toNat ∧
        s.a.toInt + m.toInt + (bit s.x 0).toNat < 2 ^ 23)))

/-- 41 R165, R166, R169: the difference; SUC subtracts one more where the carry says that the last subtraction
borrowed. With SUB_CARRY_POLARITY `adder` bit 0 of X is 1 for no borrow, with `borrow` it is 1 for a borrow. The
polarity is the open parameter D7. -/
def Obligations.SubtractInstructions : Prop :=
  ∀ (s : State) (r : Ref) (t : Addr), s.ea r = .addr t →
    let m := s.read t
    let d : Nat := if bit s.x 0 = s.cfg.subBorrow then 1 else 0
    (∃ a x ov, exec (.sub r) s = .next { s with a := a, x := x, ov := ov, p := s.advanced 1, cState := .none } ∧
      (a.toNat : Int) = ((s.a.toNat : Int) - m.toNat) % 2 ^ 24 ∧
      (s.a.toNat < m.toNat ↔ bit x 0 = s.cfg.subBorrow) ∧
      (∀ k, 0 < k → bit x k = bit s.x k) ∧
      (ov = true ↔ s.ov = true ∨ ¬ (-2 ^ 23 ≤ s.a.toInt - m.toInt ∧ s.a.toInt - m.toInt < 2 ^ 23))) ∧
    (∃ a x ov, exec (.suc r) s = .next { s with a := a, x := x, ov := ov, p := s.advanced 1, cState := .none } ∧
      (a.toNat : Int) = ((s.a.toNat : Int) - m.toNat - d) % 2 ^ 24 ∧
      (s.a.toNat < m.toNat + d ↔ bit x 0 = s.cfg.subBorrow) ∧
      (∀ k, 0 < k → bit x k = bit s.x k) ∧
      (ov = true ↔ ¬ (-2 ^ 23 ≤ s.a.toInt - m.toInt - d ∧ s.a.toInt - m.toInt - d < 2 ^ 23)))

/-- 41 R163, R164, 45 R267, 60 R548, R549: ADM, MIN and SKR put a sum in memory, and OV where it overflows; MIN and
SKR in the Clock Pulse location may request Clock Sync. A and X are unchanged. Computing OV, the skip and the Sync
request from the result where the store is refused is the spec's choice D31; SKR's Sync request is the open parameter
D41. The operand M holds counts as in AddressAndExchange (log 50). -/
def Obligations.MemoryArithmetic : Prop :=
  ∀ (s : State) (r : Ref) (t : Addr), s.ea r = .addr t →
    let m := s.operand t
    (∃ (mem : Memory) (w : List Nat) (v : Word) (ov : Bool), exec (.adm r) s =
        .next { s with mem := mem, waiting := w, ov := ov, p := s.advanced 1, cState := .none } ∧
      Stored s mem w (s.phys t) v ∧ v.toNat = (s.a.toNat + m.toNat) % 2 ^ 24 ∧
      (ov = true ↔ s.ov = true ∨ ¬ (-2 ^ 23 ≤ s.a.toInt + m.toInt ∧ s.a.toInt + m.toInt < 2 ^ 23))) ∧
    (∃ (mem : Memory) (w : List Nat) (v : Word) (ov : Bool), exec (.min r) s =
        .next { s with
          mem := mem, ov := ov, p := s.advanced 1, cState := .none
          waiting := if s.origin = .interrupt 0o75 ∧ v = 0 then State.requested { s with waiting := w } 0o74 else w } ∧
      Stored s mem w (s.phys t) v ∧ v.toNat = (m.toNat + 1) % 2 ^ 24 ∧
      (ov = true ↔ s.ov = true ∨ m = 0o37777777)) ∧
    (∃ (mem : Memory) (w : List Nat) (v : Word) (ov : Bool), exec (.skr r) s =
        .next { s with
          mem := mem, ov := ov, p := s.advanced (if bit v 0 then 2 else 1), cState := .none
          waiting := if s.origin = .interrupt 0o75 ∧ skrSyncs s.cfg.skrSync v = true
            then State.requested { s with waiting := w } 0o74 else w } ∧
      Stored s mem w (s.phys t) v ∧ v.toNat = (m.toNat + (2 ^ 24 - 1)) % 2 ^ 24 ∧
      (ov = true ↔ s.ov = true ∨ m = 0o40000000))

/-- 41 R167: A and B hold twice the signed product; in the one case it cannot be held OV is set and A and B hold
anything. -/
def Obligations.Multiply : Prop :=
  ∀ (s : State) (r : Ref) (t : Addr), s.ea r = .addr t →
    let m := s.read t
    (¬ (s.a = 0o40000000 ∧ m = 0o40000000) → ∃ v : BitVec 48,
      exec (.mul r) s =
        .next { s with a := highWord v, b := lowWord v, p := s.advanced 1, cState := .none } ∧
      v.toInt = 2 * (s.a.toInt * m.toInt)) ∧
    (s.a = 0o40000000 → m = 0o40000000 → ∃ a b n,
      exec (.mul r) s = .next { s with a := a, b := b, ov := true, draws := n, p := s.advanced 1, cState := .none })

/-- 41 R168: the quotient toward zero and the remainder of the numerator's sign; on overflow, and for a divisor of
zero, OV is set and A and B hold anything. That B23 does not enter and that a zero divisor overflows are the spec's
choice D8 (log 13). -/
def Obligations.Divide : Prop :=
  ∀ (s : State) (r : Ref) (t : Addr), s.ea r = .addr t →
    let n : Int := (joinAB s.a s.b).toInt / 2
    let d : Int := (s.read t).toInt
    let inRange : Prop := (0 < d ∧ -(d * 2 ^ 23) ≤ n ∧ n < d * 2 ^ 23) ∨ (d < 0 ∧ d * 2 ^ 23 < n ∧ n ≤ -(d * 2 ^ 23))
    (inRange → ∃ a b, exec (.div r) s = .next { s with a := a, b := b, p := s.advanced 1, cState := .none } ∧
      n = a.toInt * d + b.toInt ∧ b.toInt.natAbs < d.natAbs ∧ (0 ≤ n → 0 ≤ b.toInt) ∧ (n ≤ 0 → b.toInt ≤ 0)) ∧
    (¬ inRange → ∃ a b k,
      exec (.div r) s = .next { s with a := a, b := b, ov := true, draws := k, p := s.advanced 1, cState := .none })

/-! ### Branches, Programmed Operators, skips -/

/-- 44 R242, R244: BRX tests bit 9 of X after counting it up, and goes to the address of the old X with no interrupt
after it; BRR goes to one past the address in its operand and sets OV from bit 0. -/
def Obligations.BranchInstructions : Prop :=
  ∀ (s : State) (r : Ref) (t : Addr), s.ea r = .addr t →
    (bit (s.x + 1) 9 = true →
      exec (.brx r) s = .next { s with x := s.x + 1, noIntNext := true, p := t, cState := .none }) ∧
    (bit (s.x + 1) 9 = false →
      exec (.brx r) s = .next { s with x := s.x + 1, p := s.advanced 1, cState := .none }) ∧
    exec (.brr r) s =
      .next { s with ov := s.ov || bit (s.read t) 0, p := addrField (s.read t) + 1, cState := .none }

/-- 44 R243: BRM stores OV, EM3, EM2 and P in the mark and goes one past it; OV is not changed. Bits 1 and 2 zero are
the spec's choice D26 (log 15); that the two fields are stored also where the Memory Extension System is absent is the
model's (log 60). -/
def Obligations.MarkAndBranch : Prop :=
  ∀ (s : State) (r : Ref) (t : Addr), s.ea r = .addr t →
    ∃ m w v, exec (.brm r) s = .next { s with mem := m, waiting := w, p := t + 1, cState := .none } ∧
      Stored s m w (s.phys t) v ∧ bit v 0 = s.ov ∧ bit v 1 = false ∧ bit v 2 = false ∧
      v.extractLsb' 18 3 = s.em3 ∧ v.extractLsb' 15 3 = s.em2 ∧ bit v 9 = false ∧ addrField v = s.p

/-- 47 R319: the Programmed Operator sequence: the mark in location 0, OV saved and cleared, P to the linkage table.
Bits 1 to 8 zero are the spec's choice D25. -/
def Obligations.ProgrammedOperator : Prop :=
  ∀ (s : State) (code : BitVec 6) (r : Ref),
    ∃ m w v q, exec (.pop code r) s =
        .next { s with mem := m, waiting := w, ov := false, p := q, cState := .none } ∧
      Stored s m w 0 v ∧ bit v 0 = s.ov ∧ (∀ k, 1 ≤ k → k ≤ 8 → bit v k = false) ∧ bit v 9 = true ∧
      addrField v = s.p ∧ q.toNat = 0o100 + code.toNat

/-- 44 R241, R243, R244: from the mark BRM has left, an indirect BRU goes back to the P that was saved, and BRR to
one past it. It rests on the spec's choice D26 (log 15). -/
def Obligations.MarkReturns : Prop :=
  ∀ (s u : State) (r : Ref) (t : Addr), s.ea r = .addr t → s.writable (s.phys t) = true →
    exec (.brm r) s = .next u →
      u.ea { indexed := false, indirect := true, addr := t } = .addr s.p ∧
      ∃ ov, exec (.brr { indexed := false, indirect := false, addr := t }) u =
        .next { u with ov := ov, p := s.p + 1, cState := .none }

/-- 45 R261 to R266: the skips that change nothing else. -/
def Obligations.SkipInstructions : Prop :=
  ∀ (s : State) (r : Ref) (t : Addr), s.ea r = .addr t →
    let m := s.read t
    SkipsWhen s (.ske r) (s.a = m) ∧
    SkipsWhen s (.skg r) (m.toInt < s.a.toInt) ∧
    SkipsWhen s (.skm r) (∀ k, bit s.b k = true → bit s.a k = bit m k) ∧
    SkipsWhen s (.ska r) (∀ k, ¬ (bit s.a k = true ∧ bit m k = true)) ∧
    SkipsWhen s (.skb r) (∀ k, ¬ (bit s.b k = true ∧ bit m k = true)) ∧
    SkipsWhen s (.skn r) (bit m 0 = true)

/-- 45 R268: SKD leaves the distance of the exponents in bits 15 to 23 of X and anything in the rest, and skips where
the operand's exponent is the greater; the comparison is that of the parameter SKD_COMPARE. The spec's choices D9 and
D29 (log 11). -/
def Obligations.SkipOnExponents : Prop :=
  ∀ (s : State) (r : Ref) (t : Addr), s.ea r = .addr t →
    let value : BitVec 9 → Int := fun e => if s.cfg.skdSigned then e.toInt else e.toNat
    let eb := value (low9 s.b)
    let em := value (low9 (s.read t))
    ∃ x n q, exec (.skd r) s = .next { s with x := x, draws := n, p := q, cState := .none } ∧
      (low9 x).toNat = (eb - em).natAbs % 512 ∧ (eb < em → q = s.advanced 2) ∧ (em ≤ eb → q = s.advanced 1)

/-! ### Register change -/

/-- 43 R202 to R220: the register change instructions that have a name, those of the exponent fields last. That CNA
leaves OV alone is the spec's choice D23. -/
def Obligations.RegisterChanges : Prop :=
  ∀ s : State,
    exec .cla s = .next { s with a := 0, p := s.advanced 1, cState := .none } ∧
    exec .clb s = .next { s with b := 0, p := s.advanced 1, cState := .none } ∧
    exec .clr s = .next { s with a := 0, b := 0, p := s.advanced 1, cState := .none } ∧
    exec .cab s = .next { s with b := s.a, p := s.advanced 1, cState := .none } ∧
    exec .cba s = .next { s with a := s.b, p := s.advanced 1, cState := .none } ∧
    exec .xab s = .next { s with a := s.b, b := s.a, p := s.advanced 1, cState := .none } ∧
    exec .bac s = .next { s with a := s.b, b := 0, p := s.advanced 1, cState := .none } ∧
    exec .abc s = .next { s with a := 0, b := s.a, p := s.advanced 1, cState := .none } ∧
    exec .clx s = .next { s with x := 0, p := s.advanced 1, cState := .none } ∧
    exec .cxa s = .next { s with a := s.x, p := s.advanced 1, cState := .none } ∧
    exec .cax s = .next { s with x := s.a, p := s.advanced 1, cState := .none } ∧
    exec .xxa s = .next { s with a := s.x, x := s.a, p := s.advanced 1, cState := .none } ∧
    exec .cbx s = .next { s with x := s.b, p := s.advanced 1, cState := .none } ∧
    exec .cxb s = .next { s with b := s.x, p := s.advanced 1, cState := .none } ∧
    exec .xxb s = .next { s with b := s.x, x := s.b, p := s.advanced 1, cState := .none } ∧
    exec .cna s = .next { s with a := 0 - s.a, p := s.advanced 1, cState := .none } ∧
    (∃ b x, exec .ste s = .next { s with b := b, x := x, p := s.advanced 1, cState := .none } ∧
      low9 b = 0 ∧ (∀ k, k < 15 → bit b k = bit s.b k) ∧ x.toInt = (low9 s.b).toInt) ∧
    (∃ b, exec .lde s = .next { s with b := b, p := s.advanced 1, cState := .none } ∧
      low9 b = low9 s.x ∧ ∀ k, k < 15 → bit b k = bit s.b k) ∧
    (∃ b x, exec .xee s = .next { s with b := b, x := x, p := s.advanced 1, cState := .none } ∧
      low9 b = low9 s.x ∧ (∀ k, k < 15 → bit b k = bit s.b k) ∧ x.toInt = (low9 s.b).toInt)

/-- 43 R201: any combination of the full-word function bits, every source read before any register is written: a
register that is copied into holds the merge of its sources, and else is cleared where its clear bit is set. With bit
17 set, the combinations rule R201 defines act on the exponent fields. The combinations are read as the spec's choice
D11 says. -/
def Obligations.RegisterChangeGeneral : Prop :=
  ∀ (s : State) (f : RegFn),
    (f.expOnly = false → ∃ a b x,
      exec (.rch f) s = .next { s with a := a, b := b, x := x, p := s.advanced 1, cState := .none } ∧
      (∀ k, bit a k = if f.bToA || f.xToA || f.negA
        then (f.bToA && bit s.b k) || (f.xToA && bit s.x k) || (f.negA && bit (0 - s.a) k)
        else !f.clearA && bit s.a k) ∧
      (∀ k, bit b k = if f.aToB || f.xToB then (f.aToB && bit s.a k) || (f.xToB && bit s.x k)
        else !f.clearB && bit s.b k) ∧
      (∀ k, bit x k = if f.aToX || f.bToX then (f.aToX && bit s.a k) || (f.bToX && bit s.b k)
        else !f.clearX && bit s.x k)) ∧
    (undefinedExp f = false → f.expOnly = true → ∃ b x,
      exec (.rch f) s = .next { s with b := b, x := x, p := s.advanced 1, cState := .none } ∧
      (∀ k, k < 15 → bit b k = bit s.b k) ∧
      low9 b = (if f.xToB then low9 s.x else if f.clearB then 0 else low9 s.b) ∧
      (f.bToX = true → x.toInt = (low9 s.b).toInt) ∧ (f.bToX = false → x = s.x))

/-! ### Shifts -/

/-- 46 R281 to R284: the right shifts, whichever of them the word's own bits name: the kind and the count are those of
the shift effective address, a count above 48 being 48. -/
def Obligations.RightShifts : Prop :=
  ∀ (s : State) (r : Ref) (t : Addr) (i : Instr), i ∈ [Instr.rsh r, .rcy r, .lrsh r] → s.shiftEA r = .addr t →
    let n := min (t.toNat % 512) 48
    let ab := joinAB s.a s.b
    (t.toNat / 512 = 0b00000 → ∃ v : BitVec 48,
      exec i s = .next { s with a := highWord v, b := lowWord v, p := s.advanced 1, cState := .none } ∧
      v.toInt = ab.toInt / 2 ^ n) ∧
    (t.toNat / 512 = 0b10100 → ∃ v : BitVec 48,
      exec i s = .next { s with a := highWord v, b := lowWord v, p := s.advanced 1, cState := .none } ∧
      v.toNat = ab.toNat / 2 ^ n) ∧
    (t.toNat / 512 = 0b10000 → ∃ v : BitVec 48,
      exec i s = .next { s with a := highWord v, b := lowWord v, p := s.advanced 1, cState := .none } ∧
      ∀ k, k < 48 → v.getMsbD k = ab.getMsbD ((k + (48 - n)) % 48))

/-- 46 R285 to R287: LSH drops the bits that leave A and sets OV where one of the bits that reach the sign differs from
it; LCY cycles; NOD shifts until bits 0 and 1 differ, at most the count of places, and takes the places from X. -/
def Obligations.LeftShifts : Prop :=
  ∀ (s : State) (r : Ref) (t : Addr) (i : Instr), i ∈ [Instr.lsh r, .lcy r, .nod r] → s.shiftEA r = .addr t →
    let n := min (t.toNat % 512) 48
    let ab := joinAB s.a s.b
    (t.toNat / 512 = 0b00000 → ∃ (v : BitVec 48) (ov : Bool),
      exec i s = .next { s with a := highWord v, b := lowWord v, ov := ov, p := s.advanced 1, cState := .none } ∧
      v.toNat = ab.toNat * 2 ^ n % 2 ^ 48 ∧
      (ov = true ↔ s.ov = true ∨ ∃ k, 1 ≤ k ∧ k ≤ n ∧ ab.getMsbD k ≠ ab.getMsbD 0)) ∧
    (t.toNat / 512 = 0b10000 → ∃ v : BitVec 48,
      exec i s = .next { s with a := highWord v, b := lowWord v, p := s.advanced 1, cState := .none } ∧
      ∀ k, k < 48 → v.getMsbD k = ab.getMsbD ((k + n) % 48)) ∧
    (t.toNat / 512 = 0b01000 → ∃ (v : BitVec 48) (x : Word) (k : Nat), k ≤ n ∧
      exec i s = .next { s with a := highWord v, b := lowWord v, x := x, p := s.advanced 1, cState := .none } ∧
      v.toNat = ab.toNat * 2 ^ k % 2 ^ 48 ∧ (x.toNat : Int) = ((s.x.toNat : Int) - k) % 2 ^ 24 ∧
      (∀ j, j < k → ab.getMsbD j = ab.getMsbD (j + 1)) ∧ (k < n → ab.getMsbD k ≠ ab.getMsbD (k + 1)))

/-! ### Control -/

/-- 47 R310 to R316: HLT brings the next instruction to C to be displayed and halts only in RUN; NOP; EXU brings its
subject to C, P unchanged; the overflow instructions; each BREAKPOINT test skips if its switch is reset, the combined
form if any switch tested is. That C is a display only is the spec's choice D22; EXU in two transitions is the model's
(log 18). -/
def Obligations.ControlInstructions : Prop :=
  ∀ s : State,
    (s.ack = none →
      (s.console.runSwitch = .run → exec .hlt s =
        .next { s with halted := true, c := s.read (s.advanced 1), p := s.advanced 1, cState := .none }) ∧
      (s.console.runSwitch ≠ .run →
        exec .hlt s = .next { s with c := s.read (s.advanced 1), p := s.advanced 1, cState := .none })) ∧
    (∀ l, s.ack = some l → exec .hlt s = .next { s with
      halted := s.halted || s.console.runSwitch == .run, c := s.memRead (BitVec.ofNat 15 l), p := s.advanced 1
      cState := .none }) ∧
    exec .nop s = .next { s with p := s.advanced 1, cState := .none } ∧
    (∀ r t, s.ea r = .addr t → exec (.exu r) s = .next { s with c := s.read t, cState := .subject }) ∧
    (s.ov = true → exec .ovt s = .next { s with ov := false, p := s.advanced 1, cState := .none }) ∧
    (s.ov = false → exec .ovt s = .next { s with p := s.advanced 2, cState := .none }) ∧
    exec .rov s = .next { s with ov := false, noIntNext := true, p := s.advanced 1, cState := .none } ∧
    exec .reo s = .next { s with
      ov := if bit s.x 14 = bit s.x 15 then s.ov else true, noIntNext := true, p := s.advanced 1, cState := .none } ∧
    SkipsWhen s .bpt1 (s.console.bp1 = false) ∧ SkipsWhen s .bpt2 (s.console.bp2 = false) ∧
    SkipsWhen s .bpt3 (s.console.bp3 = false) ∧ SkipsWhen s .bpt4 (s.console.bp4 = false) ∧
    ∀ t1 t2 t3 t4 : Bool, (t1 || t2 || t3 || t4) = true →
      SkipsWhen s
        (.sks ⟨false, false, 2,
          0#3 ++ BitVec.ofBool t1 ++ BitVec.ofBool t2 ++ BitVec.ofBool t3 ++ BitVec.ofBool t4 ++ 0#5⟩)
        ((t1 = true ∧ s.console.bp1 = false) ∨ (t2 = true ∧ s.console.bp2 = false) ∨
          (t3 = true ∧ s.console.bp3 = false) ∨ (t4 = true ∧ s.console.bp4 = false))

/-- 47 R317, R318: the extension registers are loaded where their S bits say so, and tested against 2 and 3. -/
def Obligations.ExtensionRegisters : Prop :=
  ∀ s : State, s.cfg.hasMemExt = true →
    (∀ s3 s2 r3 r2, exec (.setext s3 s2 r3 r2) s = .next { s with
      em3 := if s3 then r3 else s.em3, em2 := if s2 then r2 else s.em2, noIntNext := true, p := s.advanced 1
      cState := .none }) ∧
    ∀ t3 t2, SkipsWhen s (.exttest t3 t2) ((t2 = true ∧ s.em2 ≠ 2) ∨ (t3 = true ∧ s.em3 ≠ 3))

/-- 60 R535 to R539, R546, R547: the interrupt control instructions, their tests, and the clock's arm bit. The power-off
signal is the host's, with and without the fail-safe system (log 42). That AIR sets its alert also without the arming
feature (log 66), and that the clock's two EOMs write the arm bit also without the clock (log 59), are the model's
choices. -/
def Obligations.InterruptControl : Prop :=
  ∀ s : State,
    exec .eir s = .next { s with ien := true, noIntNext := true, p := s.advanced 1, cState := .none } ∧
    exec .dir s = .next { s with ien := false, noIntNext := true, p := s.advanced 1, cState := .none } ∧
    exec .air s = .next { s with airAlert := true, noIntNext := true, p := s.advanced 1, cState := .none } ∧
    exec .rtcarm s = .next { s with rtcArmed := true, noIntNext := true, p := s.advanced 1, cState := .none } ∧
    exec .rtcdisarm s = .next { s with rtcArmed := false, noIntNext := true, p := s.advanced 1, cState := .none } ∧
    SkipsWhen s .iet (s.ien = true) ∧ SkipsWhen s .idt (s.ien = false) ∧
    SkipsWhen s .pfst (s.lines.powerOff = false)

/-- 60 R539: the word of the POT after AIR: group, control field and sixteen selection bits; only arm bits change, and
of those only the bits of installed levels with the arming feature. Control 0 changes none (93 U15); the parity levels
have no arm bit (log 27); that without the feature the POT takes the alert all the same is the model's choice (log 66).
-/
def Obligations.ArmLevels : Prop :=
  ∀ (s : State) (r : Ref) (t : Addr), s.ea r = .addr t → s.airAlert = true → s.ilcAlerted = [] →
    s.dmsSelect = none →
    let m := s.operand t
    let group := (m.extractLsb' 18 6).toNat
    let control := (m.extractLsb' 16 2).toNat
    ∃ arm, exec (.pot r) s = .next { s with airAlert := false, armed := arm, p := s.advanced 1, cState := .none } ∧
      (∀ b, 8 ≤ b → b ≤ 23 →
        let l := 0o200 + 16 * group + (b - 8)
        if levelPresent s.cfg l = true ∧ isParityLevel s.cfg l = false ∧ s.cfg.armingFeature = true ∧
            l ∉ s.cfg.unarmable then
          (l ∈ arm ↔ (control = 1 ∧ (bit m b = true ∨ l ∈ s.armed)) ∨ (control = 2 ∧ bit m b = true ∧ l ∈ s.armed) ∨
            (control = 3 ∧ bit m b = true) ∨ (control = 0 ∧ l ∈ s.armed))
        else (l ∈ arm ↔ l ∈ s.armed)) ∧
      ∀ l, (l < 0o200 + 16 * group ∨ 0o200 + 16 * group + 16 ≤ l) → (l ∈ arm ↔ l ∈ s.armed)

/-! ### Input and output -/

/-- 48 R355, 49 R434 to R479: an instruction that connects a unit sets the channel's controls from its word and tells
the device. Bit 9 alerts the interlace. With no alert an input waits for characters, and an interlace loaded beforehand
runs on (R361, sequence 3); an output asks for its first word at once: from MAR where the interlace runs, with a count
of one its last, else with the End-of-Word signal (R365, R371). Nothing else changes. The defaults of an alert are the
spec's choice D37. That an alerting connect leaves the first word to the load (log 36), and that a count that comes to
zero under function 10 leaves the inter-record indicator (log 62), are the model's readings. -/
def Obligations.ConnectUnit : Prop :=
  ∀ (s : State) (ch : ChannelId) (d : DevFn) (n : BitVec 3) (c k : Conn) (i : Instr), (i, k) ∈ connects ch d n c →
    k.unit ≠ 0 →
    let on := { s.chan ch with
      uar := k.unit, reverse := k.reverse, noLeader := k.noLeader, binary := k.binary, cpw := k.cpw, error := false
      interRecord := false, eorSeen := false, topPending := false, charCount := 0, recBits := 0, output := k.unit.msb
      wordReady := k.unit.msb, lastWord := false, iorFull := false, scan := k.unit.extractLsb' 3 3 == 3
      loadDue := false, garbled := false }
    let leaves (x : Chan) (w : List Nat) : Prop := exec i s = .next { s with
      chans := s.chans.set ch x, waiting := w, out := .connect ch k.unit k.reverse k.noLeader k.binary :: s.out
      noIntNext := true, p := s.advanced 1, cState := .none }
    let zc := if on.zcArm then s.requested (zcLevel ch) else s.waiting
    (s.hasChan ch = false → exec i s = .next s.endEom) ∧
    (s.hasChan ch = true → k.alert = true → s.hasInterlace ch = true → leaves { on with
      loadDue := true, ilcAlert := true, hiCount := 0, hiAddr := false, erArm := false, zcArm := false, fc := 0
      ia := isDirect ch } s.waiting) ∧
    (s.hasChan ch = true → k.alert = false ∨ s.hasInterlace ch = false →
      (k.unit.msb = false → leaves on s.waiting) ∧
      (k.unit.msb = true → on.ilcActive = false →
        leaves on (if s.signalOpen ch .zc then s.requested (zcLevel ch) else s.waiting)) ∧
      (k.unit.msb = true → on.ilcActive = true → on.wcr = 0 → leaves on s.waiting) ∧
      (k.unit.msb = true → on.ilcActive = true → on.wcr ≠ 0 →
        let first := { on with
          war := s.memRead on.mar, wordReady := false, mar := on.mar + 1, wcr := on.wcr - 1
          zeroCount := on.zeroCount || on.wcr == 1 }
        (on.wcr ≠ 1 → leaves first s.waiting) ∧
        (on.wcr = 1 → extended ch on = true → on.fc ≠ 3 → leaves { first with lastWord := true } zc) ∧
        (on.wcr = 1 → extended ch on = true → on.fc = 3 → leaves { first with interRecord := true } zc) ∧
        (on.wcr = 1 → extended ch on = false → leaves { first with lastWord := true } s.waiting)))

/-- 48 R356: DSC disconnects, disarms and clears the error indicator, raises no interrupt, and tells the device that
was connected. So does every connect word of unit 00, which alerts too where bit 9 is set: that is R356's own inference,
of words the manual does not list, on which it says a proof should not rely. What a disconnect does to the interlace is
the spec's choice D37. -/
def Obligations.DisconnectChannel : Prop :=
  ∀ (s : State) (ch : ChannelId),
    (s.hasChan ch = false → exec (.dsc ch) s = .next s.endEom) ∧
    (s.hasChan ch = true → exec (.dsc ch) s = .next { s with
      chans := s.chans.set ch { s.chan ch with
        uar := 0, error := false, erArm := false, zcArm := false, ilcActive := false, topPending := false
        ia := isDirect ch, lastWord := false, loadDue := false, scan := false }
      out := if (s.chan ch).uar = 0 then s.out else .disconnect ch :: s.out
      noIntNext := true, p := s.advanced 1, cState := .none }) ∧
    ∀ k : Conn, k.unit = 0 →
      (k.alert = false ∨ s.hasInterlace ch = false → exec (.connect ch k) s = exec (.dsc ch) s) ∧
      (k.alert = true → s.hasInterlace ch = true → s.hasChan ch = true → exec (.connect ch k) s = .next { s with
        chans := s.chans.set ch { s.chan ch with
          uar := 0, error := false, erArm := false, zcArm := false, ilcActive := false, topPending := false
          ia := isDirect ch, lastWord := false, loadDue := false, scan := false, ilcAlert := true, hiCount := 0
          hiAddr := false, fc := 0 }
        out := if (s.chan ch).uar = 0 then s.out else .disconnect ch :: s.out
        noIntNext := true, p := s.advanced 1, cState := .none })

/-- 48 R358, R359: ALC alerts an interlace and puts its control fields at their defaults; the interlace-control word
that follows sets them; without interlace ALC does nothing. The spec's choices D34 and D37; that no device sees the
interlace-control word is the model's (log 63). -/
def Obligations.AlertAndControl : Prop :=
  ∀ (s : State) (ch : ChannelId) (k : IlcFn), s.hasChan ch = true →
    (s.hasInterlace ch = false → exec (.alc ch) s = .next s.endEom) ∧
    (s.hasInterlace ch = true → exec (.alc ch) s = .next { s with
      chans := s.chans.set ch { s.chan ch with
        ilcAlert := true, hiCount := 0, hiAddr := false, erArm := false, zcArm := false, fc := 0, ia := isDirect ch }
      noIntNext := true, p := s.advanced 1, cState := .none }) ∧
    ((s.chan ch).ilcAlert = true → exec (.ilc ch k) s = .next { s with
      chans := s.chans.set ch { s.chan ch with
        ia := isDirect ch || k.ia
        erArm := (isDirect ch || k.ia) && k.er
        zcArm := (isDirect ch || k.ia) && k.zc
        fc := if isDirect ch || k.ia then k.fc else 0
        hiAddr := k.hiAddr, hiCount := k.hiCount }
      noIntNext := true, p := s.advanced 1, cState := .none })

/-- 48 R361, R365, R368: the POT after an alert loads the interlace: the count and the address from their two halves. An
output that wants a word gets its first one from memory, and with a count of one that is its last; a word that an input
holds goes to memory, on a direct access channel first the one in IOR, then the one in WAR; with no word wanted or held
nothing else happens. That a waiting buffer is served at the load is the model's reading (log 36), so is that IOR holds
a word (log 34). That in the End-of-Record condition the interlace is not started, and that a load clears the
inter-record indicator a zero count set, is R369's own inference from the manual's examples; that the registers go by
the load all the same there, and that a count that comes to zero under function 10 leaves the inter-record indicator,
are the model's choices (log 67, log 62). -/
def Obligations.LoadInterlace : Prop :=
  ∀ (s : State) (r : Ref) (t : Addr) (ch : ChannelId) (count : BitVec 15) (addr : PAddr), s.ea r = .addr t →
    s.airAlert = false → s.dmsSelect = none → s.ilcAlerted = [ch] →
    count.toNat = (s.chan ch).hiCount.toNat * 1024 + (s.operand t).toNat / 2 ^ 14 → count ≠ 0 →
    addr.toNat = (s.chan ch).hiAddr.toNat * 2 ^ 14 + (s.operand t).toNat % 2 ^ 14 →
    let c := { s.chan ch with
      zeroCount := false, ilcAlert := false, loadDue := false, ilcActive := !(s.chan ch).eorSeen
      interRecord := (s.chan ch).eorSeen && (s.chan ch).interRecord, wcr := count, mar := addr }
    let served : Prop := c.uar ≠ 0 ∧ c.eorSeen = false
    let leaves (u : State) : Prop := exec (.pot r) s = .next { u with p := s.advanced 1, cState := .none }
    (c.uar = 0 ∨ c.eorSeen = true ∨ (c.output = true ∧ (c.wordReady = false ∨ c.lastWord = true)) ∨
        (c.output = false ∧ c.wordReady = false ∧ c.iorFull = false) →
      leaves { s with chans := s.chans.set ch c }) ∧
    (served → c.output = true → c.wordReady = true → c.lastWord = false →
      let first := { c with war := s.memRead addr, wordReady := false, wcr := count - 1, mar := addr + 1 }
      (count ≠ 1 → leaves { s with chans := s.chans.set ch first }) ∧
      (count = 1 →
        let proceeds := extended ch c && c.fc == 3
        leaves { s with
          waiting := if extended ch c && c.zcArm then s.requested (zcLevel ch) else s.waiting
          chans := s.chans.set ch { first with
            zeroCount := true, lastWord := !proceeds, interRecord := proceeds } })) ∧
    (served → c.output = false → c.wordReady = true → c.iorFull = false →
      ∃ word u, word.toNat % 2 ^ c.fullBits = c.war.toNat % 2 ^ c.fullBits ∧
        MovedIn { s with draws := s.draws + 1 } ch { c with wordReady := false } word u ∧ leaves u) ∧
    (served → c.output = false → c.iorFull = true → isDirect ch = true →
      ∃ u, MovedIn s ch { c with iorFull := false } c.ior u ∧
        let k := { u.chan ch with wordReady := false }
        (c.wordReady = false → leaves u) ∧
        (c.wordReady = true → count = 1 → c.fc = 1 → leaves u) ∧
        (c.wordReady = true → count = 1 → c.fc = 0 ∨ c.fc = 2 → leaves { u with chans := u.chans.set ch k }) ∧
        (c.wordReady = true → count ≠ 1 ∨ c.fc = 3 →
          ∃ word : Word, word.toNat % 2 ^ c.fullBits = c.war.toNat % 2 ^ c.fullBits ∧
            (count ≠ 1 → ∃ v, MovedIn { u with draws := s.draws + 1 } ch k word v ∧ leaves v) ∧
            (count = 1 → leaves { u with
              draws := s.draws + 1, chans := u.chans.set ch { k with ior := word, iorFull := true } })))

/-- 48 R360, R388: ASC alerts the channel, and the PIN that follows stores bits 1 to 14 of its MAR. -/
def Obligations.StoreChannelAddress : Prop :=
  ∀ (s : State) (ch : ChannelId),
    (s.hasChan ch = true → (s.chan ch).ilcAlert = false → s.hasInterlace ch = true →
      exec (.asc ch) s = .next { s with
        chans := s.chans.set ch { s.chan ch with ascAlert := true }
        noIntNext := true, p := s.advanced 1, cState := .none }) ∧
    (s.hasChan ch = false → exec (.asc ch) s = .next s.endEom) ∧
    ∀ (r : Ref) (t : Addr), s.ea r = .addr t → s.ascAlerted = [ch] →
      ∃ m w v, exec (.pin r) s = .next { s with
          mem := m, waiting := w, chans := s.chans.set ch { s.chan ch with ascAlert := false }
          p := s.advanced 1, cState := .none } ∧
        Stored s m w (s.phys t) v ∧ v.toNat = (s.chan ch).mar.toNat % 2 ^ 14

/-- 48 R360, R364, R365, R369, R371: TOP, and RTS whose word it is, marks the output for termination at its next word,
and a tape read for a scan; an output buffer already empty acts at once: it disconnects where no interlace runs, and
under function 11 it tells the device that it has the last character. Acting at once on an empty buffer, and no effect
under the other functions of a running interlace, are the model's readings (log 35). -/
def Obligations.TerminateOutput : Prop :=
  ∀ (s : State) (ch : ChannelId) (i : Instr), i ∈ [Instr.top ch, .rts ch] → s.hasChan ch = true →
    (s.chan ch).ilcAlert = false →
    ((s.chan ch).uar = 0 ∨ (s.chan ch).output = false ∨ (s.chan ch).wordReady = false ∨ (s.chan ch).lastWord = true ∨
        ((s.chan ch).ilcActive = true ∧ ((s.chan ch).fc ≠ 3 ∨ extended ch (s.chan ch) = false)) →
      exec i s = .next { s with
        chans := s.chans.set ch { s.chan ch with
          topPending := true, scan := (s.chan ch).scan || (s.chan ch).uar.extractLsb' 3 3 == 1 }
        out := .ioControl ch false 0b10000 0 :: s.out, noIntNext := true, p := s.advanced 1, cState := .none }) ∧
    ((s.chan ch).uar ≠ 0 → (s.chan ch).output = true → (s.chan ch).wordReady = true →
      (s.chan ch).lastWord = false → (s.chan ch).ilcActive = false →
      ∃ t, exec i s = .next t ∧
        t = { s with
          chans := t.chans, waiting := t.waiting, out := .disconnect ch :: .ioControl ch false 0b10000 0 :: s.out
          noIntNext := true, p := s.advanced 1, cState := .none } ∧
        (t.chan ch).uar = 0 ∧ (t.chan ch).topPending = false ∧ (t.chan ch).error = (s.chan ch).error ∧
        (∀ o, o ≠ ch → t.chan o = s.chan o) ∧
        t.waiting = if s.signalOpen ch .er then s.requested (erLevel ch) else s.waiting) ∧
    ((s.chan ch).uar ≠ 0 → (s.chan ch).output = true → (s.chan ch).wordReady = true →
      (s.chan ch).lastWord = false → (s.chan ch).ilcActive = true → extended ch (s.chan ch) = true →
      (s.chan ch).fc = 3 →
      exec i s = .next { s with
        chans := s.chans.set ch { s.chan ch with
          topPending := true, lastWord := true
          scan := (s.chan ch).scan || (s.chan ch).uar.extractLsb' 3 3 == 1 }
        out := .lastChar ch :: .ioControl ch false 0b10000 0 :: s.out, noIntNext := true, p := s.advanced 1
        cState := .none })

/-- 48 R357, R390, 49 R446 to R482: a device command goes to its device, a System-mode EOM to its destination; a
device command is an interlace-control word while the channel's interlace is alerted, and goes to no device then. The
spec's choice D34; that no device sees that word (log 63), the subchannel's place in its word and that C = 11 selects
too (log 40) are the model's readings. -/
def Obligations.DeviceCommands : Prop :=
  ∀ (s : State) (ch : ChannelId) (n : BitVec 3) (f fn : BitVec 5) (u unit : BitVec 6) (i : Instr),
    (i, fn, unit) ∈ commands ch n f u → unit ≠ 0 →
    (s.hasChan ch = false → exec i s = .next s.endEom) ∧
    (s.hasChan ch = true → (s.chan ch).ilcAlert = false → exec i s = .next { s with
      out := .ioControl ch false fn unit :: s.out, noIntNext := true, p := s.advanced 1, cState := .none }) ∧
    (s.hasChan ch = true → (s.chan ch).ilcAlert = true → exec i s = exec (.ilc ch
      ⟨fn.getMsbD 0, fn.getMsbD 1, fn.getMsbD 2, fn.extractLsb' 0 2, unit.getMsbD 0, unit.extractLsb' 0 5⟩) s) ∧
    ∀ k, exec (.syseom k) s = .next { s with
      out := .systemPulse k :: s.out, noIntNext := true, p := s.advanced 1, cState := .none
      dmsSelect := if s.cfg.hasDms = true ∧ k.b0 = false ∧ k.b1 = false ∧ k.b9 = true ∧ k.dest.getMsbD 0 = false ∧
          k.dest.getMsbD 3 = false ∧ k.dest.getMsbD 11 = false
        then some (k.dest.extractLsb' 0 8, k.dest.extractLsb' 9 2) else s.dmsSelect }

/-- 48 R374 to R378, R384 to R387, R391: the tests of a channel's own indicators, and the System Test. R395: for a
channel that is not installed the host answers: a signal it does not set reads as not set. That the host answers CZT for
a channel without interlace is the model's reading (log 39). -/
def Obligations.ChannelTests : Prop :=
  ∀ (s : State) (ch : ChannelId),
    let host (o : ChannelId) (fn : BitVec 5) : Prop := (o, fn, (0 : BitVec 6)) ∉ s.lines.deviceSignals
    (s.hasChan ch = true →
      SkipsWhen s (.cat ch) ((s.chan ch).uar = 0) ∧ SkipsWhen s (.cet ch) ((s.chan ch).error = false) ∧
      SkipsWhen s (.cit ch) ((s.chan ch).interRecord = true) ∧
      (s.hasInterlace ch = true → SkipsWhen s (.czt ch) ((s.chan ch).zeroCount = true)) ∧
      (s.hasInterlace ch = false → SkipsWhen s (.czt ch) (host ch 0b01000))) ∧
    (s.hasChan ch = false →
      SkipsWhen s (.cat ch) (host ch 0b10000) ∧ SkipsWhen s (.czt ch) (host ch 0b01000) ∧
      SkipsWhen s (.cet ch) (host ch 0b00100) ∧ SkipsWhen s (.cit ch) (host ch 0b00010)) ∧
    (s.hasChan .w = true →
      SkipsWhen s .brtw ((s.chan .w).uar = 0) ∧ SkipsWhen s .betw ((s.chan .w).error = false)) ∧
    (s.hasChan .w = false → SkipsWhen s .brtw (host .w 0b10000) ∧ SkipsWhen s .betw (host .w 0b00100)) ∧
    (s.hasChan .y = true →
      SkipsWhen s .brty ((s.chan .y).uar = 0) ∧ SkipsWhen s .bety ((s.chan .y).error = false)) ∧
    (s.hasChan .y = false → SkipsWhen s .brty (host .y 0b10000) ∧ SkipsWhen s .bety (host .y 0b00100)) ∧
    ∀ k, SkipsWhen s (.syssks k) (k ∉ s.lines.systemSignals)

/-- 48 R379, 49 R441 to R487: a device test skips if the device's signal is not set; for a tape unit that is absent, TRT
skips and FPT, BTT and ETT do not. 48 R395: for a channel that is not installed the host answers. That it does so for
these four tests too, and that a signal not listed is not set, are the model's choices (log 23). -/
def Obligations.DeviceTests : Prop :=
  ∀ (s : State) (ch : ChannelId) (n : BitVec 3),
    (∀ i fn unit, (i, fn, unit) ∈ deviceTests ch n →
      SkipsWhen s i ((ch, fn, unit) ∉ s.lines.deviceSignals)) ∧
    (∀ i fn absent, (i, fn, absent) ∈ tapeTests ch n →
      (s.attached ch (0b001#3 ++ n) = true ∨ s.hasChan ch = false →
        SkipsWhen s i ((ch, fn, 0b001#3 ++ n) ∉ s.lines.deviceSignals)) ∧
      (s.attached ch (0b001#3 ++ n) = false → s.hasChan ch = true → SkipsWhen s i (absent = true))) ∧
    ∀ fn unit, s.attached ch unit = true ∨ s.hasChan ch = false →
      SkipsWhen s (.devtest ch fn unit) ((ch, fn, unit) ∉ s.lines.deviceSignals)

/-- 48 R350, R380 to R383: MIW and MIY give the buffer a word when it is empty, WIM and YIM take its word when it is
full, of which only the bits of its characters are specified (R363); until then the instruction waits: C holds it and it
is marked waiting, and nothing else changes. That marking (log 17), which buffer counts as ready when the channel runs
the other way (log 38), and that MIW and MIY read their operand when the wait ends (log 61) are the model's readings. -/
def Obligations.SingleWordTransfers : Prop :=
  ∀ (s : State) (r : Ref) (t : Addr), s.ea r = .addr t →
    (∀ i code ch, (i, code, ch) ∈ [(Instr.miw r, 0o12#6, ChannelId.w), (.miy r, 0o10#6, .y)] →
      ((s.chan ch).output = true → (s.chan ch).wordReady = true → (s.chan ch).uar ≠ 0 →
        exec i s = .next { s with
          chans := s.chans.set ch { s.chan ch with war := s.read t, wordReady := false, charCount := 0 }
          p := s.advanced 1, cState := .none }) ∧
      ((s.chan ch).output = false ∨ (s.chan ch).wordReady = false ∨ (s.chan ch).uar = 0 →
        exec i s = .next { s with c := refWord code false t, cState := .waiting })) ∧
    (∀ i code ch, (i, code, ch) ∈ [(Instr.wim r, 0o32#6, ChannelId.w), (.yim r, 0o30#6, .y)] →
      ((s.chan ch).output = false → (s.chan ch).wordReady = true → ∃ m w v, exec i s = .next { s with
          mem := m, waiting := w, chans := s.chans.set ch { s.chan ch with wordReady := false }
          draws := s.draws + 1, p := s.advanced 1, cState := .none } ∧
        Stored s m w (s.phys t) v ∧
        v.toNat % 2 ^ (s.chan ch).fullBits = (s.chan ch).war.toNat % 2 ^ (s.chan ch).fullBits) ∧
      ((s.chan ch).output = true ∨ (s.chan ch).wordReady = false →
        exec i s = .next { s with c := refWord code false t, cState := .waiting }))

/-- 48 R388, R389, 49 R500: PIN takes the word of an external device that is ready, POT gives one its word, or the
selected subchannel; until the device is ready the instruction waits. The request goes out once, as it begins. A
POT reads its operand once, before the wait: M holds it (R389, 20 R72). The order among alerts is the spec's choice D36;
the Ready latch (log 48) and that C holds the waiting instruction (log 17) are the model's. -/
def Obligations.ParallelTransfers : Prop :=
  ∀ (s : State) (r : Ref) (t : Addr), s.ea r = .addr t →
    (∀ v, s.ascAlerted = [] → s.lines.pinReady = some v → ∃ m w, exec (.pin r) s = .next { s with
        mem := m, waiting := w, lines := { s.lines with pinReady := none }
        out := if s.cState = .waiting then s.out else .pinRequest :: s.out
        p := s.advanced 1, cState := .none } ∧
      Stored s m w (s.phys t) v) ∧
    (s.ascAlerted = [] → s.lines.pinReady = none → exec (.pin r) s = .next { s with
      c := refWord 0o33 false t, cState := .waiting
      out := if s.cState = .waiting then s.out else .pinRequest :: s.out }) ∧
    (s.airAlert = false → s.ilcAlerted = [] → s.dmsSelect = none → s.lines.potReady = true →
      exec (.pot r) s = .next { s with
        lines := { s.lines with potReady := false }
        out := .potOut (s.operand t) :: if s.cState = .waiting then s.out else .potRequest :: s.out
        p := s.advanced 1, cState := .none }) ∧
    (s.airAlert = false → s.ilcAlerted = [] → s.dmsSelect = none → s.lines.potReady = false →
      exec (.pot r) s = .next { s with
        c := refWord 0o13 false t, m := s.operand t, cState := .waiting
        out := if s.cState = .waiting then s.out else .potRequest :: s.out }) ∧
    ∀ n c, s.airAlert = false → s.ilcAlerted = [] → s.dmsSelect = some (n, c) → exec (.pot r) s = .next { s with
      out := .dmsOut n c (s.operand t) :: s.out, dmsSelect := none, p := s.advanced 1, cState := .none }

/-- 48 R351 to R353, R357, R358, R374, R390 to R395: the general forms do what the row their word has does, mode by
mode. Buffer Control completes; Input/Output Control with a unit other than 00 is the device command, with unit 00 ASC
or TOP, with bit 9 and unit 00 the alert ALC (R358; which word is ALC's is log 57; that a device word may have bit 9,
log 70); Internal Control and SET EXTENSION REGISTER, one assigned code each; System Control. SKS: the Internal Tests,
the Channel Tests, the Device Test, the extension register test, the System Test and the Special Internal Test. An EOM
or EOD of a channel that is not installed does nothing. -/
def Obligations.GeneralForms : Prop :=
  ∀ (s : State) (f : IoFn),
    let ch (hi : Bool) : ChannelId := ChannelId.ofBits hi f.b1 (f.fn.getMsbD 5)
    let tested : ChannelId := ChannelId.ofBits f.b9 f.b1 (f.fn.getMsbD 5)
    let k : Conn := ⟨f.b9, f.fn.getMsbD 0, f.fn.getMsbD 1, f.fn.getMsbD 2, f.fn.extractLsb' 7 2, f.fn.extractLsb' 0 6⟩
    (f.mode = 0 → exec (.eom f) s = exec (.connect (ch false) k) s ∧ exec (.eod f) s = exec (.connect (ch true) k) s ∧
      (∃ t, exec (.eom f) s = .next t) ∧ ∃ t, exec (.eod f) s = .next t) ∧
    (f.mode = 1 → ∀ (hi : Bool) (i : Instr), i = (if hi then .eod f else .eom f) →
      (s.hasChan (ch hi) = false → exec i s = .next s.endEom) ∧
      (f.b9 = true → isAlcFn f = true → exec i s = exec (.alc (ch hi)) s) ∧
      (f.b9 = true → f.unit ≠ 0 → s.hasChan (ch hi) = true → exec i s = .next { s with
        out := .ioControl (ch hi) true f.fn5 f.unit :: s.out, noIntNext := true, p := s.advanced 1, cState := .none }) ∧
      (f.b9 = false → f.unit ≠ 0 → exec i s = exec (.ioctl (ch hi) f.fn5 f.unit) s) ∧
      (f.b9 = false → f.unit = 0 → f.fn5 = 0b01000 → exec i s = exec (.asc (ch hi)) s) ∧
      (f.b9 = false → f.unit = 0 → f.fn5 = 0b10000 → exec i s = exec (.top (ch hi)) s)) ∧
    (f.mode = 2 → f.b1 = false → f.b9 = false →
      (∀ n i, (n, i) ∈ [(1, Instr.rov), (2, .eir), (4, .dir), (8, .reo), (16, .air), (64, .rtcarm), (128, .rtcdisarm)] →
        f.fn.toNat = n → exec (.eom f) s = exec i s) ∧
      (f.fn.extractLsb' 8 4 = 0 → exec (.eod f) s = exec
        (.setext (f.fn.getMsbD 4) (f.fn.getMsbD 5) (f.fn.extractLsb' 3 3) (f.fn.extractLsb' 0 3)) s) ∧
      ∀ n i, (n, i) ∈ [(1, Instr.ovt), (2, .idt), (4, .iet), (8, .betw), (16, .bety), (32, .bpt4), (64, .bpt3),
          (128, .bpt2), (256, .bpt1), (512, .brtw), (1024, .brty), (2048, .pfst)] →
        f.fn.toNat = n → exec (.sks f) s = exec i s) ∧
    (f.mode = 3 → exec (.eom f) s = exec (.syseom ⟨false, f.b1, f.b9, f.fn⟩) s ∧
      SkipsWhen s (.sks f) (SysFn.mk false f.b1 f.b9 f.fn ∉ s.lines.systemSignals)) ∧
    (f.mode = 1 → (f.unit ≠ 0 → exec (.sks f) s = exec (.devtest tested f.fn5 f.unit) s) ∧
      (f.unit = 0 → ∀ n i, (n, i) ∈ [(0b10000, Instr.cat tested), (0b01000, .czt tested), (0b00100, .cet tested),
          (0b00010, .cit tested)] → f.fn5.toNat = n → exec (.sks f) s = exec i s)) ∧
    (f.mode = 0 → f.b9 = true → f.b1 = false → f.fn.extractLsb' 2 10 = 0 →
      exec (.sks f) s = exec (.exttest (f.fn.getMsbD 10) (f.fn.getMsbD 11)) s) ∧
    (f.mode = 0 → f.b9 = false → s.cfg.hasSpecialSignals = true →
      SkipsWhen s (.sks f) (f ∉ s.lines.specialSignals))

/-- 43 R221, 46 R289, 47 R317, R318, 48 R361, R388, R389, R395, 60 R533, R539, 70 R595: where the machine declines to go
on: a register change and a shift the manual does not define, the extension registers where there are none, every
function code of EOM, EOD and SKS that is not listed, two alerts at once, a load with a count of zero, an instruction
after AIR that is no POT, a one-cycle instruction in a single-instruction location, RUN with HOLD on. Each is refused by
the spec's choice (D1, D10, D11, D24, D33, D38). The model's choices: EXU may stand before the POT, and has no time of
its own (log 53, log 30); another instruction after AIR is refused also without the arming feature (log 66); HOLD
refuses inside an instruction too (log 32); of the words with bit 9 one and unit 00 that of log 57 is ALC's. -/
def Obligations.Refusals : Prop :=
  ∀ s : State,
    (∀ f, undefinedExp f = true → exec (.rch f) s = .refused .undefinedRegisterChange) ∧
    (∀ (r : Ref) (t : Addr) (i : Instr), s.shiftEA r = .addr t →
      (i ∈ [Instr.rsh r, .rcy r, .lrsh r] → t.toNat / 512 ∉ [0b00000, 0b10000, 0b10100] →
        exec i s = .refused .undefinedShift) ∧
      (i ∈ [Instr.lsh r, .lcy r, .nod r] → t.toNat / 512 ∉ [0b00000, 0b10000, 0b01000] →
        exec i s = .refused .undefinedShift)) ∧
    (s.cfg.hasMemExt = false → ∀ s3 s2 r3 r2, exec (.setext s3 s2 r3 r2) s = .refused .unlistedFunction ∧
      exec (.exttest s3 s2) s = .refused .unlistedFunction) ∧
    (∀ (f : IoFn) (hi : Bool) (i : Instr), i = (if hi then .eod f else .eom f) → f.mode = 1 →
      s.hasChan (ChannelId.ofBits hi f.b1 (f.fn.getMsbD 5)) = true →
      (f.b9 = true ∧ f.unit = 0 ∧ isAlcFn f = false) ∨
        (f.b9 = false ∧ f.unit = 0 ∧ f.fn5 ≠ 0b01000 ∧ f.fn5 ≠ 0b10000 ∧
          (s.chan (ChannelId.ofBits hi f.b1 (f.fn.getMsbD 5))).ilcAlert = false) →
      exec i s = .refused .unlistedFunction) ∧
    (∀ f, f.mode = 2 → f.b1 = true ∨ f.b9 = true ∨ f.fn.toNat ∉ [1, 2, 4, 8, 16, 64, 128] →
      exec (.eom f) s = .refused .unlistedFunction) ∧
    (∀ f, f.mode = 2 → f.b1 = true ∨ f.b9 = true ∨ f.fn.extractLsb' 8 4 ≠ 0 →
      exec (.eod f) s = .refused .unlistedFunction) ∧
    (∀ f, f.mode = 3 → exec (.eod f) s = .refused .unlistedFunction) ∧
    (∀ f, (f.mode = 0 ∧ f.b9 = true ∧ (f.b1 = true ∨ f.fn.extractLsb' 2 10 ≠ 0)) ∨
        (f.mode = 0 ∧ f.b9 = false ∧ s.cfg.hasSpecialSignals = false) ∨
        (f.mode = 1 ∧ f.unit = 0 ∧ f.fn5.toNat ∉ [0b10000, 0b01000, 0b00100, 0b00010] ∧
          s.hasChan (ChannelId.ofBits f.b9 f.b1 (f.fn.getMsbD 5)) = true) ∨
        (f.mode = 2 ∧ (f.b1 = true ∨ f.b9 = true ∨
          (f.fn.toNat ∉ [1, 2, 4, 8, 16, 512, 1024, 2048] ∧ (f.fn &&& 0o740 = 0 ∨ f.fn &&& 0o7037 ≠ 0)))) →
      exec (.sks f) s = .refused .unlistedFunction) ∧
    (∀ (r : Ref) (t : Addr), s.ea r = .addr t →
      (2 ≤ s.ascAlerted.length → exec (.pin r) s = .refused .multipleAlerts) ∧
      (2 ≤ s.airAlert.toNat + s.ilcAlerted.length + s.dmsSelect.isSome.toNat →
        exec (.pot r) s = .refused .multipleAlerts) ∧
      (∀ ch, s.airAlert = false → s.dmsSelect = none → s.ilcAlerted = [ch] → (s.chan ch).hiCount = 0 →
        (s.operand t).toNat < 2 ^ 14 → exec (.pot r) s = .refused .zeroCountLoad)) ∧
    (∀ i, s.AtFetch → s.airAlert = true → decode s.context (s.read s.p) = .ok i → (∀ r, i ≠ .pot r) →
      (∀ r, i ≠ .exu r) → step s = .refused .airWithoutPot) ∧
    (s.schedule = [] → s.power = .on → s.console.runSwitch = .run → s.console.hold = true →
      step s = .refused .operatorPrecondition) ∧
    ∀ (i : Instr) (l n : Nat), State.AtFetch { s with ack := none } → s.ack = some l → s.airAlert = false →
      levelSingle s.cfg l = true → decode s.context (s.memRead (BitVec.ofNat 15 l)) = .ok i → (∀ r, i ≠ .exu r) →
      cycles i { s with c := s.memRead (BitVec.ofNat 15 l), origin := .interrupt l, ack := none } = some n → n < 2 →
      step s = .refused .shortSingleInstruction

/-! ### Channels and the host side -/

/-- 48 R363, R371, R372, R373, R398: one character on input. It is shifted in on the right; the last character of a
word, with no interlace running, fills the buffer and gives the End-of-Word signal; one that comes while a full word
waits is a rate error, after which WAR and IOR hold anything. A direct access channel has one more word of slack, its
IOR (that this holds with no interlace too, log 34). While a tape is scanned no word is complete (49 R453). The sizes of
characters are an option of the channel (log 52). -/
def Obligations.InputCharacter : Prop :=
  ∀ (s : State) (ch : ChannelId) (size : CharSize) (v : Word) (ok : Bool), s.power = .on → s.hasChan ch = true →
    (s.chan ch).loadDue = false → (s.chan ch).uar ≠ 0 → (s.chan ch).output = false → s.sizeFits ch size = true →
    let full : Nat := min 24 (size.bits * ((s.chan ch).cpw.toNat + 1))
    ∃ (scr war : Word) (rec : Nat),
      war.toNat = ((s.chan ch).war.toNat * 2 ^ size.bits + v.toNat % 2 ^ size.bits) % 2 ^ 24 ∧
      (isDirect ch = false → scr.toNat = v.toNat % 2 ^ size.bits) ∧
      (isDirect ch = true → scr = (s.chan ch).scr) ∧
      let c := { s.chan ch with
        size := size, scr := scr, war := war, recBits := rec, error := (s.chan ch).error || !ok }
      ((s.chan ch).wordReady = false → (s.chan ch).scan = false → (s.chan ch).charCount < (s.chan ch).cpw.toNat →
        applyEvent (.charIn ch size v ok) s = .next { s with
          chans := s.chans.set ch { c with charCount := (s.chan ch).charCount + 1 } }) ∧
      ((s.chan ch).wordReady = false → (s.chan ch).scan = true → ∃ n, applyEvent (.charIn ch size v ok) s =
        .next { s with chans := s.chans.set ch { c with charCount := n } }) ∧
      ((s.chan ch).wordReady = false → (s.chan ch).scan = false → (s.chan ch).charCount = (s.chan ch).cpw.toNat →
        (s.chan ch).ilcActive = false → (s.chan ch).garbled = false →
        let signal := if s.signalOpen ch .zc then s.requested (zcLevel ch) else s.waiting
        (isDirect ch = false ∨ (s.chan ch).iorFull = true → applyEvent (.charIn ch size v ok) s = .next { s with
          chans := s.chans.set ch { c with charCount := 0, wordReady := true, fullBits := full }
          waiting := signal }) ∧
        (isDirect ch = true → (s.chan ch).iorFull = false → ∃ ior : Word, ior.toNat % 2 ^ full = war.toNat % 2 ^ full ∧
          applyEvent (.charIn ch size v ok) s = .next { s with
            chans := s.chans.set ch { c with charCount := 0, ior := ior, iorFull := true }
            waiting := signal, draws := s.draws + 1 })) ∧
      ((s.chan ch).wordReady = true → ∃ (w ior : Word) (n : Nat), applyEvent (.charIn ch size v ok) s = .next { s with
          chans := s.chans.set ch { s.chan ch with
            size := size, scr := scr, war := w, ior := ior, error := true, garbled := true, fullBits := 0 }
          draws := n } ∧
        (isDirect ch = false → ior = (s.chan ch).ior))

/-- 48 R363, R365 to R370, R373: the last character of a word under interlace. The word goes to memory at MAR, of its
bits those its characters fill are specified, and the count goes down, with what its coming to zero does (`MovedIn`). A
word beyond the count is dropped, under function 11 held. The model's readings: function 10 without the inter-record
indicator (log 62), the word of slack in IOR under function 11 (log 34), the sizes of wide characters (log 52). -/
def Obligations.InterlaceInput : Prop :=
  ∀ (s : State) (ch : ChannelId) (size : CharSize) (v : Word) (ok : Bool), s.power = .on → s.hasChan ch = true →
    (s.chan ch).loadDue = false → (s.chan ch).uar ≠ 0 → (s.chan ch).output = false → s.sizeFits ch size = true →
    (s.chan ch).wordReady = false → (s.chan ch).scan = false → (s.chan ch).garbled = false →
    (s.chan ch).charCount = (s.chan ch).cpw.toNat → (s.chan ch).ilcActive = true →
    let full : Nat := min 24 (size.bits * ((s.chan ch).cpw.toNat + 1))
    ∃ (scr war word : Word) (rec : Nat),
      war.toNat = ((s.chan ch).war.toNat * 2 ^ size.bits + v.toNat % 2 ^ size.bits) % 2 ^ 24 ∧
      word.toNat % 2 ^ full = war.toNat % 2 ^ full ∧
      let c := { s.chan ch with
        size := size, scr := scr, war := war, recBits := rec, charCount := 0, error := (s.chan ch).error || !ok }
      ((s.chan ch).wcr ≠ 0 → ∃ t, MovedIn { s with draws := s.draws + 1 } ch c word t ∧
        applyEvent (.charIn ch size v ok) s = .next t) ∧
      ((s.chan ch).wcr = 0 → (s.chan ch).fc ≠ 3 →
        applyEvent (.charIn ch size v ok) s = .next { s with chans := s.chans.set ch c }) ∧
      ((s.chan ch).wcr = 0 → (s.chan ch).fc = 3 → isDirect ch = false ∨ (s.chan ch).iorFull = true →
        applyEvent (.charIn ch size v ok) s = .next { s with
          chans := s.chans.set ch { c with wordReady := true, fullBits := full } }) ∧
      ((s.chan ch).wcr = 0 → (s.chan ch).fc = 3 → isDirect ch = true → (s.chan ch).iorFull = false →
        applyEvent (.charIn ch size v ok) s = .next { s with
          chans := s.chans.set ch { c with ior := word, iorFull := true }, draws := s.draws + 1 })

/-- 48 R364 to R372: on output the device gets the leading character of the buffer. After the last character of a word
the next one is fetched from MAR under interlace; with the count then at zero it is the last, but under function 11 (and
an armed Count Equals Zero interrupt is requested in the Extended mode). With no interlace the End-of-Word signal is
given. After the last word, or a TOP that acts, functions 00, 10 and 11 tell the device and wait for its End-of-Record;
else the channel disconnects with the End-of-Record signal. A character asked for while the buffer is empty is a rate
error, after which WAR holds anything (log 12). Which TOP acts is the model's reading where R360 and R365 differ (log
35); so are that a zero count under function 10 leaves the inter-record indicator (log 62), that a direct access channel
takes no word through IOR (log 34), that SCR is left alone (log 73), and the sizes of wide characters (log 52). -/
def Obligations.OutputCharacter : Prop :=
  ∀ (s : State) (ch : ChannelId) (size : CharSize), s.power = .on → s.hasChan ch = true →
    (s.chan ch).loadDue = false → (s.chan ch).uar ≠ 0 → (s.chan ch).output = true → s.sizeFits ch size = true →
    ((s.chan ch).wordReady = false → ∃ v war : Word,
      v.toNat = (s.chan ch).war.toNat / 2 ^ (24 - size.bits) ∧
      war.toNat = (s.chan ch).war.toNat * 2 ^ size.bits % 2 ^ 24 ∧
      let c := { s.chan ch with size := size, war := war, charCount := 0 }
      let out := Message.charOut ch size v :: s.out
      let zc := if (s.chan ch).zcArm then s.requested (zcLevel ch) else s.waiting
      let ends : Prop := (s.chan ch).lastWord = true ∨ ((s.chan ch).topPending = true ∧
        ((s.chan ch).ilcActive = false ∨ (extended ch (s.chan ch) = true ∧ (s.chan ch).fc = 3)))
      let waits : Prop := (s.chan ch).ilcActive = true ∧ extended ch (s.chan ch) = true ∧ (s.chan ch).fc ≠ 1
      ((s.chan ch).charCount < (s.chan ch).cpw.toNat → applyEvent (.charReq ch size) s = .next { s with
        chans := s.chans.set ch { c with charCount := (s.chan ch).charCount + 1 }, out := out }) ∧
      ((s.chan ch).charCount = (s.chan ch).cpw.toNat →
        (¬ ends → (s.chan ch).ilcActive = false → applyEvent (.charReq ch size) s = .next { s with
          chans := s.chans.set ch { c with wordReady := true }, out := out
          waiting := if s.signalOpen ch .zc then s.requested (zcLevel ch) else s.waiting }) ∧
        (¬ ends → (s.chan ch).ilcActive = true → (s.chan ch).wcr = 0 →
          applyEvent (.charReq ch size) s = .next { s with
            chans := s.chans.set ch { c with wordReady := true }, out := out }) ∧
        (¬ ends → (s.chan ch).ilcActive = true → (s.chan ch).wcr ≠ 0 →
          let next := { c with
            war := s.memRead c.mar, mar := c.mar + 1, wcr := c.wcr - 1, zeroCount := c.zeroCount || c.wcr == 1 }
          (c.wcr ≠ 1 → applyEvent (.charReq ch size) s =
            .next { s with chans := s.chans.set ch next, out := out }) ∧
          (c.wcr = 1 → extended ch c = true → c.fc ≠ 3 → applyEvent (.charReq ch size) s = .next { s with
            chans := s.chans.set ch { next with lastWord := true }, out := out, waiting := zc }) ∧
          (c.wcr = 1 → extended ch c = true → c.fc = 3 → applyEvent (.charReq ch size) s = .next { s with
            chans := s.chans.set ch { next with interRecord := true }, out := out, waiting := zc }) ∧
          (c.wcr = 1 → extended ch c = false → applyEvent (.charReq ch size) s = .next { s with
            chans := s.chans.set ch { next with lastWord := true }, out := out })) ∧
        (ends → waits → applyEvent (.charReq ch size) s = .next { s with
          chans := s.chans.set ch { c with lastWord := true, wordReady := true }, out := .lastChar ch :: out }) ∧
        (ends → ¬ waits → applyEvent (.charReq ch size) s = .next { s with
          chans := s.chans.set ch { c with
            wordReady := true, uar := 0, ilcActive := false, erArm := false, zcArm := false, ia := isDirect ch
            topPending := false, lastWord := false, loadDue := false, scan := false }
          out := .disconnect ch :: out
          waiting := if s.signalOpen ch .er then s.requested (erLevel ch) else s.waiting }))) ∧
    ((s.chan ch).wordReady = true → (s.chan ch).lastWord = false →
      ∃ war n, applyEvent (.charReq ch size) s = .next { s with
        chans := s.chans.set ch { s.chan ch with error := true, war := war }, draws := n })

/-- 48 R363, R365 to R372, 49 R453: End-of-Record, and the two other signals of a device. A partial word is filled with
zeros on the right and counts as assembled; a scan's word is what WAR holds of the record (log 54); with no interlace a
buffer already emptied reads zeros. Under interlace the word goes to memory while words are to come, and the count that
it brings to zero has its effects; beyond the count it is dropped, under function 11 held; with no interlace it stays in
the buffer, on a direct access channel in IOR while that is free (log 34). Then a Proceed function stays connected in
the Inter-record condition, the rest disconnect, the error indicator and the word kept; both give the End-of-Record
signal. The end of a tape gap disconnects with no interrupt; a device error sets the indicator. The model's choices: on
a channel whose UAR is 00 the first two do nothing (log 64); a further End-of-Record in the Inter-record condition
(log 68), and one on output under function 01 with the count at zero (log 69), disconnect; the sizes of wide characters
(log 52); after a rate error no bit of a word is specified (log 12). -/
def Obligations.EndOfRecord : Prop :=
  ∀ (s : State) (ch : ChannelId), s.power = .on → s.hasChan ch = true → (s.chan ch).loadDue = false →
    let c := s.chan ch
    let off (k : Chan) : Chan := { k with
      uar := 0, ilcActive := false, erArm := false, zcArm := false, ia := isDirect ch, topPending := false
      lastWord := false, loadDue := false, scan := false }
    let ended (u : State) : State :=
      let w := if u.signalOpen ch .er then u.requested (erLevel ch) else u.waiting
      if c.ilcActive && extended ch c && c.fc.msb then
        { u with
          waiting := w
          chans := u.chans.set ch { u.chan ch with eorSeen := true, interRecord := true, ilcActive := false } }
      else { u with waiting := w, chans := u.chans.set ch (off (u.chan ch)), out := .disconnect ch :: u.out }
    let known (n : Nat) : Nat := if c.garbled then 0 else n
    let taken (k : Chan) (bits : Nat) : Prop :=
      (c.ilcActive = true → c.wcr ≠ 0 → ∃ (m : Memory) (w : List Nat) (word : Word), Stored s m w c.mar word ∧
        word.toNat % 2 ^ bits = k.war.toNat % 2 ^ bits ∧
        applyEvent (.eor ch) s = .next (ended { s with
          mem := m, draws := s.draws + 1
          waiting := if c.wcr = 1 ∧ extended ch c = true ∧ c.zcArm = true
            then State.requested { s with waiting := w } (zcLevel ch) else w
          chans := s.chans.set ch { k with
            mar := c.mar + 1, wcr := c.wcr - 1, zeroCount := c.zeroCount || c.wcr == 1
            ior := if isDirect ch then word else c.ior } })) ∧
      (c.ilcActive = true → c.wcr = 0 → c.fc ≠ 3 →
        applyEvent (.eor ch) s = .next (ended { s with chans := s.chans.set ch k })) ∧
      (c.ilcActive = false ∨ (c.wcr = 0 ∧ c.fc = 3) →
        let w := if !c.ilcActive && c.scan && s.signalOpen ch .zc then s.requested (zcLevel ch) else s.waiting
        (isDirect ch = false ∨ c.iorFull = true → applyEvent (.eor ch) s = .next (ended { s with
          waiting := w, chans := s.chans.set ch { k with wordReady := true, fullBits := bits } })) ∧
        (isDirect ch = true → c.iorFull = false → ∃ word : Word,
          word.toNat % 2 ^ bits = k.war.toNat % 2 ^ bits ∧
          applyEvent (.eor ch) s = .next (ended { s with
            waiting := w, draws := s.draws + 1, chans := s.chans.set ch { k with ior := word, iorFull := true } })))
    (c.uar = 0 → applyEvent (.eor ch) s = .next s ∧ applyEvent (.gapEnd ch) s = .next s) ∧
    (c.uar ≠ 0 → applyEvent (.gapEnd ch) s =
      .next { s with chans := s.chans.set ch (off c), out := .disconnect ch :: s.out }) ∧
    applyEvent (.devError ch) s = .next { s with chans := s.chans.set ch { c with error := true } } ∧
    (c.uar ≠ 0 → c.output = true ∨ (c.scan = false ∧ c.charCount = 0 ∧ (c.ilcActive = true ∨ c.wordReady = true)) →
      applyEvent (.eor ch) s = .next (ended s)) ∧
    (c.uar ≠ 0 → c.output = false → c.scan = false → c.charCount = 0 → c.ilcActive = false → c.wordReady = false →
      applyEvent (.eor ch) s = .next (ended { s with
        chans := s.chans.set ch { c with war := 0, wordReady := true, fullBits := known 24 } })) ∧
    (c.uar ≠ 0 → c.output = false → c.scan = false → 0 < c.charCount → c.charCount ≤ c.cpw.toNat →
      ∃ filled : Word,
        filled.toNat = c.war.toNat * 2 ^ (c.size.bits * (c.cpw.toNat + 1 - c.charCount)) % 2 ^ 24 ∧
        taken { c with war := filled, charCount := 0 } (known (min 24 (c.size.bits * (c.cpw.toNat + 1))))) ∧
    (c.uar ≠ 0 → c.output = false → c.scan = true → taken { c with charCount := 0 } (known c.recBits))

/-- 20 R72, R74, 48 R396, 70 R608: between two memory cycles of an instruction another agent's access can fall. The
cycles are the fetch, the levels of indirect addressing, the read of the operand of MIN, SKR, ADM, XMA and POT, and the
last. An operand once read is what the instruction goes on with; a word another agent writes to the same location after
that read and before the instruction's own write is lost. The order of the accesses is the spec's choice D2, that an
access can fall there its choice D4; the turn of one memory cycle, the use of C and M are the model's (log 16, log 50).
-/
def Obligations.MemoryCycles : Prop :=
  (∀ (s : State) (i : Instr) (rest : List Turn), s.schedule = .cycle :: rest → State.AtFetch { s with schedule := [] } →
    (s.airAlert = true → afterAir i = true) → decode s.context (s.read s.p) = .ok i →
    step s = .next { s with schedule := rest, c := s.read s.p, origin := .sequence, cState := .subject }) ∧
  (∀ (s : State) (i : Instr) (r : Ref) (rest : List Turn), s.schedule = .cycle :: rest → s.power = .on →
    (s.console.runSwitch = .run → s.console.hold = false) → (s.airAlert = true → afterAir i = true) →
    decode s.context s.c = .ok i → refOf i = some r →
    let code : BitVec 6 := s.c.extractLsb' 15 6
    let a := s.indexedAddr r.indexed r.addr
    let w := s.read a
    let t := s.indexedAddr (bit w 1) (addrField w)
    (s.cState = .subject ∨ s.cState = .chain →
      (r.indirect = true → bit w 9 = true →
        step s = .next { s with schedule := rest, c := refWord code true t, cState := .chain }) ∧
      (r.indirect = true → bit w 9 = false → i ≠ .bru r →
        step s = .next { s with schedule := rest, c := refWord code false t, cState := .chain }) ∧
      (r.indirect = true → bit w 9 = false → i = .bru r → step s = finish (exec i { s with schedule := rest })) ∧
      (r.indirect = false → i ∈ [Instr.min r, .skr r, .adm r, .xma r, .pot r] →
        step s = .next { s with schedule := rest, c := refWord code false a, m := w, cState := .operand }) ∧
      (r.indirect = false → i ∉ [Instr.min r, .skr r, .adm r, .xma r, .pot r] →
        step s = finish (exec i { s with schedule := rest }))) ∧
    (s.cState = .operand → r.indirect = false → step s = finish (exec i { s with schedule := rest }))) ∧
  (∀ (s : State) (t : Addr), s.operand t =
    if s.cState = .operand ∨ s.cState = .waiting then s.m else s.read t) ∧
  ∀ (s : State) (r : Ref) (i : Instr) (own other : Word),
    let t := s.indexedAddr r.indexed r.addr
    (i, own) ∈ [(Instr.min r, s.read t + 1), (.skr r, s.read t - 1), (.adm r, s.a + s.read t), (.xma r, s.a)] →
    r.indirect = false → State.AtFetch { s with schedule := [] } → s.airAlert = false →
    s.schedule = [.cycle, .cycle, .event (.dmaWrite (s.phys t) other), .cycle] →
    decode s.context (s.read s.p) = .ok i → s.writable (s.phys t) = true →
    ∃ u, Runs s 4 u ∧ u.read t = own ∧ u.a = (if i = .xma r then s.read t else s.a)

/-- 47 R310, 70 R593: in IDLE the processor does nothing; a halt in RUN ends only with an interrupt or by the switch:
IDLE ends it and shows the next instruction in C, RUN then goes on at P. What ends a halt (any level that can be
acknowledged) and that C is a display only is the spec's choice D22. 70 R605: a run that has ended as halted or stopped
by the operator stays so; what counts as the end of a run is the spec's choice D18. -/
def Obligations.HaltAndIdle : Prop :=
  (∀ s : State, s.schedule = [] → s.power = .on → s.Between →
    (s.console.runSwitch = .idle → step s = .next s) ∧
    (s.console.runSwitch = .run → s.console.hold = false → s.halted = true → s.nextLevel = none →
      step s = .next s) ∧
    (∀ l, s.console.runSwitch = .run → s.console.hold = false → s.halted = true → s.nextLevel = some l →
      step s = .next (s.acknowledge l))) ∧
  (∀ s : State, s.power = .on → s.cState = .none → s.ack = none → s.console.runSwitch = .run → s.halted = true →
    ∃ t, applyEvent (.runSwitch .idle) s = .next t ∧ t.halted = false ∧ t.c = s.read s.p ∧ t.p = s.p ∧
      t.mem = s.mem ∧ ∃ u, applyEvent (.runSwitch .run) t = .next u ∧
        u = { s with halted := false, c := s.read s.p }) ∧
  ∀ (s : State) (e : RunEnd), e = .halted ∨ e = .stoppedByOperator → s.EndsAs e →
    step s = .next { s with schedule := s.schedule.tail } ∧ State.EndsAs { s with schedule := s.schedule.tail } e

/-- 70 R592 to R598, 49 R501: what the operator and the second memory path do: the set button of A and the clear button
of C, FILL's two registers and its channel, MEMORY CLEAR, a count in memory. That FILL ends the halt (log 31), its bit
13 (log 33), that the lock-out holds off MEMORY CLEAR (log 43) and the second path (log 51) are the model's readings. -/
def Obligations.HostSide : Prop :=
  ∀ s : State,
    (s.power = .on → s.console.runSwitch = .idle → s.Between →
      (∀ i : Fin 24, ∃ v, applyEvent (.setBit .a i) s = .next { s with a := v } ∧
        ∀ k, k < 24 → bit v k = if k = i.val then true else bit s.a k) ∧
      applyEvent (.clearRegister .c) s = .next { s with c := 0, cState := .forced } ∧
      ∃ t, applyEvent .memoryClear s = .next t ∧ t = { s with mem := t.mem, waiting := t.waiting } ∧
        (∀ e : Addr, t.memRead (s.phys e) = if s.lockedOut (s.phys e) then s.memRead (s.phys e) else 0) ∧
        ∀ k : PAddr, (∀ e, s.phys e ≠ k) → t.memRead k = s.memRead k) ∧
    (s.power = .on → s.console.runSwitch = .run → s.halted = true → s.p = 1 → s.hasChan .w = true →
      ∃ t, applyEvent (.fill 0o04) s = .next t ∧ t.c = 0o03200002 ∧ t.x = 0o77777771 ∧ t.cState = .forced ∧
        t.halted = false ∧ (t.chan .w).uar = 0o04 ∧ (t.chan .w).cpw = 3 ∧ (t.chan .w).binary = true ∧
        (t.chan .w).reverse = false ∧ t.mem = s.mem ∧ t.a = s.a ∧ t.b = s.b) ∧
    (s.power = .on → ∀ a, ∃ t v, applyEvent (.dmaIncrement a .whole) s = .next t ∧
      v.toNat = ((s.memRead a).toNat + 1) % 2 ^ 24 ∧
      t = { s with mem := t.mem, waiting := t.waiting, out := .memOut a v :: s.out } ∧
      Stored s t.mem t.waiting a v)
end

