-- ==== Sys2Proof/Laws/Levels.lean ====
section
/-! SUPPORT. Laws of the interrupt levels: the rising lists, the level of highest priority, what a request leaves. -/

namespace Sys2Proof.Machine

open Sys2Proof

@[simp] theorem mem_levelInsert (l k : Nat) (r : List Nat) : k ∈ levelInsert l r ↔ k = l ∨ k ∈ r := by
  induction r with
  | nil => simp [levelInsert]
  | cons j r ih =>
    unfold levelInsert
    split
    · simp
    · split
      · rename_i h; subst h; simp
      · simp [ih]; tauto

@[simp] theorem mem_levelErase (l k : Nat) (r : List Nat) : k ∈ levelErase l r ↔ k ≠ l ∧ k ∈ r := by
  induction r with
  | nil => simp [levelErase]
  | cons j r ih =>
    unfold levelErase
    split
    · rename_i h; subst h; simp [ih]; tauto
    · rename_i h; simp [ih]; constructor
      · rintro (rfl | ⟨h1, h2⟩)
        · exact ⟨h, .inl rfl⟩
        · exact ⟨h1, .inr h2⟩
      · tauto

theorem levelInsert_rising (l : Nat) (r : List Nat) (h : r.Pairwise (· < ·)) : (levelInsert l r).Pairwise (· < ·) := by
  induction r with
  | nil => simp [levelInsert]
  | cons j r ih =>
    obtain ⟨hj, hr⟩ := List.pairwise_cons.1 h
    unfold levelInsert
    split
    · rename_i hlj
      refine List.pairwise_cons.2 ⟨fun e he => ?_, h⟩
      rcases List.mem_cons.1 he with rfl | he
      · exact hlj
      · exact lt_trans hlj (hj e he)
    · split
      · exact h
      · refine List.pairwise_cons.2 ⟨fun e he => ?_, ih hr⟩
        rcases (mem_levelInsert l e r).1 he with rfl | he
        · omega
        · exact hj e he

theorem levelErase_rising (l : Nat) (r : List Nat) (h : r.Pairwise (· < ·)) : (levelErase l r).Pairwise (· < ·) := by
  induction r with
  | nil => exact h
  | cons j r ih =>
    obtain ⟨hj, hr⟩ := List.pairwise_cons.1 h
    unfold levelErase
    split
    · exact ih hr
    · exact List.pairwise_cons.2 ⟨fun e he => hj e ((mem_levelErase l e r).1 he).2, ih hr⟩

theorem prio_injective {l k : Nat} (h : prio l = prio k) : l = k := by
  unfold prio at h
  split at h <;> split at h <;> (try split at h) <;> (try split at h) <;> omega

theorem highest_eq_none (r : List Nat) : highest r = none ↔ r = [] := by
  cases r with
  | nil => simp [highest]
  | cons l r => simp only [highest]; split <;> simp

/-- What `highest` answers: a level of the list that none in the list precedes. -/
theorem highest_eq_some (r : List Nat) (l : Nat) :
    highest r = some l ↔ l ∈ r ∧ ∀ k ∈ r, prio l ≤ prio k := by
  induction r generalizing l with
  | nil => simp [highest]
  | cons j r ih =>
    simp only [highest]
    split
    · rename_i h
      have hr := (highest_eq_none r).1 h
      subst hr
      simp only [Option.some.injEq, List.mem_singleton]
      constructor
      · rintro rfl; simp
      · rintro ⟨rfl, -⟩; rfl
    · rename_i k h
      obtain ⟨hk, hmin⟩ := (ih k).1 h
      simp only [Option.some.injEq, List.mem_cons]
      split
      · rename_i hlt
        constructor
        · rintro rfl
          refine ⟨.inr hk, fun i hi => ?_⟩
          rcases hi with rfl | hi
          · omega
          · exact hmin i hi
        · rintro ⟨hl, hall⟩
          refine prio_injective ?_
          have h1 := hall k (.inr hk)
          rcases hl with rfl | hl
          · omega
          · have := hmin l hl; omega
      · rename_i hlt
        constructor
        · rintro rfl
          refine ⟨.inl rfl, fun i hi => ?_⟩
          rcases hi with rfl | hi
          · exact le_refl _
          · have := hmin i hi; omega
        · rintro ⟨hl, hall⟩
          refine prio_injective ?_
          have h1 := hall j (.inl rfl)
          rcases hl with rfl | hl
          · rfl
          · have := hmin l hl; omega

/-- What a signal on level `l` leaves Waiting. -/
theorem mem_requested (s : State) (l k : Nat) :
    k ∈ s.requested l ↔
      k ∈ s.waiting ∨ (k = l ∧ levelPresent s.cfg l = true ∧ s.isArmed l = true ∧ l ∉ s.active) := by
  unfold State.requested
  split
  · rename_i h
    simp only [Bool.and_eq_true, Bool.not_eq_true', List.contains_eq_mem, decide_eq_false_iff_not] at h
    simp only [mem_levelInsert]; tauto
  · rename_i h
    simp only [Bool.and_eq_true, Bool.not_eq_true', List.contains_eq_mem, decide_eq_false_iff_not] at h
    tauto

theorem requested_rising (s : State) (l : Nat) (h : s.waiting.Pairwise (· < ·)) :
    (s.requested l).Pairwise (· < ·) := by
  unfold State.requested
  split
  · exact levelInsert_rising l _ h
  · exact h

/-- The level acknowledged is the eligible Waiting level of highest priority. -/
theorem nextLevel_eq_some (s : State) (l : Nat) :
    s.nextLevel = some l ↔
      (l ∈ s.waiting ∧ s.eligible l = true) ∧
        ∀ k, k ∈ s.waiting → s.eligible k = true → prio l ≤ prio k := by
  unfold State.nextLevel
  rw [highest_eq_some]
  simp only [List.mem_filter, and_imp]

/-! ### Arm bits -/

/-- What an arm word leaves of one level's arm bit. -/
theorem mem_armOne (c : Nat) (sel : Bool) (l k : Nat) (arm : List Nat) (hc : c < 4) :
    k ∈ armOne c sel l arm ↔
      if k = l then
        (c = 1 ∧ (sel = true ∨ l ∈ arm)) ∨ (c = 2 ∧ sel = true ∧ l ∈ arm) ∨ (c = 3 ∧ sel = true) ∨ (c = 0 ∧ l ∈ arm)
      else k ∈ arm := by
  by_cases hk : k = l
  · subst hk; interval_cases c <;> cases sel <;> simp [armOne]
  · interval_cases c <;> cases sel <;> simp [armOne, hk]

/-- Which levels have the arming feature (60 R539, 93_implementation_defined section 3). -/
theorem levelArmable_iff (c : Config) (l : Nat) :
    levelArmable c l = true ↔
      0o200 ≤ l ∧ c.armingFeature = true ∧ l ∉ c.unarmable ∧ isParityLevel c l = false := by
  simp [levelArmable, isSystemLevel, and_assoc]

theorem armFrom_succ (s : State) (m : Word) (n : Nat) :
    s.armFrom m (n + 1) =
      if levelPresent s.cfg (groupLevel (m.extractLsb' 18 6).toNat n) &&
          levelArmable s.cfg (groupLevel (m.extractLsb' 18 6).toNat n) then
        armOne (m.extractLsb' 16 2).toNat (bit m (8 + n)) (groupLevel (m.extractLsb' 18 6).toNat n) (s.armFrom m n)
      else s.armFrom m n := rfl

/-- A level the arm word does not name keeps its arm bit. -/
theorem mem_armFrom_other (s : State) (m : Word) (n k : Nat)
    (h : ∀ j, j < n → k ≠ groupLevel (m.extractLsb' 18 6).toNat j) : k ∈ s.armFrom m n ↔ k ∈ s.armed := by
  induction n with
  | zero => rfl
  | succ n ih =>
    have := ih fun j hj => h j (by omega)
    rw [armFrom_succ]
    split
    · rw [mem_armOne _ _ _ _ _ (BitVec.isLt _), if_neg (h n (by omega)), this]
    · rw [this]

theorem groupLevel_injective {g i j : Nat} (h : groupLevel g i = groupLevel g j) : i = j := by
  simp only [groupLevel] at h; omega

/-- The arm bit of the level that bit `8 + j` of the arm word names. -/
theorem mem_armFrom (s : State) (m : Word) (n j : Nat) (hj : j < n) :
    let l := groupLevel (m.extractLsb' 18 6).toNat j
    let c := (m.extractLsb' 16 2).toNat
    l ∈ s.armFrom m n ↔
      if levelPresent s.cfg l = true ∧ levelArmable s.cfg l = true then
        (c = 1 ∧ (bit m (8 + j) = true ∨ l ∈ s.armed)) ∨ (c = 2 ∧ bit m (8 + j) = true ∧ l ∈ s.armed) ∨
          (c = 3 ∧ bit m (8 + j) = true) ∨ (c = 0 ∧ l ∈ s.armed)
      else l ∈ s.armed := by
  intro l c
  induction n with
  | zero => omega
  | succ n ih =>
    rw [armFrom_succ]
    rcases Nat.lt_succ_iff_lt_or_eq.1 hj with hj | rfl
    · rw [← ih hj]
      have hne : l ≠ groupLevel (m.extractLsb' 18 6).toNat n := fun e => by
        have := groupLevel_injective e; omega
      split
      · rw [mem_armOne _ _ _ _ _ (BitVec.isLt _), if_neg hne]
      · rfl
    · have hm : l ∈ s.armFrom m j ↔ l ∈ s.armed :=
        mem_armFrom_other s m j l fun i hi e => by have := groupLevel_injective e; omega
      by_cases hp : levelPresent s.cfg l = true ∧ levelArmable s.cfg l = true
      · rw [if_pos hp, if_pos (by simp [l] at hp ⊢; exact hp), mem_armOne _ _ _ _ _ (BitVec.isLt _), if_pos rfl, hm]
      · rw [if_neg hp, if_neg (by simp [l] at hp ⊢; exact hp), hm]

theorem armFrom_rising (s : State) (m : Word) (n : Nat) (h : s.armed.Pairwise (· < ·)) :
    (s.armFrom m n).Pairwise (· < ·) := by
  induction n with
  | zero => exact h
  | succ n ih =>
    rw [armFrom_succ]
    split
    · unfold armOne
      split <;> (try split) <;> first | exact ih | exact levelInsert_rising _ _ ih | exact levelErase_rising _ _ ih
    · exact ih

theorem armFrom_system (s : State) (m : Word) (n : Nat) (h : ∀ l ∈ s.armed, isSystemLevel l = true) :
    ∀ l ∈ s.armFrom m n, isSystemLevel l = true := by
  induction n with
  | zero => exact h
  | succ n ih =>
    intro l hl
    rw [armFrom_succ] at hl
    split at hl
    · rw [mem_armOne _ _ _ _ _ (BitVec.isLt _)] at hl
      split at hl
      · rename_i e; subst e
        refine decide_eq_true ?_
        simp only [groupLevel]; omega
      · exact ih l hl
    · exact ih l hl

end Sys2Proof.Machine
end

