-- ==== Sys2Proof/Laws/Memory.lean ====
section
/-! SUPPORT. Laws of memory: read after write, the canonical form kept, canonical memories that read alike are equal. -/

namespace Sys2Proof.Machine

open Sys2Proof

theorem memGet_memInsert_self (m : Memory) (a : Nat) (v : Word) : memGet (memInsert m a v) a = v := by
  induction m with
  | nil => simp [memInsert, memGet]
  | cons c r ih =>
    obtain ⟨k, x⟩ := c
    unfold memInsert
    split
    · simp [memGet]
    · split
      · simp [memGet]
      · rename_i h; simp [memGet, Ne.symm h, ih]

theorem memGet_memInsert_ne (m : Memory) {a k : Nat} (v : Word) (h : k ≠ a) :
    memGet (memInsert m a v) k = memGet m k := by
  induction m with
  | nil => simp [memInsert, memGet, Ne.symm h]
  | cons c r ih =>
    obtain ⟨j, x⟩ := c
    unfold memInsert
    split
    · simp [memGet, Ne.symm h]
    · split
      · rename_i e; subst e; simp [memGet, Ne.symm h]
      · simp [memGet, ih]

theorem memGet_memErase_self (m : Memory) (a : Nat) : memGet (memErase m a) a = 0 := by
  induction m with
  | nil => rfl
  | cons c r ih =>
    obtain ⟨k, x⟩ := c
    unfold memErase
    split
    · exact ih
    · rename_i h; simp [memGet, h, ih]

theorem memGet_memErase_ne (m : Memory) {a k : Nat} (h : k ≠ a) : memGet (memErase m a) k = memGet m k := by
  induction m with
  | nil => rfl
  | cons c r ih =>
    obtain ⟨j, x⟩ := c
    unfold memErase
    split
    · rename_i e; subst e; simp [memGet, Ne.symm h, ih]
    · simp [memGet, ih]

/-- A read of the address just written gives the value written. -/
theorem memGet_memSet_self (m : Memory) (a : Nat) (v : Word) : memGet (memSet m a v) a = v := by
  unfold memSet
  split
  · rename_i h; subst h; exact memGet_memErase_self m a
  · exact memGet_memInsert_self m a v

/-- A write leaves every other address alone. -/
theorem memGet_memSet_ne (m : Memory) {a k : Nat} (v : Word) (h : k ≠ a) :
    memGet (memSet m a v) k = memGet m k := by
  unfold memSet
  split
  · exact memGet_memErase_ne m h
  · exact memGet_memInsert_ne m v h

/-- The canonical form as a property of the list: no zero, every address in range, addresses strictly rising. -/
theorem Memory.wf_iff (m : Memory) :
    m.wf = true ↔ (∀ c ∈ m, c.2 ≠ 0 ∧ c.1 < 32768) ∧ m.Pairwise (fun c d => c.1 < d.1) := by
  induction m with
  | nil => simp [Memory.wf]
  | cons c r ih =>
    obtain ⟨a, v⟩ := c
    cases r with
    | nil => simp [Memory.wf]
    | cons d r =>
      obtain ⟨b, w⟩ := d
      simp only [Memory.wf, Bool.and_eq_true, bne_iff_ne, decide_eq_true_eq, ih, List.forall_mem_cons,
        List.pairwise_cons]
      constructor
      · rintro ⟨⟨hv, hab⟩, ⟨⟨hw, hb⟩, hr⟩, hp, hq⟩
        exact ⟨⟨⟨hv, by omega⟩, ⟨hw, hb⟩, hr⟩, ⟨hab, fun e he => lt_trans hab (hp e he)⟩, hp, hq⟩
      · rintro ⟨⟨⟨hv, _⟩, h2, hr⟩, ⟨hab, _⟩, hp, hq⟩
        exact ⟨⟨hv, hab⟩, ⟨h2, hr⟩, hp, hq⟩

theorem mem_memInsert {m : Memory} {a : Nat} {v : Word} {c : Nat × Word} (h : c ∈ memInsert m a v) :
    c = (a, v) ∨ c ∈ m := by
  induction m with
  | nil => simpa [memInsert] using h
  | cons d r ih =>
    obtain ⟨k, x⟩ := d
    unfold memInsert at h
    split at h
    · simpa using h
    · split at h
      · simp only [List.mem_cons] at h ⊢; tauto
      · simp only [List.mem_cons] at h ⊢; rcases h with h | h
        · exact .inr (.inl h)
        · rcases ih h with h | h
          · exact .inl h
          · exact .inr (.inr h)

theorem mem_memErase {m : Memory} {a : Nat} {c : Nat × Word} (h : c ∈ memErase m a) : c ∈ m := by
  induction m with
  | nil => exact h
  | cons d r ih =>
    obtain ⟨k, x⟩ := d
    unfold memErase at h
    split at h
    · exact .tail _ (ih h)
    · rcases List.mem_cons.1 h with h | h
      · exact h ▸ .head _
      · exact .tail _ (ih h)

theorem memInsert_rising (m : Memory) (a : Nat) (v : Word) (h : m.Pairwise (fun c d => c.1 < d.1)) :
    (memInsert m a v).Pairwise (fun c d => c.1 < d.1) := by
  induction m with
  | nil => simp [memInsert]
  | cons d r ih =>
    obtain ⟨k, x⟩ := d
    obtain ⟨hk, hr⟩ := List.pairwise_cons.1 h
    unfold memInsert
    split
    · rename_i hak
      refine List.pairwise_cons.2 ⟨fun e he => ?_, h⟩
      rcases List.mem_cons.1 he with he | he
      · simpa [he] using hak
      · exact lt_trans hak (hk e he)
    · split
      · rename_i e; subst e; exact List.pairwise_cons.2 ⟨hk, hr⟩
      · rename_i h1 h2
        refine List.pairwise_cons.2 ⟨fun e he => ?_, ih hr⟩
        rcases mem_memInsert he with he | he
        · subst he; exact lt_of_le_of_ne (not_lt.1 h1) (Ne.symm h2)
        · exact hk e he

theorem memErase_rising (m : Memory) (a : Nat) (h : m.Pairwise (fun c d => c.1 < d.1)) :
    (memErase m a).Pairwise (fun c d => c.1 < d.1) := by
  induction m with
  | nil => exact h
  | cons d r ih =>
    obtain ⟨k, x⟩ := d
    obtain ⟨hk, hr⟩ := List.pairwise_cons.1 h
    unfold memErase
    split
    · exact ih hr
    · exact List.pairwise_cons.2 ⟨fun e he => hk e (mem_memErase he), ih hr⟩

/-- Every write keeps the canonical form. -/
theorem memSet_wf (m : Memory) (a : Nat) (v : Word) (ha : a < 32768) (h : m.wf = true) :
    (memSet m a v).wf = true := by
  obtain ⟨h1, h2⟩ := (Memory.wf_iff m).1 h
  refine (Memory.wf_iff _).2 ?_
  unfold memSet
  split
  · exact ⟨fun c hc => h1 c (mem_memErase hc), memErase_rising m a h2⟩
  · rename_i hv
    refine ⟨fun c hc => ?_, memInsert_rising m a v h2⟩
    rcases mem_memInsert hc with hc | hc
    · subst hc; exact ⟨hv, ha⟩
    · exact h1 c hc

theorem reset_memory_wf : State.reset.mem.wf = true := rfl

theorem memGet_of_lt (m : Memory) (a : Nat) (h : ∀ c ∈ m, a < c.1) : memGet m a = 0 := by
  induction m with
  | nil => rfl
  | cons d r ih =>
    obtain ⟨k, x⟩ := d
    have hk : a < k := h (k, x) (.head _)
    simp only [memGet, if_neg (Nat.ne_of_gt hk)]
    exact ih fun c hc => h c (.tail _ hc)

/-- Canonical memories that read alike are equal data. -/
theorem Memory.ext_of_wf (m n : Memory) (hm : m.wf = true) (hn : n.wf = true)
    (h : ∀ a, memGet m a = memGet n a) : m = n := by
  obtain ⟨m1, m2⟩ := (Memory.wf_iff m).1 hm
  obtain ⟨n1, n2⟩ := (Memory.wf_iff n).1 hn
  clear hm hn
  induction m generalizing n with
  | nil =>
    cases n with
    | nil => rfl
    | cons d r =>
      obtain ⟨k, x⟩ := d
      have := h k
      simp only [memGet, if_true] at this
      exact absurd this.symm (n1 (k, x) (.head _)).1
  | cons c r ih =>
    obtain ⟨k, x⟩ := c
    obtain ⟨mk, mr⟩ := List.pairwise_cons.1 m2
    have hx : x ≠ 0 := (m1 (k, x) (.head _)).1
    cases n with
    | nil =>
      have := h k
      simp only [memGet, if_true] at this
      exact absurd this hx
    | cons d q =>
      obtain ⟨j, y⟩ := d
      obtain ⟨nk, nr⟩ := List.pairwise_cons.1 n2
      have hy : y ≠ 0 := (n1 (j, y) (.head _)).1
      have hk := h k
      have hj := h j
      have hkj : k = j := by
        rcases Nat.lt_trichotomy k j with hlt | heq | hgt
        · refine absurd ?_ hx
          rw [memGet_of_lt ((j, y) :: q) k fun c hc => ?_] at hk
          · simpa [memGet] using hk
          · rcases List.mem_cons.1 hc with hc | hc
            · simpa [hc] using hlt
            · exact lt_trans hlt (nk c hc)
        · exact heq
        · refine absurd ?_ hy
          rw [memGet_of_lt ((k, x) :: r) j fun c hc => ?_] at hj
          · simpa [memGet] using hj.symm
          · rcases List.mem_cons.1 hc with hc | hc
            · simpa [hc] using hgt
            · exact lt_trans hgt (mk c hc)
      subst hkj
      have hxy : x = y := by simpa [memGet] using hk
      subst hxy
      congr 1
      refine ih q (fun a => ?_) (fun c hc => m1 c (.tail _ hc)) mr (fun c hc => n1 c (.tail _ hc)) nr
      by_cases hak : k = a
      · subst hak
        rw [memGet_of_lt r k mk, memGet_of_lt q k nk]
      · simpa [memGet, hak] using h a

end Sys2Proof.Machine
end

