-- ==== Sys2Proof/Laws/State.lean ====
section
/-! SUPPORT. One lemma per field per update of the state, and the channels' get and set. -/

namespace Sys2Proof.Machine

open Sys2Proof

/-! ### `raise` -/

@[simp] theorem State.raise_a (s : State) (l : Nat) : (s.raise l).a = s.a := rfl
@[simp] theorem State.raise_b (s : State) (l : Nat) : (s.raise l).b = s.b := rfl
@[simp] theorem State.raise_x (s : State) (l : Nat) : (s.raise l).x = s.x := rfl
@[simp] theorem State.raise_p (s : State) (l : Nat) : (s.raise l).p = s.p := rfl
@[simp] theorem State.raise_ov (s : State) (l : Nat) : (s.raise l).ov = s.ov := rfl
@[simp] theorem State.raise_em2 (s : State) (l : Nat) : (s.raise l).em2 = s.em2 := rfl
@[simp] theorem State.raise_em3 (s : State) (l : Nat) : (s.raise l).em3 = s.em3 := rfl
@[simp] theorem State.raise_ien (s : State) (l : Nat) : (s.raise l).ien = s.ien := rfl
@[simp] theorem State.raise_c (s : State) (l : Nat) : (s.raise l).c = s.c := rfl
@[simp] theorem State.raise_m (s : State) (l : Nat) : (s.raise l).m = s.m := rfl
@[simp] theorem State.raise_cState (s : State) (l : Nat) : (s.raise l).cState = s.cState := rfl
@[simp] theorem State.raise_origin (s : State) (l : Nat) : (s.raise l).origin = s.origin := rfl
@[simp] theorem State.raise_ack (s : State) (l : Nat) : (s.raise l).ack = s.ack := rfl
@[simp] theorem State.raise_halted (s : State) (l : Nat) : (s.raise l).halted = s.halted := rfl
@[simp] theorem State.raise_noIntNext (s : State) (l : Nat) : (s.raise l).noIntNext = s.noIntNext := rfl
@[simp] theorem State.raise_parityError (s : State) (l : Nat) : (s.raise l).parityError = s.parityError := rfl
@[simp] theorem State.raise_airAlert (s : State) (l : Nat) : (s.raise l).airAlert = s.airAlert := rfl
@[simp] theorem State.raise_rtcArmed (s : State) (l : Nat) : (s.raise l).rtcArmed = s.rtcArmed := rfl
@[simp] theorem State.raise_dmsSelect (s : State) (l : Nat) : (s.raise l).dmsSelect = s.dmsSelect := rfl
@[simp] theorem State.raise_waiting (s : State) (l : Nat) : (s.raise l).waiting = s.requested l := rfl
@[simp] theorem State.raise_active (s : State) (l : Nat) : (s.raise l).active = s.active := rfl
@[simp] theorem State.raise_armed (s : State) (l : Nat) : (s.raise l).armed = s.armed := rfl
@[simp] theorem State.raise_mem (s : State) (l : Nat) : (s.raise l).mem = s.mem := rfl
@[simp] theorem State.raise_lockBlocks (s : State) (l : Nat) : (s.raise l).lockBlocks = s.lockBlocks := rfl
@[simp] theorem State.raise_lockSubs (s : State) (l : Nat) : (s.raise l).lockSubs = s.lockSubs := rfl
@[simp] theorem State.raise_chans (s : State) (l : Nat) : (s.raise l).chans = s.chans := rfl
@[simp] theorem State.raise_console (s : State) (l : Nat) : (s.raise l).console = s.console := rfl
@[simp] theorem State.raise_lines (s : State) (l : Nat) : (s.raise l).lines = s.lines := rfl
@[simp] theorem State.raise_power (s : State) (l : Nat) : (s.raise l).power = s.power := rfl
@[simp] theorem State.raise_out (s : State) (l : Nat) : (s.raise l).out = s.out := rfl
@[simp] theorem State.raise_schedule (s : State) (l : Nat) : (s.raise l).schedule = s.schedule := rfl
@[simp] theorem State.raise_draws (s : State) (l : Nat) : (s.raise l).draws = s.draws := rfl
@[simp] theorem State.raise_cfg (s : State) (l : Nat) : (s.raise l).cfg = s.cfg := rfl

/-! ### `acknowledge` -/

@[simp] theorem State.acknowledge_a (s : State) (l : Nat) : (s.acknowledge l).a = s.a := rfl
@[simp] theorem State.acknowledge_b (s : State) (l : Nat) : (s.acknowledge l).b = s.b := rfl
@[simp] theorem State.acknowledge_x (s : State) (l : Nat) : (s.acknowledge l).x = s.x := rfl
@[simp] theorem State.acknowledge_p (s : State) (l : Nat) : (s.acknowledge l).p = s.p := rfl
@[simp] theorem State.acknowledge_ov (s : State) (l : Nat) : (s.acknowledge l).ov = s.ov := rfl
@[simp] theorem State.acknowledge_em2 (s : State) (l : Nat) : (s.acknowledge l).em2 = s.em2 := rfl
@[simp] theorem State.acknowledge_em3 (s : State) (l : Nat) : (s.acknowledge l).em3 = s.em3 := rfl
@[simp] theorem State.acknowledge_ien (s : State) (l : Nat) : (s.acknowledge l).ien = s.ien := rfl
@[simp] theorem State.acknowledge_c (s : State) (l : Nat) : (s.acknowledge l).c = s.c := rfl
@[simp] theorem State.acknowledge_m (s : State) (l : Nat) : (s.acknowledge l).m = s.m := rfl
@[simp] theorem State.acknowledge_cState (s : State) (l : Nat) : (s.acknowledge l).cState = s.cState := rfl
@[simp] theorem State.acknowledge_origin (s : State) (l : Nat) : (s.acknowledge l).origin = s.origin := rfl
@[simp] theorem State.acknowledge_ack (s : State) (l : Nat) : (s.acknowledge l).ack = some l := rfl
@[simp] theorem State.acknowledge_halted (s : State) (l : Nat) : (s.acknowledge l).halted = false := rfl
@[simp] theorem State.acknowledge_noIntNext (s : State) (l : Nat) : (s.acknowledge l).noIntNext = s.noIntNext := rfl
@[simp] theorem State.acknowledge_parityError (s : State) (l : Nat) :
    (s.acknowledge l).parityError = s.parityError := rfl
@[simp] theorem State.acknowledge_airAlert (s : State) (l : Nat) : (s.acknowledge l).airAlert = s.airAlert := rfl
@[simp] theorem State.acknowledge_rtcArmed (s : State) (l : Nat) : (s.acknowledge l).rtcArmed = s.rtcArmed := rfl
@[simp] theorem State.acknowledge_dmsSelect (s : State) (l : Nat) : (s.acknowledge l).dmsSelect = s.dmsSelect := rfl
@[simp] theorem State.acknowledge_waiting (s : State) (l : Nat) :
    (s.acknowledge l).waiting = levelErase l s.waiting := rfl
@[simp] theorem State.acknowledge_active (s : State) (l : Nat) :
    (s.acknowledge l).active = levelInsert l s.active := rfl
@[simp] theorem State.acknowledge_armed (s : State) (l : Nat) : (s.acknowledge l).armed = s.armed := rfl
@[simp] theorem State.acknowledge_mem (s : State) (l : Nat) : (s.acknowledge l).mem = s.mem := rfl
@[simp] theorem State.acknowledge_lockBlocks (s : State) (l : Nat) :
    (s.acknowledge l).lockBlocks = s.lockBlocks := rfl
@[simp] theorem State.acknowledge_lockSubs (s : State) (l : Nat) : (s.acknowledge l).lockSubs = s.lockSubs := rfl
@[simp] theorem State.acknowledge_chans (s : State) (l : Nat) : (s.acknowledge l).chans = s.chans := rfl
@[simp] theorem State.acknowledge_console (s : State) (l : Nat) : (s.acknowledge l).console = s.console := rfl
@[simp] theorem State.acknowledge_lines (s : State) (l : Nat) : (s.acknowledge l).lines = s.lines := rfl
@[simp] theorem State.acknowledge_power (s : State) (l : Nat) : (s.acknowledge l).power = s.power := rfl
@[simp] theorem State.acknowledge_out (s : State) (l : Nat) : (s.acknowledge l).out = s.out := rfl
@[simp] theorem State.acknowledge_schedule (s : State) (l : Nat) : (s.acknowledge l).schedule = s.schedule := rfl
@[simp] theorem State.acknowledge_draws (s : State) (l : Nat) : (s.acknowledge l).draws = s.draws := rfl
@[simp] theorem State.acknowledge_cfg (s : State) (l : Nat) : (s.acknowledge l).cfg = s.cfg := rfl

/-! ### `clearHighestActive` -/

@[simp] theorem State.clearHighestActive_a (s : State) : (s.clearHighestActive).a = s.a := rfl
@[simp] theorem State.clearHighestActive_b (s : State) : (s.clearHighestActive).b = s.b := rfl
@[simp] theorem State.clearHighestActive_x (s : State) : (s.clearHighestActive).x = s.x := rfl
@[simp] theorem State.clearHighestActive_p (s : State) : (s.clearHighestActive).p = s.p := rfl
@[simp] theorem State.clearHighestActive_ov (s : State) : (s.clearHighestActive).ov = s.ov := rfl
@[simp] theorem State.clearHighestActive_em2 (s : State) : (s.clearHighestActive).em2 = s.em2 := rfl
@[simp] theorem State.clearHighestActive_em3 (s : State) : (s.clearHighestActive).em3 = s.em3 := rfl
@[simp] theorem State.clearHighestActive_ien (s : State) : (s.clearHighestActive).ien = s.ien := rfl
@[simp] theorem State.clearHighestActive_c (s : State) : (s.clearHighestActive).c = s.c := rfl
@[simp] theorem State.clearHighestActive_m (s : State) : (s.clearHighestActive).m = s.m := rfl
@[simp] theorem State.clearHighestActive_cState (s : State) : (s.clearHighestActive).cState = s.cState := rfl
@[simp] theorem State.clearHighestActive_origin (s : State) : (s.clearHighestActive).origin = s.origin := rfl
@[simp] theorem State.clearHighestActive_ack (s : State) : (s.clearHighestActive).ack = s.ack := rfl
@[simp] theorem State.clearHighestActive_halted (s : State) : (s.clearHighestActive).halted = s.halted := rfl
@[simp] theorem State.clearHighestActive_noIntNext (s : State) : (s.clearHighestActive).noIntNext = s.noIntNext := rfl
@[simp] theorem State.clearHighestActive_parityError (s : State) :
    (s.clearHighestActive).parityError = s.parityError := rfl
@[simp] theorem State.clearHighestActive_airAlert (s : State) : (s.clearHighestActive).airAlert = s.airAlert := rfl
@[simp] theorem State.clearHighestActive_rtcArmed (s : State) : (s.clearHighestActive).rtcArmed = s.rtcArmed := rfl
@[simp] theorem State.clearHighestActive_dmsSelect (s : State) : (s.clearHighestActive).dmsSelect = s.dmsSelect := rfl
@[simp] theorem State.clearHighestActive_waiting (s : State) : (s.clearHighestActive).waiting = s.waiting := rfl
@[simp] theorem State.clearHighestActive_armed (s : State) : (s.clearHighestActive).armed = s.armed := rfl
@[simp] theorem State.clearHighestActive_mem (s : State) : (s.clearHighestActive).mem = s.mem := rfl
@[simp] theorem State.clearHighestActive_lockBlocks (s : State) :
    (s.clearHighestActive).lockBlocks = s.lockBlocks := rfl
@[simp] theorem State.clearHighestActive_lockSubs (s : State) : (s.clearHighestActive).lockSubs = s.lockSubs := rfl
@[simp] theorem State.clearHighestActive_chans (s : State) : (s.clearHighestActive).chans = s.chans := rfl
@[simp] theorem State.clearHighestActive_console (s : State) : (s.clearHighestActive).console = s.console := rfl
@[simp] theorem State.clearHighestActive_lines (s : State) : (s.clearHighestActive).lines = s.lines := rfl
@[simp] theorem State.clearHighestActive_power (s : State) : (s.clearHighestActive).power = s.power := rfl
@[simp] theorem State.clearHighestActive_out (s : State) : (s.clearHighestActive).out = s.out := rfl
@[simp] theorem State.clearHighestActive_schedule (s : State) : (s.clearHighestActive).schedule = s.schedule := rfl
@[simp] theorem State.clearHighestActive_draws (s : State) : (s.clearHighestActive).draws = s.draws := rfl
@[simp] theorem State.clearHighestActive_cfg (s : State) : (s.clearHighestActive).cfg = s.cfg := rfl

/-! ### `clearLevel` -/

@[simp] theorem State.clearLevel_a (s : State) (l : Nat) : (s.clearLevel l).a = s.a := rfl
@[simp] theorem State.clearLevel_b (s : State) (l : Nat) : (s.clearLevel l).b = s.b := rfl
@[simp] theorem State.clearLevel_x (s : State) (l : Nat) : (s.clearLevel l).x = s.x := rfl
@[simp] theorem State.clearLevel_p (s : State) (l : Nat) : (s.clearLevel l).p = s.p := rfl
@[simp] theorem State.clearLevel_ov (s : State) (l : Nat) : (s.clearLevel l).ov = s.ov := rfl
@[simp] theorem State.clearLevel_em2 (s : State) (l : Nat) : (s.clearLevel l).em2 = s.em2 := rfl
@[simp] theorem State.clearLevel_em3 (s : State) (l : Nat) : (s.clearLevel l).em3 = s.em3 := rfl
@[simp] theorem State.clearLevel_ien (s : State) (l : Nat) : (s.clearLevel l).ien = s.ien := rfl
@[simp] theorem State.clearLevel_c (s : State) (l : Nat) : (s.clearLevel l).c = s.c := rfl
@[simp] theorem State.clearLevel_m (s : State) (l : Nat) : (s.clearLevel l).m = s.m := rfl
@[simp] theorem State.clearLevel_cState (s : State) (l : Nat) : (s.clearLevel l).cState = s.cState := rfl
@[simp] theorem State.clearLevel_origin (s : State) (l : Nat) : (s.clearLevel l).origin = s.origin := rfl
@[simp] theorem State.clearLevel_ack (s : State) (l : Nat) : (s.clearLevel l).ack = s.ack := rfl
@[simp] theorem State.clearLevel_halted (s : State) (l : Nat) : (s.clearLevel l).halted = s.halted := rfl
@[simp] theorem State.clearLevel_noIntNext (s : State) (l : Nat) : (s.clearLevel l).noIntNext = s.noIntNext := rfl
@[simp] theorem State.clearLevel_parityError (s : State) (l : Nat) :
    (s.clearLevel l).parityError = s.parityError := rfl
@[simp] theorem State.clearLevel_airAlert (s : State) (l : Nat) : (s.clearLevel l).airAlert = s.airAlert := rfl
@[simp] theorem State.clearLevel_rtcArmed (s : State) (l : Nat) : (s.clearLevel l).rtcArmed = s.rtcArmed := rfl
@[simp] theorem State.clearLevel_dmsSelect (s : State) (l : Nat) : (s.clearLevel l).dmsSelect = s.dmsSelect := rfl
@[simp] theorem State.clearLevel_waiting (s : State) (l : Nat) : (s.clearLevel l).waiting = s.waiting := rfl
@[simp] theorem State.clearLevel_active (s : State) (l : Nat) : (s.clearLevel l).active = levelErase l s.active := rfl
@[simp] theorem State.clearLevel_armed (s : State) (l : Nat) : (s.clearLevel l).armed = s.armed := rfl
@[simp] theorem State.clearLevel_mem (s : State) (l : Nat) : (s.clearLevel l).mem = s.mem := rfl
@[simp] theorem State.clearLevel_lockBlocks (s : State) (l : Nat) : (s.clearLevel l).lockBlocks = s.lockBlocks := rfl
@[simp] theorem State.clearLevel_lockSubs (s : State) (l : Nat) : (s.clearLevel l).lockSubs = s.lockSubs := rfl
@[simp] theorem State.clearLevel_chans (s : State) (l : Nat) : (s.clearLevel l).chans = s.chans := rfl
@[simp] theorem State.clearLevel_console (s : State) (l : Nat) : (s.clearLevel l).console = s.console := rfl
@[simp] theorem State.clearLevel_lines (s : State) (l : Nat) : (s.clearLevel l).lines = s.lines := rfl
@[simp] theorem State.clearLevel_power (s : State) (l : Nat) : (s.clearLevel l).power = s.power := rfl
@[simp] theorem State.clearLevel_out (s : State) (l : Nat) : (s.clearLevel l).out = s.out := rfl
@[simp] theorem State.clearLevel_schedule (s : State) (l : Nat) : (s.clearLevel l).schedule = s.schedule := rfl
@[simp] theorem State.clearLevel_draws (s : State) (l : Nat) : (s.clearLevel l).draws = s.draws := rfl
@[simp] theorem State.clearLevel_cfg (s : State) (l : Nat) : (s.clearLevel l).cfg = s.cfg := rfl

/-! ### `store` -/

@[simp] theorem State.store_a (s : State) (d : PAddr) (v : Word) : (s.store d v).a = s.a := rfl
@[simp] theorem State.store_b (s : State) (d : PAddr) (v : Word) : (s.store d v).b = s.b := rfl
@[simp] theorem State.store_x (s : State) (d : PAddr) (v : Word) : (s.store d v).x = s.x := rfl
@[simp] theorem State.store_p (s : State) (d : PAddr) (v : Word) : (s.store d v).p = s.p := rfl
@[simp] theorem State.store_ov (s : State) (d : PAddr) (v : Word) : (s.store d v).ov = s.ov := rfl
@[simp] theorem State.store_em2 (s : State) (d : PAddr) (v : Word) : (s.store d v).em2 = s.em2 := rfl
@[simp] theorem State.store_em3 (s : State) (d : PAddr) (v : Word) : (s.store d v).em3 = s.em3 := rfl
@[simp] theorem State.store_ien (s : State) (d : PAddr) (v : Word) : (s.store d v).ien = s.ien := rfl
@[simp] theorem State.store_c (s : State) (d : PAddr) (v : Word) : (s.store d v).c = s.c := rfl
@[simp] theorem State.store_m (s : State) (d : PAddr) (v : Word) : (s.store d v).m = s.m := rfl
@[simp] theorem State.store_cState (s : State) (d : PAddr) (v : Word) : (s.store d v).cState = s.cState := rfl
@[simp] theorem State.store_origin (s : State) (d : PAddr) (v : Word) : (s.store d v).origin = s.origin := rfl
@[simp] theorem State.store_ack (s : State) (d : PAddr) (v : Word) : (s.store d v).ack = s.ack := rfl
@[simp] theorem State.store_halted (s : State) (d : PAddr) (v : Word) : (s.store d v).halted = s.halted := rfl
@[simp] theorem State.store_noIntNext (s : State) (d : PAddr) (v : Word) :
    (s.store d v).noIntNext = s.noIntNext := rfl
@[simp] theorem State.store_parityError (s : State) (d : PAddr) (v : Word) :
    (s.store d v).parityError = s.parityError := rfl
@[simp] theorem State.store_airAlert (s : State) (d : PAddr) (v : Word) : (s.store d v).airAlert = s.airAlert := rfl
@[simp] theorem State.store_rtcArmed (s : State) (d : PAddr) (v : Word) : (s.store d v).rtcArmed = s.rtcArmed := rfl
@[simp] theorem State.store_dmsSelect (s : State) (d : PAddr) (v : Word) :
    (s.store d v).dmsSelect = s.dmsSelect := rfl
@[simp] theorem State.store_waiting (s : State) (d : PAddr) (v : Word) :
    (s.store d v).waiting = s.storedWaiting d := rfl
@[simp] theorem State.store_active (s : State) (d : PAddr) (v : Word) : (s.store d v).active = s.active := rfl
@[simp] theorem State.store_armed (s : State) (d : PAddr) (v : Word) : (s.store d v).armed = s.armed := rfl
@[simp] theorem State.store_mem (s : State) (d : PAddr) (v : Word) : (s.store d v).mem = s.storedMem d v := rfl
@[simp] theorem State.store_lockBlocks (s : State) (d : PAddr) (v : Word) :
    (s.store d v).lockBlocks = s.lockBlocks := rfl
@[simp] theorem State.store_lockSubs (s : State) (d : PAddr) (v : Word) : (s.store d v).lockSubs = s.lockSubs := rfl
@[simp] theorem State.store_chans (s : State) (d : PAddr) (v : Word) : (s.store d v).chans = s.chans := rfl
@[simp] theorem State.store_console (s : State) (d : PAddr) (v : Word) : (s.store d v).console = s.console := rfl
@[simp] theorem State.store_lines (s : State) (d : PAddr) (v : Word) : (s.store d v).lines = s.lines := rfl
@[simp] theorem State.store_power (s : State) (d : PAddr) (v : Word) : (s.store d v).power = s.power := rfl
@[simp] theorem State.store_out (s : State) (d : PAddr) (v : Word) : (s.store d v).out = s.out := rfl
@[simp] theorem State.store_schedule (s : State) (d : PAddr) (v : Word) : (s.store d v).schedule = s.schedule := rfl
@[simp] theorem State.store_draws (s : State) (d : PAddr) (v : Word) : (s.store d v).draws = s.draws := rfl
@[simp] theorem State.store_cfg (s : State) (d : PAddr) (v : Word) : (s.store d v).cfg = s.cfg := rfl

/-! ### `write` -/

@[simp] theorem State.write_a (s : State) (t : Addr) (v : Word) : (s.write t v).a = s.a := rfl
@[simp] theorem State.write_b (s : State) (t : Addr) (v : Word) : (s.write t v).b = s.b := rfl
@[simp] theorem State.write_x (s : State) (t : Addr) (v : Word) : (s.write t v).x = s.x := rfl
@[simp] theorem State.write_p (s : State) (t : Addr) (v : Word) : (s.write t v).p = s.p := rfl
@[simp] theorem State.write_ov (s : State) (t : Addr) (v : Word) : (s.write t v).ov = s.ov := rfl
@[simp] theorem State.write_em2 (s : State) (t : Addr) (v : Word) : (s.write t v).em2 = s.em2 := rfl
@[simp] theorem State.write_em3 (s : State) (t : Addr) (v : Word) : (s.write t v).em3 = s.em3 := rfl
@[simp] theorem State.write_ien (s : State) (t : Addr) (v : Word) : (s.write t v).ien = s.ien := rfl
@[simp] theorem State.write_c (s : State) (t : Addr) (v : Word) : (s.write t v).c = s.c := rfl
@[simp] theorem State.write_m (s : State) (t : Addr) (v : Word) : (s.write t v).m = s.m := rfl
@[simp] theorem State.write_cState (s : State) (t : Addr) (v : Word) : (s.write t v).cState = s.cState := rfl
@[simp] theorem State.write_origin (s : State) (t : Addr) (v : Word) : (s.write t v).origin = s.origin := rfl
@[simp] theorem State.write_ack (s : State) (t : Addr) (v : Word) : (s.write t v).ack = s.ack := rfl
@[simp] theorem State.write_halted (s : State) (t : Addr) (v : Word) : (s.write t v).halted = s.halted := rfl
@[simp] theorem State.write_noIntNext (s : State) (t : Addr) (v : Word) : (s.write t v).noIntNext = s.noIntNext := rfl
@[simp] theorem State.write_parityError (s : State) (t : Addr) (v : Word) :
    (s.write t v).parityError = s.parityError := rfl
@[simp] theorem State.write_airAlert (s : State) (t : Addr) (v : Word) : (s.write t v).airAlert = s.airAlert := rfl
@[simp] theorem State.write_rtcArmed (s : State) (t : Addr) (v : Word) : (s.write t v).rtcArmed = s.rtcArmed := rfl
@[simp] theorem State.write_dmsSelect (s : State) (t : Addr) (v : Word) : (s.write t v).dmsSelect = s.dmsSelect := rfl
@[simp] theorem State.write_waiting (s : State) (t : Addr) (v : Word) :
    (s.write t v).waiting = s.storedWaiting (s.phys t) := rfl
@[simp] theorem State.write_active (s : State) (t : Addr) (v : Word) : (s.write t v).active = s.active := rfl
@[simp] theorem State.write_armed (s : State) (t : Addr) (v : Word) : (s.write t v).armed = s.armed := rfl
@[simp] theorem State.write_mem (s : State) (t : Addr) (v : Word) :
    (s.write t v).mem = s.storedMem (s.phys t) v := rfl
@[simp] theorem State.write_lockBlocks (s : State) (t : Addr) (v : Word) :
    (s.write t v).lockBlocks = s.lockBlocks := rfl
@[simp] theorem State.write_lockSubs (s : State) (t : Addr) (v : Word) : (s.write t v).lockSubs = s.lockSubs := rfl
@[simp] theorem State.write_chans (s : State) (t : Addr) (v : Word) : (s.write t v).chans = s.chans := rfl
@[simp] theorem State.write_console (s : State) (t : Addr) (v : Word) : (s.write t v).console = s.console := rfl
@[simp] theorem State.write_lines (s : State) (t : Addr) (v : Word) : (s.write t v).lines = s.lines := rfl
@[simp] theorem State.write_power (s : State) (t : Addr) (v : Word) : (s.write t v).power = s.power := rfl
@[simp] theorem State.write_out (s : State) (t : Addr) (v : Word) : (s.write t v).out = s.out := rfl
@[simp] theorem State.write_schedule (s : State) (t : Addr) (v : Word) : (s.write t v).schedule = s.schedule := rfl
@[simp] theorem State.write_draws (s : State) (t : Addr) (v : Word) : (s.write t v).draws = s.draws := rfl
@[simp] theorem State.write_cfg (s : State) (t : Addr) (v : Word) : (s.write t v).cfg = s.cfg := rfl

/-! ### `setChan` -/

@[simp] theorem State.setChan_a (s : State) (ch : ChannelId) (k : Chan) : (s.setChan ch k).a = s.a := rfl
@[simp] theorem State.setChan_b (s : State) (ch : ChannelId) (k : Chan) : (s.setChan ch k).b = s.b := rfl
@[simp] theorem State.setChan_x (s : State) (ch : ChannelId) (k : Chan) : (s.setChan ch k).x = s.x := rfl
@[simp] theorem State.setChan_p (s : State) (ch : ChannelId) (k : Chan) : (s.setChan ch k).p = s.p := rfl
@[simp] theorem State.setChan_ov (s : State) (ch : ChannelId) (k : Chan) : (s.setChan ch k).ov = s.ov := rfl
@[simp] theorem State.setChan_em2 (s : State) (ch : ChannelId) (k : Chan) : (s.setChan ch k).em2 = s.em2 := rfl
@[simp] theorem State.setChan_em3 (s : State) (ch : ChannelId) (k : Chan) : (s.setChan ch k).em3 = s.em3 := rfl
@[simp] theorem State.setChan_ien (s : State) (ch : ChannelId) (k : Chan) : (s.setChan ch k).ien = s.ien := rfl
@[simp] theorem State.setChan_c (s : State) (ch : ChannelId) (k : Chan) : (s.setChan ch k).c = s.c := rfl
@[simp] theorem State.setChan_m (s : State) (ch : ChannelId) (k : Chan) : (s.setChan ch k).m = s.m := rfl
@[simp] theorem State.setChan_cState (s : State) (ch : ChannelId) (k : Chan) :
    (s.setChan ch k).cState = s.cState := rfl
@[simp] theorem State.setChan_origin (s : State) (ch : ChannelId) (k : Chan) :
    (s.setChan ch k).origin = s.origin := rfl
@[simp] theorem State.setChan_ack (s : State) (ch : ChannelId) (k : Chan) : (s.setChan ch k).ack = s.ack := rfl
@[simp] theorem State.setChan_halted (s : State) (ch : ChannelId) (k : Chan) :
    (s.setChan ch k).halted = s.halted := rfl
@[simp] theorem State.setChan_noIntNext (s : State) (ch : ChannelId) (k : Chan) :
    (s.setChan ch k).noIntNext = s.noIntNext := rfl
@[simp] theorem State.setChan_parityError (s : State) (ch : ChannelId) (k : Chan) :
    (s.setChan ch k).parityError = s.parityError := rfl
@[simp] theorem State.setChan_airAlert (s : State) (ch : ChannelId) (k : Chan) :
    (s.setChan ch k).airAlert = s.airAlert := rfl
@[simp] theorem State.setChan_rtcArmed (s : State) (ch : ChannelId) (k : Chan) :
    (s.setChan ch k).rtcArmed = s.rtcArmed := rfl
@[simp] theorem State.setChan_dmsSelect (s : State) (ch : ChannelId) (k : Chan) :
    (s.setChan ch k).dmsSelect = s.dmsSelect := rfl
@[simp] theorem State.setChan_waiting (s : State) (ch : ChannelId) (k : Chan) :
    (s.setChan ch k).waiting = s.waiting := rfl
@[simp] theorem State.setChan_active (s : State) (ch : ChannelId) (k : Chan) :
    (s.setChan ch k).active = s.active := rfl
@[simp] theorem State.setChan_armed (s : State) (ch : ChannelId) (k : Chan) : (s.setChan ch k).armed = s.armed := rfl
@[simp] theorem State.setChan_mem (s : State) (ch : ChannelId) (k : Chan) : (s.setChan ch k).mem = s.mem := rfl
@[simp] theorem State.setChan_lockBlocks (s : State) (ch : ChannelId) (k : Chan) :
    (s.setChan ch k).lockBlocks = s.lockBlocks := rfl
@[simp] theorem State.setChan_lockSubs (s : State) (ch : ChannelId) (k : Chan) :
    (s.setChan ch k).lockSubs = s.lockSubs := rfl
@[simp] theorem State.setChan_chans (s : State) (ch : ChannelId) (k : Chan) :
    (s.setChan ch k).chans = s.chans.set ch k := rfl
@[simp] theorem State.setChan_console (s : State) (ch : ChannelId) (k : Chan) :
    (s.setChan ch k).console = s.console := rfl
@[simp] theorem State.setChan_lines (s : State) (ch : ChannelId) (k : Chan) : (s.setChan ch k).lines = s.lines := rfl
@[simp] theorem State.setChan_power (s : State) (ch : ChannelId) (k : Chan) : (s.setChan ch k).power = s.power := rfl
@[simp] theorem State.setChan_out (s : State) (ch : ChannelId) (k : Chan) : (s.setChan ch k).out = s.out := rfl
@[simp] theorem State.setChan_schedule (s : State) (ch : ChannelId) (k : Chan) :
    (s.setChan ch k).schedule = s.schedule := rfl
@[simp] theorem State.setChan_draws (s : State) (ch : ChannelId) (k : Chan) : (s.setChan ch k).draws = s.draws := rfl
@[simp] theorem State.setChan_cfg (s : State) (ch : ChannelId) (k : Chan) : (s.setChan ch k).cfg = s.cfg := rfl

/-! ### `send` -/

@[simp] theorem State.send_a (s : State) (m : Message) : (s.send m).a = s.a := rfl
@[simp] theorem State.send_b (s : State) (m : Message) : (s.send m).b = s.b := rfl
@[simp] theorem State.send_x (s : State) (m : Message) : (s.send m).x = s.x := rfl
@[simp] theorem State.send_p (s : State) (m : Message) : (s.send m).p = s.p := rfl
@[simp] theorem State.send_ov (s : State) (m : Message) : (s.send m).ov = s.ov := rfl
@[simp] theorem State.send_em2 (s : State) (m : Message) : (s.send m).em2 = s.em2 := rfl
@[simp] theorem State.send_em3 (s : State) (m : Message) : (s.send m).em3 = s.em3 := rfl
@[simp] theorem State.send_ien (s : State) (m : Message) : (s.send m).ien = s.ien := rfl
@[simp] theorem State.send_c (s : State) (m : Message) : (s.send m).c = s.c := rfl
@[simp] theorem State.send_m (s : State) (m : Message) : (s.send m).m = s.m := rfl
@[simp] theorem State.send_cState (s : State) (m : Message) : (s.send m).cState = s.cState := rfl
@[simp] theorem State.send_origin (s : State) (m : Message) : (s.send m).origin = s.origin := rfl
@[simp] theorem State.send_ack (s : State) (m : Message) : (s.send m).ack = s.ack := rfl
@[simp] theorem State.send_halted (s : State) (m : Message) : (s.send m).halted = s.halted := rfl
@[simp] theorem State.send_noIntNext (s : State) (m : Message) : (s.send m).noIntNext = s.noIntNext := rfl
@[simp] theorem State.send_parityError (s : State) (m : Message) : (s.send m).parityError = s.parityError := rfl
@[simp] theorem State.send_airAlert (s : State) (m : Message) : (s.send m).airAlert = s.airAlert := rfl
@[simp] theorem State.send_rtcArmed (s : State) (m : Message) : (s.send m).rtcArmed = s.rtcArmed := rfl
@[simp] theorem State.send_dmsSelect (s : State) (m : Message) : (s.send m).dmsSelect = s.dmsSelect := rfl
@[simp] theorem State.send_waiting (s : State) (m : Message) : (s.send m).waiting = s.waiting := rfl
@[simp] theorem State.send_active (s : State) (m : Message) : (s.send m).active = s.active := rfl
@[simp] theorem State.send_armed (s : State) (m : Message) : (s.send m).armed = s.armed := rfl
@[simp] theorem State.send_mem (s : State) (m : Message) : (s.send m).mem = s.mem := rfl
@[simp] theorem State.send_lockBlocks (s : State) (m : Message) : (s.send m).lockBlocks = s.lockBlocks := rfl
@[simp] theorem State.send_lockSubs (s : State) (m : Message) : (s.send m).lockSubs = s.lockSubs := rfl
@[simp] theorem State.send_chans (s : State) (m : Message) : (s.send m).chans = s.chans := rfl
@[simp] theorem State.send_console (s : State) (m : Message) : (s.send m).console = s.console := rfl
@[simp] theorem State.send_lines (s : State) (m : Message) : (s.send m).lines = s.lines := rfl
@[simp] theorem State.send_power (s : State) (m : Message) : (s.send m).power = s.power := rfl
@[simp] theorem State.send_out (s : State) (m : Message) : (s.send m).out = m :: s.out := rfl
@[simp] theorem State.send_schedule (s : State) (m : Message) : (s.send m).schedule = s.schedule := rfl
@[simp] theorem State.send_draws (s : State) (m : Message) : (s.send m).draws = s.draws := rfl
@[simp] theorem State.send_cfg (s : State) (m : Message) : (s.send m).cfg = s.cfg := rfl

/-! ### `draw` -/

@[simp] theorem State.draw_a (s : State) (n : Nat) : (s.draw n).a = s.a := rfl
@[simp] theorem State.draw_b (s : State) (n : Nat) : (s.draw n).b = s.b := rfl
@[simp] theorem State.draw_x (s : State) (n : Nat) : (s.draw n).x = s.x := rfl
@[simp] theorem State.draw_p (s : State) (n : Nat) : (s.draw n).p = s.p := rfl
@[simp] theorem State.draw_ov (s : State) (n : Nat) : (s.draw n).ov = s.ov := rfl
@[simp] theorem State.draw_em2 (s : State) (n : Nat) : (s.draw n).em2 = s.em2 := rfl
@[simp] theorem State.draw_em3 (s : State) (n : Nat) : (s.draw n).em3 = s.em3 := rfl
@[simp] theorem State.draw_ien (s : State) (n : Nat) : (s.draw n).ien = s.ien := rfl
@[simp] theorem State.draw_c (s : State) (n : Nat) : (s.draw n).c = s.c := rfl
@[simp] theorem State.draw_m (s : State) (n : Nat) : (s.draw n).m = s.m := rfl
@[simp] theorem State.draw_cState (s : State) (n : Nat) : (s.draw n).cState = s.cState := rfl
@[simp] theorem State.draw_origin (s : State) (n : Nat) : (s.draw n).origin = s.origin := rfl
@[simp] theorem State.draw_ack (s : State) (n : Nat) : (s.draw n).ack = s.ack := rfl
@[simp] theorem State.draw_halted (s : State) (n : Nat) : (s.draw n).halted = s.halted := rfl
@[simp] theorem State.draw_noIntNext (s : State) (n : Nat) : (s.draw n).noIntNext = s.noIntNext := rfl
@[simp] theorem State.draw_parityError (s : State) (n : Nat) : (s.draw n).parityError = s.parityError := rfl
@[simp] theorem State.draw_airAlert (s : State) (n : Nat) : (s.draw n).airAlert = s.airAlert := rfl
@[simp] theorem State.draw_rtcArmed (s : State) (n : Nat) : (s.draw n).rtcArmed = s.rtcArmed := rfl
@[simp] theorem State.draw_dmsSelect (s : State) (n : Nat) : (s.draw n).dmsSelect = s.dmsSelect := rfl
@[simp] theorem State.draw_waiting (s : State) (n : Nat) : (s.draw n).waiting = s.waiting := rfl
@[simp] theorem State.draw_active (s : State) (n : Nat) : (s.draw n).active = s.active := rfl
@[simp] theorem State.draw_armed (s : State) (n : Nat) : (s.draw n).armed = s.armed := rfl
@[simp] theorem State.draw_mem (s : State) (n : Nat) : (s.draw n).mem = s.mem := rfl
@[simp] theorem State.draw_lockBlocks (s : State) (n : Nat) : (s.draw n).lockBlocks = s.lockBlocks := rfl
@[simp] theorem State.draw_lockSubs (s : State) (n : Nat) : (s.draw n).lockSubs = s.lockSubs := rfl
@[simp] theorem State.draw_chans (s : State) (n : Nat) : (s.draw n).chans = s.chans := rfl
@[simp] theorem State.draw_console (s : State) (n : Nat) : (s.draw n).console = s.console := rfl
@[simp] theorem State.draw_lines (s : State) (n : Nat) : (s.draw n).lines = s.lines := rfl
@[simp] theorem State.draw_power (s : State) (n : Nat) : (s.draw n).power = s.power := rfl
@[simp] theorem State.draw_out (s : State) (n : Nat) : (s.draw n).out = s.out := rfl
@[simp] theorem State.draw_schedule (s : State) (n : Nat) : (s.draw n).schedule = s.schedule := rfl
@[simp] theorem State.draw_draws (s : State) (n : Nat) : (s.draw n).draws = s.draws + n := rfl
@[simp] theorem State.draw_cfg (s : State) (n : Nat) : (s.draw n).cfg = s.cfg := rfl

/-! ### `sequential` -/

@[simp] theorem State.sequential_a (s : State) : (s.sequential).a = s.a := rfl
@[simp] theorem State.sequential_b (s : State) : (s.sequential).b = s.b := rfl
@[simp] theorem State.sequential_x (s : State) : (s.sequential).x = s.x := rfl
@[simp] theorem State.sequential_p (s : State) : (s.sequential).p = s.advanced 1 := rfl
@[simp] theorem State.sequential_ov (s : State) : (s.sequential).ov = s.ov := rfl
@[simp] theorem State.sequential_em2 (s : State) : (s.sequential).em2 = s.em2 := rfl
@[simp] theorem State.sequential_em3 (s : State) : (s.sequential).em3 = s.em3 := rfl
@[simp] theorem State.sequential_ien (s : State) : (s.sequential).ien = s.ien := rfl
@[simp] theorem State.sequential_c (s : State) : (s.sequential).c = s.c := rfl
@[simp] theorem State.sequential_m (s : State) : (s.sequential).m = s.m := rfl
@[simp] theorem State.sequential_cState (s : State) : (s.sequential).cState = .none := rfl
@[simp] theorem State.sequential_origin (s : State) : (s.sequential).origin = s.origin := rfl
@[simp] theorem State.sequential_ack (s : State) : (s.sequential).ack = s.ack := rfl
@[simp] theorem State.sequential_halted (s : State) : (s.sequential).halted = s.halted := rfl
@[simp] theorem State.sequential_noIntNext (s : State) : (s.sequential).noIntNext = s.noIntNext := rfl
@[simp] theorem State.sequential_parityError (s : State) : (s.sequential).parityError = s.parityError := rfl
@[simp] theorem State.sequential_airAlert (s : State) : (s.sequential).airAlert = s.airAlert := rfl
@[simp] theorem State.sequential_rtcArmed (s : State) : (s.sequential).rtcArmed = s.rtcArmed := rfl
@[simp] theorem State.sequential_dmsSelect (s : State) : (s.sequential).dmsSelect = s.dmsSelect := rfl
@[simp] theorem State.sequential_waiting (s : State) : (s.sequential).waiting = s.waiting := rfl
@[simp] theorem State.sequential_active (s : State) : (s.sequential).active = s.active := rfl
@[simp] theorem State.sequential_armed (s : State) : (s.sequential).armed = s.armed := rfl
@[simp] theorem State.sequential_mem (s : State) : (s.sequential).mem = s.mem := rfl
@[simp] theorem State.sequential_lockBlocks (s : State) : (s.sequential).lockBlocks = s.lockBlocks := rfl
@[simp] theorem State.sequential_lockSubs (s : State) : (s.sequential).lockSubs = s.lockSubs := rfl
@[simp] theorem State.sequential_chans (s : State) : (s.sequential).chans = s.chans := rfl
@[simp] theorem State.sequential_console (s : State) : (s.sequential).console = s.console := rfl
@[simp] theorem State.sequential_lines (s : State) : (s.sequential).lines = s.lines := rfl
@[simp] theorem State.sequential_power (s : State) : (s.sequential).power = s.power := rfl
@[simp] theorem State.sequential_out (s : State) : (s.sequential).out = s.out := rfl
@[simp] theorem State.sequential_schedule (s : State) : (s.sequential).schedule = s.schedule := rfl
@[simp] theorem State.sequential_draws (s : State) : (s.sequential).draws = s.draws := rfl
@[simp] theorem State.sequential_cfg (s : State) : (s.sequential).cfg = s.cfg := rfl

/-! ### `skipIf` -/

@[simp] theorem State.skipIf_a (s : State) (k : Bool) : (s.skipIf k).a = s.a := rfl
@[simp] theorem State.skipIf_b (s : State) (k : Bool) : (s.skipIf k).b = s.b := rfl
@[simp] theorem State.skipIf_x (s : State) (k : Bool) : (s.skipIf k).x = s.x := rfl
@[simp] theorem State.skipIf_p (s : State) (k : Bool) : (s.skipIf k).p = s.advanced (if k then 2 else 1) := rfl
@[simp] theorem State.skipIf_ov (s : State) (k : Bool) : (s.skipIf k).ov = s.ov := rfl
@[simp] theorem State.skipIf_em2 (s : State) (k : Bool) : (s.skipIf k).em2 = s.em2 := rfl
@[simp] theorem State.skipIf_em3 (s : State) (k : Bool) : (s.skipIf k).em3 = s.em3 := rfl
@[simp] theorem State.skipIf_ien (s : State) (k : Bool) : (s.skipIf k).ien = s.ien := rfl
@[simp] theorem State.skipIf_c (s : State) (k : Bool) : (s.skipIf k).c = s.c := rfl
@[simp] theorem State.skipIf_m (s : State) (k : Bool) : (s.skipIf k).m = s.m := rfl
@[simp] theorem State.skipIf_cState (s : State) (k : Bool) : (s.skipIf k).cState = .none := rfl
@[simp] theorem State.skipIf_origin (s : State) (k : Bool) : (s.skipIf k).origin = s.origin := rfl
@[simp] theorem State.skipIf_ack (s : State) (k : Bool) : (s.skipIf k).ack = s.ack := rfl
@[simp] theorem State.skipIf_halted (s : State) (k : Bool) : (s.skipIf k).halted = s.halted := rfl
@[simp] theorem State.skipIf_noIntNext (s : State) (k : Bool) : (s.skipIf k).noIntNext = s.noIntNext := rfl
@[simp] theorem State.skipIf_parityError (s : State) (k : Bool) : (s.skipIf k).parityError = s.parityError := rfl
@[simp] theorem State.skipIf_airAlert (s : State) (k : Bool) : (s.skipIf k).airAlert = s.airAlert := rfl
@[simp] theorem State.skipIf_rtcArmed (s : State) (k : Bool) : (s.skipIf k).rtcArmed = s.rtcArmed := rfl
@[simp] theorem State.skipIf_dmsSelect (s : State) (k : Bool) : (s.skipIf k).dmsSelect = s.dmsSelect := rfl
@[simp] theorem State.skipIf_waiting (s : State) (k : Bool) : (s.skipIf k).waiting = s.waiting := rfl
@[simp] theorem State.skipIf_active (s : State) (k : Bool) : (s.skipIf k).active = s.active := rfl
@[simp] theorem State.skipIf_armed (s : State) (k : Bool) : (s.skipIf k).armed = s.armed := rfl
@[simp] theorem State.skipIf_mem (s : State) (k : Bool) : (s.skipIf k).mem = s.mem := rfl
@[simp] theorem State.skipIf_lockBlocks (s : State) (k : Bool) : (s.skipIf k).lockBlocks = s.lockBlocks := rfl
@[simp] theorem State.skipIf_lockSubs (s : State) (k : Bool) : (s.skipIf k).lockSubs = s.lockSubs := rfl
@[simp] theorem State.skipIf_chans (s : State) (k : Bool) : (s.skipIf k).chans = s.chans := rfl
@[simp] theorem State.skipIf_console (s : State) (k : Bool) : (s.skipIf k).console = s.console := rfl
@[simp] theorem State.skipIf_lines (s : State) (k : Bool) : (s.skipIf k).lines = s.lines := rfl
@[simp] theorem State.skipIf_power (s : State) (k : Bool) : (s.skipIf k).power = s.power := rfl
@[simp] theorem State.skipIf_out (s : State) (k : Bool) : (s.skipIf k).out = s.out := rfl
@[simp] theorem State.skipIf_schedule (s : State) (k : Bool) : (s.skipIf k).schedule = s.schedule := rfl
@[simp] theorem State.skipIf_draws (s : State) (k : Bool) : (s.skipIf k).draws = s.draws := rfl
@[simp] theorem State.skipIf_cfg (s : State) (k : Bool) : (s.skipIf k).cfg = s.cfg := rfl

/-! ### `branch` -/

@[simp] theorem State.branch_a (s : State) (t : Addr) : (s.branch t).a = s.a := rfl
@[simp] theorem State.branch_b (s : State) (t : Addr) : (s.branch t).b = s.b := rfl
@[simp] theorem State.branch_x (s : State) (t : Addr) : (s.branch t).x = s.x := rfl
@[simp] theorem State.branch_p (s : State) (t : Addr) : (s.branch t).p = t := rfl
@[simp] theorem State.branch_ov (s : State) (t : Addr) : (s.branch t).ov = s.ov := rfl
@[simp] theorem State.branch_em2 (s : State) (t : Addr) : (s.branch t).em2 = s.em2 := rfl
@[simp] theorem State.branch_em3 (s : State) (t : Addr) : (s.branch t).em3 = s.em3 := rfl
@[simp] theorem State.branch_ien (s : State) (t : Addr) : (s.branch t).ien = s.ien := rfl
@[simp] theorem State.branch_c (s : State) (t : Addr) : (s.branch t).c = s.c := rfl
@[simp] theorem State.branch_m (s : State) (t : Addr) : (s.branch t).m = s.m := rfl
@[simp] theorem State.branch_cState (s : State) (t : Addr) : (s.branch t).cState = .none := rfl
@[simp] theorem State.branch_origin (s : State) (t : Addr) : (s.branch t).origin = s.origin := rfl
@[simp] theorem State.branch_ack (s : State) (t : Addr) : (s.branch t).ack = s.ack := rfl
@[simp] theorem State.branch_halted (s : State) (t : Addr) : (s.branch t).halted = s.halted := rfl
@[simp] theorem State.branch_noIntNext (s : State) (t : Addr) : (s.branch t).noIntNext = s.noIntNext := rfl
@[simp] theorem State.branch_parityError (s : State) (t : Addr) : (s.branch t).parityError = s.parityError := rfl
@[simp] theorem State.branch_airAlert (s : State) (t : Addr) : (s.branch t).airAlert = s.airAlert := rfl
@[simp] theorem State.branch_rtcArmed (s : State) (t : Addr) : (s.branch t).rtcArmed = s.rtcArmed := rfl
@[simp] theorem State.branch_dmsSelect (s : State) (t : Addr) : (s.branch t).dmsSelect = s.dmsSelect := rfl
@[simp] theorem State.branch_waiting (s : State) (t : Addr) : (s.branch t).waiting = s.waiting := rfl
@[simp] theorem State.branch_active (s : State) (t : Addr) : (s.branch t).active = s.active := rfl
@[simp] theorem State.branch_armed (s : State) (t : Addr) : (s.branch t).armed = s.armed := rfl
@[simp] theorem State.branch_mem (s : State) (t : Addr) : (s.branch t).mem = s.mem := rfl
@[simp] theorem State.branch_lockBlocks (s : State) (t : Addr) : (s.branch t).lockBlocks = s.lockBlocks := rfl
@[simp] theorem State.branch_lockSubs (s : State) (t : Addr) : (s.branch t).lockSubs = s.lockSubs := rfl
@[simp] theorem State.branch_chans (s : State) (t : Addr) : (s.branch t).chans = s.chans := rfl
@[simp] theorem State.branch_console (s : State) (t : Addr) : (s.branch t).console = s.console := rfl
@[simp] theorem State.branch_lines (s : State) (t : Addr) : (s.branch t).lines = s.lines := rfl
@[simp] theorem State.branch_power (s : State) (t : Addr) : (s.branch t).power = s.power := rfl
@[simp] theorem State.branch_out (s : State) (t : Addr) : (s.branch t).out = s.out := rfl
@[simp] theorem State.branch_schedule (s : State) (t : Addr) : (s.branch t).schedule = s.schedule := rfl
@[simp] theorem State.branch_draws (s : State) (t : Addr) : (s.branch t).draws = s.draws := rfl
@[simp] theorem State.branch_cfg (s : State) (t : Addr) : (s.branch t).cfg = s.cfg := rfl

/-! ### `endEom` -/

@[simp] theorem State.endEom_a (s : State) : (s.endEom).a = s.a := rfl
@[simp] theorem State.endEom_b (s : State) : (s.endEom).b = s.b := rfl
@[simp] theorem State.endEom_x (s : State) : (s.endEom).x = s.x := rfl
@[simp] theorem State.endEom_p (s : State) : (s.endEom).p = s.advanced 1 := rfl
@[simp] theorem State.endEom_ov (s : State) : (s.endEom).ov = s.ov := rfl
@[simp] theorem State.endEom_em2 (s : State) : (s.endEom).em2 = s.em2 := rfl
@[simp] theorem State.endEom_em3 (s : State) : (s.endEom).em3 = s.em3 := rfl
@[simp] theorem State.endEom_ien (s : State) : (s.endEom).ien = s.ien := rfl
@[simp] theorem State.endEom_c (s : State) : (s.endEom).c = s.c := rfl
@[simp] theorem State.endEom_m (s : State) : (s.endEom).m = s.m := rfl
@[simp] theorem State.endEom_cState (s : State) : (s.endEom).cState = .none := rfl
@[simp] theorem State.endEom_origin (s : State) : (s.endEom).origin = s.origin := rfl
@[simp] theorem State.endEom_ack (s : State) : (s.endEom).ack = s.ack := rfl
@[simp] theorem State.endEom_halted (s : State) : (s.endEom).halted = s.halted := rfl
@[simp] theorem State.endEom_noIntNext (s : State) : (s.endEom).noIntNext = true := rfl
@[simp] theorem State.endEom_parityError (s : State) : (s.endEom).parityError = s.parityError := rfl
@[simp] theorem State.endEom_airAlert (s : State) : (s.endEom).airAlert = s.airAlert := rfl
@[simp] theorem State.endEom_rtcArmed (s : State) : (s.endEom).rtcArmed = s.rtcArmed := rfl
@[simp] theorem State.endEom_dmsSelect (s : State) : (s.endEom).dmsSelect = s.dmsSelect := rfl
@[simp] theorem State.endEom_waiting (s : State) : (s.endEom).waiting = s.waiting := rfl
@[simp] theorem State.endEom_active (s : State) : (s.endEom).active = s.active := rfl
@[simp] theorem State.endEom_armed (s : State) : (s.endEom).armed = s.armed := rfl
@[simp] theorem State.endEom_mem (s : State) : (s.endEom).mem = s.mem := rfl
@[simp] theorem State.endEom_lockBlocks (s : State) : (s.endEom).lockBlocks = s.lockBlocks := rfl
@[simp] theorem State.endEom_lockSubs (s : State) : (s.endEom).lockSubs = s.lockSubs := rfl
@[simp] theorem State.endEom_chans (s : State) : (s.endEom).chans = s.chans := rfl
@[simp] theorem State.endEom_console (s : State) : (s.endEom).console = s.console := rfl
@[simp] theorem State.endEom_lines (s : State) : (s.endEom).lines = s.lines := rfl
@[simp] theorem State.endEom_power (s : State) : (s.endEom).power = s.power := rfl
@[simp] theorem State.endEom_out (s : State) : (s.endEom).out = s.out := rfl
@[simp] theorem State.endEom_schedule (s : State) : (s.endEom).schedule = s.schedule := rfl
@[simp] theorem State.endEom_draws (s : State) : (s.endEom).draws = s.draws := rfl
@[simp] theorem State.endEom_cfg (s : State) : (s.endEom).cfg = s.cfg := rfl

/-! ### `holdAt` -/

@[simp] theorem State.holdAt_a (s : State) (code : BitVec 6) (t : Addr) : (s.holdAt code t).a = s.a := rfl
@[simp] theorem State.holdAt_b (s : State) (code : BitVec 6) (t : Addr) : (s.holdAt code t).b = s.b := rfl
@[simp] theorem State.holdAt_x (s : State) (code : BitVec 6) (t : Addr) : (s.holdAt code t).x = s.x := rfl
@[simp] theorem State.holdAt_p (s : State) (code : BitVec 6) (t : Addr) : (s.holdAt code t).p = s.p := rfl
@[simp] theorem State.holdAt_ov (s : State) (code : BitVec 6) (t : Addr) : (s.holdAt code t).ov = s.ov := rfl
@[simp] theorem State.holdAt_em2 (s : State) (code : BitVec 6) (t : Addr) : (s.holdAt code t).em2 = s.em2 := rfl
@[simp] theorem State.holdAt_em3 (s : State) (code : BitVec 6) (t : Addr) : (s.holdAt code t).em3 = s.em3 := rfl
@[simp] theorem State.holdAt_ien (s : State) (code : BitVec 6) (t : Addr) : (s.holdAt code t).ien = s.ien := rfl
@[simp] theorem State.holdAt_c (s : State) (code : BitVec 6) (t : Addr) :
    (s.holdAt code t).c = refWord code false t := rfl
@[simp] theorem State.holdAt_m (s : State) (code : BitVec 6) (t : Addr) : (s.holdAt code t).m = s.m := rfl
@[simp] theorem State.holdAt_cState (s : State) (code : BitVec 6) (t : Addr) :
    (s.holdAt code t).cState = .waiting := rfl
@[simp] theorem State.holdAt_origin (s : State) (code : BitVec 6) (t : Addr) :
    (s.holdAt code t).origin = s.origin := rfl
@[simp] theorem State.holdAt_ack (s : State) (code : BitVec 6) (t : Addr) : (s.holdAt code t).ack = s.ack := rfl
@[simp] theorem State.holdAt_halted (s : State) (code : BitVec 6) (t : Addr) :
    (s.holdAt code t).halted = s.halted := rfl
@[simp] theorem State.holdAt_noIntNext (s : State) (code : BitVec 6) (t : Addr) :
    (s.holdAt code t).noIntNext = s.noIntNext := rfl
@[simp] theorem State.holdAt_parityError (s : State) (code : BitVec 6) (t : Addr) :
    (s.holdAt code t).parityError = s.parityError := rfl
@[simp] theorem State.holdAt_airAlert (s : State) (code : BitVec 6) (t : Addr) :
    (s.holdAt code t).airAlert = s.airAlert := rfl
@[simp] theorem State.holdAt_rtcArmed (s : State) (code : BitVec 6) (t : Addr) :
    (s.holdAt code t).rtcArmed = s.rtcArmed := rfl
@[simp] theorem State.holdAt_dmsSelect (s : State) (code : BitVec 6) (t : Addr) :
    (s.holdAt code t).dmsSelect = s.dmsSelect := rfl
@[simp] theorem State.holdAt_waiting (s : State) (code : BitVec 6) (t : Addr) :
    (s.holdAt code t).waiting = s.waiting := rfl
@[simp] theorem State.holdAt_active (s : State) (code : BitVec 6) (t : Addr) :
    (s.holdAt code t).active = s.active := rfl
@[simp] theorem State.holdAt_armed (s : State) (code : BitVec 6) (t : Addr) : (s.holdAt code t).armed = s.armed := rfl
@[simp] theorem State.holdAt_mem (s : State) (code : BitVec 6) (t : Addr) : (s.holdAt code t).mem = s.mem := rfl
@[simp] theorem State.holdAt_lockBlocks (s : State) (code : BitVec 6) (t : Addr) :
    (s.holdAt code t).lockBlocks = s.lockBlocks := rfl
@[simp] theorem State.holdAt_lockSubs (s : State) (code : BitVec 6) (t : Addr) :
    (s.holdAt code t).lockSubs = s.lockSubs := rfl
@[simp] theorem State.holdAt_chans (s : State) (code : BitVec 6) (t : Addr) : (s.holdAt code t).chans = s.chans := rfl
@[simp] theorem State.holdAt_console (s : State) (code : BitVec 6) (t : Addr) :
    (s.holdAt code t).console = s.console := rfl
@[simp] theorem State.holdAt_lines (s : State) (code : BitVec 6) (t : Addr) : (s.holdAt code t).lines = s.lines := rfl
@[simp] theorem State.holdAt_power (s : State) (code : BitVec 6) (t : Addr) : (s.holdAt code t).power = s.power := rfl
@[simp] theorem State.holdAt_out (s : State) (code : BitVec 6) (t : Addr) : (s.holdAt code t).out = s.out := rfl
@[simp] theorem State.holdAt_schedule (s : State) (code : BitVec 6) (t : Addr) :
    (s.holdAt code t).schedule = s.schedule := rfl
@[simp] theorem State.holdAt_draws (s : State) (code : BitVec 6) (t : Addr) : (s.holdAt code t).draws = s.draws := rfl
@[simp] theorem State.holdAt_cfg (s : State) (code : BitVec 6) (t : Addr) : (s.holdAt code t).cfg = s.cfg := rfl

/-! ### `holdChain` -/

@[simp] theorem State.holdChain_a (s : State) (code : BitVec 6) (t : Addr) : (s.holdChain code t).a = s.a := rfl
@[simp] theorem State.holdChain_b (s : State) (code : BitVec 6) (t : Addr) : (s.holdChain code t).b = s.b := rfl
@[simp] theorem State.holdChain_x (s : State) (code : BitVec 6) (t : Addr) : (s.holdChain code t).x = s.x := rfl
@[simp] theorem State.holdChain_p (s : State) (code : BitVec 6) (t : Addr) : (s.holdChain code t).p = s.p := rfl
@[simp] theorem State.holdChain_ov (s : State) (code : BitVec 6) (t : Addr) : (s.holdChain code t).ov = s.ov := rfl
@[simp] theorem State.holdChain_em2 (s : State) (code : BitVec 6) (t : Addr) : (s.holdChain code t).em2 = s.em2 := rfl
@[simp] theorem State.holdChain_em3 (s : State) (code : BitVec 6) (t : Addr) : (s.holdChain code t).em3 = s.em3 := rfl
@[simp] theorem State.holdChain_ien (s : State) (code : BitVec 6) (t : Addr) : (s.holdChain code t).ien = s.ien := rfl
@[simp] theorem State.holdChain_c (s : State) (code : BitVec 6) (t : Addr) :
    (s.holdChain code t).c = refWord code true t := rfl
@[simp] theorem State.holdChain_m (s : State) (code : BitVec 6) (t : Addr) : (s.holdChain code t).m = s.m := rfl
@[simp] theorem State.holdChain_cState (s : State) (code : BitVec 6) (t : Addr) :
    (s.holdChain code t).cState = .chain := rfl
@[simp] theorem State.holdChain_origin (s : State) (code : BitVec 6) (t : Addr) :
    (s.holdChain code t).origin = s.origin := rfl
@[simp] theorem State.holdChain_ack (s : State) (code : BitVec 6) (t : Addr) : (s.holdChain code t).ack = s.ack := rfl
@[simp] theorem State.holdChain_halted (s : State) (code : BitVec 6) (t : Addr) :
    (s.holdChain code t).halted = s.halted := rfl
@[simp] theorem State.holdChain_noIntNext (s : State) (code : BitVec 6) (t : Addr) :
    (s.holdChain code t).noIntNext = s.noIntNext := rfl
@[simp] theorem State.holdChain_parityError (s : State) (code : BitVec 6) (t : Addr) :
    (s.holdChain code t).parityError = s.parityError := rfl
@[simp] theorem State.holdChain_airAlert (s : State) (code : BitVec 6) (t : Addr) :
    (s.holdChain code t).airAlert = s.airAlert := rfl
@[simp] theorem State.holdChain_rtcArmed (s : State) (code : BitVec 6) (t : Addr) :
    (s.holdChain code t).rtcArmed = s.rtcArmed := rfl
@[simp] theorem State.holdChain_dmsSelect (s : State) (code : BitVec 6) (t : Addr) :
    (s.holdChain code t).dmsSelect = s.dmsSelect := rfl
@[simp] theorem State.holdChain_waiting (s : State) (code : BitVec 6) (t : Addr) :
    (s.holdChain code t).waiting = s.waiting := rfl
@[simp] theorem State.holdChain_active (s : State) (code : BitVec 6) (t : Addr) :
    (s.holdChain code t).active = s.active := rfl
@[simp] theorem State.holdChain_armed (s : State) (code : BitVec 6) (t : Addr) :
    (s.holdChain code t).armed = s.armed := rfl
@[simp] theorem State.holdChain_mem (s : State) (code : BitVec 6) (t : Addr) : (s.holdChain code t).mem = s.mem := rfl
@[simp] theorem State.holdChain_lockBlocks (s : State) (code : BitVec 6) (t : Addr) :
    (s.holdChain code t).lockBlocks = s.lockBlocks := rfl
@[simp] theorem State.holdChain_lockSubs (s : State) (code : BitVec 6) (t : Addr) :
    (s.holdChain code t).lockSubs = s.lockSubs := rfl
@[simp] theorem State.holdChain_chans (s : State) (code : BitVec 6) (t : Addr) :
    (s.holdChain code t).chans = s.chans := rfl
@[simp] theorem State.holdChain_console (s : State) (code : BitVec 6) (t : Addr) :
    (s.holdChain code t).console = s.console := rfl
@[simp] theorem State.holdChain_lines (s : State) (code : BitVec 6) (t : Addr) :
    (s.holdChain code t).lines = s.lines := rfl
@[simp] theorem State.holdChain_power (s : State) (code : BitVec 6) (t : Addr) :
    (s.holdChain code t).power = s.power := rfl
@[simp] theorem State.holdChain_out (s : State) (code : BitVec 6) (t : Addr) : (s.holdChain code t).out = s.out := rfl
@[simp] theorem State.holdChain_schedule (s : State) (code : BitVec 6) (t : Addr) :
    (s.holdChain code t).schedule = s.schedule := rfl
@[simp] theorem State.holdChain_draws (s : State) (code : BitVec 6) (t : Addr) :
    (s.holdChain code t).draws = s.draws := rfl
@[simp] theorem State.holdChain_cfg (s : State) (code : BitVec 6) (t : Addr) : (s.holdChain code t).cfg = s.cfg := rfl

/-! ### `showNext` -/

@[simp] theorem State.showNext_a (s : State) : (s.showNext).a = s.a := rfl
@[simp] theorem State.showNext_b (s : State) : (s.showNext).b = s.b := rfl
@[simp] theorem State.showNext_x (s : State) : (s.showNext).x = s.x := rfl
@[simp] theorem State.showNext_p (s : State) : (s.showNext).p = s.p := rfl
@[simp] theorem State.showNext_ov (s : State) : (s.showNext).ov = s.ov := rfl
@[simp] theorem State.showNext_em2 (s : State) : (s.showNext).em2 = s.em2 := rfl
@[simp] theorem State.showNext_em3 (s : State) : (s.showNext).em3 = s.em3 := rfl
@[simp] theorem State.showNext_ien (s : State) : (s.showNext).ien = s.ien := rfl
@[simp] theorem State.showNext_c (s : State) : (s.showNext).c = s.nextWord := rfl
@[simp] theorem State.showNext_m (s : State) : (s.showNext).m = s.m := rfl
@[simp] theorem State.showNext_cState (s : State) : (s.showNext).cState = s.cState := rfl
@[simp] theorem State.showNext_origin (s : State) : (s.showNext).origin = s.origin := rfl
@[simp] theorem State.showNext_ack (s : State) : (s.showNext).ack = s.ack := rfl
@[simp] theorem State.showNext_halted (s : State) : (s.showNext).halted = s.halted := rfl
@[simp] theorem State.showNext_noIntNext (s : State) : (s.showNext).noIntNext = s.noIntNext := rfl
@[simp] theorem State.showNext_parityError (s : State) : (s.showNext).parityError = s.parityError := rfl
@[simp] theorem State.showNext_airAlert (s : State) : (s.showNext).airAlert = s.airAlert := rfl
@[simp] theorem State.showNext_rtcArmed (s : State) : (s.showNext).rtcArmed = s.rtcArmed := rfl
@[simp] theorem State.showNext_dmsSelect (s : State) : (s.showNext).dmsSelect = s.dmsSelect := rfl
@[simp] theorem State.showNext_waiting (s : State) : (s.showNext).waiting = s.waiting := rfl
@[simp] theorem State.showNext_active (s : State) : (s.showNext).active = s.active := rfl
@[simp] theorem State.showNext_armed (s : State) : (s.showNext).armed = s.armed := rfl
@[simp] theorem State.showNext_mem (s : State) : (s.showNext).mem = s.mem := rfl
@[simp] theorem State.showNext_lockBlocks (s : State) : (s.showNext).lockBlocks = s.lockBlocks := rfl
@[simp] theorem State.showNext_lockSubs (s : State) : (s.showNext).lockSubs = s.lockSubs := rfl
@[simp] theorem State.showNext_chans (s : State) : (s.showNext).chans = s.chans := rfl
@[simp] theorem State.showNext_console (s : State) : (s.showNext).console = s.console := rfl
@[simp] theorem State.showNext_lines (s : State) : (s.showNext).lines = s.lines := rfl
@[simp] theorem State.showNext_power (s : State) : (s.showNext).power = s.power := rfl
@[simp] theorem State.showNext_out (s : State) : (s.showNext).out = s.out := rfl
@[simp] theorem State.showNext_schedule (s : State) : (s.showNext).schedule = s.schedule := rfl
@[simp] theorem State.showNext_draws (s : State) : (s.showNext).draws = s.draws := rfl
@[simp] theorem State.showNext_cfg (s : State) : (s.showNext).cfg = s.cfg := rfl

/-! ### `setAB` -/

@[simp] theorem State.setAB_a (s : State) (v : BitVec 48) : (s.setAB v).a = highWord v := rfl
@[simp] theorem State.setAB_b (s : State) (v : BitVec 48) : (s.setAB v).b = lowWord v := rfl
@[simp] theorem State.setAB_x (s : State) (v : BitVec 48) : (s.setAB v).x = s.x := rfl
@[simp] theorem State.setAB_p (s : State) (v : BitVec 48) : (s.setAB v).p = s.p := rfl
@[simp] theorem State.setAB_ov (s : State) (v : BitVec 48) : (s.setAB v).ov = s.ov := rfl
@[simp] theorem State.setAB_em2 (s : State) (v : BitVec 48) : (s.setAB v).em2 = s.em2 := rfl
@[simp] theorem State.setAB_em3 (s : State) (v : BitVec 48) : (s.setAB v).em3 = s.em3 := rfl
@[simp] theorem State.setAB_ien (s : State) (v : BitVec 48) : (s.setAB v).ien = s.ien := rfl
@[simp] theorem State.setAB_c (s : State) (v : BitVec 48) : (s.setAB v).c = s.c := rfl
@[simp] theorem State.setAB_m (s : State) (v : BitVec 48) : (s.setAB v).m = s.m := rfl
@[simp] theorem State.setAB_cState (s : State) (v : BitVec 48) : (s.setAB v).cState = s.cState := rfl
@[simp] theorem State.setAB_origin (s : State) (v : BitVec 48) : (s.setAB v).origin = s.origin := rfl
@[simp] theorem State.setAB_ack (s : State) (v : BitVec 48) : (s.setAB v).ack = s.ack := rfl
@[simp] theorem State.setAB_halted (s : State) (v : BitVec 48) : (s.setAB v).halted = s.halted := rfl
@[simp] theorem State.setAB_noIntNext (s : State) (v : BitVec 48) : (s.setAB v).noIntNext = s.noIntNext := rfl
@[simp] theorem State.setAB_parityError (s : State) (v : BitVec 48) : (s.setAB v).parityError = s.parityError := rfl
@[simp] theorem State.setAB_airAlert (s : State) (v : BitVec 48) : (s.setAB v).airAlert = s.airAlert := rfl
@[simp] theorem State.setAB_rtcArmed (s : State) (v : BitVec 48) : (s.setAB v).rtcArmed = s.rtcArmed := rfl
@[simp] theorem State.setAB_dmsSelect (s : State) (v : BitVec 48) : (s.setAB v).dmsSelect = s.dmsSelect := rfl
@[simp] theorem State.setAB_waiting (s : State) (v : BitVec 48) : (s.setAB v).waiting = s.waiting := rfl
@[simp] theorem State.setAB_active (s : State) (v : BitVec 48) : (s.setAB v).active = s.active := rfl
@[simp] theorem State.setAB_armed (s : State) (v : BitVec 48) : (s.setAB v).armed = s.armed := rfl
@[simp] theorem State.setAB_mem (s : State) (v : BitVec 48) : (s.setAB v).mem = s.mem := rfl
@[simp] theorem State.setAB_lockBlocks (s : State) (v : BitVec 48) : (s.setAB v).lockBlocks = s.lockBlocks := rfl
@[simp] theorem State.setAB_lockSubs (s : State) (v : BitVec 48) : (s.setAB v).lockSubs = s.lockSubs := rfl
@[simp] theorem State.setAB_chans (s : State) (v : BitVec 48) : (s.setAB v).chans = s.chans := rfl
@[simp] theorem State.setAB_console (s : State) (v : BitVec 48) : (s.setAB v).console = s.console := rfl
@[simp] theorem State.setAB_lines (s : State) (v : BitVec 48) : (s.setAB v).lines = s.lines := rfl
@[simp] theorem State.setAB_power (s : State) (v : BitVec 48) : (s.setAB v).power = s.power := rfl
@[simp] theorem State.setAB_out (s : State) (v : BitVec 48) : (s.setAB v).out = s.out := rfl
@[simp] theorem State.setAB_schedule (s : State) (v : BitVec 48) : (s.setAB v).schedule = s.schedule := rfl
@[simp] theorem State.setAB_draws (s : State) (v : BitVec 48) : (s.setAB v).draws = s.draws := rfl
@[simp] theorem State.setAB_cfg (s : State) (v : BitVec 48) : (s.setAB v).cfg = s.cfg := rfl

/-! ### `overflowAB` -/

@[simp] theorem State.overflowAB_a (s : State) : (s.overflowAB).a = Config.freeWord s.draws := rfl
@[simp] theorem State.overflowAB_b (s : State) : (s.overflowAB).b = Config.freeWord (s.draws + 1) := rfl
@[simp] theorem State.overflowAB_x (s : State) : (s.overflowAB).x = s.x := rfl
@[simp] theorem State.overflowAB_p (s : State) : (s.overflowAB).p = s.p := rfl
@[simp] theorem State.overflowAB_ov (s : State) : (s.overflowAB).ov = true := rfl
@[simp] theorem State.overflowAB_em2 (s : State) : (s.overflowAB).em2 = s.em2 := rfl
@[simp] theorem State.overflowAB_em3 (s : State) : (s.overflowAB).em3 = s.em3 := rfl
@[simp] theorem State.overflowAB_ien (s : State) : (s.overflowAB).ien = s.ien := rfl
@[simp] theorem State.overflowAB_c (s : State) : (s.overflowAB).c = s.c := rfl
@[simp] theorem State.overflowAB_m (s : State) : (s.overflowAB).m = s.m := rfl
@[simp] theorem State.overflowAB_cState (s : State) : (s.overflowAB).cState = s.cState := rfl
@[simp] theorem State.overflowAB_origin (s : State) : (s.overflowAB).origin = s.origin := rfl
@[simp] theorem State.overflowAB_ack (s : State) : (s.overflowAB).ack = s.ack := rfl
@[simp] theorem State.overflowAB_halted (s : State) : (s.overflowAB).halted = s.halted := rfl
@[simp] theorem State.overflowAB_noIntNext (s : State) : (s.overflowAB).noIntNext = s.noIntNext := rfl
@[simp] theorem State.overflowAB_parityError (s : State) : (s.overflowAB).parityError = s.parityError := rfl
@[simp] theorem State.overflowAB_airAlert (s : State) : (s.overflowAB).airAlert = s.airAlert := rfl
@[simp] theorem State.overflowAB_rtcArmed (s : State) : (s.overflowAB).rtcArmed = s.rtcArmed := rfl
@[simp] theorem State.overflowAB_dmsSelect (s : State) : (s.overflowAB).dmsSelect = s.dmsSelect := rfl
@[simp] theorem State.overflowAB_waiting (s : State) : (s.overflowAB).waiting = s.waiting := rfl
@[simp] theorem State.overflowAB_active (s : State) : (s.overflowAB).active = s.active := rfl
@[simp] theorem State.overflowAB_armed (s : State) : (s.overflowAB).armed = s.armed := rfl
@[simp] theorem State.overflowAB_mem (s : State) : (s.overflowAB).mem = s.mem := rfl
@[simp] theorem State.overflowAB_lockBlocks (s : State) : (s.overflowAB).lockBlocks = s.lockBlocks := rfl
@[simp] theorem State.overflowAB_lockSubs (s : State) : (s.overflowAB).lockSubs = s.lockSubs := rfl
@[simp] theorem State.overflowAB_chans (s : State) : (s.overflowAB).chans = s.chans := rfl
@[simp] theorem State.overflowAB_console (s : State) : (s.overflowAB).console = s.console := rfl
@[simp] theorem State.overflowAB_lines (s : State) : (s.overflowAB).lines = s.lines := rfl
@[simp] theorem State.overflowAB_power (s : State) : (s.overflowAB).power = s.power := rfl
@[simp] theorem State.overflowAB_out (s : State) : (s.overflowAB).out = s.out := rfl
@[simp] theorem State.overflowAB_schedule (s : State) : (s.overflowAB).schedule = s.schedule := rfl
@[simp] theorem State.overflowAB_draws (s : State) : (s.overflowAB).draws = s.draws + 2 := rfl
@[simp] theorem State.overflowAB_cfg (s : State) : (s.overflowAB).cfg = s.cfg := rfl

/-! ### `addToA` -/

@[simp] theorem State.addToA_a (s : State) (m : Word) (i o : Bool) (f : Bool → Bool) :
    (s.addToA m i o f).a = addSum s.a m i := rfl
@[simp] theorem State.addToA_b (s : State) (m : Word) (i o : Bool) (f : Bool → Bool) :
    (s.addToA m i o f).b = s.b := rfl
@[simp] theorem State.addToA_x (s : State) (m : Word) (i o : Bool) (f : Bool → Bool) :
    (s.addToA m i o f).x = setBit0 s.x (f (addCarry s.a m i)) := rfl
@[simp] theorem State.addToA_p (s : State) (m : Word) (i o : Bool) (f : Bool → Bool) :
    (s.addToA m i o f).p = s.p := rfl
@[simp] theorem State.addToA_ov (s : State) (m : Word) (i o : Bool) (f : Bool → Bool) :
    (s.addToA m i o f).ov = (o || addOverflow s.a m i) := rfl
@[simp] theorem State.addToA_em2 (s : State) (m : Word) (i o : Bool) (f : Bool → Bool) :
    (s.addToA m i o f).em2 = s.em2 := rfl
@[simp] theorem State.addToA_em3 (s : State) (m : Word) (i o : Bool) (f : Bool → Bool) :
    (s.addToA m i o f).em3 = s.em3 := rfl
@[simp] theorem State.addToA_ien (s : State) (m : Word) (i o : Bool) (f : Bool → Bool) :
    (s.addToA m i o f).ien = s.ien := rfl
@[simp] theorem State.addToA_c (s : State) (m : Word) (i o : Bool) (f : Bool → Bool) :
    (s.addToA m i o f).c = s.c := rfl
@[simp] theorem State.addToA_m (s : State) (m : Word) (i o : Bool) (f : Bool → Bool) :
    (s.addToA m i o f).m = s.m := rfl
@[simp] theorem State.addToA_cState (s : State) (m : Word) (i o : Bool) (f : Bool → Bool) :
    (s.addToA m i o f).cState = s.cState := rfl
@[simp] theorem State.addToA_origin (s : State) (m : Word) (i o : Bool) (f : Bool → Bool) :
    (s.addToA m i o f).origin = s.origin := rfl
@[simp] theorem State.addToA_ack (s : State) (m : Word) (i o : Bool) (f : Bool → Bool) :
    (s.addToA m i o f).ack = s.ack := rfl
@[simp] theorem State.addToA_halted (s : State) (m : Word) (i o : Bool) (f : Bool → Bool) :
    (s.addToA m i o f).halted = s.halted := rfl
@[simp] theorem State.addToA_noIntNext (s : State) (m : Word) (i o : Bool) (f : Bool → Bool) :
    (s.addToA m i o f).noIntNext = s.noIntNext := rfl
@[simp] theorem State.addToA_parityError (s : State) (m : Word) (i o : Bool) (f : Bool → Bool) :
    (s.addToA m i o f).parityError = s.parityError := rfl
@[simp] theorem State.addToA_airAlert (s : State) (m : Word) (i o : Bool) (f : Bool → Bool) :
    (s.addToA m i o f).airAlert = s.airAlert := rfl
@[simp] theorem State.addToA_rtcArmed (s : State) (m : Word) (i o : Bool) (f : Bool → Bool) :
    (s.addToA m i o f).rtcArmed = s.rtcArmed := rfl
@[simp] theorem State.addToA_dmsSelect (s : State) (m : Word) (i o : Bool) (f : Bool → Bool) :
    (s.addToA m i o f).dmsSelect = s.dmsSelect := rfl
@[simp] theorem State.addToA_waiting (s : State) (m : Word) (i o : Bool) (f : Bool → Bool) :
    (s.addToA m i o f).waiting = s.waiting := rfl
@[simp] theorem State.addToA_active (s : State) (m : Word) (i o : Bool) (f : Bool → Bool) :
    (s.addToA m i o f).active = s.active := rfl
@[simp] theorem State.addToA_armed (s : State) (m : Word) (i o : Bool) (f : Bool → Bool) :
    (s.addToA m i o f).armed = s.armed := rfl
@[simp] theorem State.addToA_mem (s : State) (m : Word) (i o : Bool) (f : Bool → Bool) :
    (s.addToA m i o f).mem = s.mem := rfl
@[simp] theorem State.addToA_lockBlocks (s : State) (m : Word) (i o : Bool) (f : Bool → Bool) :
    (s.addToA m i o f).lockBlocks = s.lockBlocks := rfl
@[simp] theorem State.addToA_lockSubs (s : State) (m : Word) (i o : Bool) (f : Bool → Bool) :
    (s.addToA m i o f).lockSubs = s.lockSubs := rfl
@[simp] theorem State.addToA_chans (s : State) (m : Word) (i o : Bool) (f : Bool → Bool) :
    (s.addToA m i o f).chans = s.chans := rfl
@[simp] theorem State.addToA_console (s : State) (m : Word) (i o : Bool) (f : Bool → Bool) :
    (s.addToA m i o f).console = s.console := rfl
@[simp] theorem State.addToA_lines (s : State) (m : Word) (i o : Bool) (f : Bool → Bool) :
    (s.addToA m i o f).lines = s.lines := rfl
@[simp] theorem State.addToA_power (s : State) (m : Word) (i o : Bool) (f : Bool → Bool) :
    (s.addToA m i o f).power = s.power := rfl
@[simp] theorem State.addToA_out (s : State) (m : Word) (i o : Bool) (f : Bool → Bool) :
    (s.addToA m i o f).out = s.out := rfl
@[simp] theorem State.addToA_schedule (s : State) (m : Word) (i o : Bool) (f : Bool → Bool) :
    (s.addToA m i o f).schedule = s.schedule := rfl
@[simp] theorem State.addToA_draws (s : State) (m : Word) (i o : Bool) (f : Bool → Bool) :
    (s.addToA m i o f).draws = s.draws := rfl
@[simp] theorem State.addToA_cfg (s : State) (m : Word) (i o : Bool) (f : Bool → Bool) :
    (s.addToA m i o f).cfg = s.cfg := rfl

/-! ### `clockSync` -/

@[simp] theorem State.clockSync_a (s : State) (k : Bool) : (s.clockSync k).a = s.a := rfl
@[simp] theorem State.clockSync_b (s : State) (k : Bool) : (s.clockSync k).b = s.b := rfl
@[simp] theorem State.clockSync_x (s : State) (k : Bool) : (s.clockSync k).x = s.x := rfl
@[simp] theorem State.clockSync_p (s : State) (k : Bool) : (s.clockSync k).p = s.p := rfl
@[simp] theorem State.clockSync_ov (s : State) (k : Bool) : (s.clockSync k).ov = s.ov := rfl
@[simp] theorem State.clockSync_em2 (s : State) (k : Bool) : (s.clockSync k).em2 = s.em2 := rfl
@[simp] theorem State.clockSync_em3 (s : State) (k : Bool) : (s.clockSync k).em3 = s.em3 := rfl
@[simp] theorem State.clockSync_ien (s : State) (k : Bool) : (s.clockSync k).ien = s.ien := rfl
@[simp] theorem State.clockSync_c (s : State) (k : Bool) : (s.clockSync k).c = s.c := rfl
@[simp] theorem State.clockSync_m (s : State) (k : Bool) : (s.clockSync k).m = s.m := rfl
@[simp] theorem State.clockSync_cState (s : State) (k : Bool) : (s.clockSync k).cState = s.cState := rfl
@[simp] theorem State.clockSync_origin (s : State) (k : Bool) : (s.clockSync k).origin = s.origin := rfl
@[simp] theorem State.clockSync_ack (s : State) (k : Bool) : (s.clockSync k).ack = s.ack := rfl
@[simp] theorem State.clockSync_halted (s : State) (k : Bool) : (s.clockSync k).halted = s.halted := rfl
@[simp] theorem State.clockSync_noIntNext (s : State) (k : Bool) : (s.clockSync k).noIntNext = s.noIntNext := rfl
@[simp] theorem State.clockSync_parityError (s : State) (k : Bool) :
    (s.clockSync k).parityError = s.parityError := rfl
@[simp] theorem State.clockSync_airAlert (s : State) (k : Bool) : (s.clockSync k).airAlert = s.airAlert := rfl
@[simp] theorem State.clockSync_rtcArmed (s : State) (k : Bool) : (s.clockSync k).rtcArmed = s.rtcArmed := rfl
@[simp] theorem State.clockSync_dmsSelect (s : State) (k : Bool) : (s.clockSync k).dmsSelect = s.dmsSelect := rfl
@[simp] theorem State.clockSync_active (s : State) (k : Bool) : (s.clockSync k).active = s.active := rfl
@[simp] theorem State.clockSync_armed (s : State) (k : Bool) : (s.clockSync k).armed = s.armed := rfl
@[simp] theorem State.clockSync_mem (s : State) (k : Bool) : (s.clockSync k).mem = s.mem := rfl
@[simp] theorem State.clockSync_lockBlocks (s : State) (k : Bool) : (s.clockSync k).lockBlocks = s.lockBlocks := rfl
@[simp] theorem State.clockSync_lockSubs (s : State) (k : Bool) : (s.clockSync k).lockSubs = s.lockSubs := rfl
@[simp] theorem State.clockSync_chans (s : State) (k : Bool) : (s.clockSync k).chans = s.chans := rfl
@[simp] theorem State.clockSync_console (s : State) (k : Bool) : (s.clockSync k).console = s.console := rfl
@[simp] theorem State.clockSync_lines (s : State) (k : Bool) : (s.clockSync k).lines = s.lines := rfl
@[simp] theorem State.clockSync_power (s : State) (k : Bool) : (s.clockSync k).power = s.power := rfl
@[simp] theorem State.clockSync_out (s : State) (k : Bool) : (s.clockSync k).out = s.out := rfl
@[simp] theorem State.clockSync_schedule (s : State) (k : Bool) : (s.clockSync k).schedule = s.schedule := rfl
@[simp] theorem State.clockSync_draws (s : State) (k : Bool) : (s.clockSync k).draws = s.draws := rfl
@[simp] theorem State.clockSync_cfg (s : State) (k : Bool) : (s.clockSync k).cfg = s.cfg := rfl

/-! ### `chanInt` -/

@[simp] theorem State.chanInt_a (s : State) (ch : ChannelId) (k : Signal) : (s.chanInt ch k).a = s.a := rfl
@[simp] theorem State.chanInt_b (s : State) (ch : ChannelId) (k : Signal) : (s.chanInt ch k).b = s.b := rfl
@[simp] theorem State.chanInt_x (s : State) (ch : ChannelId) (k : Signal) : (s.chanInt ch k).x = s.x := rfl
@[simp] theorem State.chanInt_p (s : State) (ch : ChannelId) (k : Signal) : (s.chanInt ch k).p = s.p := rfl
@[simp] theorem State.chanInt_ov (s : State) (ch : ChannelId) (k : Signal) : (s.chanInt ch k).ov = s.ov := rfl
@[simp] theorem State.chanInt_em2 (s : State) (ch : ChannelId) (k : Signal) : (s.chanInt ch k).em2 = s.em2 := rfl
@[simp] theorem State.chanInt_em3 (s : State) (ch : ChannelId) (k : Signal) : (s.chanInt ch k).em3 = s.em3 := rfl
@[simp] theorem State.chanInt_ien (s : State) (ch : ChannelId) (k : Signal) : (s.chanInt ch k).ien = s.ien := rfl
@[simp] theorem State.chanInt_c (s : State) (ch : ChannelId) (k : Signal) : (s.chanInt ch k).c = s.c := rfl
@[simp] theorem State.chanInt_m (s : State) (ch : ChannelId) (k : Signal) : (s.chanInt ch k).m = s.m := rfl
@[simp] theorem State.chanInt_cState (s : State) (ch : ChannelId) (k : Signal) :
    (s.chanInt ch k).cState = s.cState := rfl
@[simp] theorem State.chanInt_origin (s : State) (ch : ChannelId) (k : Signal) :
    (s.chanInt ch k).origin = s.origin := rfl
@[simp] theorem State.chanInt_ack (s : State) (ch : ChannelId) (k : Signal) : (s.chanInt ch k).ack = s.ack := rfl
@[simp] theorem State.chanInt_halted (s : State) (ch : ChannelId) (k : Signal) :
    (s.chanInt ch k).halted = s.halted := rfl
@[simp] theorem State.chanInt_noIntNext (s : State) (ch : ChannelId) (k : Signal) :
    (s.chanInt ch k).noIntNext = s.noIntNext := rfl
@[simp] theorem State.chanInt_parityError (s : State) (ch : ChannelId) (k : Signal) :
    (s.chanInt ch k).parityError = s.parityError := rfl
@[simp] theorem State.chanInt_airAlert (s : State) (ch : ChannelId) (k : Signal) :
    (s.chanInt ch k).airAlert = s.airAlert := rfl
@[simp] theorem State.chanInt_rtcArmed (s : State) (ch : ChannelId) (k : Signal) :
    (s.chanInt ch k).rtcArmed = s.rtcArmed := rfl
@[simp] theorem State.chanInt_dmsSelect (s : State) (ch : ChannelId) (k : Signal) :
    (s.chanInt ch k).dmsSelect = s.dmsSelect := rfl
@[simp] theorem State.chanInt_active (s : State) (ch : ChannelId) (k : Signal) :
    (s.chanInt ch k).active = s.active := rfl
@[simp] theorem State.chanInt_armed (s : State) (ch : ChannelId) (k : Signal) :
    (s.chanInt ch k).armed = s.armed := rfl
@[simp] theorem State.chanInt_mem (s : State) (ch : ChannelId) (k : Signal) : (s.chanInt ch k).mem = s.mem := rfl
@[simp] theorem State.chanInt_lockBlocks (s : State) (ch : ChannelId) (k : Signal) :
    (s.chanInt ch k).lockBlocks = s.lockBlocks := rfl
@[simp] theorem State.chanInt_lockSubs (s : State) (ch : ChannelId) (k : Signal) :
    (s.chanInt ch k).lockSubs = s.lockSubs := rfl
@[simp] theorem State.chanInt_chans (s : State) (ch : ChannelId) (k : Signal) :
    (s.chanInt ch k).chans = s.chans := rfl
@[simp] theorem State.chanInt_console (s : State) (ch : ChannelId) (k : Signal) :
    (s.chanInt ch k).console = s.console := rfl
@[simp] theorem State.chanInt_lines (s : State) (ch : ChannelId) (k : Signal) :
    (s.chanInt ch k).lines = s.lines := rfl
@[simp] theorem State.chanInt_power (s : State) (ch : ChannelId) (k : Signal) :
    (s.chanInt ch k).power = s.power := rfl
@[simp] theorem State.chanInt_out (s : State) (ch : ChannelId) (k : Signal) : (s.chanInt ch k).out = s.out := rfl
@[simp] theorem State.chanInt_schedule (s : State) (ch : ChannelId) (k : Signal) :
    (s.chanInt ch k).schedule = s.schedule := rfl
@[simp] theorem State.chanInt_draws (s : State) (ch : ChannelId) (k : Signal) :
    (s.chanInt ch k).draws = s.draws := rfl
@[simp] theorem State.chanInt_cfg (s : State) (ch : ChannelId) (k : Signal) : (s.chanInt ch k).cfg = s.cfg := rfl

/-! ### `unalerted` -/

@[simp] theorem State.unalerted_a (s : State) : (s.unalerted).a = s.a := rfl
@[simp] theorem State.unalerted_b (s : State) : (s.unalerted).b = s.b := rfl
@[simp] theorem State.unalerted_x (s : State) : (s.unalerted).x = s.x := rfl
@[simp] theorem State.unalerted_p (s : State) : (s.unalerted).p = s.p := rfl
@[simp] theorem State.unalerted_ov (s : State) : (s.unalerted).ov = s.ov := rfl
@[simp] theorem State.unalerted_em2 (s : State) : (s.unalerted).em2 = s.em2 := rfl
@[simp] theorem State.unalerted_em3 (s : State) : (s.unalerted).em3 = s.em3 := rfl
@[simp] theorem State.unalerted_ien (s : State) : (s.unalerted).ien = s.ien := rfl
@[simp] theorem State.unalerted_c (s : State) : (s.unalerted).c = s.c := rfl
@[simp] theorem State.unalerted_m (s : State) : (s.unalerted).m = s.m := rfl
@[simp] theorem State.unalerted_cState (s : State) : (s.unalerted).cState = s.cState := rfl
@[simp] theorem State.unalerted_origin (s : State) : (s.unalerted).origin = s.origin := rfl
@[simp] theorem State.unalerted_ack (s : State) : (s.unalerted).ack = s.ack := rfl
@[simp] theorem State.unalerted_halted (s : State) : (s.unalerted).halted = s.halted := rfl
@[simp] theorem State.unalerted_noIntNext (s : State) : (s.unalerted).noIntNext = false := rfl
@[simp] theorem State.unalerted_parityError (s : State) : (s.unalerted).parityError = s.parityError := rfl
@[simp] theorem State.unalerted_airAlert (s : State) : (s.unalerted).airAlert = false := rfl
@[simp] theorem State.unalerted_rtcArmed (s : State) : (s.unalerted).rtcArmed = s.rtcArmed := rfl
@[simp] theorem State.unalerted_dmsSelect (s : State) : (s.unalerted).dmsSelect = none := rfl
@[simp] theorem State.unalerted_waiting (s : State) : (s.unalerted).waiting = s.waiting := rfl
@[simp] theorem State.unalerted_active (s : State) : (s.unalerted).active = s.active := rfl
@[simp] theorem State.unalerted_armed (s : State) : (s.unalerted).armed = s.armed := rfl
@[simp] theorem State.unalerted_mem (s : State) : (s.unalerted).mem = s.mem := rfl
@[simp] theorem State.unalerted_lockBlocks (s : State) : (s.unalerted).lockBlocks = s.lockBlocks := rfl
@[simp] theorem State.unalerted_lockSubs (s : State) : (s.unalerted).lockSubs = s.lockSubs := rfl
@[simp] theorem State.unalerted_chans (s : State) : (s.unalerted).chans = s.chans.unalerted := rfl
@[simp] theorem State.unalerted_console (s : State) : (s.unalerted).console = s.console := rfl
@[simp] theorem State.unalerted_lines (s : State) : (s.unalerted).lines = s.lines := rfl
@[simp] theorem State.unalerted_power (s : State) : (s.unalerted).power = s.power := rfl
@[simp] theorem State.unalerted_out (s : State) : (s.unalerted).out = s.out := rfl
@[simp] theorem State.unalerted_schedule (s : State) : (s.unalerted).schedule = s.schedule := rfl
@[simp] theorem State.unalerted_draws (s : State) : (s.unalerted).draws = s.draws := rfl
@[simp] theorem State.unalerted_cfg (s : State) : (s.unalerted).cfg = s.cfg := rfl

/-! ### Channels -/

@[simp] theorem Channels.get_set_self (t : Channels) (ch : ChannelId) (v : Chan) : (t.set ch v).get ch = v := by
  cases ch <;> rfl

theorem Channels.get_set_ne (t : Channels) {ch k : ChannelId} (v : Chan) (h : k ≠ ch) :
    (t.set ch v).get k = t.get k := by
  cases ch <;> cases k <;> first | rfl | exact absurd rfl h

theorem Channels.get_set (t : Channels) (ch k : ChannelId) (v : Chan) :
    (t.set ch v).get k = if k = ch then v else t.get k := by
  split
  · rename_i h; subst h; exact Channels.get_set_self t k v
  · rename_i h; exact Channels.get_set_ne t v h

@[simp] theorem Channels.set_set (t : Channels) (ch : ChannelId) (v w : Chan) :
    (t.set ch v).set ch w = t.set ch w := by
  cases ch <;> rfl

@[simp] theorem Channels.set_get (t : Channels) (ch : ChannelId) : t.set ch (t.get ch) = t := by
  cases ch <;> rfl

@[simp] theorem State.chan_setChan_self (s : State) (ch : ChannelId) (v : Chan) : (s.setChan ch v).chan ch = v :=
  Channels.get_set_self s.chans ch v

theorem State.chan_setChan (s : State) (ch k : ChannelId) (v : Chan) :
    (s.setChan ch v).chan k = if k = ch then v else s.chan k := Channels.get_set s.chans ch k v

/-- A channel of which only the alerts and a load due are taken back. -/
theorem Channels.get_unalerted (t : Channels) (ch : ChannelId) : t.unalerted.get ch = (t.get ch).unalerted := by
  cases ch <;> rfl

@[simp] theorem State.unalerted_chan (s : State) (ch : ChannelId) : s.unalerted.chan ch = (s.chan ch).unalerted :=
  Channels.get_unalerted s.chans ch

@[simp] theorem State.send_chan (s : State) (m : Message) (k : ChannelId) : (s.send m).chan k = s.chan k := rfl
@[simp] theorem State.chanInt_chan (s : State) (ch : ChannelId) (g : Signal) (k : ChannelId) :
    (s.chanInt ch g).chan k = s.chan k := rfl
@[simp] theorem State.store_chan (s : State) (d : PAddr) (v : Word) (k : ChannelId) :
    (s.store d v).chan k = s.chan k := rfl
@[simp] theorem State.draw_chan (s : State) (n : Nat) (k : ChannelId) : (s.draw n).chan k = s.chan k := rfl
@[simp] theorem State.endEom_chan (s : State) (k : ChannelId) : s.endEom.chan k = s.chan k := rfl
@[simp] theorem State.sequential_chan (s : State) (k : ChannelId) : s.sequential.chan k = s.chan k := rfl

end Sys2Proof.Machine
end

