-- ==== Sys2Proof/Laws/Ops.lean ====
section
/-! SUPPORT. What each shared operation does, said once. -/

namespace Sys2Proof.Machine

open Sys2Proof

/-! ### Reads and stores -/

/-- A read depends on memory and the installation only. -/
theorem memRead_congr {s t : State} (hm : t.mem = s.mem) (hc : t.cfg = s.cfg) (k : PAddr) :
    t.memRead k = s.memRead k := by
  simp only [State.memRead, hm, hc]

theorem memRead_storedMem_ne (s : State) (a : PAddr) (v : Word) {k : PAddr} (h : k ≠ a) :
    State.memRead { s with mem := s.storedMem a v } k = s.memRead k := by
  have hk : k.toNat ≠ a.toNat := fun e => h (BitVec.eq_of_toNat_eq e)
  simp only [State.memRead, State.storedMem]
  split
  · split
    · exact memGet_memSet_ne _ _ hk
    · rfl
  · rfl

theorem memRead_storedMem_self (s : State) (a : PAddr) (v : Word) :
    State.memRead { s with mem := s.storedMem a v } a = if s.writable a then v else s.memRead a := by
  simp only [State.memRead, State.storedMem, State.writable, Bool.and_eq_true, decide_eq_true_eq]
  by_cases h : a.toNat < s.cfg.memWords
  · simp only [h, if_true, true_and]
    split
    · exact memGet_memSet_self _ _ _
    · rfl
  · simp [h]

/-- `MemWrite` does what the terms of Safety.lean say of it. -/
theorem store_stored (s : State) (a : PAddr) (v : Word) : Stored s (s.storedMem a v) (s.storedWaiting a) a v :=
  ⟨fun _ h => memRead_storedMem_ne s a v h, memRead_storedMem_self s a v, rfl⟩

theorem store_memRead_ne (s : State) (a : PAddr) (v : Word) {k : PAddr} (h : k ≠ a) :
    (s.store a v).memRead k = s.memRead k := memRead_storedMem_ne s a v h

theorem store_memRead_self (s : State) (a : PAddr) (v : Word) :
    (s.store a v).memRead a = if s.writable a then v else s.memRead a := memRead_storedMem_self s a v

/-- A protected word is never altered by a store. -/
theorem store_memRead_lockedOut (s : State) (a k : PAddr) (v : Word) (h : s.lockedOut k = true) :
    (s.store a v).memRead k = s.memRead k := by
  by_cases e : k = a
  · subst e
    rw [store_memRead_self, if_neg]
    simp only [State.lockedOut, Bool.and_eq_true] at h
    simp [State.writable, h.1.2, h.2]
  · exact store_memRead_ne s a v e

/-- A store where no memory is installed changes nothing. -/
theorem store_absent (s : State) (a : PAddr) (v : Word) (h : s.cfg.memWords ≤ a.toNat) : s.store a v = s := by
  have h' : ¬ a.toNat < s.cfg.memWords := by omega
  simp [State.store, State.storedMem, State.storedWaiting, State.writable, State.lockedOut, h']

/-! ### Operand forms -/

theorem atEA_addr {s : State} {code : BitVec 6} {r : Ref} {t : Addr} (k : Addr → Result) (h : s.ea r = .addr t) :
    s.atEA code r k = k t := by
  simp [State.atEA, h]

theorem atEA_endless {s : State} {code : BitVec 6} {r : Ref} {t : Addr} (k : Addr → Result)
    (h : s.ea r = .endless t) : s.atEA code r k = .next (s.holdChain code t) := by
  simp [State.atEA, h]

theorem withOperand_addr {s : State} {code : BitVec 6} {r : Ref} {t : Addr} (k : Word → State)
    (h : s.ea r = .addr t) : s.withOperand code r k = .next (k (s.read t)) := by
  simp [State.withOperand, atEA_addr _ h]

theorem withOperand_endless {s : State} {code : BitVec 6} {r : Ref} {t : Addr} (k : Word → State)
    (h : s.ea r = .endless t) : s.withOperand code r k = .next (s.holdChain code t) := by
  simp [State.withOperand, atEA_endless _ h]

theorem atShiftEA_addr {s : State} {code : BitVec 6} {r : Ref} {t : Addr} (k : Addr → Result)
    (h : s.shiftEA r = .addr t) : s.atShiftEA code r k = k t := by
  simp [State.atShiftEA, h]

theorem atShiftEA_endless {s : State} {code : BitVec 6} {r : Ref} {t : Addr} (k : Addr → Result)
    (h : s.shiftEA r = .endless t) : s.atShiftEA code r k = .next (s.holdChain code t) := by
  simp [State.atShiftEA, h]

/-- A form with an effective address answers its own result or holds in an endless chain. -/
theorem atEA_cases (s : State) (code : BitVec 6) (r : Ref) (k : Addr → Result) :
    (∃ t, s.ea r = .addr t ∧ s.atEA code r k = k t) ∨
      (∃ t, s.ea r = .endless t ∧ s.atEA code r k = .next (s.holdChain code t)) := by
  cases h : s.ea r with
  | addr t => exact .inl ⟨t, rfl, atEA_addr k h⟩
  | endless t => exact .inr ⟨t, rfl, atEA_endless k h⟩

theorem atShiftEA_cases (s : State) (code : BitVec 6) (r : Ref) (k : Addr → Result) :
    (∃ t, s.shiftEA r = .addr t ∧ s.atShiftEA code r k = k t) ∨
      (∃ t, s.shiftEA r = .endless t ∧ s.atShiftEA code r k = .next (s.holdChain code t)) := by
  cases h : s.shiftEA r with
  | addr t => exact .inl ⟨t, rfl, atShiftEA_addr k h⟩
  | endless t => exact .inr ⟨t, rfl, atShiftEA_endless k h⟩

/-! ### P after an instruction -/

theorem advanced_sequence {s : State} (n : Addr) (h : s.origin = .sequence) (hh : s.console.hold = false) :
    s.advanced n = s.p + n := by
  simp [State.advanced, h, hh]

theorem advanced_interrupt {s : State} {l : Nat} (n : Addr) (h : s.origin = .interrupt l) : s.advanced n = s.p := by
  simp [State.advanced, h]

end Sys2Proof.Machine
end

