-- ==== Sys2Proof/Laws/Address.lean ====
section
/-! SUPPORT. Laws of effective addresses. -/

namespace Sys2Proof.Machine

open Sys2Proof

theorem eaLevels_direct (s : State) (n : Nat) (indexed : Bool) (a : Addr) :
    s.eaLevels n indexed false a = .addr (s.indexedAddr indexed a) := by
  unfold State.eaLevels; simp

theorem eaLevels_zero (s : State) (indexed : Bool) (a : Addr) :
    s.eaLevels 0 indexed true a = .endless (s.indexedAddr indexed a) := by
  unfold State.eaLevels; simp

theorem eaLevels_succ (s : State) (n : Nat) (indexed : Bool) (a : Addr) :
    s.eaLevels (n + 1) indexed true a =
      s.eaLevels n (bit (s.read (s.indexedAddr indexed a)) 1) (bit (s.read (s.indexedAddr indexed a)) 9)
        (addrField (s.read (s.indexedAddr indexed a))) := by
  rw [State.eaLevels]; simp

/-- A direct address needs no memory. -/
theorem ea_direct {s : State} {r : Ref} (h : r.indirect = false) :
    s.ea r = .addr (s.indexedAddr r.indexed r.addr) := by
  rw [State.ea, h]; exact eaLevels_direct s _ _ _

theorem chainBound_succ : chainBound = 16383 + 1 := rfl

/-- An indirect address is that of the word it names. -/
theorem ea_indirect_once {s : State} {r : Ref} (h : r.indirect = true)
    (hw : bit (s.read (s.indexedAddr r.indexed r.addr)) 9 = false) :
    s.ea r = .addr (s.indexedAddr (bit (s.read (s.indexedAddr r.indexed r.addr)) 1)
      (addrField (s.read (s.indexedAddr r.indexed r.addr)))) := by
  rw [State.ea, h, chainBound_succ, eaLevels_succ, hw]; exact eaLevels_direct s _ _ _

theorem ea_endless_indirect {s : State} {r : Ref} {t : Addr} (h : s.ea r = .endless t) : r.indirect = true := by
  cases hi : r.indirect
  · rw [ea_direct hi] at h; cases h
  · rfl

theorem shiftEA_endless {s : State} {r : Ref} {t : Addr} (h : s.ea r = .endless t) : s.shiftEA r = .endless t := by
  rw [State.shiftEA, if_pos (ea_endless_indirect h), h]

/-- Address decoding reads memory, X and the extension registers only. -/
theorem eaLevels_congr {s t : State} (hm : t.mem = s.mem) (hc : t.cfg = s.cfg) (hx : t.x = s.x) (h2 : t.em2 = s.em2)
    (h3 : t.em3 = s.em3) (n : Nat) : ∀ (indexed indirect : Bool) (a : Addr),
      t.eaLevels n indexed indirect a = s.eaLevels n indexed indirect a := by
  have hi : ∀ x a, t.indexedAddr x a = s.indexedAddr x a := fun x a => by simp [State.indexedAddr, hx]
  have hr : ∀ e, t.read e = s.read e := fun e => by
    have hp : t.phys e = s.phys e := by unfold State.phys; rw [hc, h2, h3]
    rw [State.read, hp]; exact memRead_congr hm hc _
  induction n with
  | zero =>
    intro x i a
    cases i
    · rw [eaLevels_direct, eaLevels_direct, hi]
    · rw [eaLevels_zero, eaLevels_zero, hi]
  | succ n ih =>
    intro x i a
    cases i
    · rw [eaLevels_direct, eaLevels_direct, hi]
    · rw [eaLevels_succ, eaLevels_succ, hi, hr, ih]

end Sys2Proof.Machine
end

