-- ==== Sys2Proof/Laws/Flags.lean ====
section
/-! SUPPORT. Laws of the bit fields, and of the adder's sum, carry and overflow. -/

namespace Sys2Proof.Machine

open Sys2Proof

/-! ### Fields -/

theorem bit_setBit0_zero (w : Word) (b : Bool) : bit (setBit0 w b) 0 = b :=
  (BitVec.getMsbD_append (x := BitVec.ofBool b) (y := w.setWidth 23) (i := 0)).trans (by simp)

theorem bit_setBit0_pos (w : Word) (b : Bool) {k : Nat} (h : 0 < k) : bit (setBit0 w b) k = bit w k := by
  refine (BitVec.getMsbD_append (x := BitVec.ofBool b) (y := w.setWidth 23) (i := k)).trans ?_
  rw [if_pos (by omega), BitVec.getMsbD_setWidth]
  simp only [bit]
  rw [show k - 1 + 24 - 23 = k by omega]
  simp

theorem addrField_setAddrField (w : Word) (a : Addr) : addrField (setAddrField w a) = a :=
  (BitVec.setWidth_append (x := w.extractLsb' 14 10) (y := a) (k := 14)).trans (by simp)

theorem bit_setAddrField (w : Word) (a : Addr) {k : Nat} (h : k < 10) : bit (setAddrField w a) k = bit w k := by
  refine (BitVec.getMsbD_append (x := w.extractLsb' 14 10) (y := a) (i := k)).trans ?_
  rw [if_neg (by omega)]
  simp only [bit, BitVec.getMsbD_eq_getLsbD, BitVec.getLsbD_extractLsb']
  rw [show 14 + (10 - 1 - k) = 24 - 1 - k by omega]
  simp [h, show k < 24 by omega]; omega

theorem low9_setLow9 (w : Word) (e : BitVec 9) : low9 (setLow9 w e) = e :=
  (BitVec.setWidth_append (x := w.extractLsb' 9 15) (y := e) (k := 9)).trans (by simp)

theorem bit_setLow9 (w : Word) (e : BitVec 9) {k : Nat} (h : k < 15) : bit (setLow9 w e) k = bit w k := by
  refine (BitVec.getMsbD_append (x := w.extractLsb' 9 15) (y := e) (i := k)).trans ?_
  rw [if_neg (by omega)]
  simp only [bit, BitVec.getMsbD_eq_getLsbD, BitVec.getLsbD_extractLsb']
  rw [show 9 + (15 - 1 - k) = 24 - 1 - k by omega]
  simp [h, show k < 24 by omega]; omega

theorem toInt_sext9 (e : BitVec 9) : (sext9 e).toInt = e.toInt := by
  simp only [sext9]; exact BitVec.toInt_signExtend_of_le (by omega)

theorem bit_and (v w : Word) (k : Nat) : bit (v &&& w) k = (bit v k && bit w k) := by simp [bit]
theorem bit_or (v w : Word) (k : Nat) : bit (v ||| w) k = (bit v k || bit w k) := by simp [bit]
theorem bit_xor (v w : Word) (k : Nat) : bit (v ^^^ w) k = (bit v k ^^ bit w k) := by simp [bit]

/-- A word is zero where every bit of it is. -/
theorem eq_zero_iff_bit (w : Word) : w = 0 ↔ ∀ k, bit w k = false := by
  constructor
  · rintro rfl k; simp [bit]
  · intro h
    refine BitVec.eq_of_getMsbD_eq fun i _ => ?_
    simpa [bit] using h i

/-- The sign of a word is its bit 0. -/
theorem bit_zero (w : Word) : bit w 0 = w.msb := by simp [bit, BitVec.msb]

/-- A word put together of two fields, as a number. -/
theorem append_toNat {n m : Nat} (x : BitVec n) (y : BitVec m) : (x ++ y).toNat = x.toNat * 2 ^ m + y.toNat := by
  rw [BitVec.toNat_append, ← Nat.shiftLeft_add_eq_or_of_lt y.isLt, Nat.shiftLeft_eq]

/-- Bit `k` of a word, from its number. -/
theorem bit_eq_decide (w : Word) {k : Nat} (h : k < 24) : bit w k = decide (w.toNat / 2 ^ (23 - k) % 2 = 1) := by
  have : bit w k = w.toNat.testBit (23 - k) := by
    simp [bit, BitVec.getMsbD_eq_getLsbD, h, BitVec.getLsbD]
  rw [this, Nat.testBit_eq_decide_div_mod_eq]

/-! ### The adder -/

theorem addSum_toNat (a m : Word) (c : Bool) : (addSum a m c).toNat = (a.toNat + m.toNat + c.toNat) % 2 ^ 24 := by
  cases c <;> simp [addSum, BitVec.toNat_add]

theorem addCarry_iff (a m : Word) (c : Bool) : addCarry a m c = true ↔ 2 ^ 24 ≤ a.toNat + m.toNat + c.toNat := by
  simp [addCarry]

/-- Overflow is a signed sum out of range. -/
theorem addOverflow_iff (a m : Word) (c : Bool) :
    addOverflow a m c = true ↔
      ¬ (-2 ^ 23 ≤ a.toInt + m.toInt + c.toNat ∧ a.toInt + m.toInt + c.toNat < 2 ^ 23) := by
  have ha := a.isLt
  have hm := m.isLt
  have hs := addSum_toNat a m c
  simp only [addOverflow, Bool.and_eq_true, beq_iff_eq, bne_iff_ne, ne_eq, BitVec.msb_eq_decide,
    BitVec.toInt_eq_toNat_cond, hs]
  have hc : c.toNat ≤ 1 := by cases c <;> simp
  generalize c.toNat = n at *
  generalize a.toNat = x at *
  generalize m.toNat = y at *
  split <;> split <;> simp only [decide_eq_decide] <;> omega

/-- The complement of a word, as a number. -/
theorem not_toNat (m : Word) : (~~~m).toNat = 2 ^ 24 - 1 - m.toNat := by simp [BitVec.toNat_not]

theorem not_toInt (m : Word) : (~~~m).toInt = -1 - m.toInt := by
  have hm := m.isLt
  simp only [BitVec.toInt_eq_toNat_cond, not_toNat]
  split <;> split <;> omega

end Sys2Proof.Machine
end

