-- ==== Sys2Proof/Laws/Arithmetic.lean ====
section
/-! SUPPORT. What the adder, the product, the quotient and the shifts leave. -/

namespace Sys2Proof.Machine

open Sys2Proof

/-- Everything an addition to A does. -/
theorem addToA_spec (s : State) (m : Word) (c ov : Bool) (carryOut : Bool → Bool) :
    ∃ a x o, s.addToA m c ov carryOut = { s with a := a, x := x, ov := o } ∧
      a.toNat = (s.a.toNat + m.toNat + c.toNat) % 2 ^ 24 ∧
      bit x 0 = carryOut (decide (2 ^ 24 ≤ s.a.toNat + m.toNat + c.toNat)) ∧
      (∀ k, 0 < k → bit x k = bit s.x k) ∧
      (o = true ↔ ov = true ∨
        ¬ (-2 ^ 23 ≤ s.a.toInt + m.toInt + c.toNat ∧ s.a.toInt + m.toInt + c.toNat < 2 ^ 23)) := by
  refine ⟨_, _, _, rfl, addSum_toNat _ _ _, bit_setBit0_zero _ _, fun k hk => bit_setBit0_pos _ _ hk, ?_⟩
  rw [Bool.or_eq_true, addOverflow_iff]

/-! ### Double length -/

theorem joinAB_toNat (a b : Word) : (joinAB a b).toNat = a.toNat * 2 ^ 24 + b.toNat := by
  refine (BitVec.toNat_append a b).trans ?_
  rw [← Nat.shiftLeft_add_eq_or_of_lt b.isLt, Nat.shiftLeft_eq]

theorem highWord_toNat (v : BitVec 48) : (highWord v).toNat = v.toNat / 2 ^ 24 := by
  have := v.isLt
  simp [highWord, Nat.shiftRight_eq_div_pow]; omega

theorem lowWord_toNat (v : BitVec 48) : (lowWord v).toNat = v.toNat % 2 ^ 24 := by simp [lowWord]

/-- A double-length value is the pair of its halves. -/
theorem joinAB_halves (v : BitVec 48) : joinAB (highWord v) (lowWord v) = v := by
  refine BitVec.eq_of_toNat_eq ?_
  rw [joinAB_toNat, highWord_toNat, lowWord_toNat]; omega

theorem wordOfInt_toInt {z : Int} (h : -2 ^ 23 ≤ z) (h' : z < 2 ^ 23) : (wordOfInt z).toInt = z := by
  simp only [wordOfInt, BitVec.toInt_ofInt, Int.bmod_def]; omega

theorem toInt_range (w : Word) : -2 ^ 23 ≤ w.toInt ∧ w.toInt < 2 ^ 23 := by
  have h1 := BitVec.le_toInt w
  have h2 := BitVec.toInt_lt (x := w)
  simp at h1 h2; omega

/-- The product of two words, twice, fits 48 bits but for one pair. -/
theorem mulProduct_toInt {a m : Word} (h : mulOverflows a m = false) :
    (mulProduct a m).toInt = 2 * (a.toInt * m.toInt) := by
  have ha := toInt_range a
  have hm := toInt_range m
  have hne : ¬ (a.toInt = -2 ^ 23 ∧ m.toInt = -2 ^ 23) := by
    rintro ⟨h1, h2⟩
    have e : (0o40000000 : Word).toInt = -2 ^ 23 := by decide
    have e1 : a = 0o40000000 := BitVec.eq_of_toInt_eq (h1.trans e.symm)
    have e2 : m = 0o40000000 := BitVec.eq_of_toInt_eq (h2.trans e.symm)
    simp [mulOverflows, e1, e2] at h
  have hlt : a.toInt * m.toInt < 2 ^ 46 ∧ -2 ^ 46 ≤ a.toInt * m.toInt := by
    generalize a.toInt = x at *
    generalize m.toInt = y at *
    constructor
    · rcases lt_or_ge x 0 with hx | hx <;> rcases lt_or_ge y 0 with hy | hy
      · rcases eq_or_lt_of_le ha.1 with h1 | h1
        · have : y ≠ -2 ^ 23 := fun h2 => hne ⟨h1.symm, h2⟩
          have : -2 ^ 23 < y := lt_of_le_of_ne hm.1 (Ne.symm this)
          nlinarith
        · nlinarith
      · nlinarith
      · nlinarith
      · nlinarith
    · nlinarith
  simp only [mulProduct, BitVec.toInt_ofInt, Int.bmod_def]; omega

/-- The quotient and the remainder of DIV. -/
theorem div_spec {n d : Int} (h : divOverflows n d = false) :
    n = divQuotient n d * d + divRemainder n d ∧ (divRemainder n d).natAbs < d.natAbs ∧
      (0 ≤ n → 0 ≤ divRemainder n d) ∧ (n ≤ 0 → divRemainder n d ≤ 0) ∧ -2 ^ 23 ≤ divQuotient n d ∧
      divQuotient n d < 2 ^ 23 := by
  have hd : d ≠ 0 := by rintro rfl; simp [divOverflows] at h
  have hr : divRemainder n d = n.tmod d := by
    have := Int.mul_tdiv_add_tmod n d
    simp only [divRemainder, divQuotient]; linarith [mul_comm d (n.tdiv d)]
  refine ⟨by simp [divRemainder], ?_, fun hn => ?_, fun hn => ?_, ?_, ?_⟩
  · rw [hr, Int.natAbs_tmod]; exact Nat.mod_lt _ (Int.natAbs_pos.2 hd)
  · rw [hr]; exact Int.tmod_nonneg d hn
  · rw [hr]; have := Int.tmod_nonneg d (a := -n) (by omega); rw [Int.neg_tmod] at this; omega
  all_goals
    have hq := Int.mul_tdiv_add_tmod n d
    have hm : (n.tmod d).natAbs < d.natAbs := by
      rw [Int.natAbs_tmod]; exact Nat.mod_lt _ (Int.natAbs_pos.2 hd)
    have hs : 0 ≤ n → 0 ≤ n.tmod d := fun hn => Int.tmod_nonneg d hn
    have hs' : n ≤ 0 → n.tmod d ≤ 0 := fun hn => by
      have := Int.tmod_nonneg d (a := -n) (by omega)
      rw [Int.neg_tmod] at this; omega
    simp only [divOverflows, hd, if_false] at h
    simp only [divQuotient]
    generalize n.tdiv d = q at *
    generalize n.tmod d = e at *
    by_contra hc
    split at h
    · simp at h
      have h1 : -d < e ∧ e < d := by omega
      first
      | have h2 : d * q ≤ d * (-2 ^ 23 - 1) := mul_le_mul_of_nonneg_left (by omega) (by omega)
        omega
      | have h2 : d * 2 ^ 23 ≤ d * q := mul_le_mul_of_nonneg_left (by omega) (by omega)
        omega
    · simp at h
      have h1 : d < e ∧ e < -d := by omega
      first
      | have h2 : d * (-2 ^ 23 - 1) ≤ d * q := mul_le_mul_of_nonpos_left (by omega) (by omega)
        omega
      | have h2 : d * q ≤ d * 2 ^ 23 := mul_le_mul_of_nonpos_left (by omega) (by omega)
        omega

/-! ### Shifts -/

theorem shiftCount_eq (t : Addr) : shiftCount t = min (t.toNat % 512) 48 := by
  simp [shiftCount]

theorem shiftKind_eq (t : Addr) : shiftKind t = t.toNat / 512 := by
  have := t.isLt
  simp [shiftKind, Nat.shiftRight_eq_div_pow]; omega

theorem getMsbD_shiftLeft_one (v : BitVec 48) (k : Nat) : (v <<< (1 : Nat)).getMsbD k = v.getMsbD (k + 1) := by
  rw [BitVec.getMsbD_shiftLeft]

/-- The value LSH leaves. -/
theorem leftShift_value (v : BitVec 48) (g : Bool) (n : Nat) (o : Bool) :
    (leftShift v g n o).1.toNat = v.toNat * 2 ^ n % 2 ^ 48 := by
  induction n generalizing v o with
  | zero => simp [leftShift]; omega
  | succ n ih =>
    rw [leftShift, ih, BitVec.toNat_shiftLeft, Nat.shiftLeft_eq, pow_succ, Nat.mod_mul_mod]; congr 1; ring

/-- When LSH sets OV. -/
theorem leftShift_overflow (v : BitVec 48) (g : Bool) (n : Nat) (o : Bool) :
    (leftShift v g n o).2 = true ↔ o = true ∨ ∃ k, 1 ≤ k ∧ k ≤ n ∧ v.getMsbD k ≠ g := by
  induction n generalizing v o with
  | zero => simp [leftShift]
  | succ n ih =>
    rw [leftShift, ih]
    simp only [getMsbD_shiftLeft_one, Bool.or_eq_true, bne_iff_ne, or_assoc]
    have : (v <<< (1 : Nat)).msb = v.getMsbD 1 := by rw [BitVec.msb, getMsbD_shiftLeft_one]
    rw [this]
    refine or_congr_right ?_
    constructor
    · rintro (h | ⟨k, h1, h2, h3⟩)
      · exact ⟨1, le_refl _, by omega, h⟩
      · exact ⟨k + 1, by omega, by omega, h3⟩
    · rintro ⟨k, h1, h2, h3⟩
      rcases eq_or_lt_of_le h1 with rfl | h1
      · exact .inl h3
      · refine .inr ⟨k - 1, by omega, by omega, ?_⟩
        rwa [Nat.sub_add_cancel (by omega)]

/-- What NOD's loop does: how many places, the value, and why it stopped. -/
theorem normalizeLeft_spec (v : BitVec 48) (n k : Nat) :
    ∃ j, j ≤ n ∧ (normalizeLeft v n k).2 = k + j ∧ (normalizeLeft v n k).1.toNat = v.toNat * 2 ^ j % 2 ^ 48 ∧
      (∀ i, i < j → v.getMsbD i = v.getMsbD (i + 1)) ∧ (j < n → v.getMsbD j ≠ v.getMsbD (j + 1)) := by
  induction n generalizing v k with
  | zero => exact ⟨0, le_refl _, rfl, by simp [normalizeLeft]; omega, by omega, by omega⟩
  | succ n ih =>
    rw [normalizeLeft]
    split
    · rename_i h
      simp only [beq_iff_eq] at h
      obtain ⟨j, h1, h2, h3, h4, h5⟩ := ih (v <<< (1 : Nat)) (k + 1)
      refine ⟨j + 1, by omega, by rw [h2]; omega, ?_, ?_, ?_⟩
      · rw [h3, BitVec.toNat_shiftLeft, Nat.shiftLeft_eq, pow_succ, Nat.mod_mul_mod]; congr 1; ring
      · intro i hi
        rcases Nat.eq_zero_or_pos i with rfl | hp
        · exact h
        · have := h4 (i - 1) (by omega)
          rw [getMsbD_shiftLeft_one, getMsbD_shiftLeft_one] at this
          rwa [Nat.sub_add_cancel (by omega)] at this
      · intro hj
        have := h5 (by omega)
        rwa [getMsbD_shiftLeft_one, getMsbD_shiftLeft_one] at this
    · rename_i h
      simp only [beq_iff_eq] at h
      exact ⟨0, by omega, rfl, by simp; omega, by omega, fun _ => h⟩

theorem rotateRight_bit (v : BitVec 48) {n k : Nat} (hn : n ≤ 48) (hk : k < 48) :
    (v.rotateRight n).getMsbD k = v.getMsbD ((k + (48 - n)) % 48) := by
  rcases eq_or_lt_of_le hn with rfl | hn
  · rw [BitVec.getMsbD_rotateRight]; simp [hk, Nat.mod_eq_of_lt hk]
  · rw [BitVec.getMsbD_rotateRight, Nat.mod_eq_of_lt hn]; simp [hk]
    split
    · congr 1; omega
    · congr 1; omega

theorem rotateLeft_bit (v : BitVec 48) (n : Nat) {k : Nat} (hk : k < 48) :
    (v.rotateLeft n).getMsbD k = v.getMsbD ((k + n) % 48) := by
  rw [BitVec.getMsbD_rotateLeft]
  simp [hk, Nat.add_comm]

end Sys2Proof.Machine
end

