-- ==== Sys2Proof/Laws/Keeps.lean ====
section
/-! SUPPORT. What every shared operation keeps: the installation, the lock-out register, the invariant of Safety.lean
and every word the lock-out protects. -/

namespace Sys2Proof.Machine

open Sys2Proof

/-- `t` comes from `s` by operations that keep what every step keeps. -/
structure Keeps (s t : State) : Prop where
  cfg : t.cfg = s.cfg
  blocks : t.lockBlocks = s.lockBlocks
  subs : t.lockSubs = s.lockSubs
  inv : s.Inv → t.Inv
  guarded : ∀ k : PAddr, s.lockedOut k = true → t.memRead k = s.memRead k

theorem Keeps.refl (s : State) : Keeps s s := ⟨rfl, rfl, rfl, id, fun _ _ => rfl⟩

theorem lockedOut_congr {s t : State} (hc : t.cfg = s.cfg) (hb : t.lockBlocks = s.lockBlocks)
    (hs : t.lockSubs = s.lockSubs) (k : PAddr) : t.lockedOut k = s.lockedOut k := by
  simp only [State.lockedOut, State.isProtected, hc, hb, hs]

theorem Keeps.trans {s u t : State} (h : Keeps s u) (g : Keeps u t) : Keeps s t :=
  ⟨g.cfg.trans h.cfg, g.blocks.trans h.blocks, g.subs.trans h.subs, g.inv ∘ h.inv, fun k hk =>
    (g.guarded k ((lockedOut_congr h.cfg h.blocks h.subs k).trans hk)).trans (h.guarded k hk)⟩

/-- The same, the last operation first. -/
theorem Keeps.after {s u t : State} (g : Keeps u t) (h : Keeps s u) : Keeps s t := h.trans g

theorem hasInterlace_congr {s t : State} (hc : t.cfg = s.cfg) (ch : ChannelId) :
    t.hasInterlace ch = s.hasInterlace ch := by
  cases ch <;> simp [State.hasInterlace, hc]

/-- The invariant is about memory, the lists of levels, the channels and the installation only. -/
theorem State.Inv.congr {s t : State} (h : s.Inv) (hm : t.mem = s.mem) (hw : t.waiting = s.waiting)
    (ha : t.active = s.active) (har : t.armed = s.armed) (hch : t.chans = s.chans) (hc : t.cfg = s.cfg) : t.Inv := by
  have hchan : ∀ ch, t.chan ch = s.chan ch := fun ch => by simp [State.chan, hch]
  have hi := hasInterlace_congr hc
  exact
    { memory := by rw [hm]; exact h.memory
      waitingRising := by rw [hw]; exact h.waitingRising
      activeRising := by rw [ha]; exact h.activeRising
      armedRising := by rw [har]; exact h.armedRising
      oneState := by rw [hw, ha]; exact h.oneState
      waitingPresent := by rw [hw, hc]; exact h.waitingPresent
      activePresent := by rw [ha, hc]; exact h.activePresent
      armedSystem := by rw [har]; exact h.armedSystem
      directExtended := fun ch => by rw [hchan]; exact h.directExtended ch
      alertInterlaced := fun ch => by rw [hchan, hi]; exact h.alertInterlaced ch
      activeInterlaced := fun ch => by rw [hchan, hi]; exact h.activeInterlaced ch
      installation := by rw [hc]; exact h.installation }

/-- An update of other fields keeps all of it. -/
theorem Keeps.of_eq {s t : State} (hm : t.mem = s.mem) (hw : t.waiting = s.waiting) (ha : t.active = s.active)
    (har : t.armed = s.armed) (hch : t.chans = s.chans) (hc : t.cfg = s.cfg) (hb : t.lockBlocks = s.lockBlocks)
    (hs : t.lockSubs = s.lockSubs) : Keeps s t :=
  ⟨hc, hb, hs, fun h => h.congr hm hw ha har hch hc, fun k _ => memRead_congr hm hc k⟩

/-- An update of the Waiting levels by one signal, and of other fields. -/
theorem Keeps.of_requested {s t : State} (l : Nat) (hw : t.waiting = s.requested l ∨ t.waiting = s.waiting)
    (hm : t.mem = s.mem) (ha : t.active = s.active) (har : t.armed = s.armed) (hch : t.chans = s.chans)
    (hc : t.cfg = s.cfg) (hb : t.lockBlocks = s.lockBlocks) (hs : t.lockSubs = s.lockSubs) : Keeps s t := by
  rcases hw with hw | hw
  · refine ⟨hc, hb, hs, fun h => ?_, fun k _ => memRead_congr hm hc k⟩
    have g : State.Inv { t with waiting := s.waiting } := h.congr hm rfl ha har hch hc
    refine { g with waitingRising := ?_, oneState := ?_, waitingPresent := ?_ }
    · rw [hw]; exact requested_rising s l h.waitingRising
    · intro k hk
      rw [ha]
      rw [hw, mem_requested] at hk
      rcases hk with hk | ⟨rfl, -, -, hk⟩
      · exact h.oneState k hk
      · exact hk
    · intro k hk
      rw [hc]
      rw [hw, mem_requested] at hk
      rcases hk with hk | ⟨rfl, hk, -⟩
      · exact h.waitingPresent k hk
      · exact hk
  · exact Keeps.of_eq hm hw ha har hch hc hb hs

theorem Keeps.raise (s : State) (l : Nat) : Keeps s (s.raise l) :=
  .of_requested l (.inl rfl) rfl rfl rfl rfl rfl rfl rfl

theorem Keeps.clockSync (s : State) (k : Bool) : Keeps s (s.clockSync k) := by
  refine .of_requested 0o74 ?_ rfl rfl rfl rfl rfl rfl rfl
  simp only [State.clockSync]; split <;> simp

theorem Keeps.chanInt (s : State) (ch : ChannelId) (k : Signal) : Keeps s (s.chanInt ch k) := by
  refine .of_requested (signalLevel ch k) ?_ rfl rfl rfl rfl rfl rfl rfl
  simp only [State.chanInt]; split <;> simp

/-- A store, with any update of fields the invariant does not speak of. -/
theorem Keeps.store (s : State) (a : PAddr) (v : Word) : Keeps s (s.store a v) := by
  refine ⟨rfl, rfl, rfl, fun h => ?_, fun k hk => store_memRead_lockedOut s a k v hk⟩
  have h1 : Keeps s { s with waiting := s.storedWaiting a } := by
    refine .of_requested 0o35 ?_ rfl rfl rfl rfl rfl rfl rfl
    simp only [State.storedWaiting]; split <;> simp
  refine { h1.inv h with memory := ?_ }
  show (s.storedMem a v).wf = true
  simp only [State.storedMem]
  split
  · exact memSet_wf _ _ _ (by have := a.isLt; omega) h.memory
  · exact h.memory

theorem Keeps.write (s : State) (e : Addr) (v : Word) : Keeps s (s.write e v) := Keeps.store s _ v

/-- Taking an interrupt of a level that the installation has. -/
theorem Keeps.acknowledge (s : State) (l : Nat) (hl : s.Inv → levelPresent s.cfg l = true) :
    Keeps s (s.acknowledge l) := by
  refine ⟨rfl, rfl, rfl, fun h => ?_, fun k _ => rfl⟩
  exact
    { memory := h.memory
      waitingRising := levelErase_rising l _ h.waitingRising
      activeRising := levelInsert_rising l _ h.activeRising
      armedRising := h.armedRising
      oneState := fun k hk => by
        simp only [State.acknowledge_waiting, mem_levelErase] at hk
        simp only [State.acknowledge_active, mem_levelInsert, not_or]
        exact ⟨hk.1, h.oneState k hk.2⟩
      waitingPresent := fun k hk => h.waitingPresent k ((mem_levelErase l k _).1 hk).2
      activePresent := fun k hk => by
        rcases (mem_levelInsert l k _).1 hk with rfl | hk
        · exact hl h
        · exact h.activePresent k hk
      armedSystem := h.armedSystem
      directExtended := h.directExtended
      alertInterlaced := h.alertInterlaced
      activeInterlaced := h.activeInterlaced
      installation := h.installation }

theorem Keeps.clearLevel (s : State) (l : Nat) : Keeps s (s.clearLevel l) := by
  refine ⟨rfl, rfl, rfl, fun h => ?_, fun k _ => rfl⟩
  exact
    { h with
      activeRising := levelErase_rising l _ h.activeRising
      oneState := fun k hk hk' => h.oneState k hk ((mem_levelErase l k _).1 hk').2
      activePresent := fun k hk => h.activePresent k ((mem_levelErase l k _).1 hk).2 }

theorem clearHighestActive_eq (s : State) :
    s.clearHighestActive = s ∨ ∃ l, highest s.active = some l ∧ s.clearHighestActive = s.clearLevel l := by
  cases h : highest s.active with
  | none => left; simp [State.clearHighestActive, h]
  | some l => right; exact ⟨l, rfl, by simp [State.clearHighestActive, State.clearLevel, h]⟩

theorem Keeps.clearHighestActive (s : State) : Keeps s s.clearHighestActive := by
  rcases clearHighestActive_eq s with h | ⟨l, -, h⟩ <;> rw [h]
  · exact Keeps.refl s
  · exact Keeps.clearLevel s l

/-- New contents of one channel that keep what the invariant says of it. -/
theorem Keeps.setChan (s : State) (ch : ChannelId) (c : Chan) (h1 : s.Inv → isDirect ch = true → c.ia = true)
    (h2 : s.Inv → c.ilcAlert = true → s.hasInterlace ch = true)
    (h3 : s.Inv → c.ilcActive = true → s.hasInterlace ch = true) : Keeps s (s.setChan ch c) := by
  refine ⟨rfl, rfl, rfl, fun h => ?_, fun k _ => rfl⟩
  refine
    { h with
      directExtended := fun k => ?_
      alertInterlaced := fun k => ?_
      activeInterlaced := fun k => ?_ } <;> rw [State.chan_setChan] <;> split
  · rename_i e; subst e; exact h1 h
  · exact h.directExtended k
  · rename_i e; subst e; exact h2 h
  · exact h.alertInterlaced k
  · rename_i e; subst e; exact h3 h
  · exact h.activeInterlaced k

/-- New contents of one channel with bit IA, the alert and the interlace as they were. -/
theorem Keeps.setChan_same (s : State) (ch : ChannelId) (c : Chan) (h1 : c.ia = (s.chan ch).ia)
    (h2 : c.ilcAlert = (s.chan ch).ilcAlert) (h3 : c.ilcActive = (s.chan ch).ilcActive) :
    Keeps s (s.setChan ch c) :=
  .setChan s ch c (fun h hd => h1.trans (h.directExtended ch hd)) (fun h ha => h.alertInterlaced ch (h2 ▸ ha))
    (fun h ha => h.activeInterlaced ch (h3 ▸ ha))

/-- New contents of one channel with bit IA and the alert as they were and the interlace off. -/
theorem Keeps.setChan_off (s : State) (ch : ChannelId) (c : Chan) (h1 : c.ia = (s.chan ch).ia ∨ c.ia = isDirect ch)
    (h2 : c.ilcAlert = (s.chan ch).ilcAlert) (h3 : c.ilcActive = false) : Keeps s (s.setChan ch c) := by
  refine .setChan s ch c (fun h hd => ?_) (fun h ha => h.alertInterlaced ch (h2 ▸ ha))
    (fun _ ha => by rw [h3] at ha; exact absurd ha (by simp))
  rcases h1 with h1 | h1
  · exact h1.trans (h.directExtended ch hd)
  · exact h1.trans hd

theorem Keeps.send (s : State) (m : Message) : Keeps s (s.send m) := .of_eq rfl rfl rfl rfl rfl rfl rfl rfl
theorem Keeps.draw (s : State) (n : Nat) : Keeps s (s.draw n) := .of_eq rfl rfl rfl rfl rfl rfl rfl rfl
theorem Keeps.sequential (s : State) : Keeps s s.sequential := .of_eq rfl rfl rfl rfl rfl rfl rfl rfl
theorem Keeps.skipIf (s : State) (k : Bool) : Keeps s (s.skipIf k) := .of_eq rfl rfl rfl rfl rfl rfl rfl rfl
theorem Keeps.branch (s : State) (t : Addr) : Keeps s (s.branch t) := .of_eq rfl rfl rfl rfl rfl rfl rfl rfl
theorem Keeps.endEom (s : State) : Keeps s s.endEom := .of_eq rfl rfl rfl rfl rfl rfl rfl rfl
theorem Keeps.holdAt (s : State) (code : BitVec 6) (t : Addr) : Keeps s (s.holdAt code t) :=
  .of_eq rfl rfl rfl rfl rfl rfl rfl rfl
theorem Keeps.holdChain (s : State) (code : BitVec 6) (t : Addr) : Keeps s (s.holdChain code t) :=
  .of_eq rfl rfl rfl rfl rfl rfl rfl rfl
theorem Keeps.showNext (s : State) : Keeps s s.showNext := .of_eq rfl rfl rfl rfl rfl rfl rfl rfl
theorem Keeps.registerChange (s : State) (f : RegFn) : Keeps s (s.registerChange f) := by
  unfold State.registerChange
  split <;> exact .of_eq rfl rfl rfl rfl rfl rfl rfl rfl

/-! ### Channels -/

theorem Keeps.disconnect (s : State) (ch : ChannelId) : Keeps s (s.disconnect ch) :=
  .after (.send _ _) (.setChan_off s ch _ (.inr rfl) rfl rfl)

theorem Keeps.dsc (s : State) (ch : ChannelId) : Keeps s (s.dsc ch) := by
  have h : Keeps s (s.setChan ch { Chan.disconnected ch (s.chan ch) with error := false }) :=
    .setChan_off s ch _ (.inr rfl) rfl rfl
  unfold State.dsc
  dsimp only
  split
  · exact h
  · exact .after (.send _ _) h

theorem Keeps.alert (s : State) (ch : ChannelId) : Keeps s (s.alert ch) := by
  unfold State.alert
  split
  · rename_i h
    exact .setChan s ch _ (fun _ hd => hd) (fun _ _ => h) (fun g ha => g.activeInterlaced ch ha)
  · exact .refl s

theorem Keeps.countZeroIn (s : State) (ch : ChannelId) : Keeps s (s.countZeroIn ch) := by
  unfold State.countZeroIn
  dsimp only
  split
  · split
    · exact .chanInt s ch .zc
    · exact .chanInt s ch .zc
    · exact .after (.disconnect _ ch) (.after (.chanInt _ ch .er) (Keeps.chanInt s ch .zc))
    · exact .after (.setChan_same _ ch _ rfl rfl rfl) (Keeps.chanInt s ch .zc)
  · exact .setChan_off s ch _ (.inl rfl) rfl rfl

theorem Keeps.countZeroOut (s : State) (ch : ChannelId) : Keeps s (s.countZeroOut ch) := by
  unfold State.countZeroOut
  dsimp only
  split
  · split
    · exact .after (.setChan_same _ ch _ rfl rfl rfl) (Keeps.chanInt s ch .zc)
    · exact .after (.setChan_same _ ch _ rfl rfl rfl) (Keeps.chanInt s ch .zc)
  · exact .setChan_same s ch _ rfl rfl rfl

theorem Keeps.storeWord (s : State) (ch : ChannelId) (w : Word) : Keeps s (s.storeWord ch w) := by
  have h : Keeps s ((s.store (s.chan ch).mar w).setChan ch
      { (s.chan ch).stepped with ior := if isDirect ch then w else (s.chan ch).ior }) :=
    .after (.setChan_same _ ch _ rfl rfl rfl) (.store s _ w)
  unfold State.storeWord
  dsimp only
  split
  · exact .after (.countZeroIn _ ch) h
  · exact h

theorem Keeps.keepWord (s : State) (ch : ChannelId) (n : Nat) : Keeps s (s.keepWord ch n) := by
  unfold State.keepWord
  dsimp only
  split
  · exact .after (.draw _ _) (Keeps.setChan_same s ch _ rfl rfl rfl)
  · exact .setChan_same s ch _ rfl rfl rfl

theorem Keeps.wordAssembled (s : State) (ch : ChannelId) (n : Nat) : Keeps s (s.wordAssembled ch n) := by
  unfold State.wordAssembled
  dsimp only
  split
  · split
    · exact .after (.storeWord _ ch _) (.draw s 1)
    · split
      · exact .keepWord s ch n
      · exact .refl s
  · exact .after (.chanInt _ ch .zc) (.keepWord s ch n)

theorem Keeps.needWord (s : State) (ch : ChannelId) : Keeps s (s.needWord ch) := by
  unfold State.needWord
  dsimp only
  split
  · split
    · split
      · exact .after (.countZeroOut _ ch) (Keeps.setChan_same s ch _ rfl rfl rfl)
      · exact .setChan_same s ch _ rfl rfl rfl
    · exact .setChan_same s ch _ rfl rfl rfl
  · exact .after (.chanInt _ ch .zc) (Keeps.setChan_same s ch _ rfl rfl rfl)

theorem Keeps.lastWordOut (s : State) (ch : ChannelId) : Keeps s (s.lastWordOut ch) := by
  unfold State.lastWordOut
  dsimp only
  split
  · exact .after (.send _ _) (Keeps.setChan_same s ch _ rfl rfl rfl)
  · exact .after (.disconnect _ ch) (.after (.chanInt _ ch .er) (Keeps.setChan_same s ch _ rfl rfl rfl))

theorem Keeps.wordSent (s : State) (ch : ChannelId) : Keeps s (s.wordSent ch) := by
  unfold State.wordSent
  dsimp only
  split
  · exact .lastWordOut s ch
  · exact .after (.needWord _ ch) (Keeps.setChan_same s ch _ rfl rfl rfl)

theorem Keeps.connectUnit (s : State) (ch : ChannelId) (k : Conn) : Keeps s (s.connectUnit ch k) := by
  unfold State.connectUnit
  dsimp only
  split
  · split
    · exact .after (.alert _ ch) (Keeps.dsc s ch)
    · exact .dsc s ch
  · have h : Keeps s (s.setChan ch ((s.chan ch).connected k (k.alert && s.hasInterlace ch))) :=
      .setChan_same s ch _ rfl rfl rfl
    have g : ∀ m, Keeps s ((if k.alert then
        (s.setChan ch ((s.chan ch).connected k (k.alert && s.hasInterlace ch))).alert ch
        else s.setChan ch ((s.chan ch).connected k (k.alert && s.hasInterlace ch))).send m) := by
      intro m
      split
      · exact .after (.send _ _) (.after (.alert _ ch) h)
      · exact .after (.send _ _) h
    split
    · exact .after (.needWord _ ch) (g _)
    · exact g _

theorem Keeps.terminate (s : State) (ch : ChannelId) : Keeps s (s.terminate ch) := by
  unfold State.terminate
  dsimp only
  split
  · exact .after (.lastWordOut _ ch) (.after (.send _ _) (.setChan_same s ch _ rfl rfl rfl))
  · exact .after (.send _ _) (.setChan_same s ch _ rfl rfl rfl)

theorem Keeps.takeIor (s : State) (ch : ChannelId) : Keeps s (s.takeIor ch) := by
  unfold State.takeIor
  dsimp only
  split
  · exact .after (.storeWord _ ch _) (.setChan_same s ch _ rfl rfl rfl)
  · exact .refl s

theorem Keeps.takeHeld (s : State) (ch : ChannelId) : Keeps s (s.takeHeld ch) := by
  unfold State.takeHeld
  dsimp only
  split
  · exact .refl s
  · split
    · split
      · exact .needWord s ch
      · exact .refl s
    · split
      · exact .after (.wordAssembled _ ch _) (.after (.setChan_same _ ch _ rfl rfl rfl) (.takeIor s ch))
      · exact .takeIor s ch

/-- Loading an interlace that was alerted. -/
theorem Keeps.loadInterlace (s : State) (ch : ChannelId) (m : Word) (ha : (s.chan ch).ilcAlert = true) :
    Keeps s (s.loadInterlace ch m) := by
  have h : Keeps s (s.setChan ch ((s.chan ch).loaded m)) :=
    .setChan s ch _ (fun h hd => h.directExtended ch hd) (fun h _ => h.alertInterlaced ch ha)
      (fun h _ => h.alertInterlaced ch ha)
  unfold State.loadInterlace
  dsimp only
  split
  · exact .after (.takeHeld _ ch) h
  · exact h

theorem Keeps.interlaceControl (s : State) (ch : ChannelId) (k : IlcFn) : Keeps s (s.interlaceControl ch k) :=
  .setChan s ch _ (fun _ hd => by simp [Chan.controlled, hd]) (fun h ha => h.alertInterlaced ch ha)
    (fun h ha => h.activeInterlaced ch ha)

theorem Keeps.charIn (s : State) (ch : ChannelId) (size : CharSize) (v : Word) (ok : Bool) :
    Keeps s (s.charIn ch size v ok) := by
  unfold State.charIn
  dsimp only
  split
  · exact .after (.draw _ _) (Keeps.setChan_same s ch _ rfl rfl rfl)
  · split
    · exact .setChan_same s ch _ rfl rfl rfl
    · split
      · exact .after (.wordAssembled _ ch _) (.setChan_same s ch _ rfl rfl rfl)
      · exact .setChan_same s ch _ rfl rfl rfl

theorem Keeps.charReq (s : State) (ch : ChannelId) (size : CharSize) : Keeps s (s.charReq ch size) := by
  unfold State.charReq
  dsimp only
  split
  · split
    · exact .refl s
    · exact .after (.draw _ _) (Keeps.setChan_same s ch _ rfl rfl rfl)
  · split
    · exact .after (.wordSent _ ch) (.after (.setChan_same _ ch _ rfl rfl rfl) (Keeps.send s _))
    · exact .after (.setChan_same _ ch _ rfl rfl rfl) (Keeps.send s _)

theorem Keeps.finishRecord (s : State) (ch : ChannelId) : Keeps s (s.finishRecord ch) := by
  unfold State.finishRecord
  dsimp only
  split
  · exact .after (.wordAssembled _ ch _) (.setChan_same s ch _ rfl rfl rfl)
  · split
    · split
      · exact .refl s
      · exact .setChan_same s ch _ rfl rfl rfl
    · split
      · exact .after (.wordAssembled _ ch _) (.setChan_same s ch _ rfl rfl rfl)
      · exact .after (.keepWord _ ch _) (.setChan_same s ch _ rfl rfl rfl)

theorem Keeps.recordAction (s : State) (ch : ChannelId) : Keeps s (s.recordAction ch) := by
  unfold State.recordAction
  dsimp only
  split
  · exact .refl s
  · split
    · exact .after (.chanInt _ ch .er) (Keeps.setChan_off s ch _ (.inl rfl) rfl rfl)
    · exact .after (.disconnect _ ch) (Keeps.chanInt s ch .er)

theorem Keeps.endOfRecord (s : State) (ch : ChannelId) : Keeps s (s.endOfRecord ch) := by
  unfold State.endOfRecord
  split
  · exact .refl s
  · split
    · exact .recordAction s ch
    · exact .after (.recordAction _ ch) (Keeps.finishRecord s ch)

theorem Keeps.gapEnd (s : State) (ch : ChannelId) : Keeps s (s.gapEnd ch) := by
  unfold State.gapEnd
  split
  · exact .refl s
  · exact .disconnect s ch

theorem Keeps.devError (s : State) (ch : ChannelId) : Keeps s (s.devError ch) :=
  .setChan_same s ch _ rfl rfl rfl

end Sys2Proof.Machine
end

