-- ==== Sys2Proof/Laws/Results.lean ====
section
/-! SUPPORT. The relation `Keeps` for the shared operations that answer a result, and for what surrounds an
instruction: the fetch, the end, the interrupt. -/

namespace Sys2Proof.Machine

open Sys2Proof

/-- A next state of the result, if any, comes from `s` by operations that keep what every step keeps. -/
def KeepsResult (s : State) (r : Result) : Prop := ∀ t, r = .next t → Keeps s t

theorem KeepsResult.next {s t : State} (h : Keeps s t) : KeepsResult s (.next t) := by
  intro u hu; cases hu; exact h

theorem KeepsResult.refused {s : State} (e : Refusal) : KeepsResult s (.refused e) := by
  intro u hu; cases hu

/-- A result whose next state differs in fields the relation does not speak of. -/
theorem KeepsResult.of_eq (s : State) {t : State} (hm : t.mem = s.mem) (hw : t.waiting = s.waiting)
    (ha : t.active = s.active) (har : t.armed = s.armed) (hch : t.chans = s.chans) (hc : t.cfg = s.cfg)
    (hb : t.lockBlocks = s.lockBlocks) (hs : t.lockSubs = s.lockSubs) : KeepsResult s (.next t) :=
  .next (Keeps.of_eq hm hw ha har hch hc hb hs)

theorem KeepsResult.after {s u : State} {r : Result} (g : KeepsResult u r) (h : Keeps s u) : KeepsResult s r :=
  fun t ht => .after (g t ht) h

/-! ### Operand forms -/

theorem KeepsResult.atEA {s : State} {code : BitVec 6} {r : Ref} {k : Addr → Result} (h : ∀ t, KeepsResult s (k t)) :
    KeepsResult s (s.atEA code r k) := by
  rcases atEA_cases s code r k with ⟨t, -, e⟩ | ⟨t, -, e⟩ <;> rw [e]
  · exact h t
  · exact .next (.holdChain s code t)

theorem KeepsResult.atShiftEA {s : State} {code : BitVec 6} {r : Ref} {k : Addr → Result}
    (h : ∀ t, KeepsResult s (k t)) : KeepsResult s (s.atShiftEA code r k) := by
  rcases atShiftEA_cases s code r k with ⟨t, -, e⟩ | ⟨t, -, e⟩ <;> rw [e]
  · exact h t
  · exact .next (.holdChain s code t)

theorem KeepsResult.withOperand {s : State} {code : BitVec 6} {r : Ref} {k : Word → State}
    (h : ∀ m, Keeps s (k m)) : KeepsResult s (s.withOperand code r k) := KeepsResult.atEA fun _ => .next (h _)

/-! ### Shared meanings -/

theorem KeepsResult.shiftRight (s : State) (t : Addr) : KeepsResult s (s.shiftRight t) := by
  unfold State.shiftRight; dsimp only
  split <;> first | exact .refused _ | exact .of_eq s rfl rfl rfl rfl rfl rfl rfl rfl

theorem KeepsResult.shiftLeft (s : State) (t : Addr) : KeepsResult s (s.shiftLeft t) := by
  unfold State.shiftLeft; dsimp only
  split <;> first | exact .refused _ | exact .of_eq s rfl rfl rfl rfl rfl rfl rfl rfl

theorem KeepsResult.bufferControl (s : State) (ch : ChannelId) (k : Conn) : KeepsResult s (s.bufferControl ch k) := by
  unfold State.bufferControl
  refine .next (.after (.endEom _) ?_)
  split
  · exact .connectUnit _ _ _
  · exact .refl _

theorem KeepsResult.ioControl (s : State) (ch : ChannelId) (b9 : Bool) (fn : BitVec 5) (u : BitVec 6) :
    KeepsResult s (s.ioControl ch b9 fn u) := by
  unfold State.ioControl
  split
  · exact .next (.endEom _)
  · split
    · split
      · exact .next (.after (.endEom _) (.send _ _))
      · split
        · exact .next (.after (.endEom _) (.alert _ _))
        · exact .refused _
    · split
      · exact .next (.after (.endEom _) (.interlaceControl _ _ _))
      · split
        · exact .next (.after (.endEom _) (.send _ _))
        · split
          · refine .next (.after (.endEom _) ?_)
            unfold State.ascAlert; split
            · exact .setChan_same _ _ _ rfl rfl rfl
            · exact .refl _
          · split
            · exact .next (.after (.endEom _) (.terminate _ _))
            · exact .refused _

theorem KeepsResult.deviceTest (s : State) (ch : ChannelId) (fn : BitVec 5) (u : BitVec 6) :
    KeepsResult s (s.deviceTest ch fn u) := .next (.skipIf _ _)

theorem KeepsResult.channelTest (s : State) (ch : ChannelId) (fn : BitVec 5) (k : Bool) :
    KeepsResult s (s.channelTest ch fn k) := .next (.skipIf _ _)

theorem KeepsResult.memoryIntoBuffer (s : State) (code : BitVec 6) (ch : ChannelId) (r : Ref) :
    KeepsResult s (s.memoryIntoBuffer code ch r) := by
  refine .atEA fun t => ?_
  dsimp only; split
  · exact .next (.after (.sequential _) (.setChan_same _ _ _ rfl rfl rfl))
  · exact .next (.holdAt _ _ _)

theorem KeepsResult.bufferIntoMemory (s : State) (code : BitVec 6) (ch : ChannelId) (r : Ref) :
    KeepsResult s (s.bufferIntoMemory code ch r) := by
  refine .atEA fun t => ?_
  dsimp only; split
  · exact .next (.after (.sequential _) (.after (.setChan_same _ _ _ rfl rfl rfl) (.after (.draw _ _) (.write _ _ _))))
  · exact .next (.holdAt _ _ _)

theorem Keeps.request (s : State) (m : Message) : Keeps s (s.request m) := by
  unfold State.request; split
  · exact .refl _
  · exact .send _ _

theorem Keeps.armInterrupts (s : State) (m : Word) : Keeps s (s.armInterrupts m) := by
  refine ⟨rfl, rfl, rfl, fun h => ?_, fun _ _ => rfl⟩
  exact { h with
    armedRising := armFrom_rising _ _ _ h.armedRising, armedSystem := armFrom_system _ _ _ h.armedSystem }

/-! ### Around an instruction -/

theorem Keeps.fetch (s : State) : Keeps s s.fetch := by
  unfold State.fetch
  split <;> exact .of_eq rfl rfl rfl rfl rfl rfl rfl rfl

theorem Keeps.endLevel (s : State) : Keeps s s.endLevel := by
  unfold State.endLevel; split
  · split
    · exact .clearLevel _ _
    · exact .refl _
  · exact .refl _
  · exact .refl _

theorem Keeps.setSwitch (s : State) (v : RunSwitch) : Keeps s (s.setSwitch v) :=
  .of_eq rfl rfl rfl rfl rfl rfl rfl rfl

theorem Keeps.turnSwitch (s : State) (v : RunSwitch) : Keeps s (s.turnSwitch v) := by
  unfold State.turnSwitch; dsimp only; split
  · exact .after (.showNext _) (.setSwitch s v)
  · exact .setSwitch s v

/-- A level due is one that the installation has. -/
theorem nextLevel_present {s : State} {l : Nat} (h : s.nextLevel = some l) : levelPresent s.cfg l = true := by
  have := ((nextLevel_eq_some s l).1 h).1.2
  simp only [State.eligible, Bool.and_eq_true] at this
  exact this.1.1

theorem Keeps.interruptTest (s : State) : Keeps s s.interruptTest := by
  unfold State.interruptTest
  split
  · exact .of_eq rfl rfl rfl rfl rfl rfl rfl rfl
  · split
    · exact .of_eq rfl rfl rfl rfl rfl rfl rfl rfl
    · rename_i l _ hl
      exact .acknowledge _ _ fun _ => nextLevel_present hl
    · exact .refl s

theorem Keeps.endInstruction (s : State) : Keeps s s.endInstruction := by
  unfold State.endInstruction
  split
  · exact .after (.interruptTest _) (.endLevel s)
  · exact .after (.showNext _) (.after (.interruptTest _) (.after (.setSwitch _ _) (.endLevel s)))

theorem KeepsResult.finish {s : State} {r : Result} (h : KeepsResult s r) : KeepsResult s (finish r) := by
  cases r with
  | next t =>
    have := h t rfl
    refine .next ?_
    split
    · exact .after (.endInstruction _) this
    · exact this
  | fault f => cases f
  | refused e => exact .refused e

theorem KeepsResult.checked {s : State} {k : Instr → Result} (h : ∀ i, KeepsResult s (k i)) :
    KeepsResult s (s.checked k) := by
  unfold State.checked
  split
  · exact .refused _
  · split
    · exact .refused _
    · split
      · exact .refused _
      · exact h _

theorem KeepsResult.atBoundary {s : State} {k : State → Result} (h : KeepsResult s.fetch (k s.fetch)) :
    KeepsResult s (s.atBoundary k) := by
  unfold State.atBoundary
  split
  · exact .next (.refl s)
  · split
    · split
      · rename_i l hl; exact .next (.acknowledge _ l fun _ => nextLevel_present hl)
      · exact .next (.refl s)
    · exact .after h (.fetch s)
  · exact .after h (.fetch s)

theorem KeepsResult.processorTurn {s : State} {inside fetched : State → Result} (h : KeepsResult s (inside s))
    (g : KeepsResult s.fetch (fetched s.fetch)) : KeepsResult s (s.processorTurn inside fetched) := by
  unfold State.processorTurn
  split
  · exact .next (.refl s)
  · split
    · exact .refused _
    · split
      iterate 4 exact h
      all_goals exact .atBoundary g

/-- A memory cycle that is not an instruction's last changes C, M and where the instruction is, nothing else. -/
theorem oneCycle_cases {s t : State} {i : Instr} (h : s.oneCycle i = some t) :
    (∃ c, t = { s with c := c, cState := .chain }) ∨ ∃ c m, t = { s with c := c, m := m, cState := .operand } := by
  unfold State.oneCycle at h
  split at h
  · cases h
  · dsimp only at h
    split at h
    · split at h
      · cases h; exact .inl ⟨_, rfl⟩
      · split at h
        · cases h
        · cases h; exact .inl ⟨_, rfl⟩
    · split at h
      · cases h; exact .inr ⟨_, _, rfl⟩
      · cases h

theorem Keeps.oneCycle {s t : State} {i : Instr} (h : s.oneCycle i = some t) : Keeps s t := by
  rcases oneCycle_cases h with ⟨c, rfl⟩ | ⟨c, m, rfl⟩ <;> exact .of_eq rfl rfl rfl rfl rfl rfl rfl rfl

/-! ### The host side -/

theorem Keeps.clearMemory (s : State) (n : Nat) : Keeps s (s.clearMemory n) := by
  induction n with
  | zero => exact .refl _
  | succ n ih => exact .after (.write _ _ _) ih

theorem Keeps.editRegister (s : State) (r : ConsoleReg) (f : Word → Word) : Keeps s (s.editRegister r f) := by
  cases r <;> exact .of_eq rfl rfl rfl rfl rfl rfl rfl rfl

theorem Keeps.fill (s : State) (u : BitVec 6) : Keeps s (s.fill u) := by
  unfold State.fill; dsimp only; split
  · exact .after (.connectUnit _ _ _) (.of_eq rfl rfl rfl rfl rfl rfl rfl rfl)
  · exact .of_eq rfl rfl rfl rfl rfl rfl rfl rfl

theorem Keeps.parityFault (s : State) (io : Bool) : Keeps s (s.parityFault io) := by
  unfold State.parityFault; dsimp only
  have g : Keeps s { s with parityError := true } := .of_eq rfl rfl rfl rfl rfl rfl rfl rfl
  have h : Keeps s (if s.console.parityHalt then State.turnSwitch { s with parityError := true } .idle
      else { s with parityError := true }) := by
    split
    · exact .after (.turnSwitch _ _) g
    · exact g
  split
  · exact h
  · exact .after (.raise _ _) h

theorem Keeps.unalerted (s : State) : Keeps s s.unalerted := by
  have e := State.unalerted_chan s
  refine ⟨rfl, rfl, rfl, fun h => ?_, fun _ _ => rfl⟩
  exact
    { h with
      directExtended := fun ch hd => by rw [e]; exact h.directExtended ch hd
      alertInterlaced := fun ch ha => by rw [e] at ha; exact absurd ha (by simp [Chan.unalerted])
      activeInterlaced := fun ch ha => h.activeInterlaced ch (by rw [e] at ha; exact ha) }

theorem Keeps.powerReturns (s : State) : Keeps s s.powerReturns := by
  unfold State.powerReturns; dsimp only
  have g : Keeps s { s with lines := { s.lines with powerOff := false } } := .of_eq rfl rfl rfl rfl rfl rfl rfl rfl
  split
  · exact .after (.raise _ _) g
  · split
    · rename_i hp
      refine .trans (.after (.acknowledge _ 0o36 fun _ => ?_) (.after (.unalerted _) g))
        (.of_eq rfl rfl rfl rfl rfl rfl rfl rfl)
      simp [levelPresent, isSystemLevel, State.unalerted, hp]
    · exact g.trans (.of_eq rfl rfl rfl rfl rfl rfl rfl rfl)

/-- A channel after START. -/
theorem started_get (t : Channels) (n : Nat) (ch : ChannelId) :
    ((t.started n).get ch).ia = isDirect ch ∧ ((t.started n).get ch).ilcAlert = false ∧
      ((t.started n).get ch).ilcActive = false := by
  cases ch <;> exact ⟨rfl, rfl, rfl⟩

theorem levelsWhere_rising (f : Nat → Bool) : (levelsWhere f).Pairwise (· < ·) :=
  List.Pairwise.filter _ List.pairwise_lt_range

theorem mem_levelsWhere {f : Nat → Bool} {l : Nat} (h : l ∈ levelsWhere f) : f l = true := (List.mem_filter.1 h).2

theorem unknownChan_ia (s : State) (ch : ChannelId) (n : Nat) (h : isDirect ch = true) (g : (s.chan ch).ia = true) :
    (s.unknownChan ch n).ia = true := by
  unfold State.unknownChan; split
  · simp [Chan.unknown, h]
  · exact g

theorem unknownChan_ilcAlert (s : State) (ch : ChannelId) (n : Nat)
    (g : (s.chan ch).ilcAlert = true → s.hasInterlace ch = true) (h : (s.unknownChan ch n).ilcAlert = true) :
    s.hasInterlace ch = true := by
  unfold State.unknownChan at h; split at h
  · simp only [Chan.unknown, Bool.and_eq_true] at h; exact h.1
  · exact g h

theorem unknownChan_ilcActive (s : State) (ch : ChannelId) (n : Nat)
    (g : (s.chan ch).ilcActive = true → s.hasInterlace ch = true) (h : (s.unknownChan ch n).ilcActive = true) :
    s.hasInterlace ch = true := by
  unfold State.unknownChan at h; split at h
  · simp only [Chan.unknown, Bool.and_eq_true] at h; exact h.1
  · exact g h

/-- Each channel after power loss is an unknown one. -/
theorem unknownChans_get (s : State) (n : Nat) (ch : ChannelId) :
    ∃ k, (s.unknownChans n).get ch = s.unknownChan ch k := by
  cases ch <;> exact ⟨_, rfl⟩

theorem losePower_active (s : State) : s.losePower.active =
    levelsWhere fun l => levelPresent s.cfg l && freeBit (s.draws + 1024 + l) := by simp only [State.losePower]

theorem losePower_waiting (s : State) : s.losePower.waiting = levelsWhere fun l =>
    levelPresent s.cfg l && !freeBit (s.draws + 1024 + l) && freeBit (s.draws + 2048 + l) := by
  simp only [State.losePower]

theorem losePower_armed (s : State) : s.losePower.armed =
    levelsWhere fun l => isSystemLevel l && freeBit (s.draws + 3072 + l) := by simp only [State.losePower]

/-- Power loss keeps the invariant and memory; it does not keep a lock-out register. -/
theorem losePower_inv {s : State} (h : s.Inv) : s.losePower.Inv := by
  have hi : ∀ ch, s.losePower.hasInterlace ch = s.hasInterlace ch := hasInterlace_congr rfl
  have hc : ∀ ch, ∃ k, s.losePower.chan ch = s.unknownChan ch k := unknownChans_get s _
  exact
    { memory := h.memory
      waitingRising := by rw [losePower_waiting]; exact levelsWhere_rising _
      activeRising := by rw [losePower_active]; exact levelsWhere_rising _
      armedRising := by rw [losePower_armed]; exact levelsWhere_rising _
      oneState := fun l hw ha => by
        rw [losePower_waiting] at hw; rw [losePower_active] at ha
        have h1 := mem_levelsWhere hw
        have h2 := mem_levelsWhere ha
        simp only [Bool.and_eq_true, Bool.not_eq_true'] at h1 h2
        rw [h2.2] at h1; exact absurd h1.1.2 (by simp)
      waitingPresent := fun l hw => by
        rw [losePower_waiting] at hw
        have h1 := mem_levelsWhere hw
        simp only [Bool.and_eq_true] at h1; exact h1.1.1
      activePresent := fun l ha => by
        rw [losePower_active] at ha
        have h1 := mem_levelsWhere ha
        simp only [Bool.and_eq_true] at h1; exact h1.1
      armedSystem := fun l ha => by
        rw [losePower_armed] at ha
        have h1 := mem_levelsWhere ha
        simp only [Bool.and_eq_true] at h1; exact h1.1
      directExtended := fun ch hd => by
        obtain ⟨k, e⟩ := hc ch; rw [e]; exact unknownChan_ia s ch k hd (h.directExtended ch hd)
      alertInterlaced := fun ch ha => by
        obtain ⟨k, e⟩ := hc ch; rw [e] at ha; rw [hi]
        exact unknownChan_ilcAlert s ch k (h.alertInterlaced ch) ha
      activeInterlaced := fun ch ha => by
        obtain ⟨k, e⟩ := hc ch; rw [e] at ha; rw [hi]
        exact unknownChan_ilcActive s ch k (h.activeInterlaced ch) ha
      installation := h.installation }

theorem losePower_memRead (s : State) (k : PAddr) : s.losePower.memRead k = s.memRead k := memRead_congr rfl rfl k

end Sys2Proof.Machine
end

