-- ==== Sys2Proof/Laws/Channel.lean ====
section
/-! SUPPORT. The fields that characters fill, and the channel's operations case by case. -/

namespace Sys2Proof.Machine

open Sys2Proof

theorem toNat_shiftIn (b : Nat) (w c : Word) :
    (shiftIn b w c).toNat = (w.toNat * 2 ^ b + c.toNat % 2 ^ b) % 2 ^ 24 := by simp [shiftIn]

theorem toNat_shiftOut (b : Nat) (w : Word) : (shiftOut b w).toNat = w.toNat * 2 ^ b % 2 ^ 24 := by simp [shiftOut]

theorem toNat_leading (b : Nat) (w : Word) : (leading b w).toNat = w.toNat / 2 ^ (24 - b) := by
  simp only [leading, BitVec.toNat_ofNat]
  exact Nat.mod_eq_of_lt (lt_of_le_of_lt (Nat.div_le_self _ _) w.isLt)

/-- The low bits are those of the word itself, whatever fills the rest. -/
theorem toNat_keepLow_mod (n : Nat) (w f : Word) : (keepLow n w f).toNat % 2 ^ n = w.toNat % 2 ^ n := by
  unfold keepLow
  split
  · rfl
  · rw [BitVec.toNat_ofNat, Nat.mod_mod_of_dvd _ (Nat.pow_dvd_pow 2 (by omega)), Nat.add_mul_mod_self_right,
      Nat.mod_mod]

theorem toNat_keepLow_zero (n : Nat) (w : Word) : (keepLow n w 0).toNat = w.toNat % 2 ^ n := by
  have hl := w.isLt
  unfold keepLow
  split
  · exact (Nat.mod_eq_of_lt (lt_of_lt_of_le hl (Nat.pow_le_pow_right (by norm_num) ‹_›))).symm
  · have := Nat.mod_le w.toNat (2 ^ n)
    simp only [BitVec.toNat_ofNat, BitVec.ofNat_eq_ofNat, Nat.zero_mod, Nat.zero_div, Nat.zero_mul, Nat.add_zero]
    exact Nat.mod_eq_of_lt (by omega)

/-- Whether a signal reaches its level depends on the interlace-control fields alone. -/
theorem signalOpen_setChan (s : State) (ch : ChannelId) (c : Chan) (k : Signal) (hi : c.ia = (s.chan ch).ia)
    (hz : c.zcArm = (s.chan ch).zcArm) (he : c.erArm = (s.chan ch).erArm) :
    (s.setChan ch c).signalOpen ch k = s.signalOpen ch k := by
  unfold State.signalOpen
  simp only [State.chan_setChan_self, extended, hi]
  cases k <;> simp only [hz, he] <;> rfl

theorem chanInt_setChan (s : State) (ch : ChannelId) (c : Chan) (k : Signal) (hi : c.ia = (s.chan ch).ia)
    (hz : c.zcArm = (s.chan ch).zcArm) (he : c.erArm = (s.chan ch).erArm) :
    (s.setChan ch c).chanInt ch k =
      { s with
        chans := s.chans.set ch c
        waiting := if s.signalOpen ch k then s.requested (signalLevel ch k) else s.waiting } := by
  rw [State.chanInt, signalOpen_setChan s ch c k hi hz he]
  rfl

/-- A word that is not the last of the count. -/
theorem storeWord_next (s : State) (ch : ChannelId) (w : Word) (h : (s.chan ch).wcr ≠ 1) :
    s.storeWord ch w = (s.store (s.chan ch).mar w).setChan ch
      { (s.chan ch).stepped with ior := if isDirect ch then w else (s.chan ch).ior } := by
  unfold State.storeWord
  dsimp only
  rw [if_neg h]

/-- The last word of the count. -/
theorem storeWord_last (s : State) (ch : ChannelId) (w : Word) (h : (s.chan ch).wcr = 1) :
    s.storeWord ch w = ((s.store (s.chan ch).mar w).setChan ch
      { (s.chan ch).stepped with ior := if isDirect ch then w else (s.chan ch).ior }).countZeroIn ch := by
  unfold State.storeWord
  dsimp only
  rw [if_pos h]

/-- The first assignment to a channel is lost under the second. -/
theorem setChan_setChan (s : State) (ch : ChannelId) (x y : Chan) :
    (s.setChan ch x).setChan ch y = s.setChan ch y := by simp [State.setChan]

/-! ### What each operation of a channel can do, on a state whose channel is `c` -/

/-- A signal of a channel in Extended mode goes by its own arm bit (48 R373). -/
theorem chanInt_extended (s : State) (ch : ChannelId) (c : Chan) (k : Signal) (h : extended ch c = true) :
    (s.setChan ch c).chanInt ch k =
      { s with
        chans := s.chans.set ch c
        waiting := if (match k with | .zc => c.zcArm | .er => c.erArm) then s.requested (signalLevel ch k)
          else s.waiting } := by
  have e : (s.setChan ch c).signalOpen ch k = (match k with | .zc => c.zcArm | .er => c.erArm) := by
    unfold State.signalOpen
    rw [State.chan_setChan_self]
    exact if_pos h
  rw [State.chanInt, e]
  rfl

theorem countZeroIn_compatible (s : State) (ch : ChannelId) (c : Chan) (h : extended ch c = false) :
    (s.setChan ch c).countZeroIn ch = s.setChan ch { c with ilcActive := false } := by
  rw [State.countZeroIn, State.chan_setChan_self, if_neg (by simp [h]), setChan_setChan]

theorem countZeroIn_signals (s : State) (ch : ChannelId) (c : Chan) (h : extended ch c = true)
    (hf : c.fc = 0 ∨ c.fc = 2) :
    (s.setChan ch c).countZeroIn ch =
      { s with
        chans := s.chans.set ch c, waiting := if c.zcArm then s.requested (zcLevel ch) else s.waiting } := by
  rw [State.countZeroIn, State.chan_setChan_self, if_pos h]
  rcases hf with hf | hf <;> rw [hf] <;> exact chanInt_extended s ch c .zc h

/-- A disconnect of a channel that is `c`. -/
theorem disconnect_setChan (s : State) (ch : ChannelId) (c : Chan) :
    (s.setChan ch c).disconnect ch =
      { s with chans := s.chans.set ch (Chan.disconnected ch c), out := .disconnect ch :: s.out } := by
  rw [State.disconnect, State.chan_setChan_self, setChan_setChan]
  rfl

theorem countZeroIn_disconnects (s : State) (ch : ChannelId) (c : Chan) (h : extended ch c = true) (hf : c.fc = 1) :
    let zc := if c.zcArm then s.requested (zcLevel ch) else s.waiting
    (s.setChan ch c).countZeroIn ch =
      { s with
        chans := s.chans.set ch (Chan.disconnected ch c)
        waiting := if c.erArm then State.requested { s with waiting := zc } (erLevel ch) else zc
        out := .disconnect ch :: s.out } := by
  intro zc
  let t : State := { s with waiting := zc }
  have e1 : (s.setChan ch c).chanInt ch .zc = t.setChan ch c := chanInt_extended s ch c .zc h
  have e2 : (t.setChan ch c).chanInt ch .er =
      State.setChan { t with waiting := if c.erArm then t.requested (erLevel ch) else t.waiting } ch c :=
    chanInt_extended t ch c .er h
  rw [State.countZeroIn, State.chan_setChan_self, if_pos h, show c.fc.toNat = 1 by rw [hf]; rfl]
  refine (congrArg (fun u => State.disconnect (State.chanInt u ch .er) ch) e1).trans ?_
  rw [e2, disconnect_setChan]

theorem countZeroIn_proceeds (s : State) (ch : ChannelId) (c : Chan) (h : extended ch c = true) (hf : c.fc = 3) :
    (s.setChan ch c).countZeroIn ch =
      { s with
        chans := s.chans.set ch { c with interRecord := true }
        waiting := if c.zcArm then s.requested (zcLevel ch) else s.waiting } := by
  rw [State.countZeroIn, State.chan_setChan_self, if_pos h, show c.fc.toNat = 3 by rw [hf]; rfl]
  refine (congrArg (fun t => State.setChan t ch { c with interRecord := true })
    (chanInt_extended s ch c .zc h)).trans ?_
  simp [State.setChan, signalLevel]

/-- One input word to memory, in every mode: all that a move can do. -/
theorem storeWord_moved (s : State) (ch : ChannelId) (k : Chan) (v : Word) :
    MovedIn s ch k v ((s.setChan ch k).storeWord ch v) := by
  have hk : (s.setChan ch k).chan ch = k := State.chan_setChan_self s ch k
  let moved : Chan := { k.stepped with ior := if isDirect ch then v else k.ior }
  have e : ((s.setChan ch k).store k.mar v).setChan ch moved = (s.store k.mar v).setChan ch moved := by
    simp only [State.setChan, State.store, Channels.set_set]
    rfl
  refine ⟨_, _, store_stored s k.mar v, fun h => ?_, fun h hx hf => ?_, fun h hx hf => ?_, fun h hx hf => ?_,
    fun h hx => ?_⟩
  · rw [storeWord_next _ _ _ (by rw [hk]; exact h), hk]
    exact e
  all_goals rw [storeWord_last _ _ _ (by rw [hk]; exact h), hk]; refine (congrArg (State.countZeroIn · ch) e).trans ?_
  · exact countZeroIn_signals _ ch moved hx hf
  · exact countZeroIn_disconnects _ ch moved hx hf
  · exact countZeroIn_proceeds _ ch moved hx hf
  · exact countZeroIn_compatible _ ch moved hx

/-- A full word with no more slack waits in the buffer. -/
theorem keepWord_waits (s : State) (ch : ChannelId) (k : Chan) (n : Nat) (h : isDirect ch = false ∨ k.iorFull = true) :
    (s.setChan ch k).keepWord ch n = s.setChan ch { k with wordReady := true, fullBits := n } := by
  unfold State.keepWord
  rw [State.chan_setChan_self]
  dsimp only
  rw [if_neg (by rcases h with h | h <;> simp [h]), setChan_setChan]

/-- On a direct access channel it goes to IOR while that is free. -/
theorem keepWord_slack (s : State) (ch : ChannelId) (k : Chan) (n : Nat) (hd : isDirect ch = true)
    (hi : k.iorFull = false) :
    (s.setChan ch k).keepWord ch n =
      State.draw (s.setChan ch { k with ior := keepLow n k.war s.freeWord, iorFull := true }) 1 := by
  unfold State.keepWord
  rw [State.chan_setChan_self]
  dsimp only
  rw [if_pos (by simp [hd, hi]), setChan_setChan]
  rfl

theorem wordAssembled_stores (s : State) (ch : ChannelId) (k : Chan) (n : Nat) (ha : k.ilcActive = true)
    (h0 : k.wcr ≠ 0) :
    (s.setChan ch k).wordAssembled ch n =
      (State.setChan (s.draw 1) ch k).storeWord ch (keepLow n k.war s.freeWord) := by
  unfold State.wordAssembled
  rw [State.chan_setChan_self]
  dsimp only
  rw [if_pos ha, if_pos h0]
  rfl

theorem wordAssembled_drops (s : State) (ch : ChannelId) (k : Chan) (n : Nat) (ha : k.ilcActive = true)
    (h0 : k.wcr = 0) (hf : k.fc ≠ 3) : (s.setChan ch k).wordAssembled ch n = s.setChan ch k := by
  unfold State.wordAssembled
  rw [State.chan_setChan_self]
  dsimp only
  rw [if_pos ha, if_neg (by simp [h0]), if_neg hf]

theorem wordAssembled_holds (s : State) (ch : ChannelId) (k : Chan) (n : Nat) (ha : k.ilcActive = true)
    (h0 : k.wcr = 0) (hf : k.fc = 3) : (s.setChan ch k).wordAssembled ch n = (s.setChan ch k).keepWord ch n := by
  unfold State.wordAssembled
  rw [State.chan_setChan_self]
  dsimp only
  rw [if_pos ha, if_neg (by simp [h0]), if_pos hf]

theorem wordAssembled_signals (s : State) (ch : ChannelId) (k : Chan) (n : Nat) (ha : k.ilcActive = false) :
    (s.setChan ch k).wordAssembled ch n = ((s.setChan ch k).keepWord ch n).chanInt ch .zc := by
  unfold State.wordAssembled
  rw [State.chan_setChan_self]
  dsimp only
  rw [if_neg (by simp [ha])]

theorem countZeroOut_compatible (s : State) (ch : ChannelId) (c : Chan) (h : extended ch c = false) :
    (s.setChan ch c).countZeroOut ch = s.setChan ch { c with lastWord := true } := by
  rw [State.countZeroOut, State.chan_setChan_self, if_neg (by simp [h]), setChan_setChan]

theorem countZeroOut_last (s : State) (ch : ChannelId) (c : Chan) (h : extended ch c = true) (hf : c.fc ≠ 3) :
    (s.setChan ch c).countZeroOut ch =
      { s with
        chans := s.chans.set ch { c with lastWord := true }
        waiting := if c.zcArm then s.requested (zcLevel ch) else s.waiting } := by
  have hn : c.fc.toNat ≠ 3 := fun k => hf (BitVec.eq_of_toNat_eq k)
  rw [State.countZeroOut, State.chan_setChan_self, if_pos h]
  refine Eq.trans ?_ ((congrArg (fun t => State.setChan t ch { c with lastWord := true })
    (chanInt_extended s ch c .zc h)).trans ?_)
  · split
    · exact absurd ‹_› hn
    · rfl
  · simp [State.setChan, signalLevel]

theorem countZeroOut_proceeds (s : State) (ch : ChannelId) (c : Chan) (h : extended ch c = true) (hf : c.fc = 3) :
    (s.setChan ch c).countZeroOut ch =
      { s with
        chans := s.chans.set ch { c with interRecord := true }
        waiting := if c.zcArm then s.requested (zcLevel ch) else s.waiting } := by
  rw [State.countZeroOut, State.chan_setChan_self, if_pos h, show c.fc.toNat = 3 by rw [hf]; rfl]
  refine (congrArg (fun t => State.setChan t ch { c with interRecord := true })
    (chanInt_extended s ch c .zc h)).trans ?_
  simp [State.setChan, signalLevel]

/-- The next output word is fetched (48 R364, R365). -/
theorem needWord_fetches (s : State) (ch : ChannelId) (c : Chan) (ha : c.ilcActive = true) (h0 : c.wcr ≠ 0)
    (h1 : c.wcr ≠ 1) :
    (s.setChan ch c).needWord ch = s.setChan ch { c.stepped with war := s.memRead c.mar, wordReady := false } := by
  unfold State.needWord
  rw [State.chan_setChan_self]
  dsimp only
  rw [if_pos ha, if_pos h0, if_neg h1, setChan_setChan]
  rfl

/-- The last word of the count is fetched. -/
theorem needWord_fetches_last (s : State) (ch : ChannelId) (c : Chan) (ha : c.ilcActive = true) (h1 : c.wcr = 1) :
    (s.setChan ch c).needWord ch =
      (s.setChan ch { c.stepped with war := s.memRead c.mar, wordReady := false }).countZeroOut ch := by
  unfold State.needWord
  rw [State.chan_setChan_self]
  dsimp only
  rw [if_pos ha, if_pos (by rw [h1]; decide), if_pos h1, setChan_setChan]
  rfl

/-- Beyond the count the buffer stays empty. -/
theorem needWord_empty (s : State) (ch : ChannelId) (c : Chan) (ha : c.ilcActive = true) (h0 : c.wcr = 0) :
    (s.setChan ch c).needWord ch = s.setChan ch { c with wordReady := true } := by
  unfold State.needWord
  rw [State.chan_setChan_self]
  dsimp only
  rw [if_pos ha, if_neg (by simp [h0]), setChan_setChan]

/-- With no interlace running the program is asked for a word. -/
theorem needWord_asks (s : State) (ch : ChannelId) (c : Chan) (ha : c.ilcActive = false) :
    (s.setChan ch c).needWord ch = (s.setChan ch { c with wordReady := true }).chanInt ch .zc := by
  unfold State.needWord
  rw [State.chan_setChan_self]
  dsimp only
  rw [if_neg (by simp [ha]), setChan_setChan]

/-- After the last word the device is told, or the channel disconnects with its signal (48 R365 to R371). -/
theorem lastWordOut_disconnects (s : State) (ch : ChannelId) (c : Chan)
    (h : (c.ilcActive && extended ch c && c.fc != 1) = false) :
    (s.setChan ch c).lastWordOut ch =
      { s with
        chans := s.chans.set ch (Chan.disconnected ch { c with wordReady := true })
        waiting := if (s.setChan ch c).signalOpen ch .er then s.requested (erLevel ch) else s.waiting
        out := .disconnect ch :: s.out } := by
  have e := chanInt_setChan (s.setChan ch c) ch { c with wordReady := true } .er
    (by rw [State.chan_setChan_self]) (by rw [State.chan_setChan_self]) (by rw [State.chan_setChan_self])
  unfold State.lastWordOut
  rw [State.chan_setChan_self]
  dsimp only
  rw [if_neg (by rw [h]; simp), e]
  simp [State.disconnect, State.setChan, State.send, State.chan, signalLevel]
  rfl

theorem lastWordOut_waits (s : State) (ch : ChannelId) (c : Chan)
    (h : (c.ilcActive && extended ch c && c.fc != 1) = true) :
    (s.setChan ch c).lastWordOut ch =
      { s with
        chans := s.chans.set ch { c with lastWord := true, wordReady := true }, out := .lastChar ch :: s.out } := by
  unfold State.lastWordOut
  rw [State.chan_setChan_self]
  dsimp only
  rw [if_pos h, setChan_setChan]
  rfl

/-- A connect that alerts (48 R355, R358): the alerted channel, and the device is told. -/
theorem connectUnit_alerts (s : State) (ch : ChannelId) (k : Conn) (hk : k.unit ≠ 0) (ha : k.alert = true)
    (hi : s.hasInterlace ch = true) :
    s.connectUnit ch k = (s.setChan ch (Chan.alerted ch ((s.chan ch).connected k true))).send
      (.connect ch k.unit k.reverse k.noLeader k.binary) := by
  have hi' : (s.setChan ch ((s.chan ch).connected k true)).hasInterlace ch = true := hi
  unfold State.connectUnit State.alert
  rw [if_neg hk]
  simp only [ha, hi, Bool.true_and, Bool.and_false, Bool.not_true, if_true]
  rw [if_pos hi', State.chan_setChan_self, setChan_setChan]
  rfl

/-- A connect that does not alert: the connected channel, of which an output asks for its first word (48 R355). -/
theorem connectUnit_plain (s : State) (ch : ChannelId) (k : Conn) (hk : k.unit ≠ 0)
    (ha : k.alert = false ∨ s.hasInterlace ch = false) :
    s.connectUnit ch k =
      let t := State.setChan (s.send (.connect ch k.unit k.reverse k.noLeader k.binary)) ch
        ((s.chan ch).connected k false)
      if k.unit.msb then t.needWord ch else t := by
  have hn : (k.alert && s.hasInterlace ch) = false := by rcases ha with h | h <;> simp [h]
  have hi : (s.setChan ch ((s.chan ch).connected k false)).hasInterlace ch = s.hasInterlace ch := rfl
  unfold State.connectUnit
  rw [if_neg hk]
  dsimp only
  rw [hn, Bool.not_false, Bool.and_true]
  rcases ha with h | h
  · rw [h]; rfl
  · rw [State.alert, hi, h]
    cases k.alert <;> rfl

end Sys2Proof.Machine
end

