-- ==== Sys2Proof/Laws/Decode.lean ====
section
/-! SUPPORT. Laws of the encoding: a word and its fields are one to one, and so are the address field and its parts. -/

namespace Sys2Proof

theorem Fields.split_join (f : Fields) : Fields.split f.join = f := by
  obtain ⟨b0, b1, b2, code, b9, mode, fn, b17, unit⟩ := f
  simp only [Fields.split, Fields.join, Fields.mk.injEq, BitVec.getMsbD, BitVec.getLsbD_append]
  refine ⟨?_, ?_, ?_, ?_, ?_, ?_, ?_, ?_, ?_⟩
  · simp
  · simp
  · simp
  · apply BitVec.eq_of_getLsbD_eq; intro i hi
    simp only [BitVec.getLsbD_extractLsb', BitVec.getLsbD_append]; interval_cases i <;> rfl
  · simp
  · apply BitVec.eq_of_getLsbD_eq; intro i hi
    simp only [BitVec.getLsbD_extractLsb', BitVec.getLsbD_append]; interval_cases i <;> rfl
  · apply BitVec.eq_of_getLsbD_eq; intro i hi
    simp only [BitVec.getLsbD_extractLsb', BitVec.getLsbD_append]; interval_cases i <;> rfl
  · simp
  · apply BitVec.eq_of_getLsbD_eq; intro i hi
    simp only [BitVec.getLsbD_extractLsb', BitVec.getLsbD_append]; interval_cases i <;> rfl

theorem Fields.join_split (w : Word) : (Fields.split w).join = w := by
  apply BitVec.eq_of_getLsbD_eq; intro i hi
  simp only [Fields.join, Fields.split, BitVec.getLsbD_append, BitVec.getMsbD, BitVec.getLsbD_extractLsb']
  interval_cases i <;> simp

@[simp] theorem Fields.addr_ofAddr (b0 b1 b2 : Bool) (code : BitVec 6) (b9 : Bool) (a : Addr) :
    (Fields.ofAddr b0 b1 b2 code b9 a).addr = a := by
  apply BitVec.eq_of_getLsbD_eq; intro i hi
  simp only [Fields.addr, Fields.ofAddr, BitVec.getLsbD_append, BitVec.getMsbD, BitVec.getLsbD_extractLsb']
  interval_cases i <;> simp

@[simp] theorem Fields.fn12_ofAddr (b0 b1 b2 : Bool) (code : BitVec 6) (b9 : Bool) (m : BitVec 2) (g : BitVec 12) :
    (Fields.ofAddr b0 b1 b2 code b9 (m ++ g)).fn12 = g := by
  apply BitVec.eq_of_getLsbD_eq; intro i hi
  simp only [Fields.fn12, Fields.ofAddr, BitVec.getLsbD_append, BitVec.getMsbD, BitVec.getLsbD_extractLsb']
  interval_cases i <;> simp

@[simp] theorem Fields.mode_ofAddr (b0 b1 b2 : Bool) (code : BitVec 6) (b9 : Bool) (m : BitVec 2) (g : BitVec 12) :
    (Fields.ofAddr b0 b1 b2 code b9 (m ++ g)).mode = m := by
  apply BitVec.eq_of_getLsbD_eq; intro i hi
  simp only [Fields.ofAddr, BitVec.getLsbD_extractLsb', BitVec.getLsbD_append]
  interval_cases i <;> simp

@[simp] theorem Ref.fields_ref (r : Ref) (code : BitVec 6) : (r.fields code).ref = r := by
  simp [Ref.fields, Fields.ref, Fields.ofAddr]
  exact congrArg _ (Fields.addr_ofAddr false r.indexed false code r.indirect r.addr)

/-- Decoding what the encoder wrote is decoding its fields. -/
theorem decode_encode_fields (ctx : ChannelId → ChanCtx) (i : Instr) :
    decode ctx (encode i) = decodeFields ctx (encodeFields i) := by
  simp only [decode, encode, Fields.split_join]

theorem ChannelId.ofBits_bits (ch : ChannelId) : ChannelId.ofBits ch.hi ch.mid ch.lo = ch := by
  cases ch <;> rfl

end Sys2Proof
end

