-- ==== Sys2Proof/Laws/Marks.lean ====
section
/-! SUPPORT. The marks of BRM and of the Programmed Operators, field by field. -/

namespace Sys2Proof.Machine

open Sys2Proof

theorem brmMark_toNat (s : State) :
    s.brmMark.toNat = s.ov.toNat * 2 ^ 23 + s.em3.toNat * 2 ^ 18 + s.em2.toNat * 2 ^ 15 + s.p.toNat := by
  unfold State.brmMark
  rw [append_toNat, append_toNat, append_toNat, append_toNat, append_toNat]
  cases s.ov <;> simp <;> omega

theorem popMark_toNat (s : State) : s.popMark.toNat = s.ov.toNat * 2 ^ 23 + 2 ^ 14 + s.p.toNat := by
  unfold State.popMark
  rw [append_toNat, append_toNat, append_toNat]
  cases s.ov <;> simp

theorem popTarget_toNat (code : BitVec 6) : (popTarget code).toNat = 0o100 + code.toNat := by
  unfold popTarget
  rw [append_toNat, append_toNat]
  simp

end Sys2Proof.Machine
end

