-- ==== Sys2Proof/Laws/Step.lean ====
section
/-! SUPPORT. The step, case by case. -/

namespace Sys2Proof.Machine

open Sys2Proof

/-- The instruction in C runs, where nothing stops it. -/
theorem runC_ok {s : State} {i : Instr} (hd : decode s.context s.c = .ok i)
    (ha : s.airAlert = true → afterAir i = true) (ht : s.tooShort i = false) : s.runC = finish (exec i s) := by
  rw [State.runC, State.checked, hd]
  cases hx : s.airAlert
  · simp [ht]
  · simp [ha hx, ht]

theorem step_fetch {s : State} (h : s.schedule = []) (hp : s.power = .on) (hc : s.cState = .none ∨ s.cState = .forced)
    (hr : s.console.runSwitch = .run) (hh : s.console.hold = false) (hl : s.halted = false) :
    step s = s.fetch.runC := by
  rcases hc with hc | hc <;> 
    simp [step, h, State.cpuStep, State.processorTurn, State.atBoundary, hp, hc, hr, hh, hl]

theorem step_goes_on {s : State} (h : s.schedule = []) (hp : s.power = .on)
    (hh : s.console.runSwitch = .run → s.console.hold = false)
    (hc : s.cState = .subject ∨ s.cState = .chain ∨ s.cState = .operand ∨ s.cState = .waiting) : step s = s.runC := by
  rcases hc with hc | hc | hc | hc <;> simp [step, h, State.cpuStep, State.processorTurn, hp, hc] <;> simp_all

/-- RUN with HOLD on is refused (70 R595). -/
theorem processorTurn_refuses {s : State} (hp : s.power = .on) (hr : s.console.runSwitch = .run)
    (hh : s.console.hold = true) (f g : State → Result) :
    s.processorTurn f g = .refused .operatorPrecondition := by simp [State.processorTurn, hp, hr, hh]

theorem tooShort_sequence {s : State} {i : Instr} (h : s.origin = .sequence) : s.tooShort i = false := by
  simp [State.tooShort, h]

theorem tooShort_console {s : State} {i : Instr} (h : s.origin = .console) : s.tooShort i = false := by
  simp [State.tooShort, h]

theorem tooShort_unfinished {s : State} {i : Instr}
    (h : s.cState = .subject ∨ s.cState = .chain ∨ s.cState = .operand ∨ s.cState = .waiting) :
    s.tooShort i = false := by
  rcases h with h | h | h | h <;> cases ho : s.origin <;> simp [State.tooShort, h, ho]

end Sys2Proof.Machine
end

