-- ==== Sys2Proof/Tests/Slice0.lean ====
section
/-! SUPPORT. Tests of the definitions, and a witness for the hypotheses of every statement. Words and expected results
are those of the spec: E and V numbers are rows of 95_test_vectors, R numbers rules. -/

namespace Sys2Proof.Tests

open Sys2Proof Sys2Proof.Machine

/-! ### Well-formedness: an ill-formed term for each check -/

/-- Refused whatever the channels say. -/
def illFormed (i : Instr) : Bool := [ChanCtx.plain, .alerted, .tapeInput].all fun c => !i.wellFormed fun _ => c

theorem test_wf_named_register_change : illFormed (.rch { clearA := true }) = true := by decide
theorem test_wf_rsh_kind : illFormed (.rsh ⟨false, false, 0o20005⟩) = true := by decide
theorem test_wf_rsh_indirect_kind : illFormed (.rsh ⟨false, true, 0o24005⟩) = true := by decide
theorem test_wf_rcy_kind : illFormed (.rcy ⟨false, false, 0o00005⟩) = true := by decide
theorem test_wf_lrsh_kind : illFormed (.lrsh ⟨false, false, 0o20005⟩) = true := by decide
theorem test_wf_lsh_kind : illFormed (.lsh ⟨false, false, 0o10005⟩) = true := by decide
theorem test_wf_lsh_indirect_kind : illFormed (.lsh ⟨false, true, 0o20005⟩) = true := by decide
theorem test_wf_lcy_kind : illFormed (.lcy ⟨false, false, 0o00005⟩) = true := by decide
theorem test_wf_nod_kind : illFormed (.nod ⟨false, false, 0o20005⟩) = true := by decide
theorem test_wf_eom_named : illFormed (.eom ⟨false, false, 2, 0o0002⟩) = true := by decide
theorem test_wf_eom_connect : illFormed (.eom ⟨false, false, 0, 0o2604⟩) = true := by decide
theorem test_wf_eod_setext : illFormed (.eod ⟨false, false, 2, 0o0354⟩) = true := by decide
theorem test_wf_sks_named : illFormed (.sks ⟨false, false, 2, 0o0001⟩) = true := by decide
theorem test_wf_sks_exttest : illFormed (.sks ⟨false, true, 0, 0o0003⟩) = true := by decide
theorem test_wf_sks_cat : illFormed (.sks ⟨false, false, 1, 0o4000⟩) = true := by decide
theorem test_wf_connect_named : illFormed (.connect .w ⟨false, false, true, false, 3, 0o04⟩) = true := by decide
theorem test_wf_connect_dsc : illFormed (.connect .w ⟨false, false, false, false, 0, 0⟩) = true := by decide
theorem test_wf_asc_alerted : Instr.wellFormed (fun _ => .alerted) (.asc .w) = false := by decide
theorem test_wf_top_tape : Instr.wellFormed (fun _ => .tapeInput) (.top .w) = false := by decide
theorem test_wf_rts_plain : Instr.wellFormed (fun _ => .plain) (.rts .w) = false := by decide
theorem test_wf_ilc_asc : Instr.wellFormed (fun _ => .plain) (.ilc .w ⟨false, true, false, 0, false, 0⟩) = false := by
  decide
theorem test_wf_ioctl_named : illFormed (.ioctl .w 0b01000 0o06) = true := by decide
theorem test_wf_ioctl_unit : illFormed (.ioctl .w 0b00010 0) = true := by decide
theorem test_wf_src_alerted : Instr.wellFormed (fun _ => .alerted) (.src .w) = false := by decide
theorem test_wf_rew_alerted : Instr.wellFormed (fun _ => .alerted) (.rew .w 3) = false := by decide
theorem test_wf_srr_alerted : Instr.wellFormed (fun _ => .alerted) (.srr .w) = false := by decide
theorem test_wf_pol_alerted : Instr.wellFormed (fun _ => .alerted) (.pol .w) = false := by decide
theorem test_wf_psc_alerted : Instr.wellFormed (fun _ => .alerted) (.psc .w 1) = false := by decide
theorem test_wf_psp_alerted : Instr.wellFormed (fun _ => .alerted) (.psp .w 1) = false := by decide
theorem test_wf_devtest_named : illFormed (.devtest .w 0b01000 0o06) = true := by decide
theorem test_wf_devtest_unit : illFormed (.devtest .w 0b01000 0) = true := by decide

/-! ### Decoding: a word of every row, written out from its encoding -/

/-- Each word stands for its instruction, where every channel is as `c` says. -/
def reads (c : ChanCtx) (l : List (Nat × Instr)) : Bool :=
  l.all fun p =>
    match decode (fun _ => c) (BitVec.ofNat 24 p.1) with
    | .ok j => j == p.2
    | .error _ => false

theorem test_decode_load_store : reads .plain
    [(0o27641750, .lda ⟨true, true, 0o01750⟩), (0o23500017, .sta ⟨true, false, 0o00017⟩),
     (0o07577777, .ldb ⟨false, true, 0o37777⟩), (0o03600305, .stb ⟨false, false, 0o00305⟩),
     (0o27140000, .ldx ⟨true, true, 0⟩), (0o03700001, .stx ⟨false, false, 1⟩),
     (0o27740100, .eax ⟨true, true, 0o100⟩), (0o06220000, .xma ⟨false, false, 0o20000⟩),
     (0o47601750, .lda ⟨false, false, 0o01750⟩)] = true := by decide

theorem test_decode_arithmetic : reads .plain
    [(0o05501020, .add ⟨false, false, 0o1020⟩), (0o05701021, .adc ⟨false, false, 0o1021⟩),
     (0o26300001, .adm ⟨true, false, 1⟩), (0o06100002, .min ⟨false, false, 2⟩),
     (0o05440003, .sub ⟨false, true, 3⟩), (0o05600004, .suc ⟨false, false, 4⟩),
     (0o06440000, .mul ⟨false, true, 0⟩), (0o26500005, .div ⟨true, false, 5⟩)] = true := by decide

theorem test_decode_logical : reads .plain
    [(0o01400006, .etr ⟨false, false, 6⟩), (0o21600007, .mrg ⟨true, false, 7⟩),
     (0o01740010, .eor ⟨false, true, 0o10⟩)] = true := by decide

theorem test_decode_branch : reads .plain
    [(0o00142000, .bru ⟨false, true, 0o2000⟩), (0o24100017, .brx ⟨true, false, 0o17⟩),
     (0o04300522, .brm ⟨false, false, 0o522⟩), (0o05102000, .brr ⟨false, false, 0o2000⟩)] = true := by decide

theorem test_decode_skip : reads .plain
    [(0o05000011, .ske ⟨false, false, 0o11⟩), (0o07340012, .skg ⟨false, true, 0o12⟩),
     (0o27000013, .skm ⟨true, false, 0o13⟩), (0o07200014, .ska ⟨false, false, 0o14⟩),
     (0o05200015, .skb ⟨false, false, 0o15⟩), (0o05340016, .skn ⟨false, true, 0o16⟩),
     (0o06000017, .skr ⟨false, false, 0o17⟩), (0o27400020, .skd ⟨true, false, 0o20⟩)] = true := by decide

theorem test_decode_control : reads .plain
    [(0o00000000, .hlt), (0o40012345, .hlt), (0o02000000, .nop), (0o02077777, .nop),
     (0o14002163, .pop 0o40 ⟨false, false, 0o2163⟩), (0o37777777, .pop 0o77 ⟨true, true, 0o37777⟩),
     (0o02300021, .exu ⟨false, false, 0o21⟩), (0o00220001, .rov), (0o00220010, .reo),
     (0o00620354, .setext true true 5 4), (0o00620206, .setext true false 0 6), (0o04020001, .ovt),
     (0o04020040, .bpt4), (0o04020100, .bpt3), (0o04020200, .bpt2), (0o04020400, .bpt1),
     (0o04040002, .exttest true false), (0o04040001, .exttest false true)] = true := by decide

theorem test_decode_transfers : reads .plain
    [(0o01200022, .miw ⟨false, false, 0o22⟩), (0o03240023, .wim ⟨false, true, 0o23⟩),
     (0o01000024, .miy ⟨false, false, 0o24⟩), (0o23000025, .yim ⟨true, false, 0o25⟩),
     (0o03300026, .pin ⟨false, false, 0o26⟩), (0o01340027, .pot ⟨false, true, 0o27⟩)] = true := by decide

theorem test_decode_register_change : reads .plain
    [(0o04600001, .cla), (0o04600002, .clb), (0o04600003, .clr), (0o04600004, .cab), (0o04600010, .cba),
     (0o04600014, .xab), (0o04600012, .bac), (0o04600005, .abc), (0o24600000, .clx), (0o04600200, .cxa),
     (0o04600400, .cax), (0o04600600, .xxa), (0o04600020, .cbx), (0o04600040, .cxb), (0o04600060, .xxb),
     (0o04600122, .ste), (0o04600140, .lde), (0o04600160, .xee), (0o04601000, .cna),
     (0o24600021, .rch { clearX := true, bToX := true, clearA := true })] = true := by decide

theorem test_decode_shift : reads .plain
    [(0o06600022, .rsh ⟨false, false, 0o22⟩), (0o06620017, .rcy ⟨false, false, 0o20017⟩),
     (0o26624003, .lrsh ⟨true, false, 0o24003⟩), (0o26700022, .lsh ⟨true, false, 0o22⟩),
     (0o06720011, .lcy ⟨false, false, 0o20011⟩), (0o06710030, .nod ⟨false, false, 0o10030⟩),
     (0o06642000, .rsh ⟨false, true, 0o2000⟩)] = true := by decide

theorem test_decode_general : reads .plain
    [(0o00220003, .eom ⟨false, false, 2, 3⟩), (0o00630005, .eod ⟨false, false, 3, 5⟩),
     (0o04020140, .sks ⟨false, false, 2, 0o140⟩), (0o00203701, .connect .y ⟨false, false, true, true, 3, 1⟩),
     (0o00642000, .connect .e ⟨true, false, true, false, 0, 0⟩), (0o20200100, .dsc .d), (0o20250000, .alc .c),
     (0o00612000, .asc .e), (0o00214100, .top .y), (0o00215000, .ilc .w ⟨true, false, true, 0, false, 0⟩),
     (0o20610405, .ioctl .g 0b00010 0o05), (0o60271234, .syseom ⟨true, true, true, 0o1234⟩)] = true := by decide

theorem test_decode_interlace_control : reads .alerted
    [(0o00213675, .ilc .w ⟨false, true, true, 3, true, 0b11101⟩),
     (0o00212006, .ilc .w ⟨false, true, false, 0, false, 6⟩), (0o00215001, .ilc .w ⟨true, false, true, 0, false, 1⟩),
     (0o00250000, .alc .w)] = true := by decide

theorem test_decode_interrupt : reads .plain
    [(0o00220002, .eir), (0o00220004, .dir), (0o00220020, .air), (0o00220100, .rtcarm), (0o00220200, .rtcdisarm),
     (0o04020002, .idt), (0o04020004, .iet), (0o04024000, .pfst)] = true := by decide

theorem test_decode_channel_tests : reads .plain
    [(0o04020010, .betw), (0o04020020, .bety), (0o04021000, .brtw), (0o04022000, .brty),
     (0o44071777, .syssks ⟨true, false, true, 0o1777⟩), (0o24010503, .devtest .d 0b00010 0o03),
     (0o04054100, .cat .f), (0o24052100, .czt .h), (0o04011100, .cet .y), (0o24010400, .cit .c)] = true := by decide

theorem test_decode_connects : reads .plain
    [(0o00242601, .rkb .w ⟨true, 3⟩), (0o00202241, .typ .w ⟨false, 1⟩), (0o00202704, .rpt .y ⟨false, 3⟩),
     (0o00200644, .ptl .w ⟨false, 3⟩), (0o00202044, .ppt .w ⟨false, 0⟩), (0o20202606, .rcd .c ⟨false, 3⟩),
     (0o20203706, .rcb .d ⟨false, 3⟩), (0o20602646, .pcd .g ⟨false, 3⟩), (0o20603746, .pcb .h ⟨false, 3⟩),
     (0o00203653, .wtb .w ⟨false, 3⟩ 3), (0o00642657, .wtd .e ⟨true, 3⟩ 7), (0o00603770, .eft .f ⟨false, 3⟩ 0),
     (0o00207671, .ert .w ⟨false, 3⟩ 1), (0o00203612, .rtb .w ⟨false, 3⟩ 2), (0o00242610, .rtd .w ⟨true, 3⟩ 0),
     (0o00203634, .sfb .w ⟨false, 3⟩ 4), (0o00202635, .sfd .w ⟨false, 3⟩ 5), (0o00207636, .srb .w ⟨false, 3⟩ 6),
     (0o00206637, .srd .w ⟨false, 3⟩ 7), (0o00202660, .plp .w ⟨false, 3⟩)] = true := by decide

theorem test_decode_commands : reads .plain
    [(0o00212106, .src .y), (0o00214013, .rew .w 3), (0o00213610, .srr .w), (0o00210260, .pol .w),
     (0o00215460, .psc .w 5), (0o00212660, .psp .w 2)] = true := by decide

theorem test_decode_tape_scan : reads .tapeInput [(0o00214000, .rts .w), (0o00614100, .rts .f)] = true := by decide

theorem test_decode_device_tests : reads .plain
    [(0o04012006, .crt .w), (0o04014106, .fct .y), (0o24011006, .cft .c), (0o04052046, .pbt .e), (0o04014046, .cpt .w),
     (0o04010412, .trt .w 2), (0o04014013, .fpt .w 3), (0o04012014, .btt .w 4), (0o04011015, .ett .w 5),
     (0o04016216, .dt2 .w 6), (0o04016617, .dt5 .w 7), (0o04017211, .dt8 .w 1), (0o04012612, .tgt .w 2),
     (0o04010213, .magpak .w 3), (0o04013610, .tft .w), (0o04011060, .pft .w), (0o04012160, .prt .y),
     (0o04014060, .ept .w)] = true := by decide

/-- Words that stand for nothing are refused, each by its reason. -/
theorem test_decode_refuses :
    decode (fun _ => .plain) 0o00300000 = .error .unassignedCode ∧
    decode (fun _ => .plain) 0o04400000 = .error .unassignedCode ∧
    decode (fun _ => .plain) 0o06610000 = .error .undefinedShift ∧
    decode (fun _ => .plain) 0o06724000 = .error .undefinedShift ∧
    decode (fun _ => .plain) 0o04602001 = .error .undefinedRegisterChange := by decide

/-- The decoder as the host asks for it: one word of 24 bits. -/
theorem test_decodeTableWord : decodeTableWord 24 0o07600000 = some (.lda ⟨false, false, 0⟩) ∧
    decodeTableWord 24 0o00214000 = some (.top .w) ∧ decodeTableWord 24 0o00300000 = none := by decide

/-! ### One instruction -/

/-- Running, about to fetch at 0100. -/
def s0 : State :=
  { State.reset with console := { Console.reset with runSwitch := .run }, cState := .none, p := 0o100 }

/-- The operand of the one-instruction tests. -/
def at200 : Ref := ⟨false, false, 0o200⟩

/-- `s0` with a word at 0200. -/
def with200 (m : Word) : State := { s0 with mem := [(0o200, m)] }

/-- The instruction completes and its next state is as `f` says. -/
def after (i : Instr) (s : State) (f : State → Bool) : Bool :=
  match exec i s with
  | .next t => f t
  | _ => false

/-- It goes on in sequence, or skips. -/
def goesOn (t : State) : Bool := t.p == 0o101 && t.cState == .none
def skips (t : State) : Bool := t.p == 0o102 && t.cState == .none

/-- E1: indexing and indirect addressing. -/
def e1 : State := { s0 with
  x := 1, mem := [(0o1000, 0o00001001), (0o1001, 0o00041002), (0o1002, 0o00001003), (0o1003, 0o00000002)] }
theorem test_ea_direct : e1.ea ⟨false, false, 0o1000⟩ = .addr 0o1000 := by decide
theorem test_ea_indexed : e1.ea ⟨true, false, 0o1000⟩ = .addr 0o1001 := by decide
theorem test_ea_indirect : e1.ea ⟨false, true, 0o1000⟩ = .addr 0o1001 := by decide
theorem test_ea_two_levels : e1.ea ⟨true, true, 0o1000⟩ = .addr 0o1003 := by decide
/-- E2: address 23300 with EM2 = 4. -/
theorem test_phys : State.phys { s0 with em2 := 4 } 0o23300 = 0o43300 := by decide

theorem test_lda : after (.lda at200) (with200 0o12345670) (fun t => goesOn t && t.a == 0o12345670) = true := by decide
theorem test_ldb : after (.ldb at200) (with200 5) (fun t => t.b == 5 && t.a == 0) = true := by decide
/-- V4: EA used the old X. -/
theorem test_ldx : after (.ldx ⟨true, false, 0o177⟩) { with200 0o77777771 with x := 1 } (fun t => t.x == 0o77777771) =
    true := by decide
theorem test_sta :
    after (.sta at200) { s0 with a := 0o12345670 } (fun t => goesOn t && t.mem == [(0o200, 0o12345670)]) =
    true := by decide
/-- Zero is not listed. -/
theorem test_stb : after (.stb at200) (with200 5) (fun t => t.mem == []) = true := by decide
/-- V22. -/
theorem test_stx :
    after (.stx at200) { s0 with x := 0o40000123 } (fun t => t.read 0o200 == 0o40000123) = true := by decide
/-- A protected word stays and the interrupt at 035 is requested (20 R64). -/
theorem test_sta_protected : after (.sta at200) { with200 5 with a := 7, lockSubs := 1 }
    (fun t => t.read 0o200 == 5 && t.waiting == [0o35]) = true := by decide
/-- V2. -/
theorem test_eax :
    after (.eax ⟨true, false, 0o37777⟩) { s0 with x := 0o12300002 } (fun t => t.x == 0o12300001) = true := by
  decide
/-- V25. -/
theorem test_xma : after (.xma at200) { with200 0o22222222 with a := 0o11111111 }
    (fun t => t.a == 0o22222222 && t.read 0o200 == 0o11111111) = true := by decide
/-- V35. -/
theorem test_add : after (.add at200) { with200 0o77777777 with a := 0o40000000 }
    (fun t => t.a == 0o37777777 && t.ov && t.x == 0o40000000) = true := by decide
/-- V42. -/
theorem test_adc : after (.adc at200) { with200 0 with a := 0o37777777, x := 0o40000000, ov := true }
    (fun t => t.a == 0o40000000 && t.ov && t.x == 0) = true := by decide
/-- V46. -/
theorem test_adm : after (.adm at200) { with200 1 with a := 0o37777777, x := 0o12345670 }
    (fun t => t.read 0o200 == 0o40000000 && t.ov && t.x == 0o12345670 && t.a == 0o37777777) = true := by decide
/-- V47, V48. -/
theorem test_min : (after (.min at200) (with200 0o37777777) (fun t => t.read 0o200 == 0o40000000 && t.ov) &&
    after (.min at200) (with200 0o77777777) (fun t => t.mem == [] && !t.ov)) = true := by decide
/-- V54 under both values of SUB_CARRY_POLARITY. -/
theorem test_sub : (after (.sub at200) { with200 5 with a := 3 } (fun t => t.a == 0o77777776 && t.x == 0) &&
    after (.sub at200) { with200 5 with a := 3, cfg := { Config.standard with subBorrow := true } }
      (fun t => t.a == 0o77777776 && t.x == 0o40000000)) = true := by decide
/-- V58. -/
theorem test_suc : after (.suc at200) { with200 0o14236213 with a := 0o36142070, ov := true }
    (fun t => t.a == 0o21703654 && !t.ov && t.x == 0o40000000) = true := by decide
/-- V65. -/
theorem test_mul : after (.mul at200) { with200 0o37777777 with a := 0o40000000 }
    (fun t => t.a == 0o40000001 && t.b == 0 && !t.ov) = true := by decide
/-- V72 and V80. -/
theorem test_div : (after (.div at200) { with200 3 with a := 0o77777777, b := 0o77777762 }
      (fun t => t.a == 0o77777776 && t.b == 0o77777777 && !t.ov) &&
    after (.div at200) { with200 0 with b := 0o16 } (fun t => t.ov && goesOn t)) = true := by decide
/-- E10 to E12. -/
theorem test_etr :
    after (.etr at200) { with200 0o00777600 with a := 0o64231567 } (fun t => t.a == 0o00231400) = true := by
  decide
theorem test_mrg :
    after (.mrg at200) { with200 0o02340712 with a := 0o06446254 } (fun t => t.a == 0o06746756) = true := by
  decide
theorem test_eor :
    after (.eor at200) { with200 0o70077021 with a := 0o34165031 } (fun t => t.a == 0o44112010) = true := by
  decide

/-- E18. -/
theorem test_brx : (after (.brx at200) { s0 with x := 0o77777776 } (fun t => t.p == 0o200 && t.x == 0o77777777) &&
    after (.brx at200) { s0 with x := 0o77777777 } (fun t => goesOn t && t.x == 0)) = true := by decide
/-- E19. -/
theorem test_brm : after (.brm ⟨false, false, 0o522⟩) { s0 with p := 0o1517, ov := true }
    (fun t => t.read 0o522 == 0o43201517 && t.p == 0o523 && t.ov) = true := by decide
/-- E20, E21. -/
theorem test_brr : (after (.brr at200) (with200 0o00003220) (fun t => t.p == 0o3221 && !t.ov) &&
    after (.brr at200) (with200 0o45100200) (fun t => t.p == 0o201 && t.ov)) = true := by decide
/-- 60 R534: of the Active levels the one of highest priority ends. -/
theorem test_bru : after (.bru ⟨false, true, 0o200⟩) { with200 0o00000300 with active := [0o31, 0o200] }
    (fun t => t.p == 0o300 && t.active == [0o200]) = true := by decide
theorem test_ske :
    (after (.ske at200) { with200 5 with a := 5 } skips && after (.ske at200) (with200 5) goesOn) = true := by
  decide
theorem test_skg : (after (.skg at200) (with200 0o77777777) skips && after (.skg at200) (with200 0) goesOn) = true := by
  decide
/-- E22. -/
theorem test_skm :
    after (.skm at200) { with200 0o57643240 with a := 0o00043007, b := 0o00177000 } skips = true := by decide
/-- E23. -/
theorem test_ska : (after (.ska at200) { with200 0o40000000 with a := 1 } skips &&
    after (.ska at200) { with200 1 with a := 1 } goesOn) = true := by decide
theorem test_skb :
    (after (.skb at200) { with200 4 with b := 3 } skips && after (.skb at200) { with200 4 with b := 4 } goesOn) =
    true := by decide
theorem test_skn :
    (after (.skn at200) (with200 0o40000000) skips && after (.skn at200) (with200 1) goesOn) = true := by decide
theorem test_skr : (after (.skr at200) (with200 0) (fun t => skips t && t.read 0o200 == 0o77777777) &&
    after (.skr at200) (with200 0o40000000) (fun t => goesOn t && t.ov && t.read 0o200 == 0o37777777)) = true := by
  decide
theorem test_skd :
    (after (.skd at200) { with200 7 with b := 5 } skips && after (.skd at200) { with200 5 with b := 7 } goesOn &&
    exponentDistance false 5 7 == 2 && exponentDistance true 0o777 1 == 2) = true := by decide

/-- E15, E16, E17. -/
theorem test_ste :
    after .ste { s0 with b := 0o64152713 } (fun t => t.b == 0o64152000 && t.x == 0o77777713) = true := by decide
theorem test_lde : after .lde { s0 with b := 0o34765712, x := 0o151 } (fun t => t.b == 0o34765151) = true := by decide
theorem test_xee : after .xee { s0 with b := 0o67142355, x := 0o77777133 }
    (fun t => t.b == 0o67142133 && t.x == 0o00000355) = true := by decide
/-- A copy in both directions reads the old values (43 R201). -/
theorem test_xab : after .xab { s0 with a := 1, b := 2 } (fun t => t.a == 2 && t.b == 1) = true := by decide
theorem test_xxa : after .xxa { s0 with a := 1, x := 2 } (fun t => t.a == 2 && t.x == 1) = true := by decide
theorem test_cna : after .cna { s0 with a := 0o40000000 } (fun t => t.a == 0o40000000 && !t.ov) = true := by decide
theorem test_rch_merge : after (.rch { bToA := true, xToA := true, clearB := true }) { s0 with a := 4, b := 1, x := 2 }
    (fun t => t.a == 3 && t.b == 0 && t.x == 2) = true := by decide

/-- E24 to E29. -/
theorem test_rsh : after (.rsh ⟨false, false, 0o00022⟩) { s0 with a := 0o45261237, b := 0o27651260 }
    (fun t => t.a == 0o77777745 && t.b == 0o26123727) = true := by decide
theorem test_lrsh : after (.lrsh ⟨false, false, 0o24003⟩) { s0 with a := 0o40000000, b := 0o00000007 }
    (fun t => t.a == 0o04000000 && t.b == 0) = true := by decide
theorem test_rcy : after (.rcy ⟨false, false, 0o20017⟩) { s0 with a := 0o61235703, b := 0o41537701 }
    (fun t => t.a == 0o37701612 && t.b == 0o35703415) = true := by decide
theorem test_lsh : after (.lsh ⟨false, false, 0o00022⟩) { s0 with a := 0o46712370, b := 0o64132711 }
    (fun t => t.a == 0o70641327 && t.b == 0o11000000 && t.ov) = true := by decide
theorem test_lcy : after (.lcy ⟨false, false, 0o20011⟩) { s0 with a := 0o71432560, b := 0o34156723 }
    (fun t => t.a == 0o32560341 && t.b == 0o56723714) = true := by decide
theorem test_nod : after (.nod ⟨false, false, 0o10030⟩) { s0 with a := 0o00004632, b := 0o76124035 }
    (fun t => t.a == 0o23153705 && t.b == 0o20164000 && t.x == 0o77777765) = true := by decide
/-- V11: the kind is not disturbed by the carry out of the count. -/
theorem test_rsh_indexed : after (.rsh ⟨true, false, 0o00775⟩) { s0 with a := 0o400, x := 5 } (fun t => t.a == 0o100) =
    true := by decide
/-- V14: the word at the end of the chain says what the shift is. -/
theorem test_rsh_indirect : after (.rsh ⟨false, true, 0o200⟩) { with200 0o00020003 with a := 0o40000000 }
    (fun t => t.a == 0o04000000) = true := by decide

/-- HLT halts, and the next instruction stands in C to be displayed (47_control R310). -/
theorem test_hlt : after .hlt { s0 with mem := [(0o101, 5)] } (fun t => goesOn t && t.halted && t.c == 5) = true := by
  decide
theorem test_exu :
    after (.exu at200) (with200 0o04600001) (fun t => t.p == 0o100 && t.c == 0o04600001 && t.cState == .subject) =
    true := by decide
/-- E30. -/
theorem test_pop : after (.pop 0o40 ⟨false, false, 0o2163⟩) { s0 with p := 0o1342, ov := true }
    (fun t => t.read 0 == 0o40041342 && t.p == 0o140 && !t.ov) = true := by decide
theorem test_bpt :
    (after .bpt2 s0 skips && after .bpt2 { s0 with console := { s0.console with bp2 := true } } goesOn) = true := by
  decide
theorem test_ovt :
    (after .ovt { s0 with ov := true } (fun t => goesOn t && !t.ov) && after .ovt s0 skips) = true := by decide
theorem test_reo :
    (after .reo { s0 with x := 0o00000400 } (fun t => t.ov && t.noIntNext) && after .reo { s0 with x := 0o1400 }
    (fun t => !t.ov)) = true := by decide
theorem test_setext : after (.setext true false 5 4) s0 (fun t => t.em3 == 5 && t.em2 == 2) = true := by decide
theorem test_exttest :
    (after (.exttest false true) { s0 with em2 := 4 } skips && after (.exttest true true) s0 goesOn) = true := by
  decide
theorem test_eir : after .eir s0 (fun t => t.ien && t.noIntNext) = true := by decide
theorem test_iet : (after .iet s0 goesOn && after .idt s0 skips) = true := by decide
/-- E31: 00240000 arms level 201. -/
theorem test_arm :
    after (.pot at200) { with200 0o00240000 with airAlert := true } (fun t => t.armed == [0o201] && !t.airAlert) =
    true := by decide

/-- E33: connect with alert, then the interlace-control word, then the load. -/
theorem test_rtd : after (.rtd .w ⟨true, 3⟩ 0) s0
    (fun t => (t.chan .w).uar == 0o10 && (t.chan .w).ilcAlert && (t.chan .w).loadDue && t.noIntNext) = true := by decide
def alertedW : State := s0.setChan .w { s0.chan .w with uar := 0o10, ilcAlert := true, loadDue := true, cpw := 3 }
theorem test_ilc : after (.ilc .w ⟨true, false, true, 0, false, 1⟩) alertedW
    (fun t => (t.chan .w).ia && (t.chan .w).zcArm && !(t.chan .w).erArm && (t.chan .w).hiCount == 1) = true := by decide
theorem test_load :
    after (.pot at200) { alertedW.setChan .w { alertedW.chan .w with hiCount := 1 } with mem := [(0o200, 0o00313500)] }
    (fun t => (t.chan .w).wcr == 1030 && (t.chan .w).mar == 0o13500 && (t.chan .w).ilcActive &&
      !(t.chan .w).ilcAlert) = true := by decide
theorem test_dsc :
    after (.dsc .w) alertedW (fun t => (t.chan .w).uar == 0 && t.out == [.disconnect .w]) = true := by decide
/-- An input with a full buffer; an output with an empty one. -/
def fullW : State :=
  s0.setChan .w { s0.chan .w with uar := 0o04, cpw := 3, wordReady := true, war := 0o12345670, fullBits := 24 }
def emptyW : State := s0.setChan .w { s0.chan .w with uar := 0o44, cpw := 3, output := true, wordReady := true }
theorem test_wim :
    (after (.wim at200) fullW (fun t => goesOn t && t.read 0o200 == 0o12345670 && !(t.chan .w).wordReady) &&
    after (.wim at200) s0 (fun t => t.cState == .waiting && t.p == 0o100 && t.c == 0o03200200)) = true := by decide
theorem test_miw :
    after (.miw at200) { emptyW with mem := [(0o200, 5)] } (fun t => (t.chan .w).war == 5 && !(t.chan .w).wordReady) =
    true := by decide
theorem test_cat : (after (.cat .w) s0 skips && after (.cat .w) fullW goesOn) = true := by decide
theorem test_pin : after (.pin at200) { s0 with lines := { s0.lines with pinReady := some 7 } }
    (fun t => goesOn t && t.read 0o200 == 7 && t.out == [.pinRequest]) = true := by decide
theorem test_pot :
    after (.pot at200) (with200 7) (fun t => t.cState == .waiting && t.out == [.potRequest]) = true := by decide

/-! ### One step -/

/-- The step has a next state, and it is as `f` says. -/
def stepped (s : State) (f : State → Bool) : Bool :=
  match step s with
  | .next t => f t
  | _ => false

theorem test_step :
    stepped { s0 with mem := [(0o100, 0o07600200), (0o200, 5)] } (fun t => t.a == 5 && t.p == 0o101) = true := by
  decide
/-- An instruction in an interrupt location: P is not advanced, and the level stays Active. -/
theorem test_step_interrupt :
    stepped { s0 with mem := [(0o31, 0o04300200)], ack := some 0o31, active := [0o31] }
      (fun t => t.read 0o200 == 0o03200100 && t.p == 0o201 && t.active == [0o31] && t.ack == none) = true := by decide
/-- The clock's location holds a single instruction (60 R533, R548). -/
theorem test_step_clock :
    stepped { s0 with mem := [(0o75, 0o06100200), (0o200, 0o77777777)], ack := some 0o75, active := [0o75] }
      (fun t => t.p == 0o100 && t.active == [] && t.waiting == [0o74]) = true := by decide
/-- A level is acknowledged at the end of an instruction, but not after an EOM (60 R530, R532). -/
theorem test_step_acknowledge :
    (stepped { s0 with mem := [(0o100, 0o02000000)], waiting := [0o31], ien := true } (fun t => t.ack == some 0o31) &&
    stepped { s0 with mem := [(0o100, 0o00220001)], waiting := [0o31], ien := true } (fun t => t.ack == none)) =
    true := by decide
/-- One memory cycle at a time: the read of a MIN, and its write, before which another agent's word is lost (20 R74). -/
theorem test_step_reads :
    stepped { with200 5 with c := 0o06100200, cState := .subject, schedule := [.cycle] }
      (fun t => t.cState == .operand && t.m == 5 && t.c == 0o06100200 && t.p == 0o100) = true := by decide
theorem test_step_writes :
    stepped { with200 0o77 with c := 0o06100200, cState := .operand, m := 5, schedule := [.cycle] }
      (fun t => t.cState == .none && t.read 0o200 == 6 && t.p == 0o101) = true := by decide
/-- In STEP the processor is idle after one instruction, and C shows the next one (70 R593). -/
theorem test_step_switch :
    stepped { s0 with mem := [(0o100, 0o02000000), (0o101, 7)], console := { s0.console with runSwitch := .step } }
      (fun t => t.c == 7 && t.p == 0o101 && t.console.runSwitch == .idle) = true := by decide
/-- A HLT set in C with a level acknowledged: the level's location is run next, whatever else is Waiting (log 65). -/
theorem test_forced_hlt :
    stepped { s0 with cState := .forced, c := 0, ack := some 0o61, active := [0o61], waiting := [0o31], ien := true }
      (fun t => !t.halted && t.ack == some 0o61 && t.waiting == [0o31]) = true := by decide
/-- RUN with HOLD on is refused inside an instruction too (70 R595). -/
theorem test_hold_inside :
    step { s0 with c := 0o07600200, cState := .subject, console := { s0.console with hold := true } } =
      .refused .operatorPrecondition := by rfl
/-- Power returns: the level at 36 is taken, and no AIR before the loss stands in the way of its routine (60 R546). -/
theorem test_power_returns :
    (let t := State.powerReturns { s0 with power := .off, airAlert := true, mem := [(0o36, 0o04300200)] }
     t.power == .on && stepped t fun u => u.p == 0o201 && u.active == [0o36] && u.read 0o200 == 0o03200100) = true := by
  decide
/-- Channel W is standard (00 R4). -/
theorem test_installation :
    Config.standard.ok = true ∧ Config.ok { Config.standard with channels := [.y] } = false := by decide
theorem test_withFetchWord : stepped (State.reset.withFetchWord 24 0o04600001) (fun t => t.p == 1) = true := by decide

/-! ### Witnesses: a state and operands that meet the hypotheses of each statement, clause by clause -/

theorem witness_StartInitialises :
    State.reset.power ≠ .off ∧ State.reset.console.runSwitch = .idle ∧ State.reset.console.regSelect = .c := by decide

/-- `s0` has the invariant, and its next step completes. -/
theorem witness_StepKeepsInvariant : s0.Inv ∧ stepped s0 (fun _ => true) = true := by
  refine ⟨⟨by decide, by decide, by decide, by decide, by decide, by decide, by decide, by decide, ?_, ?_, ?_,
    by decide⟩, by decide⟩
  all_goals intro ch; cases ch <;> decide

/-- A store to each end of a protected sub-block and of a protected block. -/
def protectedState (a : Addr) : State :=
  { s0 with mem := [(0o100, 0o03500000 + a.toNat)], a := 5, lockSubs := 1, lockBlocks := 1 }
theorem witness_ProtectedWordsStay :
    ([0, 511, 2048, 4095].all fun a =>
      (protectedState a).lockedOut (a.setWidth 15) &&
        stepped (protectedState a) fun t => t.waiting == [0o35]) = true := by decide

theorem witness_ControlStateChanges :
    ([Instr.eir, .dir, .setext true true 5 4, .rtcarm, .rtcdisarm].all fun i =>
      i.wellFormed (fun _ => .plain) && after i s0 fun _ => true) = true := by decide

def smallState : State := { s0 with cfg := { Config.standard with memWords := 4096 } }
theorem witness_MemoryWrite :
    smallState.cfg.memWords ≤ (4096 : PAddr).toNat ∧ smallState.cfg.memWords ≤ (32767 : PAddr).toNat := by decide

def plainState : State := { s0 with cfg := { Config.standard with hasMemExt := false } }
theorem witness_Addresses :
    plainState.cfg.hasMemExt = false ∧ s0.cfg.hasMemExt = true ∧ (0o17777 : Addr).toNat < 0o20000 ∧
    0o20000 ≤ (0o20000 : Addr).toNat ∧ (0o27777 : Addr).toNat < 0o30000 ∧ 0o30000 ≤ (0o30000 : Addr).toNat ∧
    0o30000 ≤ (0o37777 : Addr).toNat ∧ s0.em2 = 2 ∧ s0.em3 = 3 := by decide

/-- V5: location 05 names itself for ever. -/
def loopState : State := { s0 with mem := [(5, 0o00040005)] }
theorem loop_levels (n : Nat) : loopState.eaLevels n false true 5 = .endless 5 := by
  induction n with
  | zero => exact eaLevels_zero _ _ _
  | succ n ih => rw [eaLevels_succ]; exact ih
theorem witness_EndlessChain :
    (Instr.lda ⟨false, true, 5⟩, 0o76#6) ∈ memoryReferences ⟨false, true, 5⟩ ∧
    loopState.ea ⟨false, true, 5⟩ = .endless 5 ∧ loopState.schedule = [] ∧ loopState.power = .on ∧
    loopState.airAlert = false ∧ loopState.console.hold = false := ⟨by decide, loop_levels _, rfl, rfl, rfl, rfl⟩

theorem witness_DecodeEncode :
    ([Instr.lda at200, .pop 0o77 at200, .rsh ⟨false, true, 0⟩, .ioctl .h 31 0o77].all fun i =>
      i.wellFormed fun _ => .plain) = true := by decide
theorem witness_DecodeWellFormed : decode (fun _ => .plain) 0o07600200 = .ok (.lda at200) := by decide

def nextLoad : State := { s0 with mem := [(0o31, 0o07600200), (0o100, 0o07600200)] }
theorem nextLoad_atFetch : nextLoad.AtFetch :=
  ⟨by decide, by decide, by decide, by decide, by decide, by decide, by decide⟩
theorem witness_StepRunsDecoded :
    nextLoad.AtFetch ∧ decode nextLoad.context (nextLoad.read nextLoad.p) = .ok (.lda at200) ∧
    State.AtFetch { { nextLoad with ack := some 0o31 } with ack := none } ∧
    decode nextLoad.context (nextLoad.memRead (BitVec.ofNat 15 0o31)) = .ok (.lda at200) ∧
    State.tooShort { nextLoad with origin := .interrupt 0o31 } (.lda at200) = false ∧
    State.AtFetch { { nextLoad with cState := .forced, c := 0o07600200 } with cState := .none, ack := none } ∧
    decode nextLoad.context 0o07600200 = .ok (.lda at200) ∧
    (let s := { nextLoad with c := 0o07600200, cState := .subject }
     State.schedule s = [] ∧ s.power = .on ∧ s.cState = .subject ∧ s.airAlert = false ∧ s.console.hold = false ∧
     decode s.context s.c = .ok (.lda at200)) ∧
    (let s := { nextLoad with c := 0o06100200, cState := .operand, airAlert := false }
     s.cState = .operand ∧ decode s.context s.c = .ok (.min at200)) :=
  ⟨nextLoad_atFetch, by decide, nextLoad_atFetch, by decide, by decide,
    ⟨by decide, by decide, by decide, by decide, by decide, by decide, by decide⟩, by decide, by decide, by decide⟩

def waitingState : State := { s0 with waiting := [0o31], ien := true, origin := .interrupt 0o75, active := [0o75] }
def stepState : State := { waitingState with console := { s0.console with runSwitch := .step } }
theorem witness_EndOfInstruction :
    s0.console.runSwitch = .run ∧ s0.cState = .none ∧ s0.noIntNext = false ∧ s0.ack = none ∧ s0.nextLevel = none ∧
    waitingState.console.runSwitch = .run ∧ waitingState.cState = .none ∧ waitingState.noIntNext = false ∧
    waitingState.ack = none ∧
    State.nextLevel { waitingState with active := levelErase 0o75 waitingState.active } = some 0o31 ∧
    State.noIntNext { waitingState with noIntNext := true } = true ∧
    State.ack { waitingState with ack := some 0o31 } = some 0o31 ∧
    stepState.console.runSwitch = .step ∧ stepState.cState = .none ∧ stepState.ack = none ∧
    State.nextLevel { stepState with active := levelErase 0o75 stepState.active } = some 0o31 ∧
    State.nextLevel { stepState with waiting := [] } = none := by decide

theorem witness_PriorityOrder : 0o36 ∈ priorityOrder ∧ 0o75 ∈ priorityOrder ∧ 0o200 ≤ 0o1777 ∧
    waitingState.nextLevel = some 0o31 ∧ State.nextLevel { waitingState with ien := false } = none := by decide

/-- The signals from outside: with and without the parity levels, the switch at either place, and with power off. -/
def parityState (halt : Bool) : State :=
  { s0 with cfg := { Config.standard with parityLevels := some (0o56, 0o57) }
            console := { s0.console with parityHalt := halt } }
theorem witness_RequestAndTake :
    ([0o75, 0o74, 0o31, 0o177, 0o200, 0o1777, 0o2000].map (levelPresent Config.standard) =
      [true, true, true, false, true, true, false]) ∧ s0.cfg.armingFeature = true ∧ 0o200 ∉ s0.cfg.unarmable ∧
    (ChannelId.w, 0o31, 0o33) ∈ channelLevels ∧ (s0.chan .w).ia = false ∧ isDirect .w = false ∧
    (ChannelId.h, 0o72, 0o73) ∈ channelLevels ∧ isDirect .h = true ∧
    s0.power = .on ∧ 0o200 ≤ 0o200 ∧ s0.console.parityHalt = false ∧ s0.cfg.parityLevels = none ∧
    (parityState false).console.parityHalt = false ∧ (parityState false).cfg.parityLevels = some (0o56, 0o57) ∧
    (parityState true).console.parityHalt = true ∧ (parityState true).power = .on ∧
    State.power { s0 with power := .off } = .off ∧ s0.cfg.hasPowerFailsafe = true := by decide

theorem witness_BranchAndReturn :
    s0.ea at200 = .addr 0o200 ∧ (with200 0o300).ea ⟨false, true, 0o200⟩ = .addr 0o300 ∧ waitingState.active ≠ [] ∧
    s0.active = [] := by decide

/-- An operand address at each end of the memory a program reaches, for every statement about an operand. -/
theorem witness_operand : s0.ea ⟨false, false, 0⟩ = .addr 0 ∧ s0.ea ⟨false, false, 0o37777⟩ = .addr 0o37777 ∧
    State.ea { s0 with x := 0o37777 } ⟨true, false, 1⟩ = .addr 0 := by decide
theorem witness_LoadAndLogical : (with200 5).ea at200 = .addr 0o200 := by decide
theorem witness_Stores : s0.ea at200 = .addr 0o200 ∧ s0.writable (s0.phys 0o200) = true ∧
    smallState.writable (smallState.phys 0o37777) = false := by decide
theorem witness_AddressAndExchange : (with200 5).ea at200 = .addr 0o200 := by decide
theorem witness_AddInstructions : (with200 0o77777777).ea at200 = .addr 0o200 := by decide
theorem witness_SubtractInstructions : (with200 0o40000000).ea at200 = .addr 0o200 := by decide
theorem witness_MemoryArithmetic : (with200 0o37777777).ea at200 = .addr 0o200 ∧
    State.ea { with200 0 with origin := .interrupt 0o75 } at200 = .addr 0o200 := by decide
theorem witness_Multiply : State.ea { with200 0o40000000 with a := 0o40000000 } at200 = .addr 0o200 ∧
    (with200 0o40000000).read 0o200 = 0o40000000 ∧ (with200 0o37777777).read 0o200 ≠ 0o40000000 := by decide

/-- DIV at the ends of its range: quotient -1 as a fraction fits (V76), +1 does not (V77), and a zero divisor. -/
theorem witness_Divide :
    (with200 0o20000000).ea at200 = .addr 0o200 ∧
    (let n := (joinAB 0o60000000 0).toInt / 2
     let d := ((with200 0o20000000).read 0o200).toInt
     0 < d ∧ -(d * 2 ^ 23) ≤ n ∧ n < d * 2 ^ 23) ∧
    (let n := (joinAB 0o20000000 0).toInt / 2
     let d := ((with200 0o20000000).read 0o200).toInt
     0 < d ∧ ¬ n < d * 2 ^ 23) ∧
    (let n := (joinAB 0 0o16).toInt / 2
     let d := ((with200 0o77777775).read 0o200).toInt
     d < 0 ∧ d * 2 ^ 23 < n ∧ n ≤ -(d * 2 ^ 23)) ∧ ((with200 0).read 0o200).toInt = 0 := by decide

theorem witness_BranchInstructions : s0.ea at200 = .addr 0o200 ∧ bit ((0o77777776 : Word) + 1) 9 = true ∧
    bit ((0o77777777 : Word) + 1) 9 = false := by decide
theorem witness_MarkAndBranch : s0.ea ⟨false, false, 0o37777⟩ = .addr 0o37777 := by decide
theorem witness_MarkReturns : s0.ea at200 = .addr 0o200 ∧ s0.writable (s0.phys 0o200) = true ∧
    after (.brm at200) s0 (fun _ => true) = true := by decide
/-- Each skip has a state where its condition holds and one where it does not. -/
theorem witness_SkipInstructions :
    (with200 5).ea at200 = .addr 0o200 ∧ (0 : Word).toInt < (5 : Word).toInt ∧ ¬ (5 : Word).toInt < (5 : Word).toInt ∧
    State.a { with200 5 with a := 5 } = 5 ∧ (with200 5).a ≠ 5 ∧ bit (0o40000000 : Word) 0 = true ∧
    bit (0o37777777 : Word) 0 = false ∧ bit (1 : Word) 23 = true ∧ bit (2 : Word) 23 = false := by decide
theorem witness_SkipOnExponents : (with200 7).ea at200 = .addr 0o200 ∧ (low9 5).toNat < (low9 7).toNat ∧
    (low9 0o777).toInt < (low9 0).toInt := by decide

theorem witness_RegisterChangeGeneral :
    RegFn.expOnly { bToA := true } = false ∧ undefinedExp { expOnly := true, clearB := true } = false ∧
    undefinedExp { expOnly := true, bToX := true } = false := by decide

/-- Each kind of shift, with counts 0, 48 and 511. -/
theorem witness_RightShifts :
    s0.shiftEA ⟨false, false, 0⟩ = .addr 0 ∧ s0.shiftEA ⟨false, false, 0o20060⟩ = .addr 0o20060 ∧
    s0.shiftEA ⟨false, false, 0o24777⟩ = .addr 0o24777 ∧ (0 : Addr).toNat / 512 = 0b00000 ∧
    (0o20060 : Addr).toNat / 512 = 0b10000 ∧ (0o24777 : Addr).toNat / 512 = 0b10100 := by decide
theorem witness_LeftShifts :
    s0.shiftEA ⟨false, false, 0o777⟩ = .addr 0o777 ∧ s0.shiftEA ⟨false, false, 0o20060⟩ = .addr 0o20060 ∧
    s0.shiftEA ⟨false, false, 0o10000⟩ = .addr 0o10000 ∧ (0o777 : Addr).toNat / 512 = 0b00000 ∧
    (0o10000 : Addr).toNat / 512 = 0b01000 := by decide

theorem witness_ControlInstructions :
    s0.console.runSwitch = .run ∧ State.reset.console.runSwitch ≠ .run ∧ (with200 1).ea at200 = .addr 0o200 ∧
    s0.ack = none ∧ State.ack { s0 with ack := some 0o31 } = some 0o31 ∧
    s0.ov = false ∧ State.ov { s0 with ov := true } = true ∧ s0.console.bp1 = false ∧
    (true || false || false || false) = true := by decide
theorem witness_ExtensionRegisters :
    s0.cfg.hasMemExt = true ∧ State.em2 { s0 with em2 := 4 } ≠ 2 ∧ s0.em2 = 2 := by decide
theorem witness_InterruptControl :
    s0.ien = false ∧ State.ien { s0 with ien := true } = true ∧ s0.lines.powerOff = false := by decide

/-- An arm word of group 0 with every control field, and of the last group of an installation; a level that is not
installed. -/
def armState (m : Word) : State := { with200 m with airAlert := true }
theorem witness_ArmLevels :
    (armState 0o00377777).ea at200 = .addr 0o200 ∧ (armState 0).airAlert = true ∧ (armState 0).ilcAlerted = [] ∧
    (armState 0).dmsSelect = none ∧ (armState 0).cfg.armingFeature = true ∧ levelPresent Config.standard 0o200 = true ∧
    levelPresent Config.standard (0o200 + 16 * 55 + 15) = true ∧
    levelPresent Config.standard (0o200 + 16 * 56) = false ∧ isParityLevel Config.standard 0o200 = false ∧
    0o200 ∉ Config.standard.unarmable := by decide
/-- A level without the arming feature is always armed, and the POT after AIR leaves its bit alone. -/
theorem test_unarmable :
    (let s := { armState 0o00377777 with cfg := { Config.standard with unarmable := [0o201] } }
     s.isArmed 0o201 && !s.isArmed 0o202 && after (.pot at200) s fun t => t.isArmed 0o202 && !t.armed.contains 0o201) =
      true := by decide

/-- A state of channel W for every clause about it. -/
def withW (f : Chan → Chan) : State := s0.setChan .w (f (s0.chan .w))
def noChannels : State := { s0 with cfg := { Config.standard with channels := [], interlaced := [] } }

theorem witness_ConnectUnit :
    (Instr.rtd .w ⟨true, 3⟩ 7, Conn.mk true false true false 3 0o17) ∈
      connects .w ⟨true, 3⟩ 7 ⟨true, true, true, true, 3, 0o77⟩ ∧
    (Conn.mk true false true false 3 0o17).unit ≠ 0 ∧ noChannels.hasChan .w = false ∧ s0.hasChan .w = true ∧
    s0.hasInterlace .w = true ∧ (s0.chan .w).ilcActive = false ∧
    (Instr.typ .w ⟨false, 3⟩, Conn.mk false false true false 3 0o41) ∈
      connects .w ⟨false, 3⟩ 7 ⟨true, true, true, true, 3, 0o77⟩ ∧
    (0o41 : BitVec 6).msb = true ∧ (0o01 : BitVec 6).msb = false ∧
    State.hasInterlace { s0 with cfg := { Config.standard with interlaced := [] } } .w = false ∧
    ([0, 1, 2].all fun n => [(false, 0), (true, 0), (true, 2), (true, 3)].all fun ((ia, fc) : Bool × BitVec 2) =>
      let c := (withW fun c => { c with ilcActive := true, wcr := n, ia := ia, fc := fc }).chan .w
      c.ilcActive && c.wcr == n && extended .w c == ia && c.fc == fc) = true := by decide
/-- R361 sequence 3: an output connect on an interlace loaded beforehand fetches its first word; with no interlace
running it gives the End-of-Word signal (R371). -/
theorem test_connect_loaded :
    after (.typ .w ⟨false, 3⟩) { withW fun c => { c with ilcActive := true, wcr := 2, mar := 0o200 } with
      mem := [(0o200, 0o31)] }
    (fun t => (t.chan .w).war == 0o31 && (t.chan .w).mar == 0o201 && (t.chan .w).wcr == 1) = true := by decide
theorem test_connect_signals : after (.typ .w ⟨false, 3⟩) { s0 with ien := true } (·.waiting == [0o31]) = true := by
  decide
theorem witness_DisconnectChannel :
    noChannels.hasChan .w = false ∧ s0.hasChan .w = true ∧ s0.hasInterlace .w = true ∧
    noChannels.hasInterlace .w = false ∧ (Conn.mk true false false false 0 0).unit = 0 := by decide
theorem witness_AlertAndControl :
    s0.hasChan .w = true ∧ s0.hasInterlace .w = true ∧ alertedW.hasChan .w = true ∧ (alertedW.chan .w).ilcAlert = true ∧
    (let s := { s0 with cfg := { Config.standard with interlaced := [] } }
     State.hasChan s .w = true ∧ State.hasInterlace s .w = false) := by decide

/-- E33: the count is 1 and the ten bits of the word, 1030; an output that wants its first word. -/
def loadState (m : Word) (f : Chan → Chan) : State :=
  { withW fun c => f { c with uar := 0o50, output := true, ilcAlert := true, hiCount := 1, hiAddr := true } with
    mem := [(0o200, m)] }
theorem witness_LoadInterlace :
    (let s := loadState 0o00313500 id
     s.ea at200 = .addr 0o200 ∧ s.airAlert = false ∧ s.dmsSelect = none ∧ s.ilcAlerted = [.w] ∧
     (1030 : BitVec 15).toNat = (s.chan .w).hiCount.toNat * 1024 + (s.read 0o200).toNat / 2 ^ 14 ∧
     (0o53500 : PAddr).toNat = (s.chan .w).hiAddr.toNat * 2 ^ 14 + (s.read 0o200).toNat % 2 ^ 14 ∧
     (s.chan .w).wordReady = false ∧ (s.chan .w).iorFull = false) ∧
    (let s := loadState 0o00313500 fun c => { c with wordReady := true }
     (s.chan .w).uar ≠ 0 ∧ (s.chan .w).eorSeen = false ∧ (s.chan .w).output = true ∧ (s.chan .w).wordReady = true ∧
     (s.chan .w).lastWord = false ∧ s.ilcAlerted = [.w]) ∧
    (let s := loadState 0o00053500 fun c => { c with wordReady := true, hiCount := 0 }
     (1 : BitVec 15).toNat = (s.chan .w).hiCount.toNat * 1024 + (s.operand 0o200).toNat / 2 ^ 14 ∧
     (s.chan .w).output = true ∧ (s.chan .w).wordReady = true) ∧
    (let s := loadState 0o00313500 fun c => { c with uar := 0o10, output := false, wordReady := true, fullBits := 24 }
     (s.chan .w).uar ≠ 0 ∧ (s.chan .w).eorSeen = false ∧ (s.chan .w).output = false ∧ (s.chan .w).wordReady = true ∧
     (s.chan .w).iorFull = false ∧ s.ilcAlerted = [.w]) ∧
    (let s := loadState 0o00053500 fun c => { c with lastWord := true, wordReady := true }
     (s.chan .w).output = true ∧ (s.chan .w).lastWord = true ∧ s.ilcAlerted = [.w]) := by decide
/-- A direct access channel that holds one word or two, with counts of one and two and each function. -/
theorem witness_LoadInterlace_direct :
    ([1, 2].all fun n => [false, true].all fun ready => [0, 1, 2, 3].all fun fc =>
      let c := { Chan.reset true with
        uar := 0o04, ilcAlert := true, iorFull := true, wordReady := ready, fullBits := 24, fc := fc }
      let s := State.setChan { s0 with mem := [(0o200, BitVec.ofNat 24 (n * 2 ^ 14))] } .e c
      s.ilcAlerted == [.e] && !s.airAlert && s.dmsSelect == none &&
        n == (s.chan .e).hiCount.toNat * 1024 + (s.operand 0o200).toNat / 2 ^ 14 && (s.chan .e).uar != 0 &&
        !(s.chan .e).eorSeen && !(s.chan .e).output && (s.chan .e).iorFull && (s.chan .e).wordReady == ready &&
        (s.chan .e).fc == fc) = true := by decide
theorem witness_StoreChannelAddress :
    s0.hasChan .w = true ∧ (s0.chan .w).ilcAlert = false ∧ s0.hasInterlace .w = true ∧ noChannels.hasChan .w = false ∧
    (let s := withW fun c => { c with ascAlert := true, mar := 0o77777 }
     s.ea at200 = .addr 0o200 ∧ s.ascAlerted = [.w]) := by decide
theorem witness_TerminateOutput :
    s0.hasChan .w = true ∧ (s0.chan .w).ilcAlert = false ∧ (s0.chan .w).uar = 0 ∧
    (let s := withW fun c => { c with uar := 0o44, output := true, wordReady := true }
     (s.chan .w).uar ≠ 0 ∧ (s.chan .w).output = true ∧ (s.chan .w).wordReady = true ∧ (s.chan .w).lastWord = false ∧
     (s.chan .w).ilcActive = false ∧ (s.chan .w).ilcAlert = false) ∧
    (let s := withW fun c =>
       { c with uar := 0o44, output := true, wordReady := true, ilcActive := true, ia := true, fc := 3 }
     (s.chan .w).uar ≠ 0 ∧ (s.chan .w).ilcActive = true ∧ extended .w (s.chan .w) = true ∧ (s.chan .w).fc = 3 ∧
     (s.chan .w).lastWord = false) := by decide
theorem witness_DeviceCommands :
    (Instr.rew .w 7, 0b10000#5, 0o17#6) ∈ commands .w 7 0 0 ∧ (0o17#6) ≠ 0 ∧ s0.hasChan .w = true ∧
    noChannels.hasChan .w = false ∧ (s0.chan .w).ilcAlert = false ∧ (alertedW.chan .w).ilcAlert = true ∧
    s0.cfg.hasDms = false ∧ Config.hasDms { Config.standard with hasDms := true } = true ∧
    (let k := SysFn.mk false false true 0o0006
     k.b0 = false ∧ k.b1 = false ∧ k.b9 = true ∧ k.dest.getMsbD 0 = false ∧ k.dest.getMsbD 3 = false ∧
       k.dest.getMsbD 11 = false) := by decide
theorem witness_ChannelTests :
    s0.hasChan .w = true ∧ s0.hasChan .y = true ∧ s0.hasInterlace .h = true ∧ noChannels.hasInterlace .w = false ∧
    noChannels.hasChan .w = false ∧ noChannels.hasChan .y = false ∧ (s0.chan .w).uar = 0 ∧ (fullW.chan .w).uar ≠ 0 ∧
    (ChannelId.w, 0b10000#5, 0#6) ∉ noChannels.lines.deviceSignals := by decide
/-- R395: a word with bit 9 one and a unit goes to the device, alert or not; FPT of an absent channel is the host's. -/
theorem test_ioControl_bit9 : after (.eom ⟨false, true, 1, 0o1010⟩) alertedW
    (fun t => t.out.head? == some (.ioControl .w true 4 0o10) && (t.chan .w).ilcAlert) = true := by decide
theorem test_absent_channel : (after (.fpt .w 2) noChannels skips && after (.fpt .w 2) s0 goesOn) = true := by decide

def readyUnit : State :=
  { s0 with
    cfg := { Config.standard with units := [(.w, 0o12)] }
    lines := { s0.lines with deviceSignals := [(.w, 0b10000, 0o12)] } }
theorem witness_DeviceTests :
    (Instr.crt .w, 0b01000#5, 0o06#6) ∈ deviceTests .w 0 ∧ (Instr.fpt .w 2, 0b10000#5, false) ∈ tapeTests .w 2 ∧
    readyUnit.attached .w 0o12 = true ∧ s0.attached .w 0o12 = false ∧
    (ChannelId.w, 0b10000#5, 0o12#6) ∈ readyUnit.lines.deviceSignals ∧
    (ChannelId.w, 0b10000#5, 0o12#6) ∉ s0.lines.deviceSignals ∧ s0.hasChan .w = true ∧
    noChannels.hasChan .w = false := by decide
theorem witness_SingleWordTransfers :
    emptyW.ea at200 = .addr 0o200 ∧ (emptyW.chan .w).output = true ∧ (emptyW.chan .w).wordReady = true ∧
    (emptyW.chan .w).uar ≠ 0 ∧ fullW.ea at200 = .addr 0o200 ∧ (fullW.chan .w).output = false ∧
    (fullW.chan .w).wordReady = true ∧ (s0.chan .w).wordReady = false := by decide
theorem witness_ParallelTransfers :
    s0.ea at200 = .addr 0o200 ∧ s0.ascAlerted = [] ∧ s0.lines.pinReady = none ∧ s0.airAlert = false ∧
    s0.ilcAlerted = [] ∧ s0.dmsSelect = none ∧ s0.lines.potReady = false ∧
    Lines.pinReady { s0.lines with pinReady := some 7 } = some 7 ∧
    Lines.potReady { s0.lines with potReady := true } = true ∧
    State.dmsSelect { s0 with dmsSelect := some (5, 3) } = some (5, 3) := by decide
/-- A word of every mode of the general forms. -/
theorem witness_GeneralForms :
    (IoFn.mk false true 0 0o2604).mode = 0 ∧ (IoFn.mk false false 1 0o1002).mode = 1 ∧
    (IoFn.mk false false 1 0o1002).unit ≠ 0 ∧ noChannels.hasChan .w = false ∧
    isAlcFn ⟨false, true, 1, 0⟩ = true ∧ (IoFn.mk false true 1 0o1002).unit ≠ 0 ∧ s0.hasChan .w = true ∧
    (let f := IoFn.mk false false 1 0o2000
     f.unit = 0 ∧ f.fn5 = 0b01000) ∧
    (let f := IoFn.mk false false 1 0o4000
     f.unit = 0 ∧ f.fn5 = 0b10000 ∧ f.fn5.toNat = 0b10000) ∧
    (IoFn.mk false false 2 0o0200).fn.toNat = 128 ∧ (IoFn.mk false false 2 0o0354).fn.extractLsb' 8 4 = 0 ∧
    (IoFn.mk false false 2 0o4000).fn.toNat = 2048 ∧ (IoFn.mk true true 3 0o7777).mode = 3 ∧
    (IoFn.mk false true 0 0o0003).fn.extractLsb' 2 10 = 0 ∧
    Config.hasSpecialSignals { Config.standard with hasSpecialSignals := true } = true := by decide

/-- Inside an instruction. -/
def loadC : State := { nextLoad with c := 0o07600200, cState := .subject }
/-- The word after AIR is a load; the clock's location holds a one-cycle instruction. -/
def afterAirState : State := { nextLoad with airAlert := true }
def clockState : State := { s0 with mem := [(0o75, 0o02000000)], ack := some 0o75, active := [0o75] }
theorem witness_Refusals :
    undefinedExp { expOnly := true, clearA := true } = true ∧ s0.shiftEA ⟨false, false, 0o10005⟩ = .addr 0o10005 ∧
    (0o10005 : Addr).toNat / 512 ∉ [0b00000, 0b10000, 0b10100] ∧
    s0.shiftEA ⟨false, false, 0o24005⟩ = .addr 0o24005 ∧
    (0o24005 : Addr).toNat / 512 ∉ [0b00000, 0b10000, 0b01000] ∧ plainState.cfg.hasMemExt = false ∧
    isAlcFn ⟨false, true, 1, 0o4000⟩ = false ∧ (IoFn.mk false true 1 0o4000).unit = 0 ∧ s0.hasChan .w = true ∧
    (let f := IoFn.mk false false 1 0o0200
     f.unit = 0 ∧ f.fn5 ≠ 0b01000 ∧ f.fn5 ≠ 0b10000 ∧ f.fn5.toNat ∉ [0b10000, 0b01000, 0b00100, 0b00010] ∧
     (s0.chan .w).ilcAlert = false ∧ s0.hasChan (ChannelId.ofBits f.b9 f.b1 (f.fn.getMsbD 5)) = true) ∧
    (IoFn.mk false false 2 0o0003).fn.toNat ∉ [1, 2, 4, 8, 16, 64, 128] ∧
    (IoFn.mk false false 2 0o0400).fn.extractLsb' 8 4 ≠ 0 ∧ (IoFn.mk false true 0 0o0004).fn.extractLsb' 2 10 ≠ 0 ∧
    s0.cfg.hasSpecialSignals = false ∧
    (let f := IoFn.mk false false 2 0o0041
     f.fn.toNat ∉ [1, 2, 4, 8, 16, 512, 1024, 2048] ∧ f.fn &&& 0o740 ≠ 0 ∧ f.fn &&& 0o7037 ≠ 0) ∧
    (IoFn.mk false false 2 0o0003).fn &&& 0o740 = 0 ∧
    (let s := (withW fun c => { c with ascAlert := true }).setChan .y { s0.chan .y with ascAlert := true }
     2 ≤ s.ascAlerted.length) ∧
    2 ≤ (State.airAlert { alertedW with airAlert := true }).toNat + alertedW.ilcAlerted.length +
      alertedW.dmsSelect.isSome.toNat ∧
    alertedW.ilcAlerted = [.w] ∧ (alertedW.chan .w).hiCount = 0 ∧ (alertedW.operand 0o200).toNat < 2 ^ 14 := by decide
theorem witness_RefusalsAtFetch :
    (let s := { loadC with console := { s0.console with hold := true } }
     State.schedule s = [] ∧ s.power = .on ∧ s.console.runSwitch = .run ∧ s.console.hold = true) ∧
    afterAirState.AtFetch ∧ afterAirState.airAlert = true ∧
    decode afterAirState.context (afterAirState.read afterAirState.p) = .ok (.lda at200) ∧
    State.AtFetch { clockState with ack := none } ∧ clockState.ack = some 0o75 ∧ clockState.airAlert = false ∧
    levelSingle clockState.cfg 0o75 = true ∧
    decode clockState.context (clockState.memRead (BitVec.ofNat 15 0o75)) = .ok .nop ∧
    cycles .nop { clockState with c := 0o02000000, origin := .interrupt 0o75, ack := none } = some 1 :=
  ⟨by decide, ⟨by decide, by decide, by decide, by decide, by decide, by decide, by decide⟩, by decide, by decide,
    ⟨by decide, by decide, by decide, by decide, by decide, by decide, by decide⟩, by decide, by decide, by decide,
    by decide, by decide⟩

/-- What an event of a character of this size asks of its channel. -/
def takesSize (size : CharSize) (s : State) (ch : ChannelId) (output : Bool) : Bool :=
  s.power == .on && s.hasChan ch && !(s.chan ch).loadDue && (s.chan ch).uar != 0 && (s.chan ch).output == output &&
    s.sizeFits ch size
def takesCharacter : State → ChannelId → Bool → Bool := takesSize .six
/-- A direct access channel of eight-bit characters, three in a word, about to end a word. -/
def wideE (f : Chan → Chan) : State :=
  State.setChan { s0 with cfg := { Config.standard with charSizes := [(.e, .eight)] } } .e
    (f { Chan.reset true with uar := 0o04, cpw := 2, charCount := 2, size := .eight, recBits := 16 })
/-- An input channel of four characters per word, with all the hypotheses of an input character. -/
def inputOn (ch : ChannelId) (f : Chan → Chan) : State := s0.setChan ch (f { s0.chan ch with uar := 0o04, cpw := 3 })
theorem witness_InputCharacter :
    (takesCharacter (inputOn .w fun c => { c with charCount := 2 }) .w false &&
      takesCharacter (inputOn .w fun c => { c with scan := true }) .w false &&
      ([ChannelId.w, .e].all fun ch =>
        let s := inputOn ch fun c => { c with charCount := 3 }
        takesCharacter s ch false && !(s.chan ch).wordReady && !(s.chan ch).scan && !(s.chan ch).garbled &&
          (s.chan ch).charCount == (s.chan ch).cpw.toNat && !(s.chan ch).ilcActive && !(s.chan ch).iorFull) &&
      takesCharacter (inputOn .e fun c => { c with charCount := 3, iorFull := true }) .e false &&
      takesCharacter (inputOn .w fun c => { c with wordReady := true }) .w false &&
      takesSize .eight (wideE id) .e false) = true := by decide
/-- The last character of a word under interlace: two words to come, one in each mode, none. -/
def inputW (ch : ChannelId) (wcr : BitVec 15) (ia : Bool) (fc : BitVec 2) : State :=
  inputOn ch fun c => { c with charCount := 3, ilcActive := true, wcr := wcr, ia := ia, fc := fc, zcArm := true }
theorem witness_InterlaceInput :
    ([(ChannelId.w, 2, true, 0), (.w, 1, true, 0), (.w, 1, true, 2), (.w, 1, true, 1), (.w, 1, true, 3),
      (.w, 1, false, 0),
      (.w, 0, true, 0), (.w, 0, true, 3), (.e, 0, true, 3)].all fun (p : ChannelId × BitVec 15 × Bool × BitVec 2) =>
      let (ch, n, ia, fc) := p
      let s := inputW ch n ia fc
      takesCharacter s ch false && !(s.chan ch).wordReady && !(s.chan ch).scan && !(s.chan ch).garbled &&
        (s.chan ch).charCount == (s.chan ch).cpw.toNat && (s.chan ch).ilcActive && (s.chan ch).wcr == n &&
        extended ch (s.chan ch) == ia && (s.chan ch).fc == fc && !(s.chan ch).iorFull) = true ∧
    (let s := wideE fun c => { c with ilcActive := true, wcr := 1 }
     takesSize .eight s .e false = true ∧ (s.chan .e).charCount = (s.chan .e).cpw.toNat ∧ (s.chan .e).wcr = 1) := by
  decide
def outputW (f : Chan → Chan) : State := withW fun c => f { c with uar := 0o44, output := true, cpw := 3 }
theorem witness_OutputCharacter :
    ([outputW fun c => { c with charCount := 2 }, outputW fun c => { c with wordReady := true }].all fun s =>
      takesCharacter s .w true && !(s.chan .w).lastWord) = true ∧
    ([(false, 0, true, 0, false), (true, 0, true, 0, false), (true, 2, true, 0, false), (true, 1, true, 2, false),
      (true, 1, true, 3, false), (true, 1, false, 0, false), (true, 0, true, 2, true), (true, 0, true, 1, true)].all
        fun (p : Bool × BitVec 15 × Bool × BitVec 2 × Bool) =>
      let (on, n, ia, fc, last) := p
      let s := outputW fun c =>
        { c with charCount := 3, ilcActive := on, wcr := n, ia := ia, fc := fc, lastWord := last }
      takesCharacter s .w true && !(s.chan .w).wordReady && (s.chan .w).charCount == (s.chan .w).cpw.toNat) = true ∧
    (let s := wideE fun c => { c with uar := 0o44, output := true, ilcActive := true, wcr := 1 }
     takesSize .eight s .e true = true ∧ (s.chan .e).charCount = (s.chan .e).cpw.toNat ∧
       (s.chan .e).wordReady = false) := by decide
/-- A channel not connected; an output; a word just stored; a buffer emptied; a partial word and a scan, each with no
interlace, with counts of two, one and zero, and of wide characters. -/
theorem witness_EndOfRecord :
    (s0.chan .w).uar = 0 ∧
    ([outputW id, inputOn .w fun c => { c with ilcActive := true }, inputOn .w id,
      inputOn .w fun c => { c with charCount := 1, ilcActive := true, wcr := 2 },
      inputOn .w fun c => { c with charCount := 3 },
      inputOn .w fun c => { c with scan := true, ilcActive := true, wcr := 2 },
      inputOn .w fun c => { c with scan := true }].all
        fun s =>
      s.power == .on && s.hasChan .w && !(s.chan .w).loadDue && (s.chan .w).uar != 0 && !(s.chan .w).garbled &&
        (s.chan .w).charCount ≤ (s.chan .w).cpw.toNat && !(s.chan .w).wordReady) = true ∧
    ([true, false].all fun scan => [true, false].all fun full => [(true, 2), (true, 1), (true, 0), (false, 0)].all
        fun (on, n) =>
      [0, 3].all fun fc =>
        let s := wideE fun c => { c with scan := scan, ilcActive := on, wcr := n, fc := fc, iorFull := full }
        s.hasChan .e && !(s.chan .e).loadDue && (s.chan .e).uar != 0 && !(s.chan .e).output &&
          (s.chan .e).scan == scan && (s.chan .e).charCount == 2 && (s.chan .e).ilcActive == on &&
          (s.chan .e).wcr == n && (s.chan .e).fc == fc && (s.chan .e).iorFull == full) = true := by decide

/-- Each read-modify-write instruction at 0100, an operand at 0200, and another agent's write between its read and its
write. -/
def interrupted (w : Word) : State :=
  { s0 with
    mem := [(0o100, w), (0o200, 5)], a := 3
    schedule := [.cycle, .cycle, .event (.dmaWrite (s0.phys 0o200) 7), .cycle] }
theorem witness_MemoryCycles :
    (∀ w : Word, State.AtFetch { interrupted w with schedule := [] }) ∧
    ([((0o06100200 : Word), Instr.min at200), (0o06000200, .skr at200), (0o06300200, .adm at200),
      (0o06200200, .xma at200)].all fun p =>
      let s := interrupted p.1
      (decode s.context (s.read s.p)).toOption == some p.2 && s.writable (s.phys 0o200) && !s.airAlert &&
        refOf p.2 == some at200) = true ∧
    s0.indexedAddr false 0o200 = 0o200 ∧
    ([CState.subject, .chain, .operand].all fun k =>
      let s := { interrupted 0 with c := 0o06100200, cState := k, schedule := [.cycle] }
      s.power == .on && !s.console.hold && (decode s.context s.c).toOption == some (.min at200)) = true ∧
    (let s := { with200 0o00040300 with c := 0o07640200, cState := .subject }
     (decode s.context s.c).toOption = some (.lda ⟨false, true, 0o200⟩) ∧ bit (s.read 0o200) 9 = true) ∧
    (let s := { with200 0o00000300 with c := 0o00140200, cState := .subject }
     (decode s.context s.c).toOption = some (.bru ⟨false, true, 0o200⟩) ∧ bit (s.read 0o200) 9 = false) :=
  ⟨fun _ => ⟨rfl, rfl, rfl, rfl, rfl, rfl, rfl⟩, by decide, by decide, by decide, by decide, by decide⟩

def haltedState : State := { s0 with halted := true }
theorem witness_HaltAndIdle :
    State.reset.schedule = [] ∧ State.reset.power = .on ∧ State.reset.Between ∧
    State.reset.console.runSwitch = .idle ∧ haltedState.schedule = [] ∧ haltedState.power = .on ∧
    haltedState.cState = .none ∧ haltedState.ack = none ∧ haltedState.console.runSwitch = .run ∧
    haltedState.console.hold = false ∧ haltedState.halted = true ∧ haltedState.nextLevel = none ∧
    State.nextLevel { haltedState with waiting := [0o31], ien := true } = some 0o31 ∧
    haltedState.EndsAs .halted ∧ State.reset.EndsAs .stoppedByOperator :=
  ⟨rfl, rfl, .inr rfl, rfl, rfl, rfl, rfl, rfl, rfl, rfl, rfl, by decide, by decide,
    ⟨(by intro t h; cases h), rfl, .inl rfl, rfl, rfl, rfl, by decide⟩, ⟨(by intro t h; cases h), rfl, .inr rfl, rfl⟩⟩
theorem witness_HostSide :
    State.reset.power = .on ∧ State.reset.console.runSwitch = .idle ∧ State.reset.Between ∧
    (let s := { s0 with halted := true, p := 1 }
     State.power s = .on ∧ s.console.runSwitch = .run ∧ s.halted = true ∧ s.p = 1 ∧ s.hasChan .w = true) :=
  ⟨rfl, rfl, .inr rfl, by decide⟩

end Sys2Proof.Tests
end

