-- ==== Sys2Proof/Proofs/Reset.lean ====
section
/-! PROOFS. Reset and START (10_state R39, 70_reset_and_hazards R590). -/

namespace Sys2Proof.Machine

open Sys2Proof

/-! ### A channel that START has left idle -/

/-- What R39 lists of a channel after START: no unit, no error, no alert, no running interlace, no TOP pending and both
interrupts disarmed (D16). -/
def Chan.Idle (c : Chan) : Prop :=
  c.uar = 0 ∧ c.error = false ∧ c.ilcAlert = false ∧ c.ascAlert = false ∧ c.ilcActive = false ∧
    c.topPending = false ∧ c.erArm = false ∧ c.zcArm = false

theorem Chan.reset_idle (ia : Bool) : (Chan.reset ia).Idle := ⟨rfl, rfl, rfl, rfl, rfl, rfl, rfl, rfl⟩

theorem Chan.started_idle (ch : ChannelId) (c : Chan) (n : Nat) : (Chan.started ch c n).Idle :=
  ⟨rfl, rfl, rfl, rfl, rfl, rfl, rfl, rfl⟩

/-- At reset a channel assumes bit IA exactly if it is a direct access channel (48 R359). -/
theorem Channels.get_reset (ch : ChannelId) : Channels.reset.get ch = Chan.reset (isDirect ch) := by
  cases ch <;> rfl

/-- START changes each channel by itself; `k` numbers the undefined values it draws. -/
theorem Channels.get_started (t : Channels) (n : Nat) (ch : ChannelId) :
    ∃ k, (t.started n).get ch = Chan.started ch (t.get ch) k := by
  cases ch <;> exact ⟨_, rfl⟩

theorem State.chan_reset (ch : ChannelId) : State.reset.chan ch = Chan.reset (isDirect ch) := Channels.get_reset ch

theorem State.chan_start_idle (s : State) (ch : ChannelId) : (s.start.chan ch).Idle := by
  obtain ⟨k, hk⟩ := s.chans.get_started s.draws ch
  have hchan : s.start.chan ch = Chan.started ch (s.chans.get ch) k := hk
  rw [hchan]
  exact Chan.started_idle ch _ k

/-! ### START as an event -/

/-- The frame of START: the registers and the lock-out register of logs 3 and 7, memory, the console, the lines and the
installation. -/
theorem State.start_keeps (s : State) :
    s.start.a = s.a ∧ s.start.b = s.b ∧ s.start.x = s.x ∧ s.start.mem = s.mem ∧
      s.start.lockBlocks = s.lockBlocks ∧ s.start.lockSubs = s.lockSubs ∧ s.start.console = s.console ∧
      s.start.lines = s.lines ∧ s.start.cfg = s.cfg :=
  ⟨rfl, rfl, rfl, rfl, rfl, rfl, rfl, rfl, rfl⟩

/-- START under the precondition of R590 is not refused. -/
theorem applyEvent_start {s : State} (hp : s.power ≠ .off) (hr : s.console.runSwitch = .idle)
    (hc : s.console.regSelect = .c) : applyEvent .start s = .next s.start := by
  have allowed : (s.power != .off && s.console.runSwitch == .idle && s.console.regSelect == .c) = true := by
    simp [hp, hr, hc]
  exact if_pos allowed

/-! ### The statements -/

/-- Settles O1: the scalar fields are those of the literal `State.reset`, and each channel is an idle one. -/
theorem resetState : Obligations.ResetState := by
  have channels : ∀ ch, (State.reset.chan ch).Idle := fun ch => by
    rw [State.chan_reset]
    exact Chan.reset_idle _
  exact ⟨rfl, rfl, rfl, rfl, rfl, rfl, rfl, rfl, rfl, rfl, rfl, rfl, rfl, channels⟩

/-- Settles O2: the event answers `State.start`; the control section is as its record update says, each channel is idle,
and the rest is kept. -/
theorem startInitialises : Obligations.StartInitialises := by
  intro s hp hr hc
  refine ⟨s.start, applyEvent_start hp hr hc, ?_⟩
  exact ⟨rfl, rfl, rfl, rfl, rfl, rfl, rfl, rfl, rfl, rfl, rfl, rfl, rfl, rfl, rfl, s.chan_start_idle, s.start_keeps⟩

/-- Settles O3: no word and no level is listed, and an idle channel has neither an alert nor a running interlace. -/
theorem resetInvariant : Obligations.ResetInvariant where
  memory := reset_memory_wf
  waitingRising := .nil
  activeRising := .nil
  armedRising := .nil
  oneState := fun _ hl => absurd hl List.not_mem_nil
  waitingPresent := fun _ hl => absurd hl List.not_mem_nil
  activePresent := fun _ hl => absurd hl List.not_mem_nil
  armedSystem := fun _ hl => absurd hl List.not_mem_nil
  directExtended := fun ch hd => by rw [State.chan_reset]; exact hd
  alertInterlaced := fun ch ha => by rw [State.chan_reset] at ha; exact nomatch ha
  activeInterlaced := fun ch ha => by rw [State.chan_reset] at ha; exact nomatch ha
  installation := by decide

end Sys2Proof.Machine
end

