-- ==== Sys2Proof/Proofs/StepKeeps.lean ====
section
/-! PROOFS. The relation `Keeps` for every instruction, every event of the host side and every turn of the processor.
Two events stand apart, as they may change the lock-out register: the loss of power and the setting of the lock-out
switches (10_state R33). -/

namespace Sys2Proof.Machine

open Sys2Proof

/-- An update of fields the relation does not speak of; that the update leaves the others alone is seen by computing. -/
theorem Keeps.frame {s t : State} (hm : t.mem = s.mem := by rfl) (hw : t.waiting = s.waiting := by rfl)
    (ha : t.active = s.active := by rfl) (har : t.armed = s.armed := by rfl) (hch : t.chans = s.chans := by rfl)
    (hc : t.cfg = s.cfg := by rfl) (hb : t.lockBlocks = s.lockBlocks := by rfl)
    (hs : t.lockSubs = s.lockSubs := by rfl) : Keeps s t :=
  .of_eq hm hw ha har hch hc hb hs

theorem Keeps.ite {c : Prop} [Decidable c] {s t u : State} (ht : Keeps s t) (hu : Keeps s u) :
    Keeps s (if c then t else u) := by
  split
  · exact ht
  · exact hu

theorem KeepsResult.ite {c : Prop} [Decidable c] {s : State} {p q : Result} (hp : KeepsResult s p)
    (hq : KeepsResult s q) : KeepsResult s (if c then p else q) := by
  split
  · exact hp
  · exact hq

/-! ### The instructions whose meaning has cases -/

theorem KeepsResult.execAdm (r : Ref) (s : State) : KeepsResult s (execAdm r s) :=
  .atEA fun t => .next ((Keeps.write s t _).trans .frame)

theorem KeepsResult.execMin (r : Ref) (s : State) : KeepsResult s (execMin r s) :=
  .atEA fun t => .next (.after (.sequential _) (.after (.clockSync _ _) ((Keeps.write s t _).trans .frame)))

theorem KeepsResult.execSkr (r : Ref) (s : State) : KeepsResult s (execSkr r s) :=
  .atEA fun t => .next (.after (.skipIf _ _) (.after (.clockSync _ _) ((Keeps.write s t _).trans .frame)))

theorem KeepsResult.execXma (r : Ref) (s : State) : KeepsResult s (execXma r s) :=
  .atEA fun t => .next ((Keeps.write s t _).trans .frame)

theorem KeepsResult.execMul (r : Ref) (s : State) : KeepsResult s (execMul r s) :=
  .withOperand fun _ => .after (.sequential _) (.ite .frame .frame)

theorem KeepsResult.execDiv (r : Ref) (s : State) : KeepsResult s (execDiv r s) :=
  .withOperand fun _ => .after (.sequential _) (.ite .frame .frame)

theorem KeepsResult.execBru (r : Ref) (s : State) : KeepsResult s (execBru r s) :=
  .atEA fun _ => .next (.after (.branch _ _) (.ite (.clearHighestActive s) (.refl s)))

theorem KeepsResult.execBrx (r : Ref) (s : State) : KeepsResult s (execBrx r s) :=
  .atEA fun _ => .next (.ite .frame .frame)

theorem KeepsResult.execBrm (r : Ref) (s : State) : KeepsResult s (execBrm r s) :=
  .atEA fun t => .next (.after (.branch _ _) (.write s t _))

theorem KeepsResult.execPop (code : BitVec 6) (r : Ref) (s : State) : KeepsResult s (execPop code r s) :=
  .next ((Keeps.store s 0 _).trans .frame)

theorem KeepsResult.execRch (f : RegFn) (s : State) : KeepsResult s (execRch f s) :=
  .ite (.refused _) (.next (.after (.sequential _) (.registerChange s f)))

theorem KeepsResult.execSetext (s3 s2 : Bool) (r3 r2 : BitVec 3) (s : State) :
    KeepsResult s (execSetext s3 s2 r3 r2 s) := .ite (.next .frame) (.refused _)

theorem KeepsResult.execExttest (t3 t2 : Bool) (s : State) : KeepsResult s (execExttest t3 t2 s) :=
  .ite (.next (.skipIf s _)) (.refused _)

/-- PIN: one alerted channel, none, or several (48 R388). -/
theorem KeepsResult.execPin (r : Ref) (s : State) : KeepsResult s (execPin r s) := by
  refine .atEA fun t => ?_
  dsimp only
  split
  · split
    · exact .next (.trans (.after (.write _ t _) (.request s _)) .frame)
    · exact .next (.after (.holdAt _ _ t) (.request s _))
  · exact .next (.after (.sequential _) (.after (.setChan_same _ _ _ rfl rfl rfl) (.write s t _)))
  · exact .refused _

/-- A channel that POT serves was alerted. -/
theorem ilcAlert_of_mem_ilcAlerted {s : State} {ch : ChannelId} (h : ch ∈ s.ilcAlerted) :
    (s.chan ch).ilcAlert = true := (List.mem_filter.1 h).2

/-- POT: the arm-interrupt unit, an interlace, a subchannel or an external device (48 R389). -/
theorem KeepsResult.execPot (r : Ref) (s : State) : KeepsResult s (execPot r s) := by
  refine .atEA fun t => ?_
  dsimp only
  refine .ite (.refused _) (.ite (.next (.after (.sequential _) (.armInterrupts s _))) ?_)
  split
  · rename_i ch rest alerted
    have ha : (s.chan ch).ilcAlert = true := ilcAlert_of_mem_ilcAlerted (alerted ▸ List.mem_cons_self)
    exact .ite (.refused _) (.next (.after (.sequential _) (.loadInterlace s ch _ ha)))
  · split
    · exact .next .frame
    · exact .ite (.next ((Keeps.request s _).trans .frame)) (.next ((Keeps.request s _).trans .frame))

/-! ### The general forms -/

theorem KeepsResult.execSyseom (k : SysFn) (s : State) : KeepsResult s (execSyseom k s) := .next .frame

theorem KeepsResult.execEom (f : IoFn) (s : State) : KeepsResult s (execEom f s) := by
  unfold Machine.execEom
  split
  · exact .bufferControl s _ _
  · exact .ioControl s _ _ _ _
  · refine .ite (.refused _) ?_
    split
    iterate 7 exact .next .frame
    exact .refused _
  · exact .execSyseom _ s

theorem KeepsResult.execEod (f : IoFn) (s : State) : KeepsResult s (execEod f s) := by
  unfold Machine.execEod
  split
  · exact .bufferControl s _ _
  · exact .ioControl s _ _ _ _
  · exact .ite (.refused _) (.execSetext _ _ _ _ s)
  · exact .refused _

theorem KeepsResult.internalTest (s : State) (f : IoFn) : KeepsResult s (s.internalTest f) := by
  unfold State.internalTest
  refine .ite (.refused _) ?_
  split
  iterate 8 exact .next .frame
  exact .ite (.next .frame) (.refused _)

theorem KeepsResult.execSks (f : IoFn) (s : State) : KeepsResult s (execSks f s) := by
  unfold Machine.execSks
  split
  · exact .ite (.ite (.refused _) (.execExttest _ _ s)) (.ite (.next .frame) (.refused _))
  · refine .ite (.deviceTest s _ _ _) ?_
    split
    iterate 4 exact .channelTest s _ _ _
    exact .ite (.refused _) (.next .frame)
  · exact .internalTest s f
  · exact .next .frame

/-! ### Every instruction -/

/-- No instruction alters what every step keeps. The arms stand in groups of one shape: registers alone, an operand
read, a word stored, a shift, a channel. -/
theorem KeepsResult.exec (i : Instr) (s : State) : KeepsResult s (exec i s) := by
  match i with
  | .hlt | .nop | .rov | .reo | .ovt | .bpt1 | .bpt2 | .bpt3 | .bpt4 | .eir | .dir | .iet | .idt | .air | .rtcarm
  | .rtcdisarm | .pfst | .syssks _ | .syseom _ => exact .next .frame
  | .cla | .clb | .clr | .cab | .cba | .xab | .bac | .abc | .clx | .cxa | .cax | .xxa | .cbx | .cxb | .xxb | .ste
  | .lde | .xee | .cna => exact .next (.after (.sequential _) (.registerChange s _))
  | .lda _ | .ldb _ | .ldx _ | .add _ | .adc _ | .sub _ | .suc _ | .etr _ | .mrg _ | .eor _ | .brr _ | .ske _
  | .skg _ | .skm _ | .ska _ | .skb _ | .skn _ | .skd _ =>
    dsimp only [Machine.exec]
    exact .withOperand fun _ => .frame
  | .eax _ | .exu _ => exact .atEA fun _ => .next .frame
  | .sta _ | .stb _ | .stx _ => exact .atEA fun t => .next (.after (.sequential _) (.write s t _))
  | .xma r => exact .execXma r s
  | .adm r => exact .execAdm r s
  | .min r => exact .execMin r s
  | .skr r => exact .execSkr r s
  | .mul r => exact .execMul r s
  | .div r => exact .execDiv r s
  | .bru r => exact .execBru r s
  | .brx r => exact .execBrx r s
  | .brm r => exact .execBrm r s
  | .pop code r => exact .execPop code r s
  | .rch f => exact .execRch f s
  | .rsh _ | .rcy _ | .lrsh _ => exact .atShiftEA fun t => .shiftRight s t
  | .lsh _ | .lcy _ | .nod _ => exact .atShiftEA fun t => .shiftLeft s t
  | .setext s3 s2 r3 r2 => exact .execSetext s3 s2 r3 r2 s
  | .exttest t3 t2 => exact .execExttest t3 t2 s
  | .eom f => exact .execEom f s
  | .eod f => exact .execEod f s
  | .sks f => exact .execSks f s
  | .miw r | .miy r => exact .memoryIntoBuffer s _ _ r
  | .wim r | .yim r => exact .bufferIntoMemory s _ _ r
  | .pin r => exact .execPin r s
  | .pot r => exact .execPot r s
  | .connect _ _ | .dsc _ | .rkb _ _ | .typ _ _ | .rpt _ _ | .ptl _ _ | .ppt _ _ | .rcd _ _ | .rcb _ _ | .pcd _ _
  | .pcb _ _ | .plp _ _ | .wtb _ _ _ | .wtd _ _ _ | .eft _ _ _ | .ert _ _ _ | .rtb _ _ _ | .rtd _ _ _ | .sfb _ _ _
  | .sfd _ _ _ | .srb _ _ _ | .srd _ _ _ => exact .bufferControl s _ _
  | .alc _ | .asc _ | .top _ | .ilc _ _ | .ioctl _ _ _ | .src _ | .rts _ | .rew _ _ | .srr _ | .pol _ | .psc _ _
  | .psp _ _ => exact .ioControl s _ _ _ _
  | .cat _ | .czt _ | .cet _ | .cit _ | .brtw | .brty | .betw | .bety => exact .channelTest s _ _ _
  | .devtest _ _ _ | .crt _ | .fct _ | .cft _ | .pbt _ | .cpt _ | .trt _ _ | .fpt _ _ | .btt _ _ | .ett _ _
  | .dt2 _ _ | .dt5 _ _ | .dt8 _ _ | .tgt _ _ | .magpak _ _ | .tft _ | .pft _ | .prt _ | .ept _ =>
    exact .deviceTest s _ _ _

/-! ### A turn of the processor -/

theorem KeepsResult.runC (s : State) : KeepsResult s s.runC := .checked fun i => .finish (.exec i s)

theorem KeepsResult.cycleC (s : State) : KeepsResult s s.cycleC := by
  refine .checked fun i => ?_
  split
  · rename_i t ht
    exact .next (.oneCycle ht)
  · exact .finish (.exec i s)

theorem KeepsResult.fetchedC (s : State) : KeepsResult s s.fetchedC := .checked fun _ => .next .frame

theorem KeepsResult.cpuStep (s : State) : KeepsResult s s.cpuStep := .processorTurn (.runC s) (.runC _)

theorem KeepsResult.cpuCycle (s : State) : KeepsResult s s.cpuCycle := .processorTurn (.cycleC s) (.fetchedC _)

/-! ### Every event -/

/-- START clears the levels and keeps, of the channels, what the invariant says of them. -/
theorem Keeps.start (s : State) : Keeps s s.start := by
  have channels : ∀ ch, (s.start.chan ch).ia = isDirect ch ∧ (s.start.chan ch).ilcAlert = false ∧
      (s.start.chan ch).ilcActive = false := started_get s.chans s.draws
  have armed : s.start.armed = [] ∨ s.start.armed = s.armed := by
    simp only [State.start]
    cases s.cfg.armedAfterStart <;> simp
  refine ⟨rfl, rfl, rfl, fun h => ?_, fun _ _ => rfl⟩
  exact
    { memory := h.memory
      waitingRising := .nil
      activeRising := .nil
      armedRising := by rcases armed with e | e <;> rw [e]; exacts [.nil, h.armedRising]
      oneState := fun _ hl => absurd hl List.not_mem_nil
      waitingPresent := fun _ hl => absurd hl List.not_mem_nil
      activePresent := fun _ hl => absurd hl List.not_mem_nil
      armedSystem := by
        rcases armed with e | e <;> rw [e]
        exacts [fun _ hl => absurd hl List.not_mem_nil, h.armedSystem]
      directExtended := fun ch hd => (channels ch).1.trans hd
      alertInterlaced := fun ch ha => by rw [(channels ch).2.1] at ha; exact nomatch ha
      activeInterlaced := fun ch ha => by rw [(channels ch).2.2] at ha; exact nomatch ha
      installation := h.installation }

theorem KeepsResult.poweredEvent {s t : State} (ok : Bool) (h : Keeps s t) : KeepsResult s (s.poweredEvent ok t) :=
  .ite (.next h) (.refused _)

theorem KeepsResult.deviceEvent {s t : State} (ch : ChannelId) (ok : Bool) (h : Keeps s t) :
    KeepsResult s (s.deviceEvent ch ok t) := .poweredEvent _ h

theorem KeepsResult.operatorEvent {s t : State} (ok : Bool) (h : Keeps s t) : KeepsResult s (operatorEvent ok t) :=
  .ite (.next h) (.refused _)

/-- No event alters what every step keeps, but for the two that may change the lock-out register. -/
theorem KeepsResult.applyEvent {e : HostEvent} (s : State) (hp : e ≠ .powerOff) (hl : ∀ b c, e ≠ .lockout b c) :
    KeepsResult s (applyEvent e s) := by
  cases e with
  | powerOff => exact absurd rfl hp
  | lockout b c => exact absurd rfl (hl b c)
  | powerOn => exact .next (.ite .frame (.refl s))
  | start => exact .operatorEvent _ (.start s)
  | runSwitch v => exact .next (.turnSwitch s v)
  | fill u => exact .operatorEvent _ (.fill s u)
  | clearRegister r => exact .operatorEvent _ (.editRegister s r _)
  | setBit r k => exact .operatorEvent _ (.editRegister s r _)
  | memoryClear => exact .operatorEvent _ (.clearMemory s _)
  | hold | enableSwitch | paritySwitch | breakpoint | registerSelect | ioDisplaySelect | deviceSignal | systemSignal
  | specialSignal | potReady | pinReady => exact .next .frame
  | charIn ch size v ok => exact .deviceEvent ch _ (.charIn s ch size v ok)
  | charReq ch size => exact .deviceEvent ch _ (.charReq s ch size)
  | eor ch => exact .deviceEvent ch _ (.endOfRecord s ch)
  | gapEnd ch => exact .deviceEvent ch _ (.gapEnd s ch)
  | devError ch => exact .deviceEvent ch _ (.devError s ch)
  | interruptSignal l => exact .poweredEvent _ (.raise s l)
  | clockPulse => exact .poweredEvent _ (.raise s _)
  | powerFail => exact .poweredEvent _ ((Keeps.raise s _).trans .frame)
  | powerReturn => exact .next (.powerReturns s)
  | parityError io => exact .poweredEvent _ (.parityFault s io)
  | dmaWrite a w => exact .poweredEvent _ (.store s a w)
  | dmaRead a => exact .poweredEvent _ (.send s _)
  | dmaIncrement a part => exact .poweredEvent _ (.after (.send _ _) (.store s a _))

end Sys2Proof.Machine
end

