-- ==== Sys2Proof/Proofs/Memory.lean ====
section
/-! PROOFS. The write lock-out, the rule of a store, and physical and shift addresses (20_memory R62 to R65, 30_encoding
R108). -/

namespace Sys2Proof.Machine

open Sys2Proof

/-! ### The write lock-out -/

/-- A next state of the result, if any, reads as `s` does wherever the write lock-out protects `s`. -/
def GuardsResult (s : State) (r : Result) : Prop :=
  ∀ t, r = .next t → ∀ k : PAddr, s.lockedOut k = true → t.memRead k = s.memRead k

theorem KeepsResult.guards {s : State} {r : Result} (h : KeepsResult s r) : GuardsResult s r :=
  fun t ht => (h t ht).guarded

/-- No event alters a protected word, also not one that changes the lock-out register itself: these leave memory. -/
theorem applyEvent_guards (e : HostEvent) (s : State) : GuardsResult s (applyEvent e s) := by
  by_cases hp : e = .powerOff
  · subst hp
    intro t ht k _
    cases ht
    exact losePower_memRead s k
  · by_cases hl : ∃ b c, e = .lockout b c
    · obtain ⟨b, c, rfl⟩ := hl
      intro t ht k _
      simp only [applyEvent, operatorEvent] at ht
      split at ht
      · cases ht; rfl
      · cases ht
    · exact (KeepsResult.applyEvent s hp fun b c e => hl ⟨b, c, e⟩).guards

/-- What is left of the schedule has no part in what is protected nor in what is read. -/
theorem GuardsResult.of_schedule {s : State} {q : List Turn} {r : Result}
    (h : GuardsResult { s with schedule := q } r) : GuardsResult s r := fun t ht k hk => h t ht k hk

/-- No step alters a protected word: it is a turn of the processor, a memory cycle of it, or an event. -/
theorem step_guards (s : State) : GuardsResult s (step s) := by
  unfold step
  split
  · exact (KeepsResult.cpuStep s).guards
  · exact .of_schedule (KeepsResult.cpuStep _).guards
  · exact .of_schedule (KeepsResult.cpuCycle _).guards
  · exact .of_schedule (applyEvent_guards _ _)

/-- Settles O5: by the turn that the step takes, each of which keeps the protected words. -/
theorem protectedWordsStay : Obligations.ProtectedWordsStay :=
  fun s t a hst ha => step_guards s t hst a ha

/-! ### The rule of a store -/

theorem memRead_absent (s : State) (a : PAddr) (h : s.cfg.memWords ≤ a.toNat) : s.memRead a = 0 :=
  if_neg (Nat.not_lt.2 h)

/-- Settles O7: a store is the update of memory and of the Waiting levels that `Stored` describes, and it is none where
no memory is installed. -/
theorem memoryWrite : Obligations.MemoryWrite := fun s a v =>
  ⟨⟨_, _, rfl, store_stored s a v⟩, fun h => ⟨store_absent s a v h, memRead_absent s a h⟩⟩

/-! ### Physical addresses -/

theorem addr_bit_zero (e : Addr) : e.getMsbD 0 = true ↔ 0o20000 ≤ e.toNat := by
  rw [← BitVec.msb_eq_getMsbD_zero, BitVec.msb_eq_decide]
  simp

theorem addr_bit_one (e : Addr) (h : 0o20000 ≤ e.toNat) : e.getMsbD 1 = true ↔ 0o30000 ≤ e.toNat := by
  have he := e.isLt
  have hb : e.getMsbD 1 = e.toNat.testBit 12 := by simp [BitVec.getMsbD_eq_getLsbD, BitVec.getLsbD]
  rw [hb, Nat.testBit_eq_decide_div_mod_eq, decide_eq_true_eq]
  omega

/-- An extension register put before the last twelve bits of a program address. -/
theorem extended_toNat (m : BitVec 3) (e : Addr) :
    (m ++ e.setWidth 12 : PAddr).toNat = m.toNat * 0o10000 + e.toNat % 0o10000 := by
  rw [append_toNat, BitVec.toNat_setWidth]; rfl

theorem phys_direct (s : State) (e : Addr) (h : s.cfg.hasMemExt = false ∨ e.toNat < 0o20000) :
    (s.phys e).toNat = e.toNat := by
  have off : ¬ (s.cfg.hasMemExt && e.getMsbD 0) = true := by
    rw [Bool.and_eq_true, addr_bit_zero]
    rintro ⟨hx, he⟩
    rcases h with h | h
    · rw [h] at hx; exact nomatch hx
    · omega
  have he := e.isLt
  rw [State.phys, if_neg off, BitVec.toNat_setWidth]
  exact Nat.mod_eq_of_lt (by omega)

theorem phys_em2 (s : State) (e : Addr) (hx : s.cfg.hasMemExt = true) (h2 : 0o20000 ≤ e.toNat)
    (h3 : e.toNat < 0o30000) : (s.phys e).toNat = s.em2.toNat * 0o10000 + e.toNat % 0o10000 := by
  have low : ¬ e.getMsbD 1 = true := fun h => absurd ((addr_bit_one e h2).1 h) (by omega)
  rw [State.phys, if_pos (by rw [hx, (addr_bit_zero e).2 h2]; rfl), if_neg low, extended_toNat]

theorem phys_em3 (s : State) (e : Addr) (hx : s.cfg.hasMemExt = true) (h3 : 0o30000 ≤ e.toNat) :
    (s.phys e).toNat = s.em3.toNat * 0o10000 + e.toNat % 0o10000 := by
  have h2 : 0o20000 ≤ e.toNat := by omega
  rw [State.phys, if_pos (by rw [hx, (addr_bit_zero e).2 h2]; rfl), if_pos ((addr_bit_one e h2).2 h3),
    extended_toNat]

/-- With the values START gives the extension registers, every program address is physical (20 R62). -/
theorem phys_started (s : State) (e : Addr) (hm2 : s.em2 = 2) (hm3 : s.em3 = 3) : (s.phys e).toNat = e.toNat := by
  have he := e.isLt
  cases hx : s.cfg.hasMemExt with
  | false => exact phys_direct s e (.inl hx)
  | true =>
    rcases Nat.lt_or_ge e.toNat 0o20000 with h2 | h2
    · exact phys_direct s e (.inr h2)
    · rcases Nat.lt_or_ge e.toNat 0o30000 with h3 | h3
      · rw [phys_em2 s e hx h2 h3, hm2, show (2 : BitVec 3).toNat = 2 from rfl]; omega
      · rw [phys_em3 s e hx h3, hm3, show (3 : BitVec 3).toNat = 3 from rfl]; omega

/-! ### The effective address of a shift -/

theorem shiftEA_indirect {s : State} {r : Ref} (h : r.indirect = true) : s.shiftEA r = s.ea r := if_pos h

theorem shiftEA_direct {s : State} {r : Ref} (h : r.indirect = false) (hx : r.indexed = false) :
    s.shiftEA r = .addr r.addr := by
  rw [State.shiftEA, h, hx]; rfl

theorem shiftEA_indexed {s : State} {r : Ref} (h : r.indirect = false) (hx : r.indexed = true) :
    s.shiftEA r = .addr (r.addr.extractLsb' 9 5 ++ (r.addr.setWidth 9 + low9 s.x)) := by
  rw [State.shiftEA, h, hx]; rfl

/-- Indexing in the count alone: the five bits before it stay, and the nine add without a carry out of them. -/
theorem countIndexed_toNat (a : Addr) (x : Word) :
    (a.extractLsb' 9 5 ++ (a.setWidth 9 + low9 x) : Addr).toNat / 512 = a.toNat / 512 ∧
      (a.extractLsb' 9 5 ++ (a.setWidth 9 + low9 x) : Addr).toNat % 512 = (a.toNat + x.toNat) % 512 := by
  have ha := a.isLt
  have hk : (a.extractLsb' 9 5).toNat = a.toNat / 512 := by
    rw [BitVec.extractLsb'_toNat, Nat.shiftRight_eq_div_pow]
    exact Nat.mod_eq_of_lt (by omega)
  have hn : (a.setWidth 9 + low9 x).toNat = (a.toNat + x.toNat) % 512 := by
    rw [BitVec.toNat_add, low9, BitVec.toNat_setWidth, BitVec.toNat_setWidth, ← Nat.add_mod]
  rw [append_toNat, hk, hn]
  omega

theorem shiftEA_direct_toNat (s : State) (r : Ref) (h : r.indirect = false) :
    ∃ t, s.shiftEA r = .addr t ∧ t.toNat / 512 = r.addr.toNat / 512 ∧
      t.toNat % 512 = (r.addr.toNat + (if r.indexed then s.x.toNat else 0)) % 512 := by
  cases hx : r.indexed with
  | false => exact ⟨_, shiftEA_direct h hx, rfl, rfl⟩
  | true => exact ⟨_, shiftEA_indexed h hx, countIndexed_toNat r.addr s.x⟩

/-- Settles O8: by the range of the program address, and by bits 1 and 9 of the shift word. -/
theorem addresses : Obligations.Addresses :=
  ⟨fun s e => ⟨fun h => phys_direct s e (.inl h), fun h => phys_direct s e (.inr h), phys_em2 s e, phys_em3 s e,
    phys_started s e⟩, fun s r => ⟨shiftEA_indirect, shiftEA_direct_toNat s r⟩⟩

end Sys2Proof.Machine
end

