-- ==== Sys2Proof/Proofs/Cycles.lean ====
section
/-! PROOFS. Memory cycles (20_memory R72, R74, 70_reset_and_hazards R608): the four turns of one cycle, and a word that
another agent writes between the read and the write of a read-modify-write instruction. -/

namespace Sys2Proof.Machine

open Sys2Proof

/-! ### One turn of one cycle -/

theorem step_cycle {s : State} {rest : List Turn} (h : s.schedule = .cycle :: rest) :
    step s = State.cpuCycle { s with schedule := rest } := by
  simp only [step, h]

theorem checked_ok {s : State} {i : Instr} {k : Instr → Result} (hd : decode s.context s.c = .ok i)
    (ha : s.airAlert = true → afterAir i = true) (ht : s.tooShort i = false) : s.checked k = k i := by
  rw [State.checked, hd]
  cases hx : s.airAlert with
  | false => simp [ht]
  | true => simp [ha hx, ht]

theorem processorTurn_inside {s : State} (hp : s.power = .on)
    (hh : s.console.runSwitch = .run → s.console.hold = false)
    (hc : s.cState = .subject ∨ s.cState = .chain ∨ s.cState = .operand ∨ s.cState = .waiting)
    (f g : State → Result) : s.processorTurn f g = f s := by
  have allowed : ¬ (s.console.runSwitch = .run ∧ s.console.hold = true) := fun h => by
    rw [hh h.1] at h
    exact nomatch h.2
  rw [State.processorTurn, if_neg (not_not.2 hp), if_neg allowed]
  rcases hc with hc | hc | hc | hc <;> rw [hc]

/-- The cycle of the fetch: the word at P goes to C. -/
theorem cpuCycle_fetches {s : State} {i : Instr} (h : State.AtFetch { s with schedule := [] })
    (ha : s.airAlert = true → afterAir i = true) (hd : decode s.context (s.read s.p) = .ok i) :
    s.cpuCycle = .next { s with c := s.read s.p, origin := .sequence, cState := .subject } := by
  obtain ⟨hpower, hrun, hhold, hhalted, hcState, hack, -⟩ := h
  dsimp only at hpower hrun hhold hhalted hcState hack
  let t : State := { s with c := s.read s.p, origin := .sequence, cState := .none }
  have fetched : s.fetch = t := by
    simp only [State.fetch, hcState, hack, State.nextWord, t]
  have decoded : decode t.context t.c = .ok i := hd
  have turn : s.cpuCycle = s.fetch.fetchedC := by
    simp [State.cpuCycle, State.processorTurn, State.atBoundary, hpower, hrun, hhold, hhalted, hcState]
  rw [turn, fetched, State.fetchedC, checked_ok decoded ha (tooShort_sequence rfl)]

section Inside

variable {s : State} {i : Instr} (hp : s.power = .on) (hh : s.console.runSwitch = .run → s.console.hold = false)
  (hc : s.cState = .subject ∨ s.cState = .chain ∨ s.cState = .operand ∨ s.cState = .waiting)
  (ha : s.airAlert = true → afterAir i = true) (hd : decode s.context s.c = .ok i)

include hp hh hc ha hd

/-- A cycle inside an instruction that is not its last. -/
theorem cpuCycle_goes_on {t : State} (h : s.oneCycle i = some t) : s.cpuCycle = .next t := by
  rw [State.cpuCycle, processorTurn_inside hp hh hc, State.cycleC, checked_ok hd ha (tooShort_unfinished hc), h]

/-- The last cycle of an instruction. -/
theorem cpuCycle_ends (h : s.oneCycle i = none) : s.cpuCycle = finish (exec i s) := by
  rw [State.cpuCycle, processorTurn_inside hp hh hc, State.cycleC, checked_ok hd ha (tooShort_unfinished hc), h]

end Inside

/-! ### Which cycle comes next -/

theorem mem_readsFirst {i : Instr} {r : Ref} (h : refOf i = some r) :
    i ∈ [Instr.min r, .skr r, .adm r, .xma r, .pot r] ↔ readsFirst i = true := by
  constructor
  · intro hi
    fin_cases hi <;> rfl
  · intro hi
    unfold readsFirst at hi
    split at hi
    iterate 5 cases h; simp
    exact nomatch hi

theorem isReturn_eq {i : Instr} {r : Ref} (h : refOf i = some r) (hi : isReturn i = true) : i = .bru r := by
  unfold isReturn at hi
  split at hi
  · cases h; rfl
  · exact nomatch hi

section OneCycle

variable {s : State} {i : Instr} {r : Ref} (href : refOf i = some r)

include href

/-- A level of indirect addressing that leads to another. -/
theorem oneCycle_chain (h : r.indirect = true) (hw : bit (s.read (s.indexedAddr r.indexed r.addr)) 9 = true) :
    s.oneCycle i = some (s.holdChain (s.c.extractLsb' 15 6)
      (s.indexedAddr (bit (s.read (s.indexedAddr r.indexed r.addr)) 1)
        (addrField (s.read (s.indexedAddr r.indexed r.addr))))) := by
  simp [State.oneCycle, href, h, hw]

/-- The last level of indirect addressing: the address is then direct. -/
theorem oneCycle_resolves (h : r.indirect = true) (hw : bit (s.read (s.indexedAddr r.indexed r.addr)) 9 = false)
    (hi : i ≠ .bru r) :
    s.oneCycle i = some { s with
      c := refWord (s.c.extractLsb' 15 6) false (s.indexedAddr (bit (s.read (s.indexedAddr r.indexed r.addr)) 1)
        (addrField (s.read (s.indexedAddr r.indexed r.addr))))
      cState := .chain } := by
  have stays : isReturn i = false := by
    rw [← Bool.not_eq_true]
    exact fun k => hi (isReturn_eq href k)
  simp [State.oneCycle, href, h, hw, stays]

/-- The read of the operand of a read-modify-write instruction or of a POT. -/
theorem oneCycle_reads (h : r.indirect = false) (hi : readsFirst i = true)
    (hc : s.cState = .subject ∨ s.cState = .chain) :
    s.oneCycle i = some { s with
      c := refWord (s.c.extractLsb' 15 6) false (s.indexedAddr r.indexed r.addr)
      m := s.read (s.indexedAddr r.indexed r.addr), cState := .operand } := by
  rcases hc with hc | hc <;> simp [State.oneCycle, href, h, hi, hc]

/-- An instruction with a direct address and no operand to read first has come to its last cycle. -/
theorem oneCycle_none_direct (h : r.indirect = false) (hi : readsFirst i = false) : s.oneCycle i = none := by
  simp [State.oneCycle, href, h, hi]

/-- So has one that has read its operand. -/
theorem oneCycle_none_operand (h : r.indirect = false) (hc : s.cState = .operand) : s.oneCycle i = none := by
  simp [State.oneCycle, href, h, hc]

end OneCycle

/-- An indirect BRU has its effect with the last level of its address. -/
theorem oneCycle_none_return {s : State} {r : Ref} (h : r.indirect = true)
    (hw : bit (s.read (s.indexedAddr r.indexed r.addr)) 9 = false) : s.oneCycle (.bru r) = none := by
  simp [State.oneCycle, refOf, isReturn, h, hw]

theorem operand_eq (s : State) (t : Addr) :
    s.operand t = if s.cState = .operand ∨ s.cState = .waiting then s.m else s.read t := by
  cases h : s.cState <;> simp [State.operand, h]

/-! ### The word that C holds between two cycles -/

theorem refWord_eq_join (code : BitVec 6) (b : Bool) (a : Addr) :
    refWord code b a = (Ref.fields ⟨false, b, a⟩ code).join := by
  apply BitVec.eq_of_getLsbD_eq
  intro k hk
  simp only [refWord, Ref.fields, Fields.ofAddr, Fields.join, BitVec.getLsbD_append, BitVec.getMsbD,
    BitVec.getLsbD_extractLsb']
  interval_cases k <;> simp

theorem decode_refWord (ctx : ChannelId → ChanCtx) (code : BitVec 6) (b : Bool) (a : Addr) :
    decode ctx (refWord code b a) = decodeFields ctx (Ref.fields ⟨false, b, a⟩ code) := by
  rw [refWord_eq_join, decode, Fields.split_join]

end Sys2Proof.Machine
end

