-- ==== Sys2Proof/Proofs/DecodeRef.lean ====
section
/-! PROOFS. Which words stand for an instruction with an effective address, and with which code and fields (30_encoding
R100, R109). -/

namespace Sys2Proof.Machine

open Sys2Proof

/-! ### The formats that hold no address -/

theorem refOf_decodeConnect (ch : ChannelId) (c : Conn) : refOf (decodeConnect ch c) = none := by
  unfold decodeConnect
  dsimp only
  split
  · split <;> rfl
  all_goals rfl

theorem refOf_decodeIoctl (ch : ChannelId) (fn : BitVec 5) (unit : BitVec 6) :
    refOf (decodeIoctl ch fn unit) = none := by
  unfold decodeIoctl
  dsimp only
  split
  iterate 4 rfl
  · split
    · rfl
    · split <;> rfl
  · rfl

theorem refOf_decodeIoControl (ctx : ChannelId → ChanCtx) {general : IoFn → Instr} (ch : ChannelId) (f : Fields)
    (h : ∀ g, refOf (general g) = none) : refOf (decodeIoControl ctx general ch f) = none := by
  unfold decodeIoControl
  split
  · split
    · rfl
    · exact h _
  · split
    · rfl
    · split
      · split
        · rfl
        · split
          · split <;> rfl
          · rfl
      · exact refOf_decodeIoctl _ _ _

theorem refOf_decodeEom (ctx : ChannelId → ChanCtx) (f : Fields) : refOf (decodeEom ctx f) = none := by
  unfold decodeEom
  dsimp only
  split
  · exact refOf_decodeConnect _ _
  · exact refOf_decodeIoControl _ _ _ fun _ => rfl
  · unfold decodeInternalControl
    split
    · rfl
    · split <;> rfl
  · rfl

theorem refOf_decodeEod (ctx : ChannelId → ChanCtx) (f : Fields) : refOf (decodeEod ctx f) = none := by
  unfold decodeEod
  dsimp only
  split
  · exact refOf_decodeConnect _ _
  · exact refOf_decodeIoControl _ _ _ fun _ => rfl
  · split <;> rfl
  · rfl

theorem refOf_decodeSks (f : Fields) : refOf (decodeSks f) = none := by
  unfold decodeSks
  dsimp only
  split
  · split <;> rfl
  · split
    · split <;> rfl
    · unfold decodeDevtest
      dsimp only
      split <;> rfl
  · unfold decodeInternalTest
    split
    · rfl
    · split <;> rfl
  · rfl

theorem refOf_decodeRegFn (f : RegFn) : refOf (decodeRegFn f) = none := by
  unfold decodeRegFn
  iterate 19 refine (apply_ite refOf _ _ _).trans (ite_eq_iff'.2 ⟨fun _ => rfl, fun _ => ?_⟩)
  rfl

/-! ### The memory references -/

/-- A shift word stands for a shift of its code, whatever the kind. -/
theorem decodeShift_ref {left : Bool} {f : Fields} {i : Instr} {r : Ref} (h : decodeShift left f = .ok i)
    (hr : refOf i = some r) : r = f.ref ∧ encodeFields i = r.fields (if left then 0o67 else 0o66) := by
  unfold decodeShift at h
  cases left
  all_goals
    simp only [Bool.false_eq_true, if_false, if_true] at h ⊢
    split at h
    · cases h; cases hr; exact ⟨rfl, rfl⟩
    · split at h
      · cases h; cases hr; exact ⟨rfl, rfl⟩
      · split at h
        · cases h; cases hr; exact ⟨rfl, rfl⟩
        · cases h

/-- An instruction with an effective address has the fields of the word it came from, and encodes to a word of the same
code. -/
theorem decodeFields_ref {ctx : ChannelId → ChanCtx} {f : Fields} {i : Instr} {r : Ref}
    (h : decodeFields ctx f = .ok i) (hr : refOf i = some r) : r = f.ref ∧ encodeFields i = r.fields f.code := by
  unfold decodeFields at h
  split at h
  · cases h; exact nomatch hr
  · split at h
    -- HLT and NOP, EOM, EOD, SKS and the register changes hold no address; 66 and 67 are the shifts.
    case h_1 | h_11 => cases h; exact nomatch hr
    case h_3 => cases h; rw [refOf_decodeEom] at hr; exact nomatch hr
    case h_4 => cases h; rw [refOf_decodeEod] at hr; exact nomatch hr
    case h_19 => cases h; rw [refOf_decodeSks] at hr; exact nomatch hr
    case h_22 =>
      split at h
      · cases h
      · cases h; rw [refOf_decodeRegFn] at hr; exact nomatch hr
    case h_37 hcode =>
      rw [(BitVec.toNat_eq_nat.1 hcode).2]
      exact decodeShift_ref h hr
    case h_38 hcode =>
      rw [(BitVec.toNat_eq_nat.1 hcode).2]
      exact decodeShift_ref h hr
    case h_47 => cases h
    all_goals
      rename_i hcode
      rw [(BitVec.toNat_eq_nat.1 hcode).2]
      cases h
      cases hr
      exact ⟨rfl, rfl⟩

end Sys2Proof.Machine
end

