-- ==== Sys2Proof/Proofs/LostWrite.lean ====
section
/-! PROOFS. The read-modify-write instructions in memory cycles of their own, and the statement of the memory cycles
(20_memory R72, R74, 70_reset_and_hazards R608). -/

namespace Sys2Proof.Machine

open Sys2Proof

/-! ### The end of an instruction -/

theorem endLevel_frame (s : State) : ∃ active, s.endLevel = { s with active := active } := by
  unfold State.endLevel
  split
  · split <;> exact ⟨_, rfl⟩
  · exact ⟨_, rfl⟩
  · exact ⟨_, rfl⟩

theorem interruptTest_frame (s : State) : ∃ waiting active ack halted inhibited,
    s.interruptTest =
      { s with waiting := waiting, active := active, ack := ack, halted := halted, noIntNext := inhibited } := by
  unfold State.interruptTest
  split
  · exact ⟨_, _, _, _, _, rfl⟩
  · split <;> exact ⟨_, _, _, _, _, rfl⟩

/-- The end of an instruction changes the control section only. -/
theorem endInstruction_frame (s : State) : ∃ waiting active ack halted inhibited console c,
    s.endInstruction =
      { s with
        waiting := waiting, active := active, ack := ack, halted := halted, noIntNext := inhibited
        console := console, c := c } := by
  obtain ⟨active, hlevel⟩ := endLevel_frame s
  unfold State.endInstruction
  rw [hlevel]
  split
  · obtain ⟨_, _, _, _, _, htest⟩ := interruptTest_frame { s with active := active }
    rw [htest]
    exact ⟨_, _, _, _, _, _, _, rfl⟩
  · obtain ⟨_, _, _, _, _, htest⟩ := interruptTest_frame (State.setSwitch { s with active := active } .idle)
    rw [htest]
    exact ⟨_, _, _, _, _, _, _, rfl⟩

/-- Around an instruction that has come to its end, A and every word of memory stay. -/
theorem finish_next {t : State} (h : t.cState = .none) :
    ∃ u, finish (.next t) = .next u ∧ u.a = t.a ∧ ∀ e, u.read e = t.read e := by
  obtain ⟨_, _, _, _, _, _, _, hend⟩ := endInstruction_frame t
  refine ⟨t.endInstruction, by rw [finish, if_pos h], ?_⟩
  rw [hend]
  exact ⟨rfl, fun _ => rfl⟩

/-! ### The read-modify-write instructions -/

/-- A read-modify-write instruction: its constructor and its code, and what it leaves in its word and in A, both of A
and of the operand it has read (20_memory R74). -/
structure Modifier where
  instr : Ref → Instr
  code : BitVec 6
  word : Word → Word → Word
  acc : Word → Word → Word

/-- MIN, SKR, ADM and XMA (41_arithmetic R164, 45_test_skip R267, 41_arithmetic R163, 40_load_store R148). -/
def modifiers : List Modifier :=
  [⟨.min, 0o61, fun _ m => m + 1, fun a _ => a⟩, ⟨.skr, 0o60, fun _ m => m - 1, fun a _ => a⟩,
   ⟨.adm, 0o63, fun a m => a + m, fun a _ => a⟩, ⟨.xma, 0o62, fun a _ => a, fun _ m => m⟩]

theorem poweredEvent_on {s : State} (h : s.power = .on) (t : State) : s.poweredEvent true t = .next t := by
  simp [State.poweredEvent, h]

theorem addSum_false (a m : Word) : addSum a m false = a + m := by simp [addSum]

section Modifiers

variable {k : Modifier} (hk : k ∈ modifiers)

include hk

theorem refOf_modifier (r : Ref) : refOf (k.instr r) = some r := by
  fin_cases hk <;> rfl

theorem readsFirst_modifier (r : Ref) : readsFirst (k.instr r) = true := by
  fin_cases hk <;> rfl

theorem encodeFields_modifier (r : Ref) : encodeFields (k.instr r) = r.fields k.code := by
  fin_cases hk <;> rfl

theorem decodeFields_modifier (ctx : ChannelId → ChanCtx) (r : Ref) :
    decodeFields ctx (r.fields k.code) = .ok (k.instr r) := by
  refine Eq.trans ?_ (congrArg (fun q => Except.ok (k.instr q)) (Ref.fields_ref r k.code))
  fin_cases hk <;> rfl

/-- The code of a word that stands for the instruction. -/
theorem code_of_decode_modifier {ctx : ChannelId → ChanCtx} {w : Word} {r : Ref}
    (h : decode ctx w = .ok (k.instr r)) : w.extractLsb' 15 6 = k.code := by
  have same : r.fields k.code = r.fields (Fields.split w).code :=
    (encodeFields_modifier hk r).symm.trans (decodeFields_ref h (refOf_modifier hk r)).2
  exact (congrArg Fields.code same).symm

/-- With its operand read, the instruction writes its word and sets A, whatever memory holds by then. -/
theorem exec_modifier (s : State) (t : Addr) (hc : s.cState = .operand) :
    ∃ u, exec (k.instr ⟨false, false, t⟩) s = .next u ∧ u.cState = .none ∧ u.a = k.acc s.a s.m ∧
      ∀ e, u.read e = (s.write t (k.word s.a s.m)).read e := by
  have hea : s.ea ⟨false, false, t⟩ = .addr t := ea_direct rfl
  have hop : s.operand t = s.m := by rw [operand_eq, if_pos (.inl hc)]
  fin_cases hk
  · refine ⟨_, (atEA_addr _ hea : execMin _ s = _), rfl, rfl, fun _ => ?_⟩
    rw [hop]
    rfl
  · refine ⟨_, (atEA_addr _ hea : execSkr _ s = _), rfl, rfl, fun _ => ?_⟩
    rw [hop]
    rfl
  · refine ⟨_, (atEA_addr _ hea : execAdm _ s = _), rfl, rfl, fun _ => ?_⟩
    rw [hop, addSum_false]
    rfl
  · exact ⟨_, (atEA_addr _ hea : execXma _ s = _), rfl, hop, fun _ => rfl⟩

/-- Fetch, read, another agent's write to the same word, last cycle: the other agent's word is lost, and the instruction
goes by the word it had read. -/
theorem runs_modifier {s : State} {r : Ref} (other : Word) (hr : r.indirect = false)
    (hfetch : State.AtFetch { s with schedule := [] }) (ha : s.airAlert = false)
    (hs : s.schedule =
      [.cycle, .cycle, .event (.dmaWrite (s.phys (s.indexedAddr r.indexed r.addr)) other), .cycle])
    (hd : decode s.context (s.read s.p) = .ok (k.instr r))
    (hw : s.writable (s.phys (s.indexedAddr r.indexed r.addr)) = true) :
    ∃ u, Runs s 4 u ∧
      u.read (s.indexedAddr r.indexed r.addr) = k.word s.a (s.read (s.indexedAddr r.indexed r.addr)) ∧
      u.a = k.acc s.a (s.read (s.indexedAddr r.indexed r.addr)) := by
  generalize ht : s.indexedAddr r.indexed r.addr = t at hs hw ⊢
  have hpower : s.power = .on := hfetch.power
  have hhold : s.console.runSwitch = .run → s.console.hold = false := fun _ => hfetch.hold
  have alert : ∀ i : Instr, s.airAlert = true → afterAir i = true := fun _ h => by rw [ha] at h; exact nomatch h
  let fetched : State :=
    { s with
      schedule := [.cycle, .event (.dmaWrite (s.phys t) other), .cycle]
      c := s.read s.p, origin := .sequence, cState := .subject }
  have first : step s = .next fetched := (step_cycle hs).trans (cpuCycle_fetches hfetch (alert _) hd)
  let reading : State := { fetched with schedule := [.event (.dmaWrite (s.phys t) other), .cycle] }
  let hasRead : State := { reading with c := refWord k.code false t, m := s.read t, cState := .operand }
  have cycle : reading.oneCycle (k.instr r) = some hasRead := by
    have hcode : reading.c.extractLsb' 15 6 = k.code := code_of_decode_modifier hk hd
    have haddr : reading.indexedAddr r.indexed r.addr = t := ht
    rw [oneCycle_reads (refOf_modifier hk r) hr (readsFirst_modifier hk r) (.inl rfl), hcode, haddr]
    rfl
  have second : step fetched = .next hasRead :=
    (step_cycle rfl).trans (cpuCycle_goes_on (s := reading) hpower hhold (.inl rfl) (alert _) hd cycle)
  let written : State := State.store { hasRead with schedule := [.cycle] } (s.phys t) other
  have third : step hasRead = .next written := poweredEvent_on hpower _
  let last : State := { written with schedule := [] }
  have resolved : decode last.context last.c = .ok (k.instr ⟨false, false, t⟩) :=
    (decode_refWord _ _ _ _).trans (decodeFields_modifier hk _ _)
  have fourth : step written = finish (exec (k.instr ⟨false, false, t⟩) last) :=
    (step_cycle rfl).trans (cpuCycle_ends (s := last) hpower hhold (.inr (.inr (.inl rfl))) (alert _) resolved
      (oneCycle_none_operand (refOf_modifier hk _) rfl rfl))
  obtain ⟨v, hexec, hdone, hacc, hread⟩ := exec_modifier hk last t rfl
  obtain ⟨u, hfinish, huacc, huread⟩ := finish_next hdone
  have own : (last.write t (k.word s.a (s.read t))).read t = k.word s.a (s.read t) :=
    (store_memRead_self last (s.phys t) _).trans (if_pos hw)
  refine ⟨u, .more _ _ _ _ first (.more _ _ _ _ second (.more _ _ _ _ third (.more _ _ _ _ ?_ (.done u)))), ?_, ?_⟩
  · rw [fourth, hexec, hfinish]
  · exact (huread t).trans ((hread t).trans own)
  · exact huacc.trans hacc

end Modifiers

/-- The four instructions as the statement lists them, each with its own word. -/
theorem exists_modifier {r : Ref} {i : Instr} {a m own : Word}
    (h : (i, own) ∈ [(Instr.min r, m + 1), (.skr r, m - 1), (.adm r, a + m), (.xma r, a)]) :
    ∃ k ∈ modifiers, i = k.instr r ∧ own = k.word a m ∧ (if i = .xma r then m else a) = k.acc a m := by
  fin_cases h
  · exact ⟨⟨.min, _, _, _⟩, .head _, rfl, rfl, rfl⟩
  · exact ⟨⟨.skr, _, _, _⟩, .tail _ (.head _), rfl, rfl, rfl⟩
  · exact ⟨⟨.adm, _, _, _⟩, .tail _ (.tail _ (.head _)), rfl, rfl, rfl⟩
  · exact ⟨⟨.xma, _, _, _⟩, .tail _ (.tail _ (.tail _ (.head _))), rfl, rfl, if_pos rfl⟩

/-! ### The statement -/

/-- Settles O58: the fetch; each cycle inside an instruction, by what its word still asks for; what the operand is; and
the run in which another agent's write is lost, for each read-modify-write instruction. -/
theorem memoryCycles : Obligations.MemoryCycles := by
  refine ⟨fun s i rest hs hfetch ha hd => (step_cycle hs).trans (cpuCycle_fetches hfetch ha hd), ?_, operand_eq, ?_⟩
  · intro s i r rest hs hp hh ha hd href
    rw [step_cycle hs]
    have goesOn {t : State} := cpuCycle_goes_on (s := { s with schedule := rest }) (t := t) hp hh (ha := ha) (hd := hd)
    have ends := cpuCycle_ends (s := { s with schedule := rest }) hp hh (ha := ha) (hd := hd)
    rw [mem_readsFirst href, Bool.not_eq_true]
    refine ⟨fun hc => ?_, fun hc hr => ends (.inr (.inr (.inl hc))) (oneCycle_none_operand href hr hc)⟩
    have inside : s.cState = .subject ∨ s.cState = .chain ∨ s.cState = .operand ∨ s.cState = .waiting :=
      hc.imp_right .inl
    refine ⟨fun hr hw => ?_, fun hr hw hi => ?_, fun hr hw hi => ?_, fun hr hi => ?_, fun hr hi => ?_⟩
    · exact goesOn inside (oneCycle_chain href hr hw)
    · exact goesOn inside (oneCycle_resolves href hr hw hi)
    · subst hi
      exact ends inside (oneCycle_none_return hr hw)
    · exact goesOn inside (oneCycle_reads href hr hi hc)
    · exact ends inside (oneCycle_none_direct href hr hi)
  · intro s r i own other t hi hr hfetch ha hs hd hw
    obtain ⟨k, hk, rfl, rfl, hacc⟩ := exists_modifier hi
    rw [hacc]
    exact runs_modifier hk other hr hfetch ha hs hd hw

end Sys2Proof.Machine
end

