-- ==== Sys2Proof/Proofs/LoadStore.lean ====
section
/-! PROOFS. The loads, the stores, EAX and XMA (40_load_store), the logical instructions (42_logical), and words read
against the spec's encodings (30_encoding). -/

namespace Sys2Proof.Machine

open Sys2Proof

/-! ### Words written out -/

/-- A word stands for the instruction whose encoding it is, where the fields of that encoding decode to it. -/
theorem decode_eq_of_encode {ctx : ChannelId → ChanCtx} {i : Instr} {w : Word} (hw : encode i = w)
    (hf : decodeFields ctx (encodeFields i) = .ok i) : decode ctx w = .ok i := by
  rw [← hw, decode_encode_fields, hf]

/-- Settles O13: eleven of the words are what the encoder writes, and their fields decode; of the twelfth the code is
one that no row has. -/
theorem decodeSamples : Obligations.DecodeSamples := by
  refine ⟨?lda, ?brx, ?bru, ?pop, ?ste, ?lrsh, ?setext, ?betw, ?connect, ?rtd, ?ilc, ?unassigned⟩
  case unassigned => rfl
  all_goals exact decode_eq_of_encode rfl rfl

/-! ### Loads and logical instructions -/

/-- Settles O19: each reads its operand at the effective address and goes on in sequence; the logical ones act bit by
bit. -/
theorem loadAndLogical : Obligations.LoadAndLogical := by
  intro s r t h
  exact ⟨(withOperand_addr _ h : execLda r s = _), (withOperand_addr _ h : execLdb r s = _),
    (withOperand_addr _ h : execLdx r s = _), ⟨_, (withOperand_addr _ h : execEtr r s = _), bit_and s.a _⟩,
    ⟨_, (withOperand_addr _ h : execMrg r s = _), bit_or s.a _⟩,
    ⟨_, (withOperand_addr _ h : execEor r s = _), bit_xor s.a _⟩⟩

/-! ### Stores, EAX and XMA -/

/-- What an instruction leaves that stores `v` at its effective address and goes on in sequence. -/
theorem atEA_write_sequential {s : State} {r : Ref} {t : Addr} (h : s.ea r = .addr t) (code : BitVec 6) (v : Word) :
    ∃ m w, (s.atEA code r fun e => .next (s.write e v).sequential) =
        .next { s with mem := m, waiting := w, p := s.advanced 1, cState := .none } ∧
      Stored s m w (s.phys t) v :=
  ⟨_, _, atEA_addr _ h, store_stored s (s.phys t) v⟩

/-- Settles O20: each stores its own register at the effective address. -/
theorem stores : Obligations.Stores := fun s _ _ h =>
  ⟨atEA_write_sequential h 0o35 s.a, atEA_write_sequential h 0o36 s.b, atEA_write_sequential h 0o37 s.x⟩

/-- Settles O21: EAX writes the address field of X; XMA stores A, and loads it with the operand whether or not the store
was made. -/
theorem addressAndExchange : Obligations.AddressAndExchange := by
  intro s r t h
  refine ⟨⟨setAddrField s.x t, ?eax, addrField_setAddrField s.x t, fun _ => bit_setAddrField s.x t⟩,
    ⟨s.storedMem (s.phys t) s.a, s.storedWaiting (s.phys t), ?xma, store_stored s (s.phys t) s.a⟩⟩
  case eax => exact atEA_addr _ h
  case xma => exact atEA_addr _ h

end Sys2Proof.Machine
end

