-- ==== Sys2Proof/Proofs/Arithmetic.lean ====
section
/-! PROOFS. The arithmetic instructions (41_arithmetic), with SKR (45_test_skip R267) and the Clock Sync requests of MIN
and SKR (60 R548, R549). -/

namespace Sys2Proof.Machine

open Sys2Proof

/-! ### Addition -/

/-- What an instruction leaves that adds `f` of its operand to A and goes on in sequence. -/
theorem withOperand_addToA {s : State} {r : Ref} {t : Addr} (h : s.ea r = .addr t) (code : BitVec 6) (f : Word → Word)
    (c ov : Bool) (carryOut : Bool → Bool) :
    ∃ a x o, (s.withOperand code r fun m => (s.addToA (f m) c ov carryOut).sequential) =
        .next { s with a := a, x := x, ov := o, p := s.advanced 1, cState := .none } ∧
      a.toNat = (s.a.toNat + (f (s.read t)).toNat + c.toNat) % 2 ^ 24 ∧
      bit x 0 = carryOut (decide (2 ^ 24 ≤ s.a.toNat + (f (s.read t)).toNat + c.toNat)) ∧
      (∀ k, 0 < k → bit x k = bit s.x k) ∧
      (o = true ↔ ov = true ∨
        ¬ (-2 ^ 23 ≤ s.a.toInt + (f (s.read t)).toInt + c.toNat ∧
          s.a.toInt + (f (s.read t)).toInt + c.toNat < 2 ^ 23)) := by
  obtain ⟨a, x, o, hadd, leaves⟩ := addToA_spec s (f (s.read t)) c ov carryOut
  refine ⟨a, x, o, ?_, leaves⟩
  rw [withOperand_addr _ h, hadd]
  rfl

/-- Settles O22: both leave what the adder leaves; ADD carries nothing in and keeps OV set, ADC carries in the sign of X
and begins with OV clear. -/
theorem addInstructions : Obligations.AddInstructions := by
  intro s r t h
  constructor
  · obtain ⟨a, x, o, hnext, hsum, hcarry, hx, hov⟩ := withOperand_addToA h 0o55 id false s.ov id
    refine ⟨a, x, o, hnext, ?_, ?_, hx, ?_⟩
    · simpa using hsum
    · simp [hcarry]
    · simpa using hov
  · rw [bit_zero]
    obtain ⟨a, x, o, hnext, hsum, hcarry, hx, hov⟩ := withOperand_addToA h 0o57 id s.x.msb false id
    refine ⟨a, x, o, hnext, hsum, ?_, hx, ?_⟩
    · simp [hcarry]
    · simpa using hov

/-! ### Subtraction -/

/-- The carry shown is that of a borrow exactly where the adder carried nothing out (41_arithmetic R169). -/
theorem eq_carryPolarity_iff (borrow c : Bool) : carryPolarity borrow c = borrow ↔ c = false := by
  cases borrow <;> simp [carryPolarity]

/-- What an instruction leaves that subtracts its operand, and `d` for an earlier borrow, from A: the adder adds the
complement with the carry 1 - d (41_arithmetic R165, R166). -/
theorem withOperand_subtract {s : State} {r : Ref} {t : Addr} (h : s.ea r = .addr t) (code : BitVec 6) {c : Bool}
    {d : Nat} (hd : c.toNat + d = 1) (ov : Bool) :
    ∃ a x o, (s.withOperand code r fun m =>
          (s.addToA (~~~m) c ov (carryPolarity s.cfg.subBorrow)).sequential) =
        .next { s with a := a, x := x, ov := o, p := s.advanced 1, cState := .none } ∧
      (a.toNat : Int) = ((s.a.toNat : Int) - (s.read t).toNat - d) % 2 ^ 24 ∧
      (s.a.toNat < (s.read t).toNat + d ↔ bit x 0 = s.cfg.subBorrow) ∧
      (∀ k, 0 < k → bit x k = bit s.x k) ∧
      (o = true ↔ ov = true ∨
        ¬ (-2 ^ 23 ≤ s.a.toInt - (s.read t).toInt - d ∧ s.a.toInt - (s.read t).toInt - d < 2 ^ 23)) := by
  obtain ⟨a, x, o, hnext, hsum, hcarry, hx, hov⟩ :=
    withOperand_addToA h code (fun m => ~~~m) c ov (carryPolarity s.cfg.subBorrow)
  have hm := (s.read t).isLt
  rw [not_toNat] at hsum hcarry
  refine ⟨a, x, o, hnext, ?_, ?_, hx, ?_⟩
  · omega
  · rw [hcarry, eq_carryPolarity_iff, decide_eq_false_iff_not]
    omega
  · have hdiff : s.a.toInt + (~~~s.read t).toInt + c.toNat = s.a.toInt - (s.read t).toInt - d := by
      rw [not_toInt]
      omega
    rw [hov, hdiff]

/-- The carry input of SUC and the borrow it stands for make one. -/
theorem carryPolarity_add_borrow (borrow b : Bool) :
    (carryPolarity borrow b).toNat + (if b = borrow then 1 else 0) = 1 := by
  cases borrow <;> cases b <;> rfl

/-- Settles O23: SUB subtracts with no earlier borrow and keeps OV set, SUC with the borrow that bit 0 of X shows and OV
clear at first. -/
theorem subtractInstructions : Obligations.SubtractInstructions := by
  intro s r t h
  constructor
  · obtain ⟨a, x, o, hnext, hdiff, hborrow, hx, hov⟩ := withOperand_subtract h 0o54 (c := true) (d := 0) rfl s.ov
    refine ⟨a, x, o, hnext, ?_, hborrow, hx, ?_⟩
    · simpa using hdiff
    · simpa using hov
  · rw [bit_zero]
    obtain ⟨a, x, o, hnext, hdiff, hborrow, hx, hov⟩ :=
      withOperand_subtract h 0o56 (carryPolarity_add_borrow s.cfg.subBorrow s.x.msb) false
    refine ⟨a, x, o, hnext, hdiff, hborrow, hx, ?_⟩
    simpa using hov

/-! ### Arithmetic in memory -/

/-- The state after a store of `v`, a new OV and the clock's request where `sync` holds. -/
theorem write_clockSync (s : State) (t : Addr) (v : Word) (ov sync : Bool) :
    State.clockSync { s.write t v with ov := ov } sync =
      { s with
        mem := s.storedMem (s.phys t) v, ov := ov
        waiting := if s.origin = .interrupt 0o75 ∧ sync = true
          then State.requested { s with waiting := s.storedWaiting (s.phys t) } 0o74
          else s.storedWaiting (s.phys t) } := by
  simp only [State.clockSync, Bool.and_eq_true, beq_iff_eq]
  rfl

/-- Settles O24: each stores its result at the effective address; MIN and SKR then ask for Clock Sync, and SKR skips on
the sign of the result. -/
theorem memoryArithmetic : Obligations.MemoryArithmetic := by
  intro s r t h m
  have hstored (v : Word) := store_stored s (s.phys t) v
  refine ⟨⟨_, _, addSum s.a m false, s.ov || addOverflow s.a m false, ?adm, hstored _, ?admSum, ?admOv⟩,
    ⟨_, _, m + 1, s.ov || m == 0o37777777, ?min, hstored _, ?minSum, ?minOv⟩,
    ⟨_, _, m - 1, s.ov || m == 0o40000000, ?skr, hstored _, ?skrSum, ?skrOv⟩⟩
  case adm => exact (atEA_addr _ h : execAdm r s = _)
  case admSum => simpa using addSum_toNat s.a m false
  case admOv => simpa using or_congr_right (addOverflow_iff s.a m false)
  case min =>
    refine (atEA_addr _ h : execMin r s = _).trans ?_
    simp only [write_clockSync, beq_iff_eq]
    rfl
  case minSum => exact BitVec.toNat_add m 1
  case skr =>
    refine (atEA_addr _ h : execSkr r s = _).trans ?_
    simp only [write_clockSync, bit_zero]
    rfl
  case minOv | skrOv => rw [Bool.or_eq_true, beq_iff_eq]
  case skrSum => rw [BitVec.toNat_sub, Nat.add_comm]; rfl

/-! ### Double length -/

theorem mulOverflows_iff (a m : Word) : mulOverflows a m = true ↔ a = 0o40000000 ∧ m = 0o40000000 := by
  simp only [mulOverflows, Bool.and_eq_true, beq_iff_eq]

theorem exec_mul_fits {s : State} {r : Ref} {t : Addr} (h : s.ea r = .addr t)
    (hfits : mulOverflows s.a (s.read t) = false) :
    exec (.mul r) s = .next (s.setAB (mulProduct s.a (s.read t))).sequential := by
  refine (withOperand_addr _ h : execMul r s = _).trans ?_
  rw [if_neg (Bool.eq_false_iff.1 hfits)]

theorem exec_mul_overflows {s : State} {r : Ref} {t : Addr} (h : s.ea r = .addr t)
    (hover : mulOverflows s.a (s.read t) = true) : exec (.mul r) s = .next s.overflowAB.sequential := by
  refine (withOperand_addr _ h : execMul r s = _).trans ?_
  rw [if_pos hover]

/-- Settles O25: the product fits but for the pair of operands that overflows. -/
theorem multiply : Obligations.Multiply := by
  intro s r t h m
  constructor
  · intro hpair
    have hfits : mulOverflows s.a m = false := Bool.eq_false_iff.2 (mt (mulOverflows_iff s.a m).1 hpair)
    exact ⟨mulProduct s.a m, exec_mul_fits h hfits, mulProduct_toInt hfits⟩
  · intro ha hm
    exact ⟨_, _, _, exec_mul_overflows h ((mulOverflows_iff s.a m).2 ⟨ha, hm⟩)⟩

/-- DIV does not overflow where the bounds of the quotient, times the divisor, hold the numerator. -/
theorem divOverflows_eq_false_iff (n d : Int) :
    divOverflows n d = false ↔
      (0 < d ∧ -(d * 2 ^ 23) ≤ n ∧ n < d * 2 ^ 23) ∨ (d < 0 ∧ d * 2 ^ 23 < n ∧ n ≤ -(d * 2 ^ 23)) := by
  unfold divOverflows
  split
  case isTrue hzero => simp [hzero]
  case isFalse hd =>
    split
    · simp only [Bool.or_eq_false_iff, decide_eq_false_iff_not]; omega
    · simp only [Bool.or_eq_false_iff, decide_eq_false_iff_not]; omega

theorem exec_div_fits {s : State} {r : Ref} {t : Addr} (h : s.ea r = .addr t)
    (hfits : divOverflows (divNumerator s.a s.b) (s.read t).toInt = false) :
    exec (.div r) s = .next { s with
      a := wordOfInt (divQuotient (divNumerator s.a s.b) (s.read t).toInt)
      b := wordOfInt (divRemainder (divNumerator s.a s.b) (s.read t).toInt)
      p := s.advanced 1, cState := .none } := by
  refine (withOperand_addr _ h : execDiv r s = _).trans ?_
  dsimp only
  rw [if_neg (Bool.eq_false_iff.1 hfits)]
  rfl

theorem exec_div_overflows {s : State} {r : Ref} {t : Addr} (h : s.ea r = .addr t)
    (hover : divOverflows (divNumerator s.a s.b) (s.read t).toInt = true) :
    exec (.div r) s = .next s.overflowAB.sequential := by
  refine (withOperand_addr _ h : execDiv r s = _).trans ?_
  dsimp only
  rw [if_pos hover]

/-- Quotient and remainder of a division by a word fit a word each, and as words satisfy what DIV promises. -/
theorem div_words_spec {n : Int} {m : Word} (h : divOverflows n m.toInt = false) :
    n = (wordOfInt (divQuotient n m.toInt)).toInt * m.toInt + (wordOfInt (divRemainder n m.toInt)).toInt ∧
      (wordOfInt (divRemainder n m.toInt)).toInt.natAbs < m.toInt.natAbs ∧
      (0 ≤ n → 0 ≤ (wordOfInt (divRemainder n m.toInt)).toInt) ∧
      (n ≤ 0 → (wordOfInt (divRemainder n m.toInt)).toInt ≤ 0) := by
  obtain ⟨hdivides, hlt, hpos, hneg, hlow, hhigh⟩ := div_spec h
  have hm := toInt_range m
  have hquot := wordOfInt_toInt hlow hhigh
  have hrem : (wordOfInt (divRemainder n m.toInt)).toInt = divRemainder n m.toInt :=
    wordOfInt_toInt (by omega) (by omega)
  rw [hquot, hrem]
  exact ⟨hdivides, hlt, hpos, hneg⟩

/-- Settles O26: the range is that in which DIV does not overflow, and there quotient and remainder fit their
registers. -/
theorem divide : Obligations.Divide := by
  intro s r t h n d inRange
  have hrange : inRange ↔ divOverflows n d = false := (divOverflows_eq_false_iff n d).symm
  rw [hrange]
  constructor
  · intro hfits
    exact ⟨_, _, exec_div_fits h hfits, div_words_spec hfits⟩
  · intro hover
    exact ⟨_, _, _, exec_div_overflows h (Bool.eq_true_of_not_eq_false hover)⟩

end Sys2Proof.Machine
end

