-- ==== Sys2Proof/Proofs/RegisterChange.lean ====
section
/-! PROOFS. The register change instructions (43_register_change): what a combination of function bits leaves, the
instructions that have a name, and any combination. -/

namespace Sys2Proof.Machine

open Sys2Proof

/-! ### A destination bit by bit -/

theorem bit_pick (c : Bool) (v : Word) (k : Nat) : bit (pick c v) k = (c && bit v k) := by
  cases c
  · exact (eq_zero_iff_bit 0).1 rfl k
  · rfl

theorem bit_merged (anyCopy : Bool) (src : Word) (clear : Bool) (old : Word) (k : Nat) :
    bit (merged anyCopy src clear old) k = if anyCopy then bit src k else !clear && bit old k := by
  cases anyCopy
  · cases clear
    · rfl
    · exact (eq_zero_iff_bit 0).1 rfl k
  · rfl

/-! ### Full words -/

/-- A in full-word mode, after a register change of bits `f`. -/
def State.changedA (s : State) (f : RegFn) : Word :=
  merged (f.bToA || f.xToA || f.negA) (pick f.bToA s.b ||| pick f.xToA s.x ||| pick f.negA (-s.a)) f.clearA s.a

/-- B in full-word mode. -/
def State.changedB (s : State) (f : RegFn) : Word :=
  merged (f.aToB || f.xToB) (pick f.aToB s.a ||| pick f.xToB s.x) f.clearB s.b

/-- X in full-word mode. -/
def State.changedX (s : State) (f : RegFn) : Word :=
  merged (f.aToX || f.bToX) (pick f.aToX s.a ||| pick f.bToX s.b) f.clearX s.x

theorem bit_changedA (s : State) (f : RegFn) (k : Nat) :
    bit (s.changedA f) k = if f.bToA || f.xToA || f.negA
      then (f.bToA && bit s.b k) || (f.xToA && bit s.x k) || (f.negA && bit (0 - s.a) k)
      else !f.clearA && bit s.a k := by
  simp only [State.changedA, bit_merged, bit_or, bit_pick, BitVec.ofNat_eq_ofNat, BitVec.zero_sub]

theorem bit_changedB (s : State) (f : RegFn) (k : Nat) :
    bit (s.changedB f) k = if f.aToB || f.xToB then (f.aToB && bit s.a k) || (f.xToB && bit s.x k)
      else !f.clearB && bit s.b k := by
  simp only [State.changedB, bit_merged, bit_or, bit_pick]

theorem bit_changedX (s : State) (f : RegFn) (k : Nat) :
    bit (s.changedX f) k = if f.aToX || f.bToX then (f.aToX && bit s.a k) || (f.bToX && bit s.b k)
      else !f.clearX && bit s.x k := by
  simp only [State.changedX, bit_merged, bit_or, bit_pick]

theorem registerChange_full (s : State) {f : RegFn} (h : f.expOnly = false) :
    s.registerChange f = { s with a := s.changedA f, b := s.changedB f, x := s.changedX f } := by
  rw [State.registerChange, h]; rfl

/-- The state after a register change in full-word mode, from its three registers; where `f` is written out, they are
seen by computing. -/
theorem next_registerChange_full (s : State) (f : RegFn) {a b x : Word} (h : f.expOnly = false := by rfl)
    (ha : s.changedA f = a := by simp [State.changedA, merged, pick])
    (hb : s.changedB f = b := by simp [State.changedB, merged, pick])
    (hx : s.changedX f = x := by simp [State.changedX, merged, pick]) :
    (.next (s.registerChange f).sequential : Result) =
      .next { s with a := a, b := b, x := x, p := s.advanced 1, cState := .none } := by
  rw [registerChange_full s h, ha, hb, hx]; rfl

/-! ### Exponent fields -/

/-- What a register change of the exponent fields leaves (43 R201, D11). -/
theorem next_registerChange_exponent (s : State) {f : RegFn} (h : f.expOnly = true) :
    ∃ b x, (.next (s.registerChange f).sequential : Result) =
        .next { s with b := b, x := x, p := s.advanced 1, cState := .none } ∧
      (∀ k, k < 15 → bit b k = bit s.b k) ∧
      low9 b = (if f.xToB then low9 s.x else if f.clearB then 0 else low9 s.b) ∧
      (f.bToX = true → x.toInt = (low9 s.b).toInt) ∧ (f.bToX = false → x = s.x) := by
  refine ⟨setLow9 s.b (if f.xToB then low9 s.x else if f.clearB then 0 else low9 s.b),
    if f.bToX then sext9 (low9 s.b) else s.x, ?next, fun _ => bit_setLow9 _ _, low9_setLow9 _ _,
    fun hx => ?copied, fun hx => ?kept⟩
  case next => rw [State.registerChange, h]; rfl
  case copied => rw [hx]; exact toInt_sext9 _
  case kept => rw [hx]; rfl

/-! ### Any combination -/

theorem exec_rch_defined {s : State} {f : RegFn} (h : undefinedExp f = false) :
    exec (.rch f) s = .next (s.registerChange f).sequential :=
  if_neg (Bool.eq_false_iff.1 h)

theorem exec_rch_undefined {s : State} {f : RegFn} (h : undefinedExp f = true) :
    exec (.rch f) s = .refused .undefinedRegisterChange :=
  if_pos h

/-- Without bit 17 every combination is defined. -/
theorem undefinedExp_full {f : RegFn} (h : f.expOnly = false) : undefinedExp f = false := by
  rw [undefinedExp, h, Bool.false_and]

/-- Settles O34: in full-word mode each destination is the merge of its sources, bit by bit; in the other mode the
exponent fields change. -/
theorem registerChangeGeneral : Obligations.RegisterChangeGeneral := by
  intro s f
  constructor
  · intro hfull
    rw [exec_rch_defined (undefinedExp_full hfull)]
    exact ⟨_, _, _, next_registerChange_full s f hfull rfl rfl rfl, bit_changedA s f, bit_changedB s f,
      bit_changedX s f⟩
  · intro hdefined hexp
    rw [exec_rch_defined hdefined]
    exact next_registerChange_exponent s hexp

/-! ### The instructions that have a name -/

/-- Settles O33: each named instruction is one combination of function bits, with bit 17 for the exponent fields. -/
theorem registerChanges : Obligations.RegisterChanges := by
  intro s
  refine ⟨?cla, ?clb, ?clr, ?cab, ?cba, ?xab, ?bac, ?abc, ?clx, ?cxa, ?cax, ?xxa, ?cbx, ?cxb, ?xxb, ?cna, ?ste, ?lde,
    ?xee⟩
  case ste =>
    obtain ⟨b, x, hnext, hb, hexp, hx, -⟩ :=
      next_registerChange_exponent s (f := { expOnly := true, bToX := true, clearB := true }) rfl
    exact ⟨b, x, hnext, hexp, hb, hx rfl⟩
  case lde =>
    obtain ⟨b, x, hnext, hb, hexp, -, hx⟩ :=
      next_registerChange_exponent s (f := { expOnly := true, xToB := true }) rfl
    obtain rfl := hx rfl
    exact ⟨b, hnext, hexp, hb⟩
  case xee =>
    obtain ⟨b, x, hnext, hb, hexp, hx, -⟩ :=
      next_registerChange_exponent s (f := { expOnly := true, xToB := true, bToX := true }) rfl
    exact ⟨b, x, hnext, hexp, hb, hx rfl⟩
  all_goals exact next_registerChange_full s _

end Sys2Proof.Machine
end

