-- ==== Sys2Proof/Proofs/Refusals.lean ====
section
/-! PROOFS. Where the machine declines to go on, and with which name (93_implementation_defined section 2): undefined
shifts, unlisted function codes, alerts, and the checks around an instruction. -/

namespace Sys2Proof.Machine

open Sys2Proof

/-! ### Shifts (46_shift R289) -/

theorem shiftRight_undefined {s : State} {t : Addr} (h : t.toNat / 512 ∉ [0b00000, 0b10000, 0b10100]) :
    s.shiftRight t = .refused .undefinedShift := by
  rw [← shiftKind_eq] at h
  unfold State.shiftRight
  dsimp only
  split
  iterate 3 next hk => exact absurd (by simp [hk]) h
  rfl

theorem shiftLeft_undefined {s : State} {t : Addr} (h : t.toNat / 512 ∉ [0b00000, 0b10000, 0b01000]) :
    s.shiftLeft t = .refused .undefinedShift := by
  rw [← shiftKind_eq] at h
  unfold State.shiftLeft
  dsimp only
  split
  iterate 3 next hk => exact absurd (by simp [hk]) h
  rfl

/-- The shifts of code 66 are one instruction, at their shift effective address. -/
theorem exec_code66 {s : State} {r : Ref} {t : Addr} {i : Instr} (h : s.shiftEA r = .addr t)
    (hi : i ∈ [Instr.rsh r, .rcy r, .lrsh r]) : exec i s = s.shiftRight t := by
  fin_cases hi
  all_goals exact atShiftEA_addr (code := 0o66) _ h

/-- So are those of code 67. -/
theorem exec_code67 {s : State} {r : Ref} {t : Addr} {i : Instr} (h : s.shiftEA r = .addr t)
    (hi : i ∈ [Instr.lsh r, .lcy r, .nod r]) : exec i s = s.shiftLeft t := by
  fin_cases hi
  all_goals exact atShiftEA_addr (code := 0o67) _ h

/-! ### The extension registers (47_control R317, R318) -/

theorem exec_setext_absent {s : State} (h : s.cfg.hasMemExt = false) (s3 s2 : Bool) (r3 r2 : BitVec 3) :
    exec (.setext s3 s2 r3 r2) s = .refused .unlistedFunction := if_neg (Bool.eq_false_iff.1 h)

theorem exec_exttest_absent {s : State} (h : s.cfg.hasMemExt = false) (t3 t2 : Bool) :
    exec (.exttest t3 t2) s = .refused .unlistedFunction := if_neg (Bool.eq_false_iff.1 h)

/-! ### Input/Output Control (48 R395) -/

/-- EOM and EOD in the Input/Output Control mode. -/
theorem exec_ioControl_mode {f : IoFn} (hi : Bool) (s : State) (hm : f.mode.toNat = 1) :
    exec (if hi then .eod f else .eom f) s =
      s.ioControl (ChannelId.ofBits hi f.b1 (f.fn.getMsbD 5)) f.b9 f.fn5 f.unit := by
  cases hi
  · simp [exec, execEom, hm, eomChannel]
  · simp [exec, execEod, hm, eomChannel]

/-- A word with bit 9 one that is not ALC's. -/
theorem ioControl_b9_unlisted {s : State} {ch : ChannelId} {fn : BitVec 5} (hch : s.hasChan ch = true)
    (hfn : fn ≠ 0) : s.ioControl ch true fn 0 = .refused .unlistedFunction := by
  simp only [State.ioControl, hch, hfn, Bool.not_true, Bool.false_eq_true, ne_eq, not_true, if_false, if_true]

/-- A word for no unit, on a channel not alerted, that is neither ASC's nor TOP's. -/
theorem ioControl_unlisted {s : State} {ch : ChannelId} {fn : BitVec 5} (hch : s.hasChan ch = true)
    (halert : (s.chan ch).ilcAlert = false) (hasc : fn ≠ 0b01000) (htop : fn ≠ 0b10000) :
    s.ioControl ch false fn 0 = .refused .unlistedFunction := by
  simp only [State.ioControl, hch, halert, hasc, htop, Bool.not_true, Bool.false_eq_true, ne_eq, not_true, if_false]

theorem fn5_ne_zero_of_not_alc {f : IoFn} (h : isAlcFn f = false) (hu : f.unit = 0) : f.fn5 ≠ 0 := by
  intro hfn
  rw [isAlcFn, hfn, hu] at h
  exact nomatch h

/-! ### Internal Control and the System mode of EOD (48 R395) -/

theorem exec_eom_unlisted {s : State} {f : IoFn} (hm : f.mode.toNat = 2)
    (h : f.b1 = true ∨ f.b9 = true ∨ f.fn.toNat ∉ [1, 2, 4, 8, 16, 64, 128]) :
    exec (.eom f) s = .refused .unlistedFunction := by
  simp only [exec, execEom, hm]
  split
  · rfl
  · next hbits =>
    obtain ⟨h1, h9⟩ := not_or.1 (mt Bool.or_eq_true_iff.2 hbits)
    have hfn := (h.resolve_left h1).resolve_left h9
    split
    iterate 7 next hlisted => exact absurd (by simp [hlisted]) hfn
    rfl

theorem exec_eod_unlisted {s : State} {f : IoFn} (hm : f.mode.toNat = 2)
    (h : f.b1 = true ∨ f.b9 = true ∨ f.fn.extractLsb' 8 4 ≠ 0) : exec (.eod f) s = .refused .unlistedFunction := by
  simp only [exec, execEod, hm]
  exact if_pos (by simpa [or_assoc] using h)

theorem exec_eod_system {s : State} {f : IoFn} (hm : f.mode.toNat = 3) :
    exec (.eod f) s = .refused .unlistedFunction := by
  simp only [exec, execEod, hm]

/-! ### Tests (48 R391 to R395) -/

theorem exec_sks_special_unlisted {s : State} {f : IoFn} (hm : f.mode.toNat = 0) (h9 : f.b9 = true)
    (h : f.b1 = true ∨ f.fn.extractLsb' 2 10 ≠ 0) : exec (.sks f) s = .refused .unlistedFunction := by
  simp only [exec, execSks, hm, h9, if_true]
  exact if_pos (by simpa using h)

theorem exec_sks_special_absent {s : State} {f : IoFn} (hm : f.mode.toNat = 0) (h9 : f.b9 = false)
    (h : s.cfg.hasSpecialSignals = false) : exec (.sks f) s = .refused .unlistedFunction := by
  simp [exec, execSks, hm, h9, h]

/-- A test of an installed channel that is none of CAT, CZT, CET and CIT. -/
theorem exec_sks_channel_unlisted {s : State} {f : IoFn} (hm : f.mode.toNat = 1) (hu : f.unit = 0)
    (hfn : f.fn5.toNat ∉ [0b10000, 0b01000, 0b00100, 0b00010])
    (hch : s.hasChan (ChannelId.ofBits f.b9 f.b1 (f.fn.getMsbD 5)) = true) :
    exec (.sks f) s = .refused .unlistedFunction := by
  simp only [exec, execSks, hm, hu]
  rw [if_neg (not_not.2 rfl)]
  split
  iterate 4 next hlisted => exact absurd (by simp [hlisted]) hfn
  exact if_pos hch

/-- An Internal Test that is neither one test nor a combination of breakpoint tests. -/
theorem internalTest_unlisted {s : State} {f : IoFn}
    (h : f.b1 = true ∨ f.b9 = true ∨ (f.fn.toNat ∉ [1, 2, 4, 8, 16, 512, 1024, 2048] ∧
      (f.fn &&& 0o740 = 0 ∨ f.fn &&& 0o7037 ≠ 0))) : s.internalTest f = .refused .unlistedFunction := by
  unfold State.internalTest
  split
  · rfl
  · next hbits =>
    obtain ⟨h1, h9⟩ := not_or.1 (mt Bool.or_eq_true_iff.2 hbits)
    obtain ⟨hfn, hmixed⟩ := (h.resolve_left h1).resolve_left h9
    split
    iterate 8 next hlisted => exact absurd (by simp [hlisted]) hfn
    refine if_neg ?_
    rintro ⟨hbreakpoints, hothers⟩
    rcases hmixed with hnone | hmixed
    · exact hbreakpoints hnone
    · exact hmixed hothers

theorem exec_sks_internal_unlisted {s : State} {f : IoFn} (hm : f.mode.toNat = 2)
    (h : f.b1 = true ∨ f.b9 = true ∨ (f.fn.toNat ∉ [1, 2, 4, 8, 16, 512, 1024, 2048] ∧
      (f.fn &&& 0o740 = 0 ∨ f.fn &&& 0o7037 ≠ 0))) : exec (.sks f) s = .refused .unlistedFunction := by
  simp only [exec, execSks, hm]
  exact internalTest_unlisted h

/-! ### PIN and POT (48 R361, R388, R389) -/

theorem exec_pin_multipleAlerts {s : State} {r : Ref} {t : Addr} (h : s.ea r = .addr t)
    (hn : 2 ≤ s.ascAlerted.length) : exec (.pin r) s = .refused .multipleAlerts := by
  refine (atEA_addr _ h : execPin r s = _).trans ?_
  dsimp only
  split
  · next hnone => rw [hnone] at hn; exact absurd hn (by decide)
  · next hone => rw [hone] at hn; exact absurd hn (Nat.not_succ_le_self 1)
  · rfl

theorem exec_pot_multipleAlerts {s : State} {r : Ref} {t : Addr} (h : s.ea r = .addr t) (hn : 2 ≤ s.potAlerts) :
    exec (.pot r) s = .refused .multipleAlerts :=
  (atEA_addr _ h : execPot r s = _).trans (if_pos hn)

/-- The count of an interlace load: the high bits are those of the interlace-control word, the others bits 0 to 9 of the
word loaded (48 R361). -/
theorem loaded_wcr_eq_zero {c : Chan} {m : Word} (hc : c.hiCount = 0) (hm : m.toNat < 2 ^ 14) :
    (c.loaded m).wcr = 0 := by
  refine BitVec.eq_of_toNat_eq ?_
  simp only [Chan.loaded, hc, append_toNat, BitVec.extractLsb'_toNat, Nat.shiftRight_eq_div_pow,
    Nat.div_eq_of_lt hm]
  rfl

theorem exec_pot_zeroCount {s : State} {r : Ref} {t : Addr} {ch : ChannelId} (h : s.ea r = .addr t)
    (hair : s.airAlert = false) (hdms : s.dmsSelect = none) (halert : s.ilcAlerted = [ch])
    (hc : (s.chan ch).hiCount = 0) (hm : (s.operand t).toNat < 2 ^ 14) :
    exec (.pot r) s = .refused .zeroCountLoad := by
  refine (atEA_addr _ h : execPot r s = _).trans ?_
  have one : ¬ 1 < s.potAlerts := by simp [State.potAlerts, hair, hdms, halert]
  simp [one, hair, halert, loaded_wcr_eq_zero hc hm]

/-! ### The checks around an instruction (60 R533, R539) -/

theorem fetch_interrupt {s : State} {l : Nat} (hc : s.cState = .none) (ha : s.ack = some l) :
    s.fetch = { s with c := s.memRead (BitVec.ofNat 15 l), origin := .interrupt l, ack := none, cState := .none } := by
  simp [State.fetch, State.nextWord, hc, ha]

theorem fetch_sequence {s : State} (hc : s.cState = .none) (ha : s.ack = none) :
    s.fetch = { s with c := s.read s.p, origin := .sequence, cState := .none } := by
  simp [State.fetch, State.nextWord, hc, ha]

theorem afterAir_eq_false {i : Instr} (hpot : ∀ r, i ≠ .pot r) (hexu : ∀ r, i ≠ .exu r) : afterAir i = false := by
  unfold afterAir
  split
  · exact absurd rfl (hpot _)
  · exact absurd rfl (hexu _)
  · rfl

theorem runC_airWithoutPot {s : State} {i : Instr} (hd : decode s.context s.c = .ok i) (ha : s.airAlert = true)
    (hi : afterAir i = false) : s.runC = .refused .airWithoutPot := by
  simp [State.runC, State.checked, hd, ha, hi]

theorem runC_tooShort {s : State} {i : Instr} (hd : decode s.context s.c = .ok i) (ha : s.airAlert = false)
    (ht : s.tooShort i = true) : s.runC = .refused .shortSingleInstruction := by
  simp [State.runC, State.checked, hd, ha, ht]

theorem tooShort_interrupt {s : State} {i : Instr} {l n : Nat} (ho : s.origin = .interrupt l)
    (hc : s.cState = .none) (hl : levelSingle s.cfg l = true) (hi : ∀ r, i ≠ .exu r) (hcycles : cycles i s = some n)
    (hn : n < 2) : s.tooShort i = true := by
  unfold State.tooShort
  rw [ho, hc]
  dsimp only
  rw [hl, Bool.true_and]
  split
  · exact absurd rfl (hi _)
  · rw [hcycles]
    exact decide_eq_true hn

theorem step_airWithoutPot {s : State} {i : Instr} (h : s.AtFetch) (ha : s.airAlert = true)
    (hd : decode s.context (s.read s.p) = .ok i) (hi : afterAir i = false) : step s = .refused .airWithoutPot := by
  rw [step_fetch h.schedule h.power (.inl h.cState) h.run h.hold h.halted, fetch_sequence h.cState h.ack]
  exact runC_airWithoutPot hd ha hi

theorem step_operatorPrecondition {s : State} (hs : s.schedule = []) (hp : s.power = .on)
    (hr : s.console.runSwitch = .run) (hh : s.console.hold = true) : step s = .refused .operatorPrecondition := by
  simp only [step, hs]
  exact processorTurn_refuses hp hr hh _ _

theorem step_shortSingleInstruction {s : State} {i : Instr} {l n : Nat} (h : State.AtFetch { s with ack := none })
    (hack : s.ack = some l) (hair : s.airAlert = false) (hl : levelSingle s.cfg l = true)
    (hd : decode s.context (s.memRead (BitVec.ofNat 15 l)) = .ok i) (hi : ∀ r, i ≠ .exu r)
    (hcycles : cycles i { s with c := s.memRead (BitVec.ofNat 15 l), origin := .interrupt l, ack := none } = some n)
    (hn : n < 2) : step s = .refused .shortSingleInstruction := by
  have hc : s.cState = .none := h.cState
  rw [step_fetch (s := s) h.schedule h.power (.inl hc) h.run h.hold h.halted, fetch_interrupt hc hack, ← hc]
  exact runC_tooShort hd hair (tooShort_interrupt rfl hc hl hi hcycles hn)

/-! ### The statement -/

/-- Settles O53: each refusal by the check that makes it. -/
theorem refusals : Obligations.Refusals := by
  intro s
  have mode {f : IoFn} {n : BitVec 2} (hm : f.mode = n) : f.mode.toNat = n.toNat := congrArg BitVec.toNat hm
  refine ⟨fun f => exec_rch_undefined, fun r t i h => ⟨fun hi ht => ?right, fun hi ht => ?left⟩,
    fun h s3 s2 r3 r2 => ⟨exec_setext_absent h s3 s2 r3 r2, exec_exttest_absent h s3 s2⟩, ?ioControl,
    fun f hm => exec_eom_unlisted (mode hm), fun f hm => exec_eod_unlisted (mode hm),
    fun f hm => exec_eod_system (mode hm), ?sks,
    fun r t h => ⟨exec_pin_multipleAlerts h, exec_pot_multipleAlerts h, fun ch => exec_pot_zeroCount h⟩,
    fun i h ha hd hpot hexu => step_airWithoutPot h ha hd (afterAir_eq_false hpot hexu), step_operatorPrecondition,
    fun i l n => step_shortSingleInstruction⟩
  case right => rw [exec_code66 h hi, shiftRight_undefined ht]
  case left => rw [exec_code67 h hi, shiftLeft_undefined ht]
  case ioControl =>
    rintro f hi i rfl hm hch (⟨h9, hu, halc⟩ | ⟨h9, hu, hasc, htop, halert⟩)
    · rw [exec_ioControl_mode hi s (mode hm), h9, hu, ioControl_b9_unlisted hch (fn5_ne_zero_of_not_alc halc hu)]
    · rw [exec_ioControl_mode hi s (mode hm), h9, hu, ioControl_unlisted hch halert hasc htop]
  case sks =>
    rintro f (⟨hm, h9, h⟩ | ⟨hm, h9, h⟩ | ⟨hm, hu, hfn, hch⟩ | ⟨hm, h⟩)
    · exact exec_sks_special_unlisted (mode hm) h9 h
    · exact exec_sks_special_absent (mode hm) h9 h
    · exact exec_sks_channel_unlisted (mode hm) hu hfn hch
    · exact exec_sks_internal_unlisted (mode hm) h

end Sys2Proof.Machine
end

