-- ==== Sys2Proof/Proofs/Branch.lean ====
section
/-! PROOFS. The branches (44_branch): BRU with the return from an interrupt, BRX, BRM with its mark, and BRR. -/

namespace Sys2Proof.Machine

open Sys2Proof

/-! ### The return from an interrupt -/

theorem clearHighestActive_active_nil {s : State} (h : s.active = []) : s.clearHighestActive.active = [] := by
  rcases clearHighestActive_eq s with hs | ⟨l, hl, -⟩
  · rw [hs, h]
  · rw [(highest_eq_none _).2 h] at hl
    exact nomatch hl

/-- Of the Active levels the return ends the one that none precedes, and no other. -/
theorem mem_clearHighestActive {s : State} {l : Nat} (hl : l ∈ s.active) (hmin : ∀ k ∈ s.active, prio l ≤ prio k)
    (k : Nat) : k ∈ s.clearHighestActive.active ↔ k ∈ s.active ∧ k ≠ l := by
  have htop : highest s.active = some l := (highest_eq_some _ l).2 ⟨hl, hmin⟩
  have herase : s.clearHighestActive.active = levelErase l s.active := by
    rw [State.clearHighestActive, htop]
  rw [herase, mem_levelErase, and_comm]

/-- Settles O18: the branch is the same with and without bit 9 of the BRU; bit 9 adds the return. -/
theorem branchAndReturn : Obligations.BranchAndReturn := by
  intro s r t h
  have hbru : exec (.bru r) s = .next ((if r.indirect then s.clearHighestActive else s).branch t) := atEA_addr _ h
  constructor
  · intro hr
    rw [hbru, hr]
    rfl
  · intro hr
    refine ⟨s.clearHighestActive.active, ?_, clearHighestActive_active_nil, fun l => mem_clearHighestActive⟩
    rw [hbru, hr]
    rfl

/-! ### The mark of BRM, field by field: the digits of its number, `brmMark_toNat` -/

theorem bit_brmMark_zero (s : State) : bit s.brmMark 0 = s.ov := by
  rw [bit_eq_decide _ (by decide), brmMark_toNat]
  cases s.ov
  · simp only [Bool.toNat_false, decide_eq_false_iff_not]; omega
  · simp only [Bool.toNat_true, decide_eq_true_eq]; omega

/-- The bits of the mark that belong to no field (D26): a mark that is used as an indirect word is neither indexed nor
indirect itself. -/
theorem bit_brmMark_unused (s : State) {k : Nat} (hk : k = 1 ∨ k = 2 ∨ k = 9) : bit s.brmMark k = false := by
  rcases hk with rfl | rfl | rfl <;>
    (rw [bit_eq_decide _ (by decide), brmMark_toNat, decide_eq_false_iff_not]; omega)

theorem extract_brmMark_em3 (s : State) : s.brmMark.extractLsb' 18 3 = s.em3 := by
  apply BitVec.eq_of_toNat_eq
  rw [BitVec.extractLsb'_toNat, Nat.shiftRight_eq_div_pow, brmMark_toNat]
  omega

theorem extract_brmMark_em2 (s : State) : s.brmMark.extractLsb' 15 3 = s.em2 := by
  apply BitVec.eq_of_toNat_eq
  rw [BitVec.extractLsb'_toNat, Nat.shiftRight_eq_div_pow, brmMark_toNat]
  omega

theorem addrField_brmMark (s : State) : addrField s.brmMark = s.p := by
  apply BitVec.eq_of_toNat_eq
  rw [addrField, BitVec.toNat_setWidth, brmMark_toNat]
  omega

/-! ### BRM and the ways back -/

theorem exec_brm {s : State} {r : Ref} {t : Addr} (h : s.ea r = .addr t) :
    exec (.brm r) s = .next ((s.write t s.brmMark).branch (t + 1)) := atEA_addr _ h

theorem exec_brr {s : State} {r : Ref} {t : Addr} (h : s.ea r = .addr t) :
    exec (.brr r) s = .next ({ s with ov := s.ov || bit (s.read t) 0 }.branch (addrField (s.read t) + 1)) :=
  (withOperand_addr _ h : execBrr r s = _)

/-- Settles O28: the store of the mark, whose fields are the lemmas above, and the branch past it. -/
theorem markAndBranch : Obligations.MarkAndBranch := by
  intro s r t h
  exact ⟨s.storedMem (s.phys t) s.brmMark, s.storedWaiting (s.phys t), s.brmMark, exec_brm h,
    store_stored s (s.phys t) s.brmMark, bit_brmMark_zero s, bit_brmMark_unused s (.inl rfl),
    bit_brmMark_unused s (.inr (.inl rfl)), extract_brmMark_em3 s, extract_brmMark_em2 s,
    bit_brmMark_unused s (.inr (.inr rfl)), addrField_brmMark s⟩

/-- A word written where it may be is read back there after the branch: neither the store nor the branch changes what
address decoding reads. -/
theorem write_branch_read {s : State} {t : Addr} (hw : s.writable (s.phys t) = true) (v : Word) (q : Addr) :
    ((s.write t v).branch q).read t = v :=
  calc ((s.write t v).branch q).read t
    _ = (s.store (s.phys t) v).memRead (s.phys t) := rfl
    _ = if s.writable (s.phys t) then v else s.memRead (s.phys t) := store_memRead_self s (s.phys t) v
    _ = v := if_pos hw

/-- An indirect address through a word with bits 1 and 9 zero is its address field. -/
theorem ea_indirect_plain {s : State} {t : Addr} (h1 : bit (s.read t) 1 = false) (h9 : bit (s.read t) 9 = false) :
    s.ea { indexed := false, indirect := true, addr := t } = .addr (addrField (s.read t)) := by
  have hea : s.ea { indexed := false, indirect := true, addr := t } =
      .addr (s.indexedAddr (bit (s.read t) 1) (addrField (s.read t))) := ea_indirect_once rfl h9
  rw [hea, h1]
  rfl

/-- Settles O30: the cell reads the mark back, whose bits 1 and 9 are zero and whose address field is the P saved. -/
theorem markReturns : Obligations.MarkReturns := by
  intro s u r t h hw hu
  have hnext : (s.write t s.brmMark).branch (t + 1) = u := Host.Outcome.next.inj ((exec_brm h).symm.trans hu)
  have hread : u.read t = s.brmMark := hnext ▸ write_branch_read hw s.brmMark (t + 1)
  have hp : addrField (u.read t) = s.p := by rw [hread, addrField_brmMark]
  constructor
  · rw [← hp]
    apply ea_indirect_plain
    · rw [hread, bit_brmMark_unused s (.inl rfl)]
    · rw [hread, bit_brmMark_unused s (.inr (.inr rfl))]
  · rw [← hp]
    exact ⟨u.ov || bit (u.read t) 0, exec_brr (ea_direct rfl)⟩

/-! ### BRX -/

/-- The address of BRX is of the old X, and its test is on the new. -/
theorem exec_brx {s : State} {r : Ref} {t : Addr} (h : s.ea r = .addr t) :
    exec (.brx r) s = .next (if bit (s.x + 1) 9 then { s with x := s.x + 1, noIntNext := true }.branch t
      else { s with x := s.x + 1 }.sequential) := atEA_addr _ h

/-- Settles O27: BRX by bit 9 of the new X; BRR is its own equation. -/
theorem branchInstructions : Obligations.BranchInstructions := by
  intro s r t h
  refine ⟨fun h9 => ?branch, fun h9 => ?goOn, exec_brr h⟩
  case branch => rw [exec_brx h, h9]; rfl
  case goOn => rw [exec_brx h, h9]; rfl

end Sys2Proof.Machine
end

