-- ==== Sys2Proof/Proofs/TestSkip.lean ====
section
/-! PROOFS. The test and skip instructions (45_test_skip R261 to R266, R268). -/

namespace Sys2Proof.Machine

open Sys2Proof

/-- An instruction whose whole effect is a conditional skip skips exactly where what it tests says. -/
theorem skipsWhen_of_skipIf {s : State} {i : Instr} {b : Bool} {cond : Prop} (hexec : exec i s = .next (s.skipIf b))
    (hb : b = true ↔ cond) : SkipsWhen s i cond := by
  constructor
  · intro hc
    rw [hexec, hb.2 hc]
    rfl
  · intro hc
    rw [hexec, Bool.eq_false_iff.2 (mt hb.1 hc)]
    rfl

/-! ### The tests of SKM, SKA and SKB, bit by bit -/

theorem and_beq_zero_iff_bit (v w : Word) : (v &&& w == 0) = true ↔ ∀ k, ¬ (bit v k = true ∧ bit w k = true) := by
  rw [beq_iff_eq, eq_zero_iff_bit]
  refine forall_congr' fun k => ?_
  rw [bit_and, ← Bool.and_eq_true, Bool.not_eq_true]

/-- The exclusive or marks the bits where the words differ, and the mask picks those that count (R263). -/
theorem xor_and_beq_zero_iff_bit (a m mask : Word) :
    ((a ^^^ m) &&& mask == 0) = true ↔ ∀ k, bit mask k = true → bit a k = bit m k := by
  rw [and_beq_zero_iff_bit]
  refine forall_congr' fun k => ?_
  rw [bit_xor, not_and', Bool.not_eq_true]
  exact imp_congr_right fun _ => bne_eq_false_iff_eq

/-- Settles O31: each instruction is a conditional skip on its operand; what it tests is what the statement says. -/
theorem skipInstructions : Obligations.SkipInstructions := by
  intro s r t h
  refine ⟨skipsWhen_of_skipIf (withOperand_addr _ h : execSke r s = _) ?ske,
    skipsWhen_of_skipIf (withOperand_addr _ h : execSkg r s = _) ?skg,
    skipsWhen_of_skipIf (withOperand_addr _ h : execSkm r s = _) ?skm,
    skipsWhen_of_skipIf (withOperand_addr _ h : execSka r s = _) ?ska,
    skipsWhen_of_skipIf (withOperand_addr _ h : execSkb r s = _) ?skb,
    skipsWhen_of_skipIf (withOperand_addr _ h : execSkn r s = _) ?skn⟩
  case ske => exact beq_iff_eq
  case skg => exact decide_eq_true_iff
  case skm => exact xor_and_beq_zero_iff_bit s.a (s.read t) s.b
  case ska => exact and_beq_zero_iff_bit s.a (s.read t)
  case skb => exact and_beq_zero_iff_bit s.b (s.read t)
  case skn => rw [bit_zero]

/-! ### SKD -/

theorem exponentDistance_toNat (signed : Bool) (eb em : BitVec 9) :
    (exponentDistance signed eb em).toNat = (exponentValue signed eb - exponentValue signed em).natAbs % 512 :=
  BitVec.toNat_ofNat _ _

/-- Settles O32: the distance of the exponents is what `setLow9` leaves in X, and the comparison that decides the skip
is of the same two values. -/
theorem skipOnExponents : Obligations.SkipOnExponents := by
  intro s r t h value eb em
  refine ⟨setLow9 s.freeWord (exponentDistance s.cfg.skdSigned (low9 s.b) (low9 (s.read t))), s.draws + 1,
    s.advanced (if decide (eb < em) then 2 else 1), (withOperand_addr _ h : execSkd r s = _), ?distance, ?skip, ?goOn⟩
  case distance => rw [low9_setLow9, exponentDistance_toNat]; rfl
  case skip => intro hlt; rw [decide_eq_true hlt]; rfl
  case goOn => intro hle; rw [decide_eq_false (Int.not_lt.2 hle)]; rfl

end Sys2Proof.Machine
end

