-- ==== Sys2Proof/Proofs/Shift.lean ====
section
/-! PROOFS. The shifts of codes 66 and 67 on the double register (46_shift R281 to R287), at their shift effective
address `t`: its bits 10 to 14 are `t.toNat / 512`, its count `t.toNat % 512`. -/

namespace Sys2Proof.Machine

open Sys2Proof

/-! ### Right shifts -/

theorem shiftRight_arithmetic (s : State) {t : Addr} (h : t.toNat / 512 = 0b00000) :
    s.shiftRight t = .next (s.setAB ((joinAB s.a s.b).sshiftRight (min (t.toNat % 512) 48))).sequential := by
  simp only [State.shiftRight, shiftKind_eq, shiftCount_eq, h]

theorem shiftRight_logical (s : State) {t : Addr} (h : t.toNat / 512 = 0b10100) :
    s.shiftRight t = .next (s.setAB (joinAB s.a s.b >>> min (t.toNat % 512) 48)).sequential := by
  simp only [State.shiftRight, shiftKind_eq, shiftCount_eq, h]

theorem shiftRight_cycle (s : State) {t : Addr} (h : t.toNat / 512 = 0b10000) :
    s.shiftRight t = .next (s.setAB ((joinAB s.a s.b).rotateRight (min (t.toNat % 512) 48))).sequential := by
  simp only [State.shiftRight, shiftKind_eq, shiftCount_eq, h]

/-- An arithmetic right shift divides toward minus infinity. -/
theorem sshiftRight_toInt (v : BitVec 48) (n : Nat) : (v.sshiftRight n).toInt = v.toInt / 2 ^ n := by
  rw [BitVec.toInt_sshiftRight, Int.shiftRight_eq_div_pow, Int.natCast_pow, Int.cast_ofNat_Int]

/-- A logical right shift divides the number of the double register. -/
theorem ushiftRight_toNat (v : BitVec 48) (n : Nat) : (v >>> n).toNat = v.toNat / 2 ^ n := by
  rw [BitVec.toNat_ushiftRight, Nat.shiftRight_eq_div_pow]

/-- Settles O35: whichever right shift the word names, it runs code 66 at its shift effective address, and each kind
leaves the value of its rule. -/
theorem rightShifts : Obligations.RightShifts := by
  intro s r t i hi h n ab
  have hexec : exec i s = s.shiftRight t := exec_code66 h hi
  refine ⟨fun hrsh => ?rsh, fun hlrsh => ?lrsh, fun hrcy => ?rcy⟩
  case rsh => exact ⟨_, hexec.trans (shiftRight_arithmetic s hrsh), sshiftRight_toInt ab n⟩
  case lrsh => exact ⟨_, hexec.trans (shiftRight_logical s hlrsh), ushiftRight_toNat ab n⟩
  case rcy =>
    exact ⟨_, hexec.trans (shiftRight_cycle s hrcy), fun _ hk => rotateRight_bit ab (Nat.min_le_right _ _) hk⟩

/-! ### Left shifts -/

theorem shiftLeft_arithmetic (s : State) {t : Addr} (h : t.toNat / 512 = 0b00000) :
    s.shiftLeft t =
      let w := leftShift (joinAB s.a s.b) (joinAB s.a s.b).msb (min (t.toNat % 512) 48) false
      .next { s.setAB w.1 with ov := s.ov || w.2 }.sequential := by
  simp only [State.shiftLeft, shiftKind_eq, shiftCount_eq, h]

theorem shiftLeft_cycle (s : State) {t : Addr} (h : t.toNat / 512 = 0b10000) :
    s.shiftLeft t = .next (s.setAB ((joinAB s.a s.b).rotateLeft (min (t.toNat % 512) 48))).sequential := by
  simp only [State.shiftLeft, shiftKind_eq, shiftCount_eq, h]

theorem shiftLeft_normalize (s : State) {t : Addr} (h : t.toNat / 512 = 0b01000) :
    s.shiftLeft t =
      let w := normalizeLeft (joinAB s.a s.b) (min (t.toNat % 512) 48) 0
      .next { s.setAB w.1 with x := s.x - BitVec.ofNat 24 w.2 }.sequential := by
  simp only [State.shiftLeft, shiftKind_eq, shiftCount_eq, h]

/-- OV after LSH: as it was, or set by a bit unlike the original sign among those that reached the sign position. -/
theorem overflow_or_leftShift_iff (o : Bool) (v : BitVec 48) (n : Nat) :
    (o || (leftShift v v.msb n false).2) = true ↔
      o = true ∨ ∃ k, 1 ≤ k ∧ k ≤ n ∧ v.getMsbD k ≠ v.getMsbD 0 := by
  rw [Bool.or_eq_true, leftShift_overflow, BitVec.msb]
  simp only [Bool.false_eq_true, false_or]

/-- A number of places taken from a word, modulo 2^24. -/
theorem sub_ofNat_toNat (x : Word) (k : Nat) :
    ((x - BitVec.ofNat 24 k).toNat : Int) = ((x.toNat : Int) - k) % 2 ^ 24 := by
  have hx := x.isLt
  rw [BitVec.toNat_sub, BitVec.toNat_ofNat]
  omega

/-- Settles O36: whichever left shift the word names, it runs code 67 at its shift effective address; OV is what LSH's
loop found, and the places taken from X are those NOD's loop went. -/
theorem leftShifts : Obligations.LeftShifts := by
  intro s r t i hi h n ab
  have hexec : exec i s = s.shiftLeft t := exec_code67 h hi
  refine ⟨fun hlsh => ?lsh, fun hlcy => ?lcy, fun hnod => ?nod⟩
  case lsh =>
    exact ⟨_, _, hexec.trans (shiftLeft_arithmetic s hlsh), leftShift_value ab ab.msb n false,
      overflow_or_leftShift_iff s.ov ab n⟩
  case lcy => exact ⟨_, hexec.trans (shiftLeft_cycle s hlcy), fun _ hk => rotateLeft_bit ab n hk⟩
  case nod =>
    obtain ⟨k, hle, hplaces, hvalue, hequal, hstop⟩ := normalizeLeft_spec ab n 0
    rw [Nat.zero_add] at hplaces
    have hx := sub_ofNat_toNat s.x (normalizeLeft ab n 0).2
    rw [hplaces] at hx
    refine ⟨_, _, k, hle, hexec.trans ?_, hvalue, hx, hequal, hstop⟩
    rw [shiftLeft_normalize s hnod, ← hplaces]
    rfl

end Sys2Proof.Machine
end

section
/-! PROOFS. The control instructions and the extension registers (47_control R310 to R318), the Programmed Operator
sequence (R319), and the turns in which the processor does nothing: idle and the halt (R310, 70_reset_and_hazards R593,
R605). -/

namespace Sys2Proof.Machine

open Sys2Proof

/-! ### The mark of a Programmed Operator, field by field: the digits of its number, `popMark_toNat` -/

theorem bit_popMark_zero (s : State) : bit s.popMark 0 = s.ov := by
  rw [bit_eq_decide _ (by decide), popMark_toNat]
  cases s.ov
  · simp only [Bool.toNat_false, decide_eq_false_iff_not]; omega
  · simp only [Bool.toNat_true, decide_eq_true_eq]; omega

/-- Bits 1 to 8 (D25): P reaches no bit above bit 10, and the one in bit 9 is below them. -/
theorem bit_popMark_unused (s : State) {k : Nat} (h1 : 1 ≤ k) (h8 : k ≤ 8) : bit s.popMark k = false := by
  rw [bit_eq_decide _ (by omega), popMark_toNat, decide_eq_false_iff_not]
  interval_cases k <;> omega

theorem bit_popMark_nine (s : State) : bit s.popMark 9 = true := by
  rw [bit_eq_decide _ (by decide), popMark_toNat, decide_eq_true_eq]
  omega

theorem addrField_popMark (s : State) : addrField s.popMark = s.p := by
  apply BitVec.eq_of_toNat_eq
  rw [addrField, BitVec.toNat_setWidth, popMark_toNat]
  omega

/-- Settles O29: the store of the mark, whose fields are the lemmas above, and the branch to the linkage location. -/
theorem programmedOperator : Obligations.ProgrammedOperator := by
  intro s code r
  exact ⟨s.storedMem 0 s.popMark, s.storedWaiting 0, s.popMark, popTarget code, rfl, store_stored s 0 s.popMark,
    bit_popMark_zero s, fun _ => bit_popMark_unused s, bit_popMark_nine s, addrField_popMark s, popTarget_toNat code⟩

/-! ### The next instruction, brought to C -/

theorem nextWord_sequence {s : State} (h : s.ack = none) : s.nextWord = s.read s.p := by
  rw [State.nextWord, h]

theorem nextWord_acknowledged {s : State} {l : Nat} (h : s.ack = some l) :
    s.nextWord = s.memRead (BitVec.ofNat 15 l) := by
  rw [State.nextWord, h]

/-- The halt is what the switch adds; the display is the same in every position. -/
theorem exec_hlt (s : State) : exec .hlt s = .next { s with
    halted := s.halted || s.console.runSwitch == .run, c := s.sequential.nextWord, p := s.advanced 1
    cState := .none } := rfl

theorem exec_hlt_run {s : State} (hack : s.ack = none) (hr : s.console.runSwitch = .run) : exec .hlt s =
    .next { s with halted := true, c := s.read (s.advanced 1), p := s.advanced 1, cState := .none } := by
  have halts : (s.halted || s.console.runSwitch == .run) = true := by rw [hr]; exact Bool.or_true _
  rw [exec_hlt, halts, nextWord_sequence (s := s.sequential) hack]
  rfl

theorem exec_hlt_not_run {s : State} (hack : s.ack = none) (hr : s.console.runSwitch ≠ .run) : exec .hlt s =
    .next { s with c := s.read (s.advanced 1), p := s.advanced 1, cState := .none } := by
  have stays : (s.halted || s.console.runSwitch == .run) = s.halted := by
    rw [beq_eq_false_iff_ne.2 hr, Bool.or_false]
  rw [exec_hlt, stays, nextWord_sequence (s := s.sequential) hack]
  rfl

theorem exec_hlt_acknowledged {s : State} {l : Nat} (hack : s.ack = some l) : exec .hlt s = .next { s with
    halted := s.halted || s.console.runSwitch == .run, c := s.memRead (BitVec.ofNat 15 l), p := s.advanced 1
    cState := .none } := by
  rw [exec_hlt, nextWord_acknowledged (s := s.sequential) hack]
  rfl

/-! ### The overflow instructions -/

theorem exec_ovt (s : State) : exec .ovt s = .next ({ s with ov := false }.skipIf !s.ov) := rfl

theorem exec_ovt_on {s : State} (h : s.ov = true) :
    exec .ovt s = .next { s with ov := false, p := s.advanced 1, cState := .none } := by
  rw [exec_ovt, h]
  rfl

theorem exec_ovt_off {s : State} (h : s.ov = false) :
    exec .ovt s = .next { s with p := s.advanced 2, cState := .none } := by
  have same : { s with ov := false } = s := by rw [← h]
  have skips : (!s.ov) = true := by rw [h, Bool.not_false]
  rw [exec_ovt, same, skips]
  rfl

/-- REO's exclusive or of the two exponent bits, as a choice between OV as it was and OV set. -/
theorem or_bne_eq_ite (ov b c : Bool) : (ov || b != c) = if b = c then ov else true := by
  split
  · next h => rw [bne_eq_false_iff_eq.2 h, Bool.or_false]
  · next h => rw [bne_iff_ne.2 h, Bool.or_true]

theorem exec_reo (s : State) : exec .reo s = .next { s with
    ov := if bit s.x 14 = bit s.x 15 then s.ov else true, noIntNext := true, p := s.advanced 1, cState := .none } := by
  rw [← or_bne_eq_ite]
  rfl

/-! ### The BREAKPOINT tests -/

/-- Bits 12 to 23 of a BREAKPOINT TEST of the switches chosen (R313). -/
def breakpointFn (t1 t2 t3 t4 : Bool) : BitVec 12 :=
  0#3 ++ BitVec.ofBool t1 ++ BitVec.ofBool t2 ++ BitVec.ofBool t3 ++ BitVec.ofBool t4 ++ 0#5

theorem breakpointFn_bits : ∀ t1 t2 t3 t4,
    (breakpointFn t1 t2 t3 t4).getMsbD 3 = t1 ∧ (breakpointFn t1 t2 t3 t4).getMsbD 4 = t2 ∧
      (breakpointFn t1 t2 t3 t4).getMsbD 5 = t3 ∧ (breakpointFn t1 t2 t3 t4).getMsbD 6 = t4 := by decide

theorem breakpointFn_others : ∀ t1 t2 t3 t4, breakpointFn t1 t2 t3 t4 &&& ~~~0o740 = 0 := by decide

theorem breakpointFn_some : ∀ t1 t2 t3 t4, (t1 || t2 || t3 || t4) = true →
    breakpointFn t1 t2 t3 t4 &&& 0o740 ≠ 0 := by decide

/-- Each of the eight single tests of the Internal Test mode has a bit that is no switch's. -/
theorem single_tests_others : ∀ n ∈ [1, 2, 4, 8, 16, 512, 1024, 2048], BitVec.ofNat 12 n &&& ~~~0o740 ≠ 0 := by
  decide

theorem exec_sks_breakpoints (s : State) {fn : BitVec 12} (hsome : fn &&& 0o740 ≠ 0) (hothers : fn &&& ~~~0o740 = 0) :
    exec (.sks ⟨false, false, 2, fn⟩) s = .next (s.breakpointTest fn) := by
  have hfn : fn.toNat ∉ [1, 2, 4, 8, 16, 512, 1024, 2048] := fun hsingle =>
    single_tests_others _ hsingle (by rwa [BitVec.ofNat_toNat, BitVec.setWidth_eq])
  change s.internalTest ⟨false, false, 2, fn⟩ = .next (s.breakpointTest fn)
  simp only [State.internalTest, Bool.or_self, Bool.false_eq_true, if_false]
  split
  iterate 8 next hlisted => exact absurd (by simp [hlisted]) hfn
  exact if_pos ⟨hsome, hothers⟩

theorem skipsWhen_breakpoints (s : State) {t1 t2 t3 t4 : Bool} (h : (t1 || t2 || t3 || t4) = true) :
    SkipsWhen s (.sks ⟨false, false, 2, breakpointFn t1 t2 t3 t4⟩)
      ((t1 = true ∧ s.console.bp1 = false) ∨ (t2 = true ∧ s.console.bp2 = false) ∨
        (t3 = true ∧ s.console.bp3 = false) ∨ (t4 = true ∧ s.console.bp4 = false)) := by
  obtain ⟨h1, h2, h3, h4⟩ := breakpointFn_bits t1 t2 t3 t4
  refine skipsWhen_of_skipIf
    (exec_sks_breakpoints s (breakpointFn_some t1 t2 t3 t4 h) (breakpointFn_others t1 t2 t3 t4)) ?_
  rw [h1, h2, h3, h4]
  simp only [Bool.or_eq_true, Bool.and_eq_true, Bool.not_eq_true', or_assoc]

/-- Settles O37: HLT and REO by their equations above, each BREAKPOINT test as a conditional skip, and the rest as its
meaning says. -/
theorem controlInstructions : Obligations.ControlInstructions := by
  intro s
  exact ⟨fun hack => ⟨exec_hlt_run hack, exec_hlt_not_run hack⟩, fun l => exec_hlt_acknowledged, rfl,
    fun r t h => atEA_addr _ h, exec_ovt_on, exec_ovt_off, rfl, exec_reo s,
    skipsWhen_of_skipIf rfl (Bool.not_eq_true' _).to_iff, skipsWhen_of_skipIf rfl (Bool.not_eq_true' _).to_iff,
    skipsWhen_of_skipIf rfl (Bool.not_eq_true' _).to_iff, skipsWhen_of_skipIf rfl (Bool.not_eq_true' _).to_iff,
    fun t1 t2 t3 t4 => skipsWhen_breakpoints s⟩

/-! ### The extension registers -/

theorem exec_setext_fitted {s : State} (h : s.cfg.hasMemExt = true) (s3 s2 : Bool) (r3 r2 : BitVec 3) :
    exec (.setext s3 s2 r3 r2) s = .next { s with
      em3 := if s3 then r3 else s.em3, em2 := if s2 then r2 else s.em2, noIntNext := true, p := s.advanced 1
      cState := .none } := if_pos h

theorem exec_exttest_fitted {s : State} (h : s.cfg.hasMemExt = true) (t3 t2 : Bool) :
    exec (.exttest t3 t2) s = .next (s.skipIf ((t2 && s.em2 != 2) || (t3 && s.em3 != 3))) := if_pos h

/-- Settles O38: with the system fitted the test is a conditional skip on the registers selected. -/
theorem extensionRegisters : Obligations.ExtensionRegisters := by
  intro s h
  refine ⟨exec_setext_fitted h, fun t3 t2 => skipsWhen_of_skipIf (exec_exttest_fitted h t3 t2) ?_⟩
  simp only [Bool.or_eq_true, Bool.and_eq_true, bne_iff_ne]

/-! ### A turn at the boundary of two instructions -/

theorem processorTurn_boundary {s : State} (hp : s.power = .on)
    (hh : s.console.runSwitch = .run → s.console.hold = false) (hb : s.Between) (f g : State → Result) :
    s.processorTurn f g = s.atBoundary g := by
  have allowed : ¬ (s.console.runSwitch = .run ∧ s.console.hold = true) := fun ⟨hrun, hheld⟩ =>
    Bool.false_ne_true ((hh hrun).symm.trans hheld)
  rw [State.processorTurn, if_neg (not_not.2 hp), if_neg allowed]
  rcases hb with hc | hc <;> rw [hc]

theorem processorTurn_idle {s : State} (hp : s.power = .on) (hb : s.Between) (hr : s.console.runSwitch = .idle)
    (f g : State → Result) : s.processorTurn f g = .next s := by
  have hh : s.console.runSwitch = .run → s.console.hold = false := fun h => nomatch hr.symm.trans h
  rw [processorTurn_boundary hp hh hb, State.atBoundary, hr]

section Halted

variable {s : State} (hp : s.power = .on) (hb : s.Between) (hr : s.console.runSwitch = .run)
  (hh : s.console.hold = false) (hl : s.halted = true)

include hp hb hr hh hl

theorem processorTurn_halted (hn : s.nextLevel = none) (f g : State → Result) : s.processorTurn f g = .next s := by
  rw [processorTurn_boundary hp (fun _ => hh) hb]
  simp only [State.atBoundary, hr, hl, hn, if_true]

theorem processorTurn_halted_takes {l : Nat} (hn : s.nextLevel = some l) (f g : State → Result) :
    s.processorTurn f g = .next (s.acknowledge l) := by
  rw [processorTurn_boundary hp (fun _ => hh) hb]
  simp only [State.atBoundary, hr, hl, hn, if_true]

end Halted

/-! ### A step without events -/

theorem step_alone {s : State} (h : s.schedule = []) : step s = s.processorTurn State.runC State.runC := by
  rw [step, h]
  rfl

/-- Without events a step is a turn of the processor, a whole instruction or one cycle, after which one turn fewer is
left. -/
theorem step_noEvents {s : State} (h : s.NoEvents) :
    ∃ f g, step s = State.processorTurn { s with schedule := s.schedule.tail } f g := by
  cases hs : s.schedule with
  | nil =>
    have same : { s with schedule := [] } = s := by rw [← hs]
    exact ⟨State.runC, State.runC, by rw [List.tail_nil, same, step_alone hs]⟩
  | cons t rest =>
    rcases h t (by simp [hs]) with rfl | rfl
    · exact ⟨State.runC, State.runC, by rw [step, hs]; rfl⟩
    · exact ⟨State.cycleC, State.fetchedC, by rw [step_cycle hs]; rfl⟩

theorem noEvents_tail {s : State} (h : s.NoEvents) : State.NoEvents { s with schedule := s.schedule.tail } :=
  fun t ht => h t (List.mem_of_mem_tail ht)

/-! ### The switch put to IDLE and back -/

theorem turnSwitch_idle {s : State} (hp : s.power = .on) (hc : s.cState = .none) :
    s.turnSwitch .idle = (s.setSwitch .idle).showNext := if_pos ⟨rfl, hp, hc⟩

theorem turnSwitch_run (s : State) : s.turnSwitch .run = s.setSwitch .run := by
  rw [State.turnSwitch, if_neg fun h => nomatch h.1]

theorem setSwitch_idle_halted (s : State) : (s.setSwitch .idle).halted = false := Bool.and_false _

/-- The way to IDLE and back leaves the console as it was, the halt ended and the display. -/
theorem setSwitch_run_of_idle {s : State} (hr : s.console.runSwitch = .run) :
    (s.setSwitch .idle).showNext.setSwitch .run =
      { s with halted := false, c := (s.setSwitch .idle).nextWord } := by
  have console : { s.console with runSwitch := .run } = s.console := by rw [← hr]
  have ended : ((s.setSwitch .idle).halted && RunSwitch.run == .run) = false := by
    rw [setSwitch_idle_halted, Bool.false_and]
  calc (s.setSwitch .idle).showNext.setSwitch .run
    _ = { s with
          console := { s.console with runSwitch := .run }, c := (s.setSwitch .idle).nextWord
          halted := (s.setSwitch .idle).halted && RunSwitch.run == .run } := rfl
    _ = { s with halted := false, c := (s.setSwitch .idle).nextWord } := by rw [console, ended]

/-- Settles O59: what a turn of the processor does in IDLE and in a halt, the switch there and back, and that the turns
left to a run that has ended are such turns. -/
theorem haltAndIdle : Obligations.HaltAndIdle := by
  refine ⟨fun s hs hp hb => ⟨fun hr => ?idle, fun hr hh hl hn => ?halted, fun l hr hh hl hn => ?taken⟩,
    fun s hp hc hack hr _ => ?switch, fun s e he hends => ?ended⟩
  case idle => rw [step_alone hs, processorTurn_idle hp hb hr]
  case halted => rw [step_alone hs, processorTurn_halted hp hb hr hh hl hn]
  case taken => rw [step_alone hs, processorTurn_halted_takes hp hb hr hh hl hn]
  case switch =>
    have shown : (s.setSwitch .idle).nextWord = s.read s.p := nextWord_sequence (s := s.setSwitch .idle) hack
    refine ⟨(s.setSwitch .idle).showNext, congrArg Host.Outcome.next (turnSwitch_idle hp hc),
      setSwitch_idle_halted s, shown, rfl, rfl, (s.setSwitch .idle).showNext.setSwitch .run,
      congrArg Host.Outcome.next (turnSwitch_run _), ?_⟩
    rw [setSwitch_run_of_idle hr, shown]
  case ended =>
    rcases he with rfl | rfl
    · obtain ⟨hnone, hp, hb, hr, hh, hl, hn⟩ := hends
      obtain ⟨f, g, hstep⟩ := step_noEvents hnone
      have still := processorTurn_halted (s := { s with schedule := s.schedule.tail }) hp hb hr hh hl hn f g
      exact ⟨hstep.trans still, noEvents_tail hnone, hp, hb, hr, hh, hl, hn⟩
    · obtain ⟨hnone, hp, hb, hr⟩ := hends
      obtain ⟨f, g, hstep⟩ := step_noEvents hnone
      have still := processorTurn_idle (s := { s with schedule := s.schedule.tail }) hp hb hr f g
      exact ⟨hstep.trans still, noEvents_tail hnone, hp, hb, hr⟩

end Sys2Proof.Machine
end

section
/-! PROOFS. The Buffer Control words (48_io_instructions R355, R356): the connect of a unit with the first word of an
output, DSC and the connect words of unit 00; ALC and the interlace-control word (R358, R359). -/

namespace Sys2Proof.Machine

open Sys2Proof

/-! ### The last word of the count, asked for (48 R365 to R370) -/

section LastWord

variable {c : Chan} (ha : c.ilcActive = true) (h1 : c.wcr = 1)

include ha h1

/-- Functions 00, 01 and 10 of the Extended mode: it is the last word of the output. -/
theorem needWord_last_ends (s : State) (ch : ChannelId) (hx : extended ch c = true) (hf : c.fc ≠ 3) :
    (s.setChan ch c).needWord ch =
      { s with
        chans := s.chans.set ch { c.stepped with war := s.memRead c.mar, wordReady := false, lastWord := true }
        waiting := if c.zcArm then s.requested (zcLevel ch) else s.waiting } := by
  rw [needWord_fetches_last s ch c ha h1]
  exact countZeroOut_last s ch _ hx hf

/-- Function 11 of the Extended mode: a reload or a TOP may follow. -/
theorem needWord_last_proceeds (s : State) (ch : ChannelId) (hx : extended ch c = true) (hf : c.fc = 3) :
    (s.setChan ch c).needWord ch =
      { s with
        chans := s.chans.set ch { c.stepped with war := s.memRead c.mar, wordReady := false, interRecord := true }
        waiting := if c.zcArm then s.requested (zcLevel ch) else s.waiting } := by
  rw [needWord_fetches_last s ch c ha h1]
  exact countZeroOut_proceeds s ch _ hx hf

/-- The Compatible mode: it is the last word of the output, and no interrupt is requested. -/
theorem needWord_last_compatible (s : State) (ch : ChannelId) (hx : extended ch c = false) :
    (s.setChan ch c).needWord ch =
      s.setChan ch { c.stepped with war := s.memRead c.mar, wordReady := false, lastWord := true } := by
  rw [needWord_fetches_last s ch c ha h1]
  exact countZeroOut_compatible s ch _ hx

end LastWord

/-! ### Buffer Control -/

theorem bufferControl_absent {s : State} {ch : ChannelId} (k : Conn) (h : s.hasChan ch = false) :
    s.bufferControl ch k = .next s.endEom := by
  rw [State.bufferControl, h, if_neg Bool.false_ne_true]

theorem bufferControl_installed {s : State} {ch : ChannelId} (k : Conn) (h : s.hasChan ch = true) :
    s.bufferControl ch k = .next (s.connectUnit ch k).endEom := by
  rw [State.bufferControl, if_pos h]

/-- Every connect is the Buffer Control word of its fields (49 R432). -/
theorem exec_connects {ch : ChannelId} {d : DevFn} {n : BitVec 3} {c k : Conn} {i : Instr}
    (h : (i, k) ∈ connects ch d n c) (s : State) : exec i s = s.bufferControl ch k := by
  fin_cases h
  all_goals rfl

/-- An output connects with its buffer already empty. -/
theorem connected_wordReady {k : Conn} (h : k.unit.msb = true) (c : Chan) :
    { c.connected k false with wordReady := true } = c.connected k false := by
  rw [Chan.connected, h]

/-- Settles O41: by the alert, the direction of the unit, and what the first word of an output meets. -/
theorem connectUnit : Obligations.ConnectUnit := by
  intro s ch d n c k i hi hk on leaves zc
  let told : State := s.send (.connect ch k.unit k.reverse k.noLeader k.binary)
  have hexec : exec i s = s.bufferControl ch k := exec_connects hi s
  refine ⟨fun hch => hexec.trans (bufferControl_absent k hch), fun hch ha hint => ?alerts, fun hch hplain => ?plain⟩
  case alerts =>
    refine hexec.trans ?_
    rw [bufferControl_installed k hch, connectUnit_alerts s ch k hk ha hint]
    rfl
  case plain =>
    have leaves_of {x : Chan} {w : List Nat}
        (hu : s.connectUnit ch k = { told with chans := s.chans.set ch x, waiting := w }) : leaves x w := by
      refine hexec.trans ?_
      rw [bufferControl_installed k hch, hu]
      rfl
    have plain := connectUnit_plain s ch k hk hplain
    dsimp only at plain
    refine ⟨fun hin => leaves_of ?input, fun hout ha => leaves_of ?asks, fun hout ha h0 => leaves_of ?empty,
      fun hout ha h0 => ⟨fun h1 => leaves_of ?next, fun h1 hx hf => leaves_of ?ends,
        fun h1 hx hf => leaves_of ?proceeds, fun h1 hx => leaves_of ?compatible⟩⟩
    case input => rw [plain, hin, if_neg Bool.false_ne_true]; rfl
    all_goals rw [plain, hout, if_pos rfl]
    case asks =>
      refine (needWord_asks told ch on ha).trans ?_
      rw [show { on with wordReady := true } = on from connected_wordReady hout _]
      exact chanInt_setChan told ch _ .zc rfl rfl rfl
    case empty =>
      refine (needWord_empty told ch on ha h0).trans ?_
      rw [show { on with wordReady := true } = on from connected_wordReady hout _]
      rfl
    case next => exact needWord_fetches told ch _ ha h0 h1
    case ends => exact needWord_last_ends ha h1 told ch hx hf
    case proceeds => exact needWord_last_proceeds ha h1 told ch hx hf
    case compatible => exact needWord_last_compatible ha h1 told ch hx

/-! ### Disconnect -/

/-- The device is told where one was connected. -/
theorem dsc_eq (s : State) (ch : ChannelId) :
    s.dsc ch = { s with
      chans := s.chans.set ch { Chan.disconnected ch (s.chan ch) with error := false }
      out := if (s.chan ch).uar = 0 then s.out else .disconnect ch :: s.out } := by
  unfold State.dsc
  dsimp only
  split <;> rfl

/-- A connect word of unit 00 (48 R356). -/
theorem connectUnit_zero (s : State) (ch : ChannelId) {k : Conn} (hk : k.unit = 0) :
    s.connectUnit ch k = if k.alert then (s.dsc ch).alert ch else s.dsc ch := by
  rw [State.connectUnit, if_pos hk]

theorem alert_absent {s : State} {ch : ChannelId} (h : s.hasInterlace ch = false) : s.alert ch = s := by
  rw [State.alert, h, if_neg Bool.false_ne_true]

theorem alert_interlaced {s : State} {ch : ChannelId} (h : s.hasInterlace ch = true) :
    s.alert ch = s.setChan ch (Chan.alerted ch (s.chan ch)) := by
  rw [State.alert, if_pos h]

theorem dsc_hasInterlace (s : State) (ch o : ChannelId) : (s.dsc ch).hasInterlace o = s.hasInterlace o := by
  rw [dsc_eq]
  rfl

theorem connectUnit_zero_plain {s : State} {ch : ChannelId} {k : Conn} (hk : k.unit = 0)
    (h : k.alert = false ∨ s.hasInterlace ch = false) : s.connectUnit ch k = s.dsc ch := by
  rw [connectUnit_zero s ch hk]
  rcases h with h | h
  · rw [h, if_neg Bool.false_ne_true]
  · rw [alert_absent ((dsc_hasInterlace s ch ch).trans h), ite_self]

/-- Settles O42: the Buffer Control words of unit 00 are DSC, with the alert where bit 9 asks for it. -/
theorem disconnectChannel : Obligations.DisconnectChannel := by
  intro s ch
  refine ⟨fun hch => bufferControl_absent _ hch, fun hch => ?dsc,
    fun k hk => ⟨fun hplain => ?plain, fun ha hint hch => ?alerts⟩⟩
  case dsc =>
    refine (bufferControl_installed _ hch).trans ?_
    rw [connectUnit_zero_plain rfl (.inl rfl), dsc_eq]
    rfl
  case plain =>
    refine congrArg (fun t => Host.Outcome.next (State.endEom (if s.hasChan ch then t else s))) ?_
    rw [connectUnit_zero_plain hk hplain, connectUnit_zero_plain rfl (.inl rfl)]
  case alerts =>
    refine (bufferControl_installed _ hch).trans ?_
    rw [connectUnit_zero s ch hk, if_pos ha, alert_interlaced ((dsc_hasInterlace s ch ch).trans hint), dsc_eq]
    simp only [State.chan, Channels.get_set_self, State.setChan, Channels.set_set]
    rfl

/-! ### Alert and interlace control -/

/-- The Input/Output Control word of an alerted channel is an interlace-control word (48 R357, D34). -/
theorem ioControl_alerted {s : State} {ch : ChannelId} (hch : s.hasChan ch = true)
    (ha : (s.chan ch).ilcAlert = true) (fn : BitVec 5) (unit : BitVec 6) :
    s.ioControl ch false fn unit = .next (s.interlaceControl ch (ilcOf fn unit)).endEom := by
  simp only [State.ioControl, hch, ha, Bool.not_true, Bool.false_eq_true, if_false, if_true]

theorem ioControl_absent {s : State} {ch : ChannelId} (hch : s.hasChan ch = false) (b9 : Bool) (fn : BitVec 5)
    (unit : BitVec 6) : s.ioControl ch b9 fn unit = .next s.endEom := by
  rw [State.ioControl, hch, Bool.not_false, if_pos rfl]

theorem ioControl_alc {s : State} {ch : ChannelId} (hch : s.hasChan ch = true) :
    s.ioControl ch true 0 0 = .next (s.alert ch).endEom := by
  simp only [State.ioControl, hch, Bool.not_true, Bool.false_eq_true, if_false, if_true, ne_eq, not_true]

theorem ilcFn5_bits : ∀ (ia er zc : Bool) (fc : BitVec 2),
    let w : BitVec 5 := BitVec.ofBool ia ++ BitVec.ofBool er ++ BitVec.ofBool zc ++ fc
    w.getMsbD 0 = ia ∧ w.getMsbD 1 = er ∧ w.getMsbD 2 = zc ∧ w.extractLsb' 0 2 = fc := by decide

theorem ilcUnit_bits : ∀ (hiAddr : Bool) (hiCount : BitVec 5),
    let w : BitVec 6 := BitVec.ofBool hiAddr ++ hiCount
    w.getMsbD 0 = hiAddr ∧ w.extractLsb' 0 5 = hiCount := by decide

/-- The fields of an interlace-control word are the bits its encoding puts in it. -/
theorem ilcOf_encoded (k : IlcFn) : ilcOf (ilcFn5 k) (ilcUnit k) = k := by
  obtain ⟨hia, her, hzc, hfc⟩ := ilcFn5_bits k.ia k.er k.zc k.fc
  obtain ⟨haddr, hcount⟩ := ilcUnit_bits k.hiAddr k.hiCount
  rw [ilcOf, ilcFn5, ilcUnit, hia, her, hzc, hfc, haddr, hcount]

/-- Settles O43: ALC where there is an interlace to alert, and the word an alerted channel takes as its control. -/
theorem alertAndControl : Obligations.AlertAndControl := by
  intro s ch k hch
  refine ⟨fun hint => ?absent, fun hint => ?alc, fun ha => ?ilc⟩
  case absent => exact (ioControl_alc hch).trans (by rw [alert_absent hint])
  case alc => exact (ioControl_alc hch).trans (by rw [alert_interlaced hint]; rfl)
  case ilc =>
    refine (ioControl_alerted hch ha _ _).trans ?_
    rw [ilcOf_encoded]
    rfl

end Sys2Proof.Machine
end

section
/-! PROOFS. The load of an interlace by POT (48_io_instructions R361), and the words that a waiting buffer is then given
or that it held for the interlace (R365 to R369; log 36). -/

namespace Sys2Proof.Machine

open Sys2Proof

/-! ### The loaded channel -/

/-- The count and the address of a load come each from two halves (48 R361). -/
theorem loaded_eq {c : Chan} {m : Word} {count : BitVec 15} {addr : PAddr}
    (hcount : count.toNat = c.hiCount.toNat * 1024 + m.toNat / 2 ^ 14)
    (haddr : addr.toNat = c.hiAddr.toNat * 2 ^ 14 + m.toNat % 2 ^ 14) :
    c.loaded m = { c with
      zeroCount := false, ilcAlert := false, loadDue := false, ilcActive := !c.eorSeen
      interRecord := c.eorSeen && c.interRecord, wcr := count, mar := addr } := by
  have hm := m.isLt
  have hwcr : c.hiCount ++ m.extractLsb' 14 10 = count := by
    refine BitVec.eq_of_toNat_eq ?_
    rw [append_toNat, BitVec.extractLsb'_toNat, Nat.shiftRight_eq_div_pow, hcount]
    omega
  have hmar : BitVec.ofBool c.hiAddr ++ addrField m = addr := by
    refine BitVec.eq_of_toNat_eq ?_
    rw [append_toNat, BitVec.toNat_ofBool, addrField, BitVec.toNat_setWidth, haddr]
  unfold Chan.loaded
  rw [hwcr, hmar]

/-- POT with one interlace alerted and nothing else (48 R389). -/
theorem exec_pot_loads {s : State} {r : Ref} {t : Addr} {ch : ChannelId} (h : s.ea r = .addr t)
    (hair : s.airAlert = false) (hdms : s.dmsSelect = none) (halert : s.ilcAlerted = [ch])
    (hcount : ((s.chan ch).loaded (s.operand t)).wcr ≠ 0) :
    exec (.pot r) s = .next (s.loadInterlace ch (s.operand t)).sequential := by
  have one : ¬ 1 < s.potAlerts := by simp [State.potAlerts, hair, hdms, halert]
  refine (atEA_addr _ h : execPot r s = _).trans ?_
  simp only [one, hair, halert, hcount, Bool.false_eq_true, if_false]

theorem loadInterlace_inactive (s : State) (ch : ChannelId) (m : Word)
    (h : ((s.chan ch).loaded m).ilcActive = false) :
    s.loadInterlace ch m = s.setChan ch ((s.chan ch).loaded m) := by
  unfold State.loadInterlace
  dsimp only
  rw [if_neg (by rw [h]; exact Bool.false_ne_true)]

theorem loadInterlace_active (s : State) (ch : ChannelId) (m : Word)
    (h : ((s.chan ch).loaded m).ilcActive = true) :
    s.loadInterlace ch m = (s.setChan ch ((s.chan ch).loaded m)).takeHeld ch := if_pos h

/-! ### What a buffer is given, or gives, at the load (log 36) -/

section Held

variable (s : State) (ch : ChannelId) (c : Chan)

theorem takeHeld_disconnected (h : c.uar = 0) : (s.setChan ch c).takeHeld ch = s.setChan ch c := by
  unfold State.takeHeld
  rw [State.chan_setChan_self]
  exact if_pos h

theorem takeHeld_output (hu : c.uar ≠ 0) (ho : c.output = true) :
    (s.setChan ch c).takeHeld ch =
      if c.wordReady && !c.lastWord then (s.setChan ch c).needWord ch else s.setChan ch c := by
  unfold State.takeHeld
  rw [State.chan_setChan_self]
  dsimp only
  rw [if_neg hu, if_pos ho]

/-- On input the word in IOR goes first, then the one in WAR, unless the first has disconnected the channel. -/
theorem takeHeld_input (hu : c.uar ≠ 0) (ho : c.output = false) {t : State}
    (ht : (s.setChan ch c).takeIor ch = t) :
    (s.setChan ch c).takeHeld ch =
      if c.wordReady && (t.chan ch).uar != 0 then
        (t.setChan ch { t.chan ch with wordReady := false }).wordAssembled ch (t.chan ch).fullBits
      else t := by
  unfold State.takeHeld
  rw [State.chan_setChan_self, ht]
  dsimp only
  rw [if_neg hu, if_neg (by rw [ho]; exact Bool.false_ne_true)]

theorem takeIor_empty (h : c.iorFull = false) : (s.setChan ch c).takeIor ch = s.setChan ch c := by
  unfold State.takeIor
  rw [State.chan_setChan_self]
  dsimp only
  rw [if_neg (by rw [h]; exact Bool.false_ne_true)]

theorem takeIor_full (h : c.iorFull = true) :
    (s.setChan ch c).takeIor ch = (s.setChan ch { c with iorFull := false }).storeWord ch c.ior := by
  unfold State.takeIor
  rw [State.chan_setChan_self]
  dsimp only
  rw [if_pos h, setChan_setChan]

end Held

/-- What the interlace stores of a full buffer: of its bits those that its characters fill, and one undefined value is
drawn for the rest. -/
theorem wordAssembled_moved (s : State) (ch : ChannelId) (k : Chan) (n : Nat) (ha : k.ilcActive = true)
    (h0 : k.wcr ≠ 0) : ∃ word : Word, word.toNat % 2 ^ n = k.war.toNat % 2 ^ n ∧
      MovedIn { s with draws := s.draws + 1 } ch k word ((s.setChan ch k).wordAssembled ch n) := by
  refine ⟨keepLow n k.war s.freeWord, toNat_keepLow_mod n k.war s.freeWord, ?_⟩
  rw [wordAssembled_stores s ch k n ha h0]
  exact storeWord_moved (s.draw 1) ch k _

theorem fc_cases : ∀ fc : BitVec 2, fc = 0 ∨ fc = 1 ∨ fc = 2 ∨ fc = 3 := by decide

/-- Whatever its function, a word moved in touches memory, the Waiting levels, its channel and the messages only. -/
theorem MovedIn.frame {s t : State} {ch : ChannelId} {k : Chan} {word : Word} (h : MovedIn s ch k word t) :
    ∃ m w x o, t = { s with mem := m, waiting := w, chans := s.chans.set ch x, out := o } := by
  obtain ⟨m, w, -, hnext, hsignals, hdisconnects, hproceeds, hcompatible⟩ := h
  by_cases h1 : k.wcr = 1
  · cases hx : extended ch k with
    | false => exact ⟨_, _, _, _, hcompatible h1 hx⟩
    | true =>
      rcases fc_cases k.fc with hf | hf | hf | hf
      · exact ⟨_, _, _, _, hsignals h1 hx (.inl hf)⟩
      · exact ⟨_, _, _, _, hdisconnects h1 hx hf⟩
      · exact ⟨_, _, _, _, hsignals h1 hx (.inr hf)⟩
      · exact ⟨_, _, _, _, hproceeds h1 hx hf⟩
  · exact ⟨_, _, _, _, hnext h1⟩

theorem MovedIn.advanced {s t : State} {ch : ChannelId} {k : Chan} {word : Word} (h : MovedIn s ch k word t)
    (n : Addr) : t.advanced n = s.advanced n := by
  obtain ⟨m, w, x, o, rfl⟩ := h.frame
  rfl

/-! ### An output that waits -/

section Output

variable {c : Chan} (ha : c.ilcActive = true)

include ha

/-- The first word of an output is not the last of the count. -/
theorem needWord_first (s : State) (ch : ChannelId) (h0 : c.wcr ≠ 0) (h1 : c.wcr ≠ 1) :
    (s.setChan ch c).needWord ch = s.setChan ch
      { c with war := s.memRead c.mar, wordReady := false, wcr := c.wcr - 1, mar := c.mar + 1 } := by
  rw [needWord_fetches s ch c ha h0 h1, Chan.stepped, beq_false_of_ne h1, Bool.or_false]

/-- The first word of an output is the last of the count: under function 11 another load may follow, else the output
ends with it. -/
theorem needWord_only (s : State) (ch : ChannelId) (h1 : c.wcr = 1) (hl : c.lastWord = false)
    (hr : c.interRecord = false) :
    let proceeds := extended ch c && c.fc == 3
    (s.setChan ch c).needWord ch = { s with
      waiting := if extended ch c && c.zcArm then s.requested (zcLevel ch) else s.waiting
      chans := s.chans.set ch { c with
        war := s.memRead c.mar, wordReady := false, wcr := c.wcr - 1, mar := c.mar + 1, zeroCount := true
        lastWord := !proceeds, interRecord := proceeds } } := by
  intro proceeds
  have hstep : c.stepped = { c with mar := c.mar + 1, wcr := c.wcr - 1, zeroCount := true } := by
    rw [Chan.stepped, h1, beq_self_eq_true, Bool.or_true]
  cases hx : extended ch c with
  | false =>
    rw [needWord_last_compatible ha h1 s ch hx, hstep]
    simp only [proceeds, hx, hr, Bool.false_and, Bool.not_false]
    rfl
  | true =>
    by_cases hf : c.fc = 3
    · rw [needWord_last_proceeds ha h1 s ch hx hf, hstep]
      simp only [proceeds, hx, hf, hl, beq_self_eq_true, Bool.true_and, Bool.not_true]
    · rw [needWord_last_ends ha h1 s ch hx hf, hstep]
      simp only [proceeds, hx, beq_false_of_ne hf, hr, Bool.true_and, Bool.not_false]

end Output

/-! ### The two words of a direct access channel -/

section Direct

variable {s u : State} {ch : ChannelId} {k : Chan} {word : Word} (hu : MovedIn s ch k word u)

include hu

theorem MovedIn.draws : u.draws = s.draws := by
  obtain ⟨m, w, x, o, rfl⟩ := hu.frame
  rfl

/-- A word that leaves the channel connected with its interlace as it was: it is not the last of the count, or the
function signals only. -/
theorem MovedIn.chan_next (h : k.wcr ≠ 1 ∨ (k.wcr = 1 ∧ extended ch k = true ∧ (k.fc = 0 ∨ k.fc = 2))) :
    u.chan ch = { k.stepped with ior := if isDirect ch then word else k.ior } := by
  obtain ⟨m, w, -, hnext, hsignals, -⟩ := hu
  rcases h with h1 | ⟨h1, hx, hf⟩
  · rw [hnext h1]
    exact Channels.get_set_self _ ch _
  · rw [hsignals h1 hx hf]
    exact Channels.get_set_self _ ch _

/-- Under function 01 the last word of the count disconnects. -/
theorem MovedIn.uar_disconnected (h1 : k.wcr = 1) (hx : extended ch k = true) (hf : k.fc = 1) :
    (u.chan ch).uar = 0 := by
  obtain ⟨m, w, -, -, -, hdisconnects, -⟩ := hu
  rw [hdisconnects h1 hx hf]
  exact congrArg Chan.uar (Channels.get_set_self _ ch _)

/-- Under function 11 the last word of the count leaves the channel for a reload. -/
theorem MovedIn.chan_proceeds (h1 : k.wcr = 1) (hx : extended ch k = true) (hf : k.fc = 3) :
    u.chan ch = { k.stepped with ior := if isDirect ch then word else k.ior, interRecord := true } := by
  obtain ⟨m, w, -, -, -, -, hproceeds, -⟩ := hu
  rw [hproceeds h1 hx hf]
  exact Channels.get_set_self _ ch _

/-- The word in WAR follows the one from IOR while the count goes on. -/
theorem wordAssembled_follows (ha : k.ilcActive = true) (h1 : k.wcr ≠ 1) :
    ∃ second : Word, second.toNat % 2 ^ k.fullBits = k.war.toNat % 2 ^ k.fullBits ∧
      MovedIn { u with draws := s.draws + 1 } ch { u.chan ch with wordReady := false } second
        ((u.setChan ch { u.chan ch with wordReady := false }).wordAssembled ch (u.chan ch).fullBits) := by
  have hchan := hu.chan_next (.inl h1)
  have hwcr : (u.chan ch).wcr ≠ 0 := by rw [hchan]; exact fun h => h1 (sub_eq_zero.1 h)
  obtain ⟨second, hbits, hmoved⟩ := wordAssembled_moved u ch { u.chan ch with wordReady := false }
    (u.chan ch).fullBits (by rw [hchan]; exact ha) hwcr
  refine ⟨second, ?_, ?_⟩
  · rw [hchan] at hbits
    exact hbits
  · rw [← hu.draws]
    exact hmoved

/-- After a count of one it is dropped where the function signals only. -/
theorem wordAssembled_dropped (ha : k.ilcActive = true) (h1 : k.wcr = 1) (hx : extended ch k = true)
    (hf : k.fc = 0 ∨ k.fc = 2) :
    (u.setChan ch { u.chan ch with wordReady := false }).wordAssembled ch (u.chan ch).fullBits =
      u.setChan ch { u.chan ch with wordReady := false } := by
  have hchan := hu.chan_next (.inr ⟨h1, hx, hf⟩)
  have hfc : k.fc ≠ 3 := by rcases hf with hf | hf <;> rw [hf] <;> decide
  refine wordAssembled_drops u ch _ _ (by rw [hchan]; exact ha) ?_ (by rw [hchan]; exact hfc)
  rw [hchan]
  exact sub_eq_zero.2 h1

/-- After a count of one function 11 holds it in IOR. -/
theorem wordAssembled_kept (ha : k.ilcActive = true) (h1 : k.wcr = 1) (hx : extended ch k = true)
    (hf : k.fc = 3) (hd : isDirect ch = true) (hi : k.iorFull = false) :
    ∃ second : Word, second.toNat % 2 ^ k.fullBits = k.war.toNat % 2 ^ k.fullBits ∧
      (u.setChan ch { u.chan ch with wordReady := false }).wordAssembled ch (u.chan ch).fullBits = { u with
        draws := s.draws + 1
        chans := u.chans.set ch { u.chan ch with wordReady := false, ior := second, iorFull := true } } := by
  have hchan := hu.chan_proceeds h1 hx hf
  refine ⟨keepLow (u.chan ch).fullBits (u.chan ch).war u.freeWord, ?_, ?_⟩
  · rw [hchan]
    exact toNat_keepLow_mod _ _ _
  · have hwcr : (u.chan ch).wcr = 0 := by rw [hchan]; exact sub_eq_zero.2 h1
    rw [← hu.draws]
    refine (wordAssembled_holds u ch { u.chan ch with wordReady := false } _ (by rw [hchan]; exact ha) hwcr
      (by rw [hchan]; exact hf)).trans ?_
    exact keepWord_slack u ch _ _ hd (by rw [hchan]; exact hi)

end Direct

/-- Settles O44: by the End-of-Record condition, the direction, and the words wanted or held. -/
theorem loadInterlace : Obligations.LoadInterlace := by
  intro s r t ch count addr h hair hdms halert hcount h0 haddr c served leaves
  have hloaded : (s.chan ch).loaded (s.operand t) = c := loaded_eq hcount haddr
  have leaves_of {u : State} (hu : s.loadInterlace ch (s.operand t) = u) (hp : u.advanced 1 = s.advanced 1) :
      leaves u := by
    refine (exec_pot_loads h hair hdms halert (by rw [hloaded]; exact h0)).trans ?_
    rw [hu, ← hp]
    rfl
  have inactive (he : c.eorSeen = true) : s.loadInterlace ch (s.operand t) = s.setChan ch c := by
    rw [← hloaded]
    exact loadInterlace_inactive s ch _ (by rw [hloaded]; exact congrArg not he)
  have active (he : c.eorSeen = false) : s.loadInterlace ch (s.operand t) = (s.setChan ch c).takeHeld ch := by
    rw [← hloaded]
    exact loadInterlace_active s ch _ (by rw [hloaded]; exact congrArg not he)
  have running (he : c.eorSeen = false) : c.ilcActive = true := congrArg not he
  refine ⟨fun hidle => ?idle, fun ⟨hu, he⟩ ho hw hl => ?output, fun ⟨hu, he⟩ ho hw hi => ?held,
    fun ⟨hu, he⟩ ho hi hd => ?direct⟩
  case idle =>
    refine leaves_of (u := s.setChan ch c) ?_ rfl
    cases he : c.eorSeen with
    | true => exact inactive he
    | false =>
      refine (active he).trans ?_
      by_cases hu : c.uar = 0
      · exact takeHeld_disconnected s ch c hu
      rcases hidle with hidle | hidle | ⟨ho, hidle⟩ | ⟨ho, hw, hi⟩
      · exact absurd hidle hu
      · exact absurd (he.symm.trans hidle) Bool.false_ne_true
      · rw [takeHeld_output s ch c hu ho, if_neg]
        rcases hidle with hidle | hidle <;> simp [hidle]
      · rw [takeHeld_input s ch c hu ho (takeIor_empty s ch c hi), hw, Bool.false_and, if_neg Bool.false_ne_true]
  case output =>
    have hneed : s.loadInterlace ch (s.operand t) = (s.setChan ch c).needWord ch := by
      rw [active he, takeHeld_output s ch c hu ho, hw, hl, if_pos (by rfl)]
    have hr : c.interRecord = false := by
      show ((s.chan ch).eorSeen && (s.chan ch).interRecord) = false
      rw [show (s.chan ch).eorSeen = false from he, Bool.false_and]
    exact ⟨fun h1 => leaves_of (hneed.trans (needWord_first (running he) s ch h0 h1)) rfl,
      fun h1 => leaves_of (hneed.trans (needWord_only (running he) s ch h1 hl hr)) rfl⟩
  case held =>
    have htake : s.loadInterlace ch (s.operand t) =
        (s.setChan ch { c with wordReady := false }).wordAssembled ch c.fullBits := by
      rw [active he, takeHeld_input s ch c hu ho (takeIor_empty s ch c hi), State.chan_setChan_self, hw,
        if_pos (by simpa using hu), setChan_setChan]
    obtain ⟨word, hword, hmoved⟩ :=
      wordAssembled_moved s ch { c with wordReady := false } c.fullBits (running he) h0
    exact ⟨word, _, hword, hmoved, leaves_of htake (hmoved.advanced 1)⟩
  case direct =>
    let k : Chan := { c with iorFull := false }
    have ha : k.ilcActive = true := running he
    have hx : extended ch k = true := by rw [extended, hd, Bool.true_or]
    obtain ⟨u, hstored⟩ : ∃ u, (s.setChan ch k).storeWord ch c.ior = u := ⟨_, rfl⟩
    have hmoved : MovedIn s ch k c.ior u := hstored ▸ storeWord_moved s ch k c.ior
    have htake := (active he).trans (takeHeld_input s ch c hu ho ((takeIor_full s ch c hi).trans hstored))
    have alone (h : (c.wordReady && (u.chan ch).uar != 0) = false) : s.loadInterlace ch (s.operand t) = u :=
      htake.trans (if_neg (by rw [h]; exact Bool.false_ne_true))
    have both (hw : c.wordReady = true) (hon : (u.chan ch).uar ≠ 0) : s.loadInterlace ch (s.operand t) =
        (u.setChan ch { u.chan ch with wordReady := false }).wordAssembled ch (u.chan ch).fullBits :=
      htake.trans (if_pos (by rw [hw, Bool.true_and]; exact bne_iff_ne.2 hon))
    refine ⟨u, hmoved, fun hw => ?_, fun hw h1 hf => ?_, fun hw h1 hf => ?_, fun hw hmore => ?_⟩
    · exact leaves_of (alone (by rw [hw, Bool.false_and])) (hmoved.advanced 1)
    · have hoff := hmoved.uar_disconnected h1 hx hf
      exact leaves_of (alone (by rw [hoff, bne_self_eq_false, Bool.and_false])) (hmoved.advanced 1)
    · have hon : (u.chan ch).uar ≠ 0 := by rw [hmoved.chan_next (.inr ⟨h1, hx, hf⟩)]; exact hu
      exact leaves_of ((both hw hon).trans (wordAssembled_dropped hmoved ha h1 hx hf)) (hmoved.advanced 1)
    · by_cases h1 : count = 1
      · have hf : k.fc = 3 := hmore.resolve_left (not_not.2 h1)
        have hon : (u.chan ch).uar ≠ 0 := by rw [hmoved.chan_proceeds h1 hx hf]; exact hu
        obtain ⟨word, hword, hkept⟩ := wordAssembled_kept hmoved ha h1 hx hf hd rfl
        exact ⟨word, hword, fun hne => absurd h1 hne,
          fun _ => leaves_of ((both hw hon).trans hkept) (hmoved.advanced 1)⟩
      · have hon : (u.chan ch).uar ≠ 0 := by rw [hmoved.chan_next (.inl h1)]; exact hu
        obtain ⟨word, hword, hsecond⟩ := wordAssembled_follows hmoved ha h1
        exact ⟨word, hword, fun _ => ⟨_, hsecond, leaves_of (both hw hon) ((hsecond.advanced 1).trans
          (hmoved.advanced 1))⟩, fun he => absurd he h1⟩

end Sys2Proof.Machine
end

section
/-! PROOFS. The Input/Output Control words: TOP and RTS (48_io_instructions R360, R371), ASC with the PIN that follows
it (R360, R388), the device commands (R357) and the System-mode EOM (R390). -/

namespace Sys2Proof.Machine

open Sys2Proof

/-! ### TOP and RTS -/

/-- The word of TOP and RTS, on a channel that takes it as such. -/
theorem ioControl_top {s : State} {ch : ChannelId} (hch : s.hasChan ch = true) (ha : (s.chan ch).ilcAlert = false) :
    s.ioControl ch false 0b10000 0 = .next (s.terminate ch).endEom := by
  simp only [State.ioControl, hch, ha, Bool.not_true, Bool.false_eq_true, ne_eq, not_true, if_false]
  rfl

/-- The channel that a TOP has marked (48 R360; a tape read becomes a scan, 49 R463). -/
def Chan.topMarked (c : Chan) : Chan :=
  { c with topPending := true, scan := c.scan || c.uar.extractLsb' 3 3 == 1 }

/-- The output buffer is empty and asks for a word. -/
def Chan.wantsWord (c : Chan) : Bool := decide (c.uar ≠ 0) && c.output && c.wordReady && !c.lastWord

theorem Chan.wantsWord_iff (c : Chan) :
    c.wantsWord = true ↔ c.uar ≠ 0 ∧ c.output = true ∧ c.wordReady = true ∧ c.lastWord = false := by
  simp [Chan.wantsWord, and_assoc]

theorem terminate_eq (s : State) (ch : ChannelId) :
    s.terminate ch =
      let t := (s.send (.ioControl ch false 0b10000 0)).setChan ch (s.chan ch).topMarked
      if (s.chan ch).wantsWord && topActs ch (s.chan ch).topMarked then t.lastWordOut ch else t := rfl

/-- Which TOP acts (log 35). -/
theorem topActs_iff (ch : ChannelId) (c : Chan) :
    topActs ch c = true ↔
      c.topPending = true ∧ (c.ilcActive = false ∨ (extended ch c = true ∧ c.fc = 3)) := by
  simp only [topActs, Bool.or_eq_true, Bool.not_eq_true', Bool.and_eq_true, beq_iff_eq]

theorem topActs_topMarked (ch : ChannelId) (c : Chan) :
    topActs ch c.topMarked = true ↔ c.ilcActive = false ∨ (extended ch c = true ∧ c.fc = 3) :=
  (topActs_iff ch c.topMarked).trans (and_iff_right rfl)

/-- Settles O46: the mark alone where no word is wanted or the TOP does not act; else the end of the output, which
disconnects with no interlace and waits under function 11. -/
theorem terminateOutput : Obligations.TerminateOutput := by
  intro s ch i hi hch ha
  let told : State := s.send (.ioControl ch false 0b10000 0)
  have hexec : exec i s = .next (s.terminate ch).endEom := by
    fin_cases hi
    all_goals exact ioControl_top hch ha
  have acts (hu : (s.chan ch).uar ≠ 0) (ho : (s.chan ch).output = true) (hw : (s.chan ch).wordReady = true)
      (hl : (s.chan ch).lastWord = false)
      (hacts : (s.chan ch).ilcActive = false ∨ (extended ch (s.chan ch) = true ∧ (s.chan ch).fc = 3)) :
      s.terminate ch = (told.setChan ch (s.chan ch).topMarked).lastWordOut ch := by
    rw [terminate_eq]
    exact if_pos (Bool.and_eq_true_iff.2
      ⟨(s.chan ch).wantsWord_iff.2 ⟨hu, ho, hw, hl⟩, (topActs_topMarked ch _).2 hacts⟩)
  refine ⟨fun hmarks => ?marks, fun hu ho hw hl hoff => ?ends, fun hu ho hw hl hon hx hf => ?waits⟩
  case marks =>
    refine hexec.trans ?_
    rw [terminate_eq]
    dsimp only
    rw [if_neg]
    · rfl
    · rw [Bool.and_eq_true, Chan.wantsWord_iff, topActs_topMarked]
      rintro ⟨⟨hu, ho, hw, hl⟩, hacts⟩
      rcases hmarks with h | h | h | h | ⟨hon, h⟩
      · exact hu h
      · exact Bool.false_ne_true (h.symm.trans ho)
      · exact Bool.false_ne_true (h.symm.trans hw)
      · exact Bool.false_ne_true (hl.symm.trans h)
      · rcases hacts with hoff | ⟨hx, hf⟩
        · exact Bool.false_ne_true (hoff.symm.trans hon)
        · exact h.elim (fun hne => hne hf) fun hn => Bool.false_ne_true (hn.symm.trans hx)
  case ends =>
    have hlast : ((s.chan ch).ilcActive && extended ch (s.chan ch) && (s.chan ch).fc != 1) = false := by
      rw [hoff, Bool.false_and, Bool.false_and]
    have hdisconnects := lastWordOut_disconnects told ch (s.chan ch).topMarked hlast
    rw [signalOpen_setChan told ch (s.chan ch).topMarked .er rfl rfl rfl] at hdisconnects
    refine ⟨_, hexec.trans (congrArg (fun t => Host.Outcome.next (State.endEom t))
      ((acts hu ho hw hl (.inl hoff)).trans hdisconnects)), rfl, ?_, ?_, ?_, fun o ho => ?_, rfl⟩
    · exact congrArg Chan.uar (Channels.get_set_self _ ch _)
    · exact congrArg Chan.topPending (Channels.get_set_self _ ch _)
    · exact (congrArg Chan.error (Channels.get_set_self _ ch _)).trans rfl
    · exact Channels.get_set_ne _ _ ho
  case waits =>
    have hlast : ((s.chan ch).ilcActive && extended ch (s.chan ch) && (s.chan ch).fc != 1) = true := by
      rw [hon, hx, hf]
      rfl
    have hready : { (s.chan ch).topMarked with lastWord := true, wordReady := true } =
        { (s.chan ch).topMarked with lastWord := true } := by simp only [Chan.topMarked, hw]
    refine hexec.trans ?_
    rw [acts hu ho hw hl (.inr ⟨hx, hf⟩), lastWordOut_waits told ch (s.chan ch).topMarked hlast, hready]
    rfl

/-! ### ASC and the address a PIN reads -/

theorem ioControl_asc {s : State} {ch : ChannelId} (hch : s.hasChan ch = true) (ha : (s.chan ch).ilcAlert = false) :
    s.ioControl ch false 0b01000 0 = .next (s.ascAlert ch).endEom := by
  simp only [State.ioControl, hch, ha, Bool.not_true, Bool.false_eq_true, ne_eq, not_true, if_false, if_true]

theorem ascAlert_interlaced {s : State} {ch : ChannelId} (h : s.hasInterlace ch = true) :
    s.ascAlert ch = s.setChan ch { s.chan ch with ascAlert := true } := if_pos h

/-- The low fourteen bits of MAR, zeros above them. -/
theorem marWord_toNat (a : PAddr) : (0#10 ++ a.setWidth 14 : Word).toNat = a.toNat % 2 ^ 14 := by
  rw [append_toNat, BitVec.toNat_setWidth, BitVec.toNat_zero, Nat.zero_mul, Nat.zero_add]

/-- PIN with one channel alerted gives its address (48 R388). -/
theorem exec_pin_address {s : State} {r : Ref} {t : Addr} {ch : ChannelId} (h : s.ea r = .addr t)
    (ha : s.ascAlerted = [ch]) : exec (.pin r) s = .next ((s.write t (0#10 ++ (s.chan ch).mar.setWidth 14)).setChan ch
      { s.chan ch with ascAlert := false }).sequential := by
  refine (atEA_addr _ h : execPin r s = _).trans ?_
  simp only [ha]

/-- Settles O45: ASC sets the alert of an interlace, and the PIN stores what it finds in MAR. -/
theorem storeChannelAddress : Obligations.StoreChannelAddress := by
  intro s ch
  refine ⟨fun hch ha hint => ?asc, fun hch => ioControl_absent hch _ _ _, fun r t h ha => ?pin⟩
  case asc => exact (ioControl_asc hch ha).trans (by rw [ascAlert_interlaced hint]; rfl)
  case pin => exact ⟨_, _, _, exec_pin_address h ha, store_stored s (s.phys t) _, marWord_toNat _⟩

/-! ### Device commands and the System mode -/

/-- A word that names a unit goes to its device (48 R357). -/
theorem ioControl_device {s : State} {ch : ChannelId} (hch : s.hasChan ch = true) (ha : (s.chan ch).ilcAlert = false)
    (fn : BitVec 5) {unit : BitVec 6} (hu : unit ≠ 0) :
    s.ioControl ch false fn unit = .next (s.send (.ioControl ch false fn unit)).endEom := by
  simp only [State.ioControl, hch, ha, hu, Bool.not_true, Bool.false_eq_true, ne_eq, not_false_eq_true, if_false,
    if_true]

theorem exec_commands {ch : ChannelId} {n : BitVec 3} {f fn : BitVec 5} {u unit : BitVec 6} {i : Instr}
    (h : (i, fn, unit) ∈ commands ch n f u) (s : State) : exec i s = s.ioControl ch false fn unit := by
  fin_cases h
  all_goals rfl

/-- The subchannel is selected by the words of the select format (log 40). -/
theorem dmsOf_eq (k : SysFn) :
    dmsOf k = if k.b0 = false ∧ k.b1 = false ∧ k.b9 = true ∧ k.dest.getMsbD 0 = false ∧ k.dest.getMsbD 3 = false ∧
        k.dest.getMsbD 11 = false
      then some (k.dest.extractLsb' 0 8, k.dest.extractLsb' 9 2) else none := by
  simp only [dmsOf, Bool.and_eq_true, Bool.not_eq_true', and_assoc]

/-- A System-mode word that selects no subchannel leaves the selection as it was. -/
theorem syseom_select (s : State) (k : SysFn) :
    (let sel := if s.cfg.hasDms then dmsOf k else none
     if sel.isSome then sel else s.dmsSelect) =
      if s.cfg.hasDms = true ∧ k.b0 = false ∧ k.b1 = false ∧ k.b9 = true ∧ k.dest.getMsbD 0 = false ∧
          k.dest.getMsbD 3 = false ∧ k.dest.getMsbD 11 = false
      then some (k.dest.extractLsb' 0 8, k.dest.extractLsb' 9 2) else s.dmsSelect := by
  dsimp only
  rw [dmsOf_eq]
  cases s.cfg.hasDms with
  | false => simp
  | true =>
    simp only [if_true, true_and]
    split <;> simp

theorem exec_syseom (s : State) (k : SysFn) : exec (.syseom k) s = .next { s with
    out := .systemPulse k :: s.out, noIntNext := true, p := s.advanced 1, cState := .none
    dmsSelect := if s.cfg.hasDms = true ∧ k.b0 = false ∧ k.b1 = false ∧ k.b9 = true ∧ k.dest.getMsbD 0 = false ∧
        k.dest.getMsbD 3 = false ∧ k.dest.getMsbD 11 = false
      then some (k.dest.extractLsb' 0 8, k.dest.extractLsb' 9 2) else s.dmsSelect } :=
  congrArg (fun sel => Host.Outcome.next (State.endEom { s.send (.systemPulse k) with dmsSelect := sel }))
    (syseom_select s k)

/-- Settles O47: a command is the Input/Output Control word of its function bits and unit, which the channel's alert
makes an interlace-control word. -/
theorem deviceCommands : Obligations.DeviceCommands := by
  intro s ch n f fn u unit i hi hu
  have hexec := exec_commands hi s
  refine ⟨fun hch => hexec.trans (ioControl_absent hch _ _ _),
    fun hch ha => hexec.trans (ioControl_device hch ha fn hu), fun hch ha => ?alerted, exec_syseom s⟩
  case alerted =>
    rw [hexec, ioControl_alerted hch ha]
    refine ((ioControl_alerted hch ha _ _).trans ?_).symm
    rw [ilcOf_encoded]
    rfl

end Sys2Proof.Machine
end

section
/-! PROOFS. The channel tests, the System Test and the device tests (48_io_instructions R374 to R379, R384 to R387,
R391, R395), the single-word transfers (R380 to R383), and PIN and POT with an external device or a subchannel (R388, R389,
49_io_devices R500). -/

namespace Sys2Proof.Machine

open Sys2Proof

/-! ### Channel tests -/

/-- On an installed channel a test skips by the channel's own indicator. -/
theorem skipsWhen_channelTest {s : State} {i : Instr} {ch : ChannelId} {fn : BitVec 5} {b : Bool} {cond : Prop}
    (hexec : exec i s = s.channelTest ch fn b) (hch : s.hasChan ch = true) (hb : b = true ↔ cond) :
    SkipsWhen s i cond :=
  skipsWhen_of_skipIf (b := b) (hexec.trans (by rw [State.channelTest, if_pos hch])) hb

theorem deviceSet_eq_false_iff (s : State) (ch : ChannelId) (fn : BitVec 5) (unit : BitVec 6) :
    (!s.deviceSet ch fn unit) = true ↔ (ch, fn, unit) ∉ s.lines.deviceSignals := by
  simp [State.deviceSet]

/-- The host answers the tests of a channel that is not installed (48 R395). -/
theorem skipsWhen_hostTest {s : State} {i : Instr} {ch : ChannelId} {fn : BitVec 5} {b : Bool}
    (hexec : exec i s = s.channelTest ch fn b) (hch : s.hasChan ch = false) :
    SkipsWhen s i ((ch, fn, (0 : BitVec 6)) ∉ s.lines.deviceSignals) :=
  skipsWhen_of_skipIf (hexec.trans (by rw [State.channelTest, hch, if_neg Bool.false_ne_true]))
    (deviceSet_eq_false_iff s ch fn 0)

theorem skipsWhen_czt {s : State} {ch : ChannelId} (hch : s.hasChan ch = true) (hint : s.hasInterlace ch = true) :
    SkipsWhen s (.czt ch) ((s.chan ch).zeroCount = true) :=
  skipsWhen_channelTest rfl hch (by rw [if_pos hint])

/-- The host answers CZT for a channel without interlace (log 39). -/
theorem skipsWhen_czt_absent {s : State} {ch : ChannelId} (hch : s.hasChan ch = true)
    (hint : s.hasInterlace ch = false) :
    SkipsWhen s (.czt ch) ((ch, (0b01000 : BitVec 5), (0 : BitVec 6)) ∉ s.lines.deviceSignals) :=
  skipsWhen_channelTest rfl hch (by rw [hint, if_neg Bool.false_ne_true, deviceSet_eq_false_iff])

theorem skipsWhen_syssks (s : State) (k : SysFn) : SkipsWhen s (.syssks k) (k ∉ s.lines.systemSignals) :=
  skipsWhen_of_skipIf (b := !s.lines.systemSignals.contains k) rfl (by simp)

/-- Settles O48: every test is one of the channel's own indicator where the channel is installed, and the host's where
it is not. -/
theorem channelTests : Obligations.ChannelTests := by
  intro s ch host
  have active (c : Chan) : (c.uar == 0) = true ↔ c.uar = 0 := beq_iff_eq
  have error (c : Chan) : (!c.error) = true ↔ c.error = false := (Bool.not_eq_true' _).to_iff
  refine ⟨fun hch => ⟨?_, ?_, ?_, skipsWhen_czt hch, skipsWhen_czt_absent hch⟩, fun hch => ⟨?_, ?_, ?_, ?_⟩,
    fun hw => ⟨?_, ?_⟩, fun hw => ⟨?_, ?_⟩, fun hy => ⟨?_, ?_⟩, fun hy => ⟨?_, ?_⟩, skipsWhen_syssks s⟩
  · exact skipsWhen_channelTest rfl hch (active _)
  · exact skipsWhen_channelTest rfl hch (error _)
  · exact skipsWhen_channelTest rfl hch Iff.rfl
  iterate 4 exact skipsWhen_hostTest rfl hch
  · exact skipsWhen_channelTest rfl hw (active _)
  · exact skipsWhen_channelTest rfl hw (error _)
  iterate 2 exact skipsWhen_hostTest rfl hw
  · exact skipsWhen_channelTest rfl hy (active _)
  · exact skipsWhen_channelTest rfl hy (error _)
  iterate 2 exact skipsWhen_hostTest rfl hy

/-! ### Device tests -/

/-- The tape tests with an answer of their own for an absent unit: their function bits (49 R455 to R458). -/
def ownAnswer (fn : BitVec 5) : Bool := fn == 0b00010 || fn == 0b10000 || fn == 0b01000 || fn == 0b00100

theorem deviceTest_eq (s : State) (ch : ChannelId) (fn : BitVec 5) (unit : BitVec 6) :
    s.deviceTest ch fn unit = .next (s.skipIf
      (if s.hasChan ch && unit.extractLsb' 3 3 == 1 && !s.attached ch unit && ownAnswer fn then fn == 0b00010
       else !s.deviceSet ch fn unit)) := rfl

/-- The host answers where the unit is attached, the channel not installed, the device no tape unit or the test none of
the four. -/
theorem skipsWhen_deviceTest {s : State} {i : Instr} {ch : ChannelId} {fn : BitVec 5} {unit : BitVec 6}
    (hexec : exec i s = s.deviceTest ch fn unit)
    (h : s.attached ch unit = true ∨ s.hasChan ch = false ∨ (unit.extractLsb' 3 3 == 1 && ownAnswer fn) = false) :
    SkipsWhen s i ((ch, fn, unit) ∉ s.lines.deviceSignals) := by
  refine skipsWhen_of_skipIf (hexec.trans ?_) (deviceSet_eq_false_iff s ch fn unit)
  rw [deviceTest_eq, if_neg]
  rcases h with h | h | h
  · simp [h]
  · simp [h]
  · rw [Bool.and_eq_true, Bool.and_eq_true, Bool.and_eq_true]
    rintro ⟨⟨⟨-, htape⟩, -⟩, hown⟩
    rw [htape, hown] at h
    exact nomatch h

theorem tapeUnit : ∀ n : BitVec 3, ((0b001#3 ++ n : BitVec 6).extractLsb' 3 3 == 1) = true := by decide

/-- The tape tests answer themselves for an absent unit. -/
theorem skipsWhen_tapeTest {s : State} {i : Instr} {ch : ChannelId} {fn : BitVec 5} {n : BitVec 3} {absent : Bool}
    (hexec : exec i s = s.deviceTest ch fn (0b001#3 ++ n)) (hfn : ownAnswer fn = true) (ha : (fn == 0b00010) = absent)
    (hunit : s.attached ch (0b001#3 ++ n) = false) (hch : s.hasChan ch = true) : SkipsWhen s i (absent = true) := by
  refine skipsWhen_of_skipIf (b := fn == 0b00010) (hexec.trans ?_) (by rw [ha])
  rw [deviceTest_eq, hch, tapeUnit n, hunit, hfn]
  rfl

theorem exec_deviceTests {ch : ChannelId} {n : BitVec 3} {i : Instr} {fn : BitVec 5} {unit : BitVec 6}
    (h : (i, fn, unit) ∈ deviceTests ch n) (s : State) : exec i s = s.deviceTest ch fn unit := by
  fin_cases h
  all_goals rfl

/-- None of them is one of the four tests with an answer of their own. -/
theorem deviceTests_plain {ch : ChannelId} {n : BitVec 3} {i : Instr} {fn : BitVec 5} {unit : BitVec 6}
    (h : (i, fn, unit) ∈ deviceTests ch n) : (unit.extractLsb' 3 3 == 1 && ownAnswer fn) = false := by
  fin_cases h
  all_goals first | rfl | exact Bool.and_false _

theorem exec_tapeTests {ch : ChannelId} {n : BitVec 3} {i : Instr} {fn : BitVec 5} {absent : Bool}
    (h : (i, fn, absent) ∈ tapeTests ch n) (s : State) : exec i s = s.deviceTest ch fn (0b001#3 ++ n) := by
  fin_cases h
  all_goals rfl

theorem tapeTests_own {ch : ChannelId} {n : BitVec 3} {i : Instr} {fn : BitVec 5} {absent : Bool}
    (h : (i, fn, absent) ∈ tapeTests ch n) : ownAnswer fn = true ∧ (fn == 0b00010) = absent := by
  fin_cases h
  all_goals exact ⟨rfl, rfl⟩

/-- Settles O49: each test is the Device Test of its function bits and unit; the four of a tape unit answer themselves
where that unit is absent. -/
theorem deviceTests_holds : Obligations.DeviceTests := by
  intro s ch n
  refine ⟨fun i fn unit h => ?device, fun i fn absent h => ⟨fun hhost => ?host, fun hunit hch => ?own⟩,
    fun fn unit hhost => ?general⟩
  case device => exact skipsWhen_deviceTest (exec_deviceTests h s) (.inr (.inr (deviceTests_plain h)))
  case host => exact skipsWhen_deviceTest (exec_tapeTests h s) (hhost.imp_right .inl)
  case own => exact skipsWhen_tapeTest (exec_tapeTests h s) (tapeTests_own h).1 (tapeTests_own h).2 hunit hch
  case general => exact skipsWhen_deviceTest rfl (hhost.imp_right .inl)

/-! ### Single-word transfers -/

section SingleWord

variable {s : State} {r : Ref} {t : Addr} (h : s.ea r = .addr t) (code : BitVec 6) (ch : ChannelId)

include h

theorem memoryIntoBuffer_ready (ho : (s.chan ch).output = true) (hw : (s.chan ch).wordReady = true)
    (hu : (s.chan ch).uar ≠ 0) : s.memoryIntoBuffer code ch r = .next
      (s.setChan ch { s.chan ch with war := s.read t, wordReady := false, charCount := 0 }).sequential := by
  refine (atEA_addr _ h).trans (if_pos ?_)
  rw [ho, hw, Bool.true_and, Bool.true_and]
  exact bne_iff_ne.2 hu

theorem memoryIntoBuffer_waits
    (hnot : (s.chan ch).output = false ∨ (s.chan ch).wordReady = false ∨ (s.chan ch).uar = 0) :
    s.memoryIntoBuffer code ch r = .next (s.holdAt code t) := by
  refine (atEA_addr _ h).trans (if_neg ?_)
  rcases hnot with hnot | hnot | hnot <;> simp [hnot]

theorem bufferIntoMemory_ready (ho : (s.chan ch).output = false) (hw : (s.chan ch).wordReady = true) :
    s.bufferIntoMemory code ch r = .next (((s.write t (keepLow (s.chan ch).fullBits (s.chan ch).war s.freeWord)).draw
      1).setChan ch { s.chan ch with wordReady := false }).sequential := by
  refine (atEA_addr _ h).trans (if_pos ?_)
  rw [ho, hw]
  rfl

theorem bufferIntoMemory_waits (hnot : (s.chan ch).output = true ∨ (s.chan ch).wordReady = false) :
    s.bufferIntoMemory code ch r = .next (s.holdAt code t) := by
  refine (atEA_addr _ h).trans (if_neg ?_)
  rcases hnot with hnot | hnot <;> simp [hnot]

end SingleWord

/-- Settles O50: the four instructions are the two transfers of channels W and Y, each complete on a buffer that is
ready and held on one that is not. -/
theorem singleWordTransfers : Obligations.SingleWordTransfers := by
  intro s r t h
  refine ⟨fun i code ch hi => ?load, fun i code ch hi => ?store⟩
  case load =>
    have hexec : exec i s = s.memoryIntoBuffer code ch r := by
      fin_cases hi
      all_goals rfl
    rw [hexec]
    exact ⟨memoryIntoBuffer_ready h code ch, memoryIntoBuffer_waits h code ch⟩
  case store =>
    have hexec : exec i s = s.bufferIntoMemory code ch r := by
      fin_cases hi
      all_goals rfl
    rw [hexec]
    exact ⟨fun ho hw => ⟨_, _, _, bufferIntoMemory_ready h code ch ho hw, store_stored s (s.phys t) _,
      toNat_keepLow_mod _ _ _⟩, bufferIntoMemory_waits h code ch⟩

/-! ### PIN and POT without a channel -/

/-- The request goes out as the instruction begins (log 48). -/
theorem request_eq (s : State) (m : Message) :
    s.request m = { s with out := if s.cState = .waiting then s.out else m :: s.out } := by
  unfold State.request
  split <;> rfl

section Device

variable {s : State} {r : Ref} {t : Addr} (h : s.ea r = .addr t)

include h

/-- PIN with no channel alerted asks the external device, and takes its word when it is ready. -/
theorem exec_pin_ready {v : Word} (ha : s.ascAlerted = []) (hv : s.lines.pinReady = some v) :
    exec (.pin r) s = .next { (s.request .pinRequest).write t v with
      lines := { s.lines with pinReady := none } }.sequential := by
  refine (atEA_addr _ h : execPin r s = _).trans ?_
  simp only [ha, hv]

theorem exec_pin_waits (ha : s.ascAlerted = []) (hv : s.lines.pinReady = none) :
    exec (.pin r) s = .next ((s.request .pinRequest).holdAt 0o33 t) := by
  refine (atEA_addr _ h : execPin r s = _).trans ?_
  simp only [ha, hv]

/-- POT with no alert outstanding goes to the selected subchannel (48 R389, D36). -/
theorem exec_pot_subchannel {n : BitVec 8} {c : BitVec 2} (hair : s.airAlert = false) (ha : s.ilcAlerted = [])
    (hd : s.dmsSelect = some (n, c)) :
    exec (.pot r) s = .next { s.send (.dmsOut n c (s.operand t)) with dmsSelect := none }.sequential := by
  have one : ¬ 1 < s.potAlerts := by simp [State.potAlerts, hair, ha, hd]
  refine (atEA_addr _ h : execPot r s = _).trans ?_
  simp only [one, hair, ha, hd, Bool.false_eq_true, if_false]

/-- With none selected it goes to the external device, when that is ready. -/
theorem exec_pot_device (hair : s.airAlert = false) (ha : s.ilcAlerted = []) (hd : s.dmsSelect = none) :
    exec (.pot r) s =
      let u := s.request .potRequest
      if s.lines.potReady then
        .next { u.send (.potOut (s.operand t)) with lines := { s.lines with potReady := false } }.sequential
      else .next { u.holdAt 0o13 t with m := s.operand t } := by
  have one : ¬ 1 < s.potAlerts := by simp [State.potAlerts, hair, ha, hd]
  refine (atEA_addr _ h : execPot r s = _).trans ?_
  simp only [one, hair, ha, hd, Bool.false_eq_true, if_false]

end Device

/-- Settles O51: by what the external device presents, and by the subchannel selected. -/
theorem parallelTransfers : Obligations.ParallelTransfers := by
  intro s r t h
  refine ⟨fun v ha hv => ?pin, fun ha hv => ?pinWaits, fun hair ha hd hp => ?pot, fun hair ha hd hp => ?potWaits,
    fun n c hair ha hd => exec_pot_subchannel h hair ha hd⟩
  case pin =>
    refine ⟨_, _, ?_, store_stored s (s.phys t) v⟩
    rw [exec_pin_ready h ha hv, request_eq]
    rfl
  case pinWaits =>
    rw [exec_pin_waits h ha hv, request_eq]
    rfl
  case pot =>
    rw [exec_pot_device h hair ha hd, if_pos hp, request_eq]
    rfl
  case potWaits =>
    rw [exec_pot_device h hair ha hd, if_neg (Bool.eq_false_iff.1 hp), request_eq]
    rfl

end Sys2Proof.Machine
end

section
/-! PROOFS. The general forms of EOM, EOD and SKS, mode by mode (48_io_instructions R351 to R354, R374, R390 to
R395). -/

namespace Sys2Proof.Machine

open Sys2Proof

/-! ### EOM and EOD -/

/-- The Buffer Control fields of a general word are those of the connect. -/
theorem exec_bufferControl_mode {f : IoFn} (hi : Bool) (s : State) (hm : f.mode = 0) :
    exec (if hi then .eod f else .eom f) s =
      s.bufferControl (ChannelId.ofBits hi f.b1 (f.fn.getMsbD 5)) (connOf f) := by
  cases hi
  · simp [exec, execEom, hm, eomChannel]
  · simp [exec, execEod, hm, eomChannel]

/-- A connect always completes. -/
theorem bufferControl_next (s : State) (ch : ChannelId) (k : Conn) : ∃ t, s.bufferControl ch k = .next t := ⟨_, rfl⟩

/-- A word with bit 9 one and a unit goes to the device with that bit (log 70). -/
theorem ioControl_b9_device {s : State} {ch : ChannelId} (hch : s.hasChan ch = true) (fn : BitVec 5) {unit : BitVec 6}
    (hu : unit ≠ 0) : s.ioControl ch true fn unit = .next (s.send (.ioControl ch true fn unit)).endEom := by
  simp only [State.ioControl, hch, hu, Bool.not_true, Bool.false_eq_true, ne_eq, not_false_eq_true, if_false, if_true]

theorem isAlcFn_iff (f : IoFn) : isAlcFn f = true ↔ f.fn5 = 0 ∧ f.unit = 0 := by
  simp [isAlcFn]

/-- Internal Control: the EOM of an assigned code is the instruction of its row (48 R393). -/
theorem exec_eom_internal {f : IoFn} {s : State} {n : Nat} {i : Instr} (hm : f.mode = 2) (h1 : f.b1 = false)
    (h9 : f.b9 = false)
    (hi : (n, i) ∈ [(1, Instr.rov), (2, .eir), (4, .dir), (8, .reo), (16, .air), (64, .rtcarm), (128, .rtcdisarm)])
    (hfn : f.fn.toNat = n) : exec (.eom f) s = exec i s := by
  simp only [exec, execEom, hm, h1, h9]
  fin_cases hi
  all_goals rw [hfn]; rfl

theorem exec_eod_internal {f : IoFn} {s : State} (hm : f.mode = 2) (h1 : f.b1 = false) (h9 : f.b9 = false)
    (h : f.fn.extractLsb' 8 4 = 0) : exec (.eod f) s = exec
      (.setext (f.fn.getMsbD 4) (f.fn.getMsbD 5) (f.fn.extractLsb' 3 3) (f.fn.extractLsb' 0 3)) s := by
  simp [exec, execEod, hm, h1, h9, h]

theorem exec_eom_system {f : IoFn} {s : State} (hm : f.mode = 3) :
    exec (.eom f) s = exec (.syseom ⟨false, f.b1, f.b9, f.fn⟩) s := by
  simp only [exec, execEom, hm]
  rfl

/-! ### SKS -/

theorem exec_sks_internal {f : IoFn} {s : State} (hm : f.mode = 2) : exec (.sks f) s = s.internalTest f := by
  simp only [exec, execSks, hm]
  rfl

/-- An Internal Test of one assigned code is the test of its row (48 R394). -/
theorem internalTest_single {f : IoFn} {s : State} {n : Nat} {i : Instr} (h1 : f.b1 = false) (h9 : f.b9 = false)
    (hi : (n, i) ∈ [(1, Instr.ovt), (2, .idt), (4, .iet), (8, .betw), (16, .bety), (512, .brtw), (1024, .brty),
      (2048, .pfst)]) (hfn : f.fn.toNat = n) : s.internalTest f = exec i s := by
  rw [State.internalTest, h1, h9, Bool.or_false, if_neg Bool.false_ne_true]
  fin_cases hi
  all_goals rw [hfn]; rfl

/-- So is a BREAKPOINT TEST of one switch (47_control R313). -/
theorem exec_sks_breakpoint {f : IoFn} {s : State} {n : Nat} {i : Instr} (hm : f.mode = 2) (h1 : f.b1 = false)
    (h9 : f.b9 = false) (hi : (n, i) ∈ [(32, Instr.bpt4), (64, .bpt3), (128, .bpt2), (256, .bpt1)])
    (hfn : f.fn.toNat = n) : exec (.sks f) s = exec i s := by
  obtain ⟨b1, b9, mode, fn⟩ := f
  obtain rfl : fn = BitVec.ofNat 12 n := by rw [← hfn, BitVec.ofNat_toNat, BitVec.setWidth_eq]
  obtain ⟨rfl, rfl, rfl⟩ : b1 = false ∧ b9 = false ∧ mode = 2 := ⟨h1, h9, hm⟩
  fin_cases hi
  all_goals
    rw [exec_sks_breakpoints s (by decide) (by decide)]
    simp [State.breakpointTest, exec, execBpt1, execBpt2, execBpt3, execBpt4]

/-- The twelve Internal Tests, one code each (48 R394). -/
theorem exec_sks_single {f : IoFn} {s : State} {n : Nat} {i : Instr} (hm : f.mode = 2) (h1 : f.b1 = false)
    (h9 : f.b9 = false) (hi : (n, i) ∈ [(1, Instr.ovt), (2, .idt), (4, .iet), (8, .betw), (16, .bety), (32, .bpt4),
      (64, .bpt3), (128, .bpt2), (256, .bpt1), (512, .brtw), (1024, .brty), (2048, .pfst)])
    (hfn : f.fn.toNat = n) : exec (.sks f) s = exec i s := by
  by_cases hbreakpoint : (n, i) ∈ [(32, Instr.bpt4), (64, .bpt3), (128, .bpt2), (256, .bpt1)]
  · exact exec_sks_breakpoint hm h1 h9 hbreakpoint hfn
  · refine (exec_sks_internal hm).trans (internalTest_single h1 h9 ?_ hfn)
    simp only [List.mem_cons, List.not_mem_nil, or_false] at hi hbreakpoint ⊢
    tauto

/-- A Device Test, which names a unit (48 R379). -/
theorem exec_sks_device {f : IoFn} {s : State} (hm : f.mode = 1) (hu : f.unit ≠ 0) : exec (.sks f) s =
    exec (.devtest (ChannelId.ofBits f.b9 f.b1 (f.fn.getMsbD 5)) f.fn5 f.unit) s := by
  simp only [exec, execSks, hm]
  exact if_pos hu

/-- A Channel Test of one assigned code (48 R374). -/
theorem exec_sks_channel {f : IoFn} {s : State} {ch : ChannelId} {n : Nat} {i : Instr} (hm : f.mode = 1)
    (hu : f.unit = 0) (hch : ChannelId.ofBits f.b9 f.b1 (f.fn.getMsbD 5) = ch)
    (hi : (n, i) ∈ [(0b10000, Instr.cat ch), (0b01000, .czt ch), (0b00100, .cet ch), (0b00010, .cit ch)])
    (hfn : f.fn5.toNat = n) : exec (.sks f) s = exec i s := by
  subst hch
  simp only [exec, execSks, hm]
  rw [if_neg (not_not.2 hu)]
  fin_cases hi
  all_goals rw [hfn]; rfl

theorem exec_sks_extension {f : IoFn} {s : State} (hm : f.mode = 0) (h9 : f.b9 = true) (h1 : f.b1 = false)
    (h : f.fn.extractLsb' 2 10 = 0) :
    exec (.sks f) s = exec (.exttest (f.fn.getMsbD 10) (f.fn.getMsbD 11)) s := by
  simp [exec, execSks, hm, h9, h1, h]

theorem skipsWhen_sks_special {f : IoFn} {s : State} (hm : f.mode = 0) (h9 : f.b9 = false)
    (h : s.cfg.hasSpecialSignals = true) : SkipsWhen s (.sks f) (f ∉ s.lines.specialSignals) := by
  refine skipsWhen_of_skipIf (b := !s.lines.specialSignals.contains f) ?_ (by simp)
  simp only [exec, execSks, hm, h9, h]
  rfl

theorem skipsWhen_sks_system {f : IoFn} {s : State} (hm : f.mode = 3) :
    SkipsWhen s (.sks f) (SysFn.mk false f.b1 f.b9 f.fn ∉ s.lines.systemSignals) := by
  have hexec : exec (.sks f) s = exec (.syssks ⟨false, f.b1, f.b9, f.fn⟩) s := by
    simp only [exec, execSks, hm]
    rfl
  unfold SkipsWhen
  rw [hexec]
  exact skipsWhen_syssks s _

/-! ### The statement -/

/-- Settles O52: by the mode; each general form is the instruction of the row its fields name. -/
theorem generalForms : Obligations.GeneralForms := by
  intro s f ch tested k
  refine ⟨fun hm => ⟨exec_bufferControl_mode false s hm, exec_bufferControl_mode true s hm, ?eom, ?eod⟩,
    fun hm hi i hform => ?ioControl,
    fun hm h1 h9 => ⟨fun n i => exec_eom_internal hm h1 h9, exec_eod_internal hm h1 h9,
      fun n i => exec_sks_single hm h1 h9⟩,
    fun hm => ⟨exec_eom_system hm, skipsWhen_sks_system hm⟩,
    fun hm => ⟨exec_sks_device hm, fun hu n i => exec_sks_channel hm hu rfl⟩,
    exec_sks_extension, skipsWhen_sks_special⟩
  case eom =>
    rw [show exec (.eom f) s = _ from exec_bufferControl_mode false s hm]
    exact bufferControl_next s _ _
  case eod =>
    rw [show exec (.eod f) s = _ from exec_bufferControl_mode true s hm]
    exact bufferControl_next s _ _
  case ioControl =>
    have hexec : exec i s = s.ioControl (ch hi) f.b9 f.fn5 f.unit := by
      rw [hform]
      exact exec_ioControl_mode hi s (congrArg BitVec.toNat hm)
    rw [hexec]
    refine ⟨fun hch => ioControl_absent hch _ _ _, fun h9 halc => ?alc, fun h9 hu hch => ?b9, fun h9 hu => ?device,
      fun h9 hu hfn => ?asc, fun h9 hu hfn => ?top⟩
    case alc =>
      obtain ⟨hfn, hu⟩ := (isAlcFn_iff f).1 halc
      rw [h9, hfn, hu]
      rfl
    case b9 =>
      rw [h9, ioControl_b9_device hch _ hu]
      rfl
    case device => rw [h9]; rfl
    case asc => rw [h9, hu, hfn]; rfl
    case top => rw [h9, hu, hfn]; rfl

end Sys2Proof.Machine
end

section
/-! PROOFS. The characters of a transfer (48_io_instructions R363, R364, R372): one character on input, with and without
a running interlace, and one on output, with what follows the last character of a word (R365 to R371). -/

namespace Sys2Proof.Machine

open Sys2Proof

/-! ### Device events -/

/-- A device event that a host may make (48 R397). -/
theorem deviceEvent_next {s : State} {ch : ChannelId} {ok : Bool} (hp : s.power = .on) (hch : s.hasChan ch = true)
    (hl : (s.chan ch).loadDue = false) (hok : ok = true) (k : State) : s.deviceEvent ch ok k = .next k := by
  simp [State.deviceEvent, State.poweredEvent, hp, hch, hl, hok]

theorem applyEvent_charIn {s : State} {ch : ChannelId} {size : CharSize} (hp : s.power = .on)
    (hch : s.hasChan ch = true) (hl : (s.chan ch).loadDue = false) (hu : (s.chan ch).uar ≠ 0)
    (ho : (s.chan ch).output = false) (hf : s.sizeFits ch size = true) (v : Word) (ok : Bool) :
    applyEvent (.charIn ch size v ok) s = .next (s.charIn ch size v ok) :=
  deviceEvent_next hp hch hl (by rw [ho, hf, bne_iff_ne.2 hu]; rfl) _

theorem applyEvent_charReq {s : State} {ch : ChannelId} {size : CharSize} (hp : s.power = .on)
    (hch : s.hasChan ch = true) (hl : (s.chan ch).loadDue = false) (hu : (s.chan ch).uar ≠ 0)
    (ho : (s.chan ch).output = true) (hf : s.sizeFits ch size = true) :
    applyEvent (.charReq ch size) s = .next (s.charReq ch size) :=
  deviceEvent_next hp hch hl (by rw [ho, hf, bne_iff_ne.2 hu]; rfl) _

/-! ### A character on input -/

/-- The channel with one more character in WAR (48 R363). -/
def Chan.shifted (ch : ChannelId) (c : Chan) (size : CharSize) (v : Word) (ok : Bool) : Chan :=
  { c with
    error := c.error || !ok, size := size, scr := if isDirect ch then c.scr else keepLow size.bits v 0
    war := shiftIn size.bits c.war v, recBits := min 24 (c.recBits + size.bits) }

section CharIn

variable {s : State} {ch : ChannelId} (size : CharSize) (v : Word) (ok : Bool)

/-- While a full word waits a character is a rate error (48 R372; log 12). -/
theorem charIn_rateError (hw : (s.chan ch).wordReady = true) :
    s.charIn ch size v ok = (s.setChan ch { s.chan ch with
      size := size, scr := if isDirect ch then (s.chan ch).scr else keepLow size.bits v 0, error := true
      garbled := true, fullBits := 0, war := s.freeWord
      ior := if isDirect ch then Config.freeWord (s.draws + 1) else (s.chan ch).ior }).draw 2 := by
  unfold State.charIn
  exact if_pos hw

theorem charIn_shifts (hw : (s.chan ch).wordReady = false) :
    s.charIn ch size v ok =
      let c := Chan.shifted ch (s.chan ch) size v ok
      if (s.chan ch).scan then s.setChan ch { c with charCount := min 4 ((s.chan ch).charCount + 1) }
      else if (s.chan ch).cpw.toNat ≤ (s.chan ch).charCount then
        (s.setChan ch { c with charCount := 0 }).wordAssembled ch ((s.chan ch).wordBits size)
      else s.setChan ch { c with charCount := (s.chan ch).charCount + 1 } := by
  unfold State.charIn
  exact if_neg (Bool.eq_false_iff.1 hw)

theorem charIn_scans (hw : (s.chan ch).wordReady = false) (hs : (s.chan ch).scan = true) :
    s.charIn ch size v ok = s.setChan ch { Chan.shifted ch (s.chan ch) size v ok with
      charCount := min 4 ((s.chan ch).charCount + 1) } :=
  (charIn_shifts size v ok hw).trans (if_pos hs)

theorem charIn_more (hw : (s.chan ch).wordReady = false) (hs : (s.chan ch).scan = false)
    (hc : (s.chan ch).charCount < (s.chan ch).cpw.toNat) :
    s.charIn ch size v ok = s.setChan ch { Chan.shifted ch (s.chan ch) size v ok with
      charCount := (s.chan ch).charCount + 1 } :=
  (charIn_shifts size v ok hw).trans ((if_neg (Bool.eq_false_iff.1 hs)).trans (if_neg (Nat.not_le.2 hc)))

/-- The last character of a word. -/
theorem charIn_last (hw : (s.chan ch).wordReady = false) (hs : (s.chan ch).scan = false)
    (hc : (s.chan ch).charCount = (s.chan ch).cpw.toNat) (hg : (s.chan ch).garbled = false) :
    s.charIn ch size v ok =
      (s.setChan ch { Chan.shifted ch (s.chan ch) size v ok with charCount := 0 }).wordAssembled ch
        (min 24 (size.bits * ((s.chan ch).cpw.toNat + 1))) := by
  have hbits : (s.chan ch).wordBits size = min 24 (size.bits * ((s.chan ch).cpw.toNat + 1)) := by
    rw [Chan.wordBits, hg, if_neg Bool.false_ne_true]
  rw [← hbits]
  exact (charIn_shifts size v ok hw).trans ((if_neg (Bool.eq_false_iff.1 hs)).trans (if_pos (Nat.le_of_eq hc.symm)))

end CharIn

/-- A word assembled with no interlace running: it waits in the buffer with the End-of-Word signal. -/
theorem wordAssembled_ready (s : State) (ch : ChannelId) {k : Chan} (n : Nat) (ha : k.ilcActive = false)
    (hi : k.ia = (s.chan ch).ia) (hz : k.zcArm = (s.chan ch).zcArm) (he : k.erArm = (s.chan ch).erArm)
    (h : isDirect ch = false ∨ k.iorFull = true) :
    (s.setChan ch k).wordAssembled ch n = { s with
      chans := s.chans.set ch { k with wordReady := true, fullBits := n }
      waiting := if s.signalOpen ch .zc then s.requested (zcLevel ch) else s.waiting } := by
  rw [wordAssembled_signals s ch k n ha, keepWord_waits s ch k n h]
  exact chanInt_setChan s ch _ .zc hi hz he

/-- On a direct access channel it goes to IOR while that is free, with the same signal. -/
theorem wordAssembled_slack (s : State) (ch : ChannelId) {k : Chan} (n : Nat) (ha : k.ilcActive = false)
    (hi : k.ia = (s.chan ch).ia) (hz : k.zcArm = (s.chan ch).zcArm) (he : k.erArm = (s.chan ch).erArm)
    (hd : isDirect ch = true) (hf : k.iorFull = false) :
    (s.setChan ch k).wordAssembled ch n = { s with
      chans := s.chans.set ch { k with ior := keepLow n k.war s.freeWord, iorFull := true }
      waiting := if s.signalOpen ch .zc then s.requested (zcLevel ch) else s.waiting, draws := s.draws + 1 } := by
  rw [wordAssembled_signals s ch k n ha, keepWord_slack s ch k n hd hf]
  exact chanInt_setChan (s.draw 1) ch _ .zc hi hz he

/-- Settles O54: by whether a word waits, a scan runs, and the character is the last of its word. -/
theorem inputCharacter : Obligations.InputCharacter := by
  intro s ch size v ok hp hch hl hu ho hf full
  have hexec := applyEvent_charIn hp hch hl hu ho hf v ok
  refine ⟨(Chan.shifted ch (s.chan ch) size v ok).scr, (Chan.shifted ch (s.chan ch) size v ok).war,
    (Chan.shifted ch (s.chan ch) size v ok).recBits, toNat_shiftIn _ _ _, fun hd => ?scr, fun hd => if_pos hd,
    fun hw hs hc => ?more, fun hw hs => ?scan, fun hw hs hc ha hg => ⟨fun hd => ?ready, fun hd hi => ?slack⟩,
    fun hw => ?rateError⟩
  case scr =>
    rw [Chan.shifted, hd, if_neg Bool.false_ne_true]
    exact toNat_keepLow_zero _ _
  case more =>
    rw [hexec, charIn_more size v ok hw hs hc]
    rfl
  case scan =>
    refine ⟨min 4 ((s.chan ch).charCount + 1), ?_⟩
    rw [hexec, charIn_scans size v ok hw hs]
    rfl
  case ready =>
    rw [hexec, charIn_last size v ok hw hs hc hg]
    exact congrArg Host.Outcome.next (wordAssembled_ready s ch full ha rfl rfl rfl hd)
  case slack =>
    refine ⟨_, toNat_keepLow_mod full _ s.freeWord, ?_⟩
    rw [hexec, charIn_last size v ok hw hs hc hg]
    exact congrArg Host.Outcome.next (wordAssembled_slack s ch full ha rfl rfl rfl hd hi)
  case rateError =>
    refine ⟨_, _, _, hexec.trans (by rw [charIn_rateError size v ok hw]; rfl), fun hd => ?_⟩
    rw [hd, if_neg Bool.false_ne_true]

/-- Settles O55: the last character of a word makes it complete, and the interlace stores it, drops it or holds it by
the count and the function. -/
theorem interlaceInput : Obligations.InterlaceInput := by
  intro s ch size v ok hp hch hl hu ho hf hw hs hg hc ha full
  have hexec := applyEvent_charIn hp hch hl hu ho hf v ok
  rw [charIn_last size v ok hw hs hc hg] at hexec
  let k : Chan := { Chan.shifted ch (s.chan ch) size v ok with charCount := 0 }
  refine ⟨k.scr, k.war, keepLow full k.war s.freeWord, k.recBits, toNat_shiftIn _ _ _, toNat_keepLow_mod full _ _,
    fun h0 => ?stores, fun h0 hfc => ?drops, fun h0 hfc hd => ?holds, fun h0 hfc hd hi => ?slack⟩
  case stores =>
    refine ⟨_, storeWord_moved (s.draw 1) ch k _, hexec.trans (congrArg Host.Outcome.next ?_)⟩
    exact wordAssembled_stores s ch k full ha h0
  case drops => exact hexec.trans (congrArg Host.Outcome.next (wordAssembled_drops s ch k full ha h0 hfc))
  case holds =>
    exact hexec.trans (congrArg Host.Outcome.next
      ((wordAssembled_holds s ch k full ha h0 hfc).trans (keepWord_waits s ch k full hd)))
  case slack =>
    exact hexec.trans (congrArg Host.Outcome.next
      ((wordAssembled_holds s ch k full ha h0 hfc).trans (keepWord_slack s ch k full hd hi)))

/-! ### A character on output -/

/-- The channel whose leading character has gone out (48 R364). -/
def Chan.unshifted (c : Chan) (size : CharSize) : Chan := { c with size := size, war := shiftOut size.bits c.war }

/-- The character that goes out, as the device gets it. -/
def State.sentChar (s : State) (ch : ChannelId) (size : CharSize) : State :=
  s.send (.charOut ch size (leading size.bits (s.chan ch).war))

section CharReq

variable {s : State} {ch : ChannelId} (size : CharSize)

/-- A character asked of an empty buffer is a rate error, unless the last word has gone out (48 R372). -/
theorem charReq_rateError (hw : (s.chan ch).wordReady = true) (hl : (s.chan ch).lastWord = false) :
    s.charReq ch size = (s.setChan ch { s.chan ch with error := true, war := s.freeWord }).draw 1 := by
  unfold State.charReq
  exact (if_pos hw).trans (if_neg (Bool.eq_false_iff.1 hl))

theorem charReq_more (hw : (s.chan ch).wordReady = false) (hc : (s.chan ch).charCount < (s.chan ch).cpw.toNat) :
    s.charReq ch size = (s.sentChar ch size).setChan ch
      { (s.chan ch).unshifted size with charCount := (s.chan ch).charCount + 1 } := by
  unfold State.charReq
  exact (if_neg (Bool.eq_false_iff.1 hw)).trans (if_neg (Nat.not_le.2 hc))

theorem charReq_last (hw : (s.chan ch).wordReady = false) (hc : (s.chan ch).charCount = (s.chan ch).cpw.toNat) :
    s.charReq ch size =
      ((s.sentChar ch size).setChan ch { (s.chan ch).unshifted size with charCount := 0 }).wordSent ch := by
  unfold State.charReq
  exact (if_neg (Bool.eq_false_iff.1 hw)).trans (if_pos (Nat.le_of_eq hc.symm))

end CharReq

theorem wordSent_setChan (s : State) (ch : ChannelId) (c : Chan) :
    (s.setChan ch c).wordSent ch =
      if c.lastWord || topActs ch c then (s.setChan ch c).lastWordOut ch
      else (s.setChan ch { c with wordReady := true }).needWord ch := by
  unfold State.wordSent
  rw [State.chan_setChan_self]
  dsimp only
  rw [setChan_setChan]

theorem Chan.eq_of_wordReady {c : Chan} {b : Bool} (h : c.wordReady = b) : { c with wordReady := b } = c := by
  subst h
  rfl

/-- Settles O56: by the place of the character in its word, and after a word's last by what comes next. -/
theorem outputCharacter : Obligations.OutputCharacter := by
  intro s ch size hp hch hl hu ho hf
  have hexec := applyEvent_charReq hp hch hl hu ho hf
  refine ⟨fun hw => ?sends, fun hw hlast => ?rateError⟩
  case rateError =>
    rw [hexec, charReq_rateError size hw hlast]
    exact ⟨_, _, rfl⟩
  case sends =>
    refine ⟨_, _, toNat_leading size.bits (s.chan ch).war, toNat_shiftOut size.bits (s.chan ch).war, ?_⟩
    intro c out zc ends waits
    refine ⟨fun hc => ?more, fun hc => ?last⟩
    case more =>
      rw [hexec, charReq_more size hw hc]
      rfl
    case last =>
      let told : State := s.sentChar ch size
      let empty : Chan := { c with wordReady := true }
      have hsent : s.charReq ch size = (told.setChan ch c).wordSent ch := charReq_last size hw hc
      have hends : (c.lastWord || topActs ch c) = true ↔ ends := by
        rw [Bool.or_eq_true, topActs_iff]
        rfl
      have next_of (hnot : ¬ ends) {t u : State} (ht : (told.setChan ch empty).needWord ch = t) (htu : t = u) :
          applyEvent (.charReq ch size) s = .next u := by
        rw [hexec, hsent, wordSent_setChan, if_neg (mt hends.1 hnot), ← htu]
        exact congrArg Host.Outcome.next ht
      have ends_of (hend : ends) {u : State} (ht : (told.setChan ch c).lastWordOut ch = u) :
          applyEvent (.charReq ch size) s = .next u := by
        rw [hexec, hsent, wordSent_setChan, if_pos (hends.2 hend), ht]
      have hwaits : (c.ilcActive && extended ch c && c.fc != 1) = true ↔ waits := by
        rw [Bool.and_eq_true, Bool.and_eq_true, bne_iff_ne, and_assoc]
        rfl
      refine ⟨fun hnot ha => ?asks, fun hnot ha h0 => ?empty, fun hnot ha h0 => ?fetches, fun hend hwait => ?waits,
        fun hend hnot => ?disconnects⟩
      case asks =>
        exact next_of hnot ((needWord_asks told ch empty ha).trans (chanInt_setChan told ch empty .zc rfl rfl rfl)) rfl
      case empty => exact next_of hnot (needWord_empty told ch empty ha h0) rfl
      case fetches =>
        intro next
        refine ⟨fun h1 => ?next, fun h1 hx hfc => ?ends, fun h1 hx hfc => ?proceeds, fun h1 hx => ?compatible⟩
        case next =>
          exact next_of hnot (needWord_fetches told ch empty ha h0 h1)
            (congrArg (told.setChan ch) (Chan.eq_of_wordReady (c := next) hw))
        case ends =>
          refine next_of hnot (needWord_last_ends (c := empty) ha h1 told ch hx hfc) ?_
          exact congrArg (fun x => State.setChan { told with waiting := zc } ch x)
            (Chan.eq_of_wordReady (c := { next with lastWord := true }) hw)
        case proceeds =>
          refine next_of hnot (needWord_last_proceeds (c := empty) ha h1 told ch hx hfc) ?_
          exact congrArg (fun x => State.setChan { told with waiting := zc } ch x)
            (Chan.eq_of_wordReady (c := { next with interRecord := true }) hw)
        case compatible =>
          exact next_of hnot (needWord_last_compatible (c := empty) ha h1 told ch hx)
            (congrArg (told.setChan ch) (Chan.eq_of_wordReady (c := { next with lastWord := true }) hw))
      case waits => exact ends_of hend (lastWordOut_waits told ch c (hwaits.2 hwait))
      case disconnects =>
        have hoff := lastWordOut_disconnects told ch c (Bool.eq_false_iff.2 (mt hwaits.1 hnot))
        rw [signalOpen_setChan told ch c .er rfl rfl rfl] at hoff
        exact ends_of hend hoff

end Sys2Proof.Machine
end

section
/-! PROOFS. End-of-Record in every mode, the end of a tape gap and a device error (48_io_instructions R363, R365 to
R372, 49_io_devices R453). -/

namespace Sys2Proof.Machine

open Sys2Proof

/-! ### What End-of-Record does to the connection (48 R366 to R371) -/

/-- The channel after the End-of-Record signal: in the Inter-record condition where the function proceeds, else
disconnected. -/
def Chan.recordEnded (ch : ChannelId) (c : Chan) (proceeds : Bool) : Chan :=
  if proceeds then { c with eorSeen := true, interRecord := true, ilcActive := false } else Chan.disconnected ch c

/-- The state after the End-of-Record signal of a unit that is connected. -/
def State.recordEnded (s : State) (ch : ChannelId) (proceeds : Bool) : State :=
  let w := if s.signalOpen ch .er then s.requested (erLevel ch) else s.waiting
  if proceeds then
    { s with
      waiting := w
      chans := s.chans.set ch { s.chan ch with eorSeen := true, interRecord := true, ilcActive := false } }
  else { s with
    waiting := w, chans := s.chans.set ch (Chan.disconnected ch (s.chan ch)), out := .disconnect ch :: s.out }

/-- The function proceeds: 10 or 11 under a running interlace in the Extended mode. -/
def Chan.proceeds (ch : ChannelId) (c : Chan) : Bool := c.ilcActive && extended ch c && c.fc.msb

theorem recordAction_disconnected {s : State} {ch : ChannelId} (h : (s.chan ch).uar = 0) : s.recordAction ch = s :=
  if_pos h

theorem recordAction_connected {s : State} {ch : ChannelId} (h : (s.chan ch).uar ≠ 0) :
    s.recordAction ch = s.recordEnded ch (Chan.proceeds ch (s.chan ch)) := by
  refine (if_neg h).trans ?_
  cases hp : Chan.proceeds ch (s.chan ch) with
  | true => exact (if_pos hp).trans (chanInt_setChan s ch _ .er rfl rfl rfl)
  | false => exact if_neg (Bool.eq_false_iff.1 hp)

/-- A signal's way goes by the mode and its arm bit. -/
theorem signalOpen_self (s : State) (ch : ChannelId) (c : Chan) (k : Signal) :
    (s.setChan ch c).signalOpen ch k =
      if extended ch c then (match k with | .zc => c.zcArm | .er => c.erArm) else s.enableEff := by
  unfold State.signalOpen
  rw [State.chan_setChan_self]
  rfl

theorem recordEnded_setChan (s : State) (ch : ChannelId) (c : Chan) (proceeds : Bool) :
    (s.setChan ch c).recordEnded ch proceeds = { s with
      waiting := if (if extended ch c then c.erArm else s.enableEff) then s.requested (erLevel ch) else s.waiting
      chans := s.chans.set ch (Chan.recordEnded ch c proceeds)
      out := if proceeds then s.out else .disconnect ch :: s.out } := by
  have hopen := signalOpen_self s ch c .er
  cases proceeds with
  | true =>
    unfold State.recordEnded
    rw [hopen, State.chan_setChan_self]
    simp [State.setChan, Chan.recordEnded]
    rfl
  | false =>
    unfold State.recordEnded
    rw [hopen, State.chan_setChan_self]
    simp [State.setChan, Chan.recordEnded]
    rfl

theorem recordAction_setChan (s : State) (ch : ChannelId) {c : Chan} (h : c.uar ≠ 0) :
    (s.setChan ch c).recordAction ch = (s.setChan ch c).recordEnded ch (Chan.proceeds ch c) := by
  have hchan := State.chan_setChan_self s ch c
  rw [recordAction_connected (by rw [hchan]; exact h), hchan]

/-! ### The last word of a record -/

section LastWord

variable (s : State) (ch : ChannelId) {k : Chan} (bits : Nat)

/-- Under a running interlace with words to come the word goes to memory, with what the count's coming to zero does;
then the record ends. Where function 01 has disconnected the channel, that was its End-of-Record. -/
theorem recordAction_stores (ha : k.ilcActive = true) (h0 : k.wcr ≠ 0) (hu : k.uar ≠ 0) :
    ∃ (m : Memory) (w : List Nat) (word : Word), Stored s m w k.mar word ∧
      word.toNat % 2 ^ bits = k.war.toNat % 2 ^ bits ∧
      ((s.setChan ch k).wordAssembled ch bits).recordAction ch = State.recordEnded { s with
        mem := m, draws := s.draws + 1
        waiting := if k.wcr = 1 ∧ extended ch k = true ∧ k.zcArm = true
          then State.requested { s with waiting := w } (zcLevel ch) else w
        chans := s.chans.set ch { k with
          mar := k.mar + 1, wcr := k.wcr - 1, zeroCount := k.zeroCount || k.wcr == 1
          ior := if isDirect ch then word else k.ior } } ch (Chan.proceeds ch k) := by
  obtain ⟨word, hword, m, w, hst, hnext, hsignals, hdisconnects, hproceeds, hcompatible⟩ :=
    wordAssembled_moved s ch k bits ha h0
  refine ⟨m, w, word, ⟨hst.others, hst.cell, hst.requests⟩, hword, ?_⟩
  let zc : List Nat := if k.zcArm then State.requested { s with waiting := w } (zcLevel ch) else w
  let after (waiting : List Nat) : State := { s with mem := m, draws := s.draws + 1, waiting := waiting }
  let moved : Chan := { k.stepped with ior := if isDirect ch then word else k.ior }
  have ends_of {u : State} (hu : (s.setChan ch k).wordAssembled ch bits = u) {v : State}
      (hv : u.recordAction ch = v) : ((s.setChan ch k).wordAssembled ch bits).recordAction ch = v := by
    rw [hu, hv]
  by_cases h1 : k.wcr = 1
  · cases hx : extended ch k with
    | false =>
      rw [if_neg (fun h => Bool.false_ne_true h.2.1)]
      refine ends_of (hcompatible h1 hx)
        ((recordAction_setChan (after w) ch (c := { moved with ilcActive := false }) hu).trans ?_)
      have hp : Chan.proceeds ch k = false := by rw [Chan.proceeds, hx, Bool.and_false, Bool.false_and]
      rw [hp]
      exact (recordEnded_setChan (after w) ch _ false).trans (recordEnded_setChan (after w) ch moved false).symm
    | true =>
      rw [show (if k.wcr = 1 ∧ true = true ∧ k.zcArm = true then _ else w) = zc by simp [h1, zc]]
      have signals (hf : k.fc = 0 ∨ k.fc = 2) :=
        ends_of (hsignals h1 hx hf) (recordAction_setChan (after zc) ch (c := moved) hu)
      rcases fc_cases k.fc with hf | hf | hf | hf
      · exact signals (.inl hf)
      · have hp : Chan.proceeds ch k = false := by rw [Chan.proceeds, hf]; exact Bool.and_false _
        rw [hp]
        refine ends_of (hdisconnects h1 hx hf) ((recordAction_disconnected ?_).trans ?_)
        · exact congrArg Chan.uar (Channels.get_set_self _ ch _)
        · refine ((recordEnded_setChan (after zc) ch moved false).trans ?_).symm
          rw [show extended ch moved = true from hx]
          rfl
      · exact signals (.inr hf)
      · have hp : Chan.proceeds ch k = true := by rw [Chan.proceeds, ha, hx, hf]; rfl
        refine ends_of (hproceeds h1 hx hf)
          ((recordAction_setChan (after zc) ch (c := { moved with interRecord := true }) hu).trans ?_)
        rw [hp, show Chan.proceeds ch { moved with interRecord := true } = true from hp]
        exact (recordEnded_setChan (after zc) ch _ true).trans (recordEnded_setChan (after zc) ch moved true).symm
  · rw [if_neg (fun h => h1 h.1)]
    exact ends_of (hnext h1) (recordAction_setChan (after w) ch (c := moved) hu)

/-- The last word of a record that `k` holds: assembled as any other under a running interlace and in a scan, else left
in the buffer without a signal (48 R371). -/
def State.recordWord (s : State) (ch : ChannelId) (k : Chan) (bits : Nat) : State :=
  if k.ilcActive || k.scan then (s.setChan ch k).wordAssembled ch bits else (s.setChan ch k).keepWord ch bits

theorem recordWord_assembled (h : k.ilcActive = true ∨ k.scan = true) :
    s.recordWord ch k bits = (s.setChan ch k).wordAssembled ch bits := if_pos ((Bool.or_eq_true _ _).mpr h)

theorem finishRecord_scan {s : State} {ch : ChannelId} (hs : (s.chan ch).scan = true) :
    s.finishRecord ch = s.recordWord ch { s.chan ch with charCount := 0 }
      (if (s.chan ch).garbled then 0 else (s.chan ch).recBits) :=
  (if_pos hs).trans (recordWord_assembled s ch (k := { s.chan ch with charCount := 0 }) _ (.inr hs)).symm

theorem finishRecord_partial {s : State} {ch : ChannelId} (hs : (s.chan ch).scan = false)
    (hc : 0 < (s.chan ch).charCount) :
    s.finishRecord ch = s.recordWord ch { s.chan ch with
        war := shiftOut ((s.chan ch).size.bits * ((s.chan ch).cpw.toNat + 1 - (s.chan ch).charCount)) (s.chan ch).war
        charCount := 0 }
      ((s.chan ch).wordBits (s.chan ch).size) := by
  unfold State.finishRecord State.recordWord
  dsimp only
  rw [hs, Bool.or_false, if_neg Bool.false_ne_true, if_neg (Nat.ne_of_gt hc)]

theorem finishRecord_none {s : State} {ch : ChannelId} (hs : (s.chan ch).scan = false)
    (hc : (s.chan ch).charCount = 0) (h : (s.chan ch).ilcActive = true ∨ (s.chan ch).wordReady = true) :
    s.finishRecord ch = s := by
  unfold State.finishRecord
  exact (if_neg (Bool.eq_false_iff.1 hs)).trans ((if_pos hc).trans (if_pos ((Bool.or_eq_true _ _).mpr h)))

/-- With no interlace a buffer already emptied reads zeros once (48 R371). -/
theorem finishRecord_empty {s : State} {ch : ChannelId} (hs : (s.chan ch).scan = false)
    (hc : (s.chan ch).charCount = 0) (ha : (s.chan ch).ilcActive = false) (hw : (s.chan ch).wordReady = false) :
    s.finishRecord ch = s.setChan ch { s.chan ch with
      war := 0, wordReady := true, fullBits := if (s.chan ch).garbled then 0 else 24 } := by
  unfold State.finishRecord
  refine (if_neg (Bool.eq_false_iff.1 hs)).trans ((if_pos hc).trans (if_neg ?_))
  rw [ha, hw]
  exact Bool.false_ne_true

section Kept

variable (h : k.ilcActive = false ∨ (k.wcr = 0 ∧ k.fc = 3))

include h

/-- With no interlace running, and beyond the count under function 11, the word is kept; a scan's with no interlace
counts as assembled. -/
theorem recordWord_keeps : s.recordWord ch k bits =
    if !k.ilcActive && k.scan then (s.setChan ch k).wordAssembled ch bits else (s.setChan ch k).keepWord ch bits := by
  cases ha : k.ilcActive with
  | true =>
    obtain ⟨h0, hf⟩ := h.resolve_left (fun hn => Bool.false_ne_true (hn.symm.trans ha))
    exact (recordWord_assembled s ch bits (.inl ha)).trans (wordAssembled_holds s ch k bits ha h0 hf)
  | false =>
    unfold State.recordWord
    rw [ha]
    rfl

variable (hi : k.ia = (s.chan ch).ia) (hz : k.zcArm = (s.chan ch).zcArm) (he : k.erArm = (s.chan ch).erArm)

include hi hz he

/-- The word waits in the buffer; a scan's gives the End-of-Word signal. -/
theorem recordWord_waits (hd : isDirect ch = false ∨ k.iorFull = true) :
    s.recordWord ch k bits = { s with
      waiting := if !k.ilcActive && k.scan && s.signalOpen ch .zc then s.requested (zcLevel ch) else s.waiting
      chans := s.chans.set ch { k with wordReady := true, fullBits := bits } } := by
  rw [recordWord_keeps s ch bits h]
  cases hsignal : (!k.ilcActive && k.scan) with
  | true =>
    have ha : k.ilcActive = false := (Bool.not_eq_true' _).mp (Bool.and_eq_true_iff.1 hsignal).1
    exact (if_pos rfl).trans (wordAssembled_ready s ch bits ha hi hz he hd)
  | false => exact (if_neg Bool.false_ne_true).trans (keepWord_waits s ch k bits hd)

/-- On a direct access channel it goes to IOR while that is free (log 34). -/
theorem recordWord_slack (hd : isDirect ch = true) (hf : k.iorFull = false) :
    s.recordWord ch k bits = { s with
      waiting := if !k.ilcActive && k.scan && s.signalOpen ch .zc then s.requested (zcLevel ch) else s.waiting
      chans := s.chans.set ch { k with ior := keepLow bits k.war s.freeWord, iorFull := true }
      draws := s.draws + 1 } := by
  rw [recordWord_keeps s ch bits h]
  cases hsignal : (!k.ilcActive && k.scan) with
  | true =>
    have ha : k.ilcActive = false := (Bool.not_eq_true' _).mp (Bool.and_eq_true_iff.1 hsignal).1
    exact (if_pos rfl).trans (wordAssembled_slack s ch bits ha hi hz he hd hf)
  | false => exact (if_neg Bool.false_ne_true).trans (keepWord_slack s ch k bits hd hf)

end Kept

end LastWord

/-! ### The events of a record's end -/

/-- Settles O57: what a record's end does by mode is `recordAction_connected`; before it a word goes through
`State.recordWord`, to memory, nowhere or to the buffer by the interlace and its count. -/
theorem endOfRecord : Obligations.EndOfRecord := by
  unfold Obligations.EndOfRecord
  intro s ch hp hch hl c off ended known taken
  have eor_next : applyEvent (.eor ch) s = .next (s.endOfRecord ch) := deviceEvent_next hp hch hl rfl _
  have gap_next : applyEvent (.gapEnd ch) s = .next (s.gapEnd ch) := deviceEvent_next hp hch hl rfl _
  have ends_input (hu : c.uar ≠ 0) (ho : c.output = false) {v : State} (hv : (s.finishRecord ch).recordAction ch = v) :
      applyEvent (.eor ch) s = .next v := by
    rw [eor_next, ← hv]
    exact congrArg Host.Outcome.next ((if_neg hu).trans (if_neg (Bool.eq_false_iff.1 ho)))
  have taken_of (hu : c.uar ≠ 0) (ho : c.output = false) (war : Word) (bits : Nat)
      (hfin : s.finishRecord ch = s.recordWord ch { c with war := war, charCount := 0 } bits) :
      taken { c with war := war, charCount := 0 } bits := by
    let k : Chan := { c with war := war, charCount := 0 }
    let w : List Nat :=
      if !c.ilcActive && c.scan && s.signalOpen ch .zc then s.requested (zcLevel ch) else s.waiting
    have ends {u v : State} (hk : s.recordWord ch k bits = u) (hv : u.recordAction ch = v) :
        applyEvent (.eor ch) s = .next v := ends_input hu ho (by rw [hfin, hk, hv])
    have assembled (ha : c.ilcActive = true) := recordWord_assembled s ch (k := k) bits (.inl ha)
    refine ⟨fun ha h0 => ?stores, fun ha h0 hf => ?drops, fun h => ⟨fun hd => ?waits, fun hd hf => ?slack⟩⟩
    case stores =>
      obtain ⟨m, w, word, hst, hword, hnext⟩ := recordAction_stores s ch (k := k) bits ha h0 hu
      exact ⟨m, w, word, hst, hword, ends (assembled ha) hnext⟩
    case drops =>
      exact ends ((assembled ha).trans (wordAssembled_drops s ch k bits ha h0 hf))
        (recordAction_setChan s ch (c := k) hu)
    case waits =>
      exact ends (recordWord_waits s ch (k := k) bits h rfl rfl rfl hd)
        (recordAction_setChan { s with waiting := w } ch (c := { k with wordReady := true, fullBits := bits }) hu)
    case slack =>
      exact ⟨keepLow bits war s.freeWord, toNat_keepLow_mod .., ends
        (recordWord_slack s ch (k := k) bits h rfl rfl rfl hd hf)
        (recordAction_setChan { s with waiting := w, draws := s.draws + 1 } ch
          (c := { k with ior := keepLow bits war s.freeWord, iorFull := true }) hu)⟩
  refine ⟨fun hu => ?_, fun hu => ?_, ?_, fun hu hkept => ?_, fun hu ho hs hc ha hw => ?_,
    fun hu ho hs hc _ => ?_, fun hu ho hs => ?_⟩
  · rw [eor_next, gap_next]
    exact ⟨congrArg Host.Outcome.next (if_pos hu), congrArg Host.Outcome.next (if_pos hu)⟩
  · rw [gap_next]
    exact congrArg Host.Outcome.next (if_neg hu)
  · exact deviceEvent_next hp hch hl rfl _
  · rcases hkept with ho | ⟨hs, hc, h⟩
    · rw [eor_next]
      exact congrArg Host.Outcome.next ((if_neg hu).trans ((if_pos ho).trans (recordAction_connected hu)))
    · cases ho : c.output with
      | true =>
        rw [eor_next]
        exact congrArg Host.Outcome.next ((if_neg hu).trans ((if_pos ho).trans (recordAction_connected hu)))
      | false =>
        refine ends_input hu ho ?_
        rw [finishRecord_none hs hc h]
        exact recordAction_connected hu
  · refine ends_input hu ho ?_
    rw [finishRecord_empty hs hc ha hw]
    exact recordAction_setChan s ch hu
  · exact ⟨shiftOut (c.size.bits * (c.cpw.toNat + 1 - c.charCount)) c.war, toNat_shiftOut ..,
      taken_of hu ho _ _ (finishRecord_partial hs hc)⟩
  · exact taken_of hu ho c.war _ (finishRecord_scan hs)

end Sys2Proof.Machine
end

section
/-! PROOFS. The invariant of Safety.lean, kept by every step: by the relation `Keeps` for all turns but the two events
that may change the lock-out register, which keep the invariant by themselves (10_state R33, 70_reset_and_hazards
R591). -/

namespace Sys2Proof.Machine

open Sys2Proof

/-- A next state of the result, if any, has the installation of `s`, and the invariant if `s` has it. -/
def PreservesResult (s : State) (r : Result) : Prop := ∀ t, r = .next t → t.cfg = s.cfg ∧ (s.Inv → t.Inv)

theorem KeepsResult.preserves {s : State} {r : Result} (h : KeepsResult s r) : PreservesResult s r :=
  fun t ht => ⟨(h t ht).cfg, (h t ht).inv⟩

theorem PreservesResult.next {s t : State} (hc : t.cfg = s.cfg) (hi : s.Inv → t.Inv) : PreservesResult s (.next t) := by
  intro u hu
  cases hu
  exact ⟨hc, hi⟩

/-- The loss of power leaves any values the invariant allows. -/
theorem applyEvent_powerOff_preserves (s : State) : PreservesResult s (applyEvent .powerOff s) :=
  .next rfl losePower_inv

/-- The lock-out switches are no part of the invariant. -/
theorem applyEvent_lockout_preserves (s : State) (blocks : BitVec 15) (subs : BitVec 4) :
    PreservesResult s (applyEvent (.lockout blocks subs) s) := by
  simp only [applyEvent, operatorEvent]
  split
  · exact .next rfl fun h => h.congr rfl rfl rfl rfl rfl rfl
  · exact (KeepsResult.refused _).preserves

theorem applyEvent_preserves (e : HostEvent) (s : State) : PreservesResult s (applyEvent e s) := by
  by_cases hp : e = .powerOff
  · subst hp
    exact applyEvent_powerOff_preserves s
  · by_cases hl : ∃ blocks subs, e = .lockout blocks subs
    · obtain ⟨blocks, subs, rfl⟩ := hl
      exact applyEvent_lockout_preserves s blocks subs
    · exact (KeepsResult.applyEvent s hp fun blocks subs he => hl ⟨blocks, subs, he⟩).preserves

/-- What is left of the schedule is no part of the invariant. -/
theorem PreservesResult.of_schedule {s : State} {rest : List Turn} {r : Result}
    (h : PreservesResult { s with schedule := rest } r) : PreservesResult s r := fun t ht =>
  ⟨(h t ht).1, fun hs => (h t ht).2 (hs.congr rfl rfl rfl rfl rfl rfl)⟩

/-- A step is a turn of the processor, a memory cycle of it, or an event, and each preserves the invariant. -/
theorem step_preserves (s : State) : PreservesResult s (step s) := by
  unfold step
  split
  · exact (KeepsResult.cpuStep s).preserves
  · exact .of_schedule (KeepsResult.cpuStep _).preserves
  · exact .of_schedule (KeepsResult.cpuCycle _).preserves
  · exact .of_schedule (applyEvent_preserves _ _)

/-- Settles O4: by the turn that the step takes, each of which preserves the invariant and the installation. -/
theorem stepKeepsInvariant : Obligations.StepKeepsInvariant := step_preserves

end Sys2Proof.Machine
end

section
/-! PROOFS. The interrupt system: the end of an instruction, the order of priority, requests and the taking of an
interrupt, and the signals that no instruction gives (60_exceptions R522 to R534, R541 to R552). -/

namespace Sys2Proof.Machine

open Sys2Proof

/-! ### The end of an instruction (60 R530, R532, R533) -/

theorem finish_none {s : State} (h : s.cState = .none) : finish (.next s) = .next s.endInstruction := by
  rw [finish, if_pos h]

theorem endInstruction_run {s : State} (h : s.console.runSwitch = .run) :
    s.endInstruction = s.endLevel.interruptTest := if_pos h

theorem endInstruction_idle {s : State} (h : s.console.runSwitch ≠ .run) :
    s.endInstruction = (s.endLevel.setSwitch .idle).interruptTest.showNext := if_neg h

theorem interruptTest_inhibited {s : State} (h : s.noIntNext = true) :
    s.interruptTest = { s with noIntNext := false } := if_pos h

theorem interruptTest_acknowledged {s : State} {l : Nat} (hn : s.noIntNext = false) (ha : s.ack = some l) :
    s.interruptTest = { s with halted := false } := by
  rw [State.interruptTest, if_neg (by simp [hn]), ha]

theorem interruptTest_takes {s : State} {l : Nat} (hn : s.noIntNext = false) (ha : s.ack = none)
    (hl : s.nextLevel = some l) : s.interruptTest = s.acknowledge l := by
  rw [State.interruptTest, if_neg (by simp [hn]), ha, hl]

theorem interruptTest_none {s : State} (hn : s.noIntNext = false) (ha : s.ack = none) (hl : s.nextLevel = none) :
    s.interruptTest = s := by
  rw [State.interruptTest, if_neg (by simp [hn]), ha, hl]

/-- A single-instruction level leaves the Active levels with its one instruction. -/
theorem endLevel_interrupt {s : State} {l : Nat} (h : s.origin = .interrupt l) :
    s.endLevel = if levelSingle s.cfg l then s.clearLevel l else s := by
  rw [State.endLevel, h]

theorem endLevel_program {s : State} (h : ∀ l, s.origin ≠ .interrupt l) : s.endLevel = s := by
  cases ho : s.origin with
  | interrupt l => exact absurd ho (h l)
  | sequence | console => rw [State.endLevel, ho]

theorem setSwitch_idle (s : State) :
    s.setSwitch .idle = { s with console := { s.console with runSwitch := .idle }, halted := false } := by
  have ended : (s.halted && RunSwitch.idle == .run) = false := Bool.and_false _
  rw [State.setSwitch, ended]

theorem showNext_sequence {s : State} (h : s.ack = none) : s.showNext = { s with c := s.read s.p } := by
  rw [State.showNext, nextWord_sequence h]

theorem showNext_acknowledged {s : State} {l : Nat} (h : s.ack = some l) :
    s.showNext = { s with c := s.memRead (BitVec.ofNat 15 l) } := by
  rw [State.showNext, nextWord_acknowledged h]

/-- With the processor idle after it, what the test for an interrupt leaves shows the next instruction. -/
theorem interruptTest_shown {u : State} (hh : u.halted = false) :
    (∀ l, u.ack = some l → u.interruptTest.showNext =
      { u with noIntNext := false, c := u.memRead (BitVec.ofNat 15 l) }) ∧
    (u.ack = none →
      (u.noIntNext = true → u.interruptTest.showNext = { u with noIntNext := false, c := u.read u.p }) ∧
      (u.noIntNext = false → u.nextLevel = none → u.interruptTest.showNext = { u with c := u.read u.p }) ∧
      ∀ l, u.noIntNext = false → u.nextLevel = some l →
        u.interruptTest.showNext = { u.acknowledge l with c := u.memRead (BitVec.ofNat 15 l) }) := by
  refine ⟨fun l ha => ?acknowledged, fun ha => ⟨fun hi => ?inhibited, fun hi hl => ?none, fun l hi hl => ?taken⟩⟩
  case acknowledged =>
    cases hi : u.noIntNext with
    | true => rw [interruptTest_inhibited hi]; exact showNext_acknowledged ha
    | false =>
      have same : { u with halted := false } = { u with noIntNext := false } := by rw [hh, hi]
      rw [interruptTest_acknowledged hi ha, same]
      exact showNext_acknowledged ha
  case inhibited => rw [interruptTest_inhibited hi]; exact showNext_sequence ha
  case none => rw [interruptTest_none hi ha hl]; exact showNext_sequence ha
  case taken => rw [interruptTest_takes hi ha hl]; exact showNext_acknowledged rfl

/-- Settles O15: the level's end makes `t`, the switch `u`, which differ from `s` in no field the test reads but the
Active levels; then by the inhibition, the level acknowledged and the level due. -/
theorem endOfInstruction : Obligations.EndOfInstruction := by
  intro s hc t u
  have hend : s.endLevel = t := by
    simp only [t]
    split
    · next l ho => exact endLevel_interrupt ho
    · next ho => exact endLevel_program ho
  obtain ⟨active, hframe⟩ := endLevel_frame s
  rw [hend] at hframe
  have hn : t.noIntNext = s.noIntNext := by rw [hframe]
  have ha : t.ack = s.ack := by rw [hframe]
  have hread : u.read u.p = s.read s.p := by simp only [u, hframe]; rfl
  have hmem : ∀ k, u.memRead k = s.memRead k := fun k => by simp only [u, hframe]; rfl
  rw [finish_none hc]
  refine ⟨fun hr => ?run, fun hr l hl => ?shown, fun hr hl => ?tested⟩
  case run =>
    rw [endInstruction_run hr, hend]
    exact ⟨fun hi => congrArg _ (interruptTest_inhibited (hn.trans hi)),
      fun hi hl hd => congrArg _ (interruptTest_none (hn.trans hi) (ha.trans hl) hd),
      fun l hi hl hd => congrArg _ (interruptTest_takes (hn.trans hi) (ha.trans hl) hd),
      fun l hi hl => congrArg _ (interruptTest_acknowledged (hn.trans hi) (ha.trans hl))⟩
  all_goals
    have hrun : s.console.runSwitch ≠ .run := by rcases hr with hr | hr <;> rw [hr] <;> simp
    obtain ⟨acknowledged, tested⟩ := interruptTest_shown (u := u) rfl
    rw [endInstruction_idle hrun, hend, setSwitch_idle]
  case shown => exact congrArg _ ((acknowledged l (ha.trans hl)).trans (by rw [hmem]))
  case tested =>
    obtain ⟨inhibited, undisturbed, taken⟩ := tested (ha.trans hl)
    rw [hread] at inhibited undisturbed
    exact ⟨fun hi => congrArg _ (inhibited (hn.trans hi)), fun hi hd => congrArg _ (undisturbed (hn.trans hi) hd),
      fun l hi hd => congrArg _ ((taken l (hn.trans hi) hd).trans (by rw [hmem]))⟩

/-! ### The order of priority (60 R526, R530, R551, R552) -/

theorem lt_of_mem_priorityOrder {l : Nat} (h : l ∈ priorityOrder) : l < 0o200 := by
  revert l
  decide

/-- A system level's place follows from its number. -/
theorem prio_system {k : Nat} (h : 0o200 ≤ k) : prio k = k + 2 := by
  rw [prio, if_neg (by omega), if_neg (by omega)]

theorem prio_le (l : Nat) : prio l ≤ l + 2 := by
  unfold prio
  split
  · omega
  · split <;> omega

/-- The levels of the parity option, as the statements name them. -/
theorem isParityLevel_iff (c : Config) (l : Nat) :
    isParityLevel c l = true ↔ ∃ cpu io, c.parityLevels = some (cpu, io) ∧ (l = cpu ∨ l = io) := by
  cases h : c.parityLevels with
  | none => simp [isParityLevel, h]
  | some p => obtain ⟨cpu, io⟩ := p; simp [isParityLevel, h]

theorem gateOpen_iff (s : State) (l : Nat) :
    s.gateOpen l = true ↔ s.ien = true ∨ s.console.enableSwitch = true ∨ l = 0o36 ∨ l = 0o37 ∨
      (s.cfg.parityGated = false ∧ isParityLevel s.cfg l = true) := by
  simp only [State.gateOpen, State.enableEff, Bool.or_eq_true, Bool.and_eq_true, Bool.not_eq_true', beq_iff_eq]
  tauto

theorem eligible_iff (s : State) (l : Nat) :
    s.eligible l = true ↔
      levelPresent s.cfg l = true ∧ s.gateOpen l = true ∧ ∀ h ∈ s.active, prio l ≤ prio h := by
  simp only [State.eligible, Bool.and_eq_true, List.all_eq_true, decide_eq_true_eq, and_assoc]

/-- Settles O16: the order of the levels below 0200 by their places, the system levels by their numbers, and the level
due by `nextLevel_eq_some`. -/
theorem priorityOrder_holds : Obligations.PriorityOrder := by
  refine ⟨by decide, fun l k hl hk => ?below, fun l k hl hk => ?system, fun s l => ?gate, fun s l => ?due⟩
  case below =>
    have hlt := lt_of_mem_priorityOrder hl
    have hle := prio_le l
    rw [prio_system hk]
    omega
  case system =>
    rw [prio_system hl, prio_system (by omega)]
    omega
  case gate => rw [gateOpen_iff, isParityLevel_iff]
  case due => simp only [nextLevel_eq_some, eligible_iff, and_imp]

/-! ### The levels of an installation (60 R523, R525) -/

/-- The two levels of a channel, as the table of R373 lists them. -/
theorem mem_channelLevels (ch : ChannelId) (zc er : Nat) :
    (ch, zc, er) ∈ channelLevels ↔ zc = zcLevel ch ∧ er = erLevel ch := by
  cases ch <;> simp [channelLevels, zcLevel, erLevel]

theorem channelLevel_iff (c : Config) (l : Nat) :
    (c.channels.any fun ch => l == zcLevel ch || l == erLevel ch) = true ↔
      ∃ ch zc er, ch ∈ c.channels ∧ (ch, zc, er) ∈ channelLevels ∧ (l = zc ∨ l = er) := by
  simp only [List.any_eq_true, Bool.or_eq_true, beq_iff_eq, mem_channelLevels]
  constructor
  · rintro ⟨ch, hch, hl⟩
    exact ⟨ch, _, _, hch, ⟨rfl, rfl⟩, hl⟩
  · rintro ⟨ch, _, _, hch, ⟨rfl, rfl⟩, hl⟩
    exact ⟨ch, hch, hl⟩

theorem levelPresent_below {c : Config} {l : Nat} (h : l < 0o200) :
    levelPresent c l = true ↔
      (∃ ch zc er, ch ∈ c.channels ∧ (ch, zc, er) ∈ channelLevels ∧ (l = zc ∨ l = er)) ∨
        (l = 0o35 ∧ c.hasLockout = true) ∨ ((l = 0o36 ∨ l = 0o37) ∧ c.hasPowerFailsafe = true) ∨
        ((l = 0o74 ∨ l = 0o75) ∧ c.hasRtc = true) ∨ isParityLevel c l = true := by
  rw [levelPresent, if_neg (by simpa [isSystemLevel] using h), Bool.or_eq_true, Bool.or_eq_true, Bool.or_eq_true,
    Bool.or_eq_true, channelLevel_iff]
  simp only [Bool.and_eq_true, Bool.or_eq_true, beq_iff_eq, or_assoc]

theorem levelPresent_system {c : Config} {l : Nat} (h : 0o200 ≤ l) :
    levelPresent c l = true ↔ l < 0o200 + c.nSystem ∨ isParityLevel c l = true := by
  have hs : isSystemLevel l = true := decide_eq_true h
  rw [levelPresent, if_pos hs, Bool.or_eq_true, decide_eq_true_eq]

theorem isArmed_clock (s : State) : s.isArmed 0o75 = s.rtcArmed := if_pos rfl

theorem isArmed_armable {s : State} {l : Nat} (h : levelArmable s.cfg l = true) :
    s.isArmed l = true ↔ l ∈ s.armed := by
  have hl : l ≠ 0o75 := by
    have := ((levelArmable_iff s.cfg l).1 h).1
    omega
  rw [State.isArmed, if_neg hl, if_pos h, List.contains_iff_mem]

theorem isArmed_always {s : State} {l : Nat} (hl : l ≠ 0o75) (h : levelArmable s.cfg l = false) :
    s.isArmed l = true := by
  rw [State.isArmed, if_neg hl, if_neg (by simp [h])]

/-- A level lacks an arm bit of its own where any one of these says so (60 R539; log 27). -/
theorem levelArmable_eq_false {c : Config} {l : Nat}
    (h : l < 0o200 ∨ c.armingFeature = false ∨ l ∈ c.unarmable ∨ isParityLevel c l = true) :
    levelArmable c l = false := by
  refine Bool.eq_false_iff.2 fun ha => ?_
  obtain ⟨hsystem, hfeature, hlisted, hparity⟩ := (levelArmable_iff c l).1 ha
  rcases h with h | h | h | h
  · omega
  · exact Bool.false_ne_true (h.symm.trans hfeature)
  · exact hlisted h
  · exact Bool.false_ne_true (hparity.symm.trans h)

/-! ### Requests -/

/-- In the Extended mode a signal goes by its arm bit (48 R373). -/
theorem signalOpen_extended {s : State} {ch : ChannelId} (h : isDirect ch = true ∨ (s.chan ch).ia = true) :
    s.signalOpen ch .zc = (s.chan ch).zcArm ∧ s.signalOpen ch .er = (s.chan ch).erArm := by
  have hx : extended ch (s.chan ch) = true := Bool.or_eq_true_iff.2 h
  exact ⟨if_pos hx, if_pos hx⟩

theorem signalOpen_compatible {s : State} {ch : ChannelId} (hd : isDirect ch = false) (hi : (s.chan ch).ia = false)
    (k : Signal) : s.signalOpen ch k = s.enableEff := by
  have hx : ¬ extended ch (s.chan ch) = true := by simp [extended, hd, hi]
  exact if_neg hx

/-! ### The signals that no instruction gives (60 R544, R546, R547, 70 R599) -/

theorem parityFault_runs {s : State} (io : Bool) (hh : s.console.parityHalt = false) (hp : s.cfg.parityLevels = none) :
    s.parityFault io = { s with parityError := true } := by
  simp only [State.parityFault, hh, hp]
  rfl

theorem parityFault_signals {s : State} {cpu other : Nat} (io : Bool) (hh : s.console.parityHalt = false)
    (hp : s.cfg.parityLevels = some (cpu, other)) :
    s.parityFault io = { s.raise (if io then other else cpu) with parityError := true } := by
  simp only [State.parityFault, hh, hp]
  rfl

theorem turnSwitch_frame (s : State) (v : RunSwitch) : ∃ c, s.turnSwitch v = { s.setSwitch v with c := c } := by
  unfold State.turnSwitch
  split
  · exact ⟨_, rfl⟩
  · exact ⟨_, rfl⟩

/-- With the switch at HALT the processor idles, whether or not a level is signalled. -/
theorem parityFault_idles {s : State} (io : Bool) (hh : s.console.parityHalt = true) :
    ∃ c waiting, s.parityFault io =
      { s with
        parityError := true, console := { s.console with runSwitch := .idle }, halted := false, c := c
        waiting := waiting } := by
  obtain ⟨c, hc⟩ := turnSwitch_frame { s with parityError := true } .idle
  have signalled : ∃ waiting, s.parityFault io =
      { State.turnSwitch { s with parityError := true } .idle with waiting := waiting } := by
    simp only [State.parityFault, hh, if_true]
    split
    · exact ⟨_, rfl⟩
    · exact ⟨_, rfl⟩
  obtain ⟨waiting, hw⟩ := signalled
  refine ⟨c, waiting, ?_⟩
  rw [hw, hc, setSwitch_idle]

theorem powerReturns_running {s : State} (hp : s.power = .on) :
    s.powerReturns = { s.raise 0o36 with lines := { s.lines with powerOff := false } } := if_pos hp

/-- A machine that was off and has the fail-safe system goes on at the level of Power ON (log 28). -/
theorem powerReturns_failsafe {s : State} (hp : s.power = .off) (hf : s.cfg.hasPowerFailsafe = true) :
    s.powerReturns =
      { State.acknowledge (State.unalerted { s with lines := { s.lines with powerOff := false } }) 0o36 with
        power := .on } := by
  have hoff : s.power ≠ .on := by rw [hp]; exact nofun
  rw [State.powerReturns, if_neg hoff, if_pos hf]

theorem unalerted_ilcAlerted (s : State) : s.unalerted.ilcAlerted = [] := by
  simp [State.ilcAlerted, Chan.unalerted]

theorem unalerted_ascAlerted (s : State) : s.unalerted.ascAlerted = [] := by
  simp [State.ascAlerted, Chan.unalerted]

/-- Settles O17, clause by clause: the levels and their arming, the channels' signals, a request, an interrupt taken,
and the events that signal. -/
theorem requestAndTake : Obligations.RequestAndTake := by
  refine ⟨fun c l => ?levels, fun s ch zc er hl => ?signals, fun s l => ?request, fun s l => ?take,
    fun s hp => ?events, fun s => rfl, fun s => ⟨s.losePower, rfl, rfl, rfl, rfl⟩, fun s hp hf => ?returns⟩
  case levels =>
    intro parity
    have hp : isParityLevel c l = true ↔ parity := isParityLevel_iff c l
    refine ⟨fun hl => ?below, fun hl => ?system, fun s hs => ⟨fun hl => ?clock, fun hl hf hu hn => ?armable,
      fun hl hn => ?always⟩⟩
    case below => rw [levelPresent_below hl, hp]
    case system => rw [levelPresent_system hl, hp]
    case clock => rw [hl, isArmed_clock]
    case armable =>
      refine isArmed_armable ((levelArmable_iff _ l).2 ?_)
      rw [hs]
      exact ⟨hl, hf, hu, Bool.eq_false_iff.2 (mt hp.1 hn)⟩
    case always => exact isArmed_always hl (levelArmable_eq_false (by rw [hs, hp]; exact hn))
  case signals =>
    obtain ⟨rfl, rfl⟩ := (mem_channelLevels ch zc er).1 hl
    exact ⟨rfl, rfl, signalOpen_extended, signalOpen_compatible⟩
  case request => exact ⟨s.requested l, rfl, mem_requested s l⟩
  case take =>
    refine ⟨levelErase l s.waiting, levelInsert l s.active, rfl, fun k => ?_, fun k => ?_⟩
    · rw [mem_levelErase, and_comm]
    · rw [mem_levelInsert, or_comm]
  case events =>
    have next : ∀ t, s.poweredEvent true t = .next t := poweredEvent_on hp
    refine ⟨next _, next _, congrArg Host.Outcome.next (powerReturns_running hp), fun l hl => ?system,
      fun io hh hn => ?unlevelled, fun cpu other hh hn => ⟨?processor, ?second⟩, fun io hh => ?idles⟩
    case system =>
      have hs : isSystemLevel l = true := decide_eq_true hl
      rw [applyEvent, hs, next]
    case unlevelled => exact (next _).trans (congrArg Host.Outcome.next (parityFault_runs io hh hn))
    case processor => exact (next _).trans (congrArg Host.Outcome.next (parityFault_signals false hh hn))
    case second => exact (next _).trans (congrArg Host.Outcome.next (parityFault_signals true hh hn))
    case idles =>
      obtain ⟨c, waiting, hidle⟩ := parityFault_idles io hh
      exact ⟨_, (next _).trans (congrArg Host.Outcome.next hidle), rfl, rfl, rfl⟩
  case returns =>
    refine ⟨_, congrArg Host.Outcome.next (powerReturns_failsafe hp hf), rfl, rfl, ?_, rfl, rfl, rfl, rfl, rfl, rfl,
      unalerted_ilcAlerted _, unalerted_ascAlerted _⟩
    exact (mem_levelInsert _ _ _).2 (.inl rfl)

end Sys2Proof.Machine
end

section
/-! PROOFS. The instructions of the interrupt system (60_exceptions R535 to R539, R546, R547) and the arm word that the
POT after AIR delivers. -/

namespace Sys2Proof.Machine

open Sys2Proof

/-! ### The interrupt control instructions -/

/-- Settles O39: each instruction is its record update, each test a conditional skip. -/
theorem interruptControl : Obligations.InterruptControl := fun _ =>
  ⟨rfl, rfl, rfl, rfl, rfl, skipsWhen_of_skipIf rfl .rfl, skipsWhen_of_skipIf rfl (Bool.not_eq_true' _).to_iff,
    skipsWhen_of_skipIf rfl (Bool.not_eq_true' _).to_iff⟩

/-! ### The arm word -/

/-- A POT that only the arm-interrupt unit awaits goes to that unit (48 R389). -/
theorem exec_pot_arms {s : State} {r : Ref} {t : Addr} (h : s.ea r = .addr t) (hair : s.airAlert = true)
    (ha : s.ilcAlerted = []) (hd : s.dmsSelect = none) :
    exec (.pot r) s = .next (s.armInterrupts (s.operand t)).sequential := by
  have one : ¬ 1 < s.potAlerts := by simp [State.potAlerts, hair, ha, hd]
  refine (atEA_addr _ h).trans ?_
  rw [if_neg one, if_pos hair]

/-- An arm word names the sixteen levels of its group, and no other. -/
theorem ne_groupLevel {g l : Nat} (h : l < 0o200 + 16 * g ∨ 0o200 + 16 * g + 16 ≤ l) :
    ∀ j, j < 16 → l ≠ groupLevel g j := by
  intro j hj
  unfold groupLevel
  omega

theorem levelArmable_system {c : Config} {l : Nat} (h : 0o200 ≤ l) :
    levelArmable c l = true ↔ isParityLevel c l = false ∧ c.armingFeature = true ∧ l ∉ c.unarmable := by
  rw [levelArmable_iff]
  tauto

/-- Settles O40: the POT leaves the arm bits of `armFrom`, whose laws say what bit `b` does to its level. -/
theorem armLevels : Obligations.ArmLevels := by
  intro s r t h hair ha hd m group control
  refine ⟨s.armFrom m 16, exec_pot_arms h hair ha hd, fun b h8 h23 => ?selected,
    fun l hl => mem_armFrom_other s m 16 l (ne_groupLevel hl)⟩
  case selected =>
    intro l
    have hbit : 8 + (b - 8) = b := by omega
    have hsel := mem_armFrom s m 16 (b - 8) (by omega)
    rw [hbit] at hsel
    have hcond := and_congr_right' (a := levelPresent s.cfg l = true)
      (levelArmable_system (c := s.cfg) (l := l) (by omega)).symm
    split
    · next hc => exact hsel.trans (iff_of_eq (if_pos (hcond.1 hc)))
    · next hc => exact hsel.trans (iff_of_eq (if_neg (mt hcond.2 hc)))

end Sys2Proof.Machine
end

section
/-! PROOFS. The control state: the enable, the extension registers and the clock's arm bit, each changed by its own
instructions only, and what no instruction changes (60_exceptions R535, R536, R547, 47_control R317). `Keeps` says what
every step keeps; here an operation keeps the control state where the state shows the same of it before and after. -/

namespace Sys2Proof.Machine

open Sys2Proof

/-! ### What a state shows of it -/

/-- The enable, the extension registers and the clock's arm bit, which certain instructions change, and what no
instruction changes. -/
structure ControlState where
  ien : Bool
  em2 : BitVec 3
  em3 : BitVec 3
  rtcArmed : Bool
  console : Console
  power : Power
  lockBlocks : BitVec 15
  lockSubs : BitVec 4
  parityError : Bool
  schedule : List Turn
  cfg : Config

def State.control (s : State) : ControlState :=
  ⟨s.ien, s.em2, s.em3, s.rtcArmed, s.console, s.power, s.lockBlocks, s.lockSubs, s.parityError, s.schedule, s.cfg⟩

theorem control_eq_iff (s t : State) :
    t.control = s.control ↔ t.ien = s.ien ∧ t.em2 = s.em2 ∧ t.em3 = s.em3 ∧ t.rtcArmed = s.rtcArmed ∧
      t.console = s.console ∧ t.power = s.power ∧ t.lockBlocks = s.lockBlocks ∧ t.lockSubs = s.lockSubs ∧
      t.parityError = s.parityError ∧ t.schedule = s.schedule ∧ t.cfg = s.cfg := by
  rw [State.control, State.control, ControlState.mk.injEq]

@[simp] theorem control_setChan (s : State) (ch : ChannelId) (c : Chan) : (s.setChan ch c).control = s.control := rfl
@[simp] theorem control_send (s : State) (m : Message) : (s.send m).control = s.control := rfl
@[simp] theorem control_draw (s : State) (n : Nat) : (s.draw n).control = s.control := rfl
@[simp] theorem control_chanInt (s : State) (ch : ChannelId) (k : Signal) : (s.chanInt ch k).control = s.control := rfl
@[simp] theorem control_store (s : State) (a : PAddr) (v : Word) : (s.store a v).control = s.control := rfl
@[simp] theorem control_write (s : State) (e : Addr) (v : Word) : (s.write e v).control = s.control := rfl
@[simp] theorem control_sequential (s : State) : s.sequential.control = s.control := rfl
@[simp] theorem control_skipIf (s : State) (k : Bool) : (s.skipIf k).control = s.control := rfl
@[simp] theorem control_branch (s : State) (t : Addr) : (s.branch t).control = s.control := rfl
@[simp] theorem control_endEom (s : State) : s.endEom.control = s.control := rfl
@[simp] theorem control_holdAt (s : State) (code : BitVec 6) (t : Addr) : (s.holdAt code t).control = s.control := rfl
@[simp] theorem control_disconnect (s : State) (ch : ChannelId) : (s.disconnect ch).control = s.control := rfl

@[simp] theorem control_interlaceControl (s : State) (ch : ChannelId) (k : IlcFn) :
    (s.interlaceControl ch k).control = s.control := rfl

@[simp] theorem control_request (s : State) (m : Message) : (s.request m).control = s.control := by
  unfold State.request
  split <;> rfl

@[simp] theorem control_registerChange (s : State) (f : RegFn) : (s.registerChange f).control = s.control := by
  unfold State.registerChange
  split <;> rfl

/-! ### The channels keep the control state -/

@[simp] theorem control_dsc (s : State) (ch : ChannelId) : (s.dsc ch).control = s.control := by
  unfold State.dsc
  dsimp only
  split <;> simp

@[simp] theorem control_alert (s : State) (ch : ChannelId) : (s.alert ch).control = s.control := by
  unfold State.alert
  split <;> simp

@[simp] theorem control_ascAlert (s : State) (ch : ChannelId) : (s.ascAlert ch).control = s.control := by
  unfold State.ascAlert
  split <;> simp

@[simp] theorem control_countZeroIn (s : State) (ch : ChannelId) : (s.countZeroIn ch).control = s.control := by
  unfold State.countZeroIn
  dsimp only
  split
  · split <;> simp
  · simp

@[simp] theorem control_countZeroOut (s : State) (ch : ChannelId) : (s.countZeroOut ch).control = s.control := by
  unfold State.countZeroOut
  dsimp only
  split
  · split <;> simp
  · simp

@[simp] theorem control_storeWord (s : State) (ch : ChannelId) (w : Word) : (s.storeWord ch w).control = s.control := by
  unfold State.storeWord
  dsimp only
  split <;> simp

@[simp] theorem control_keepWord (s : State) (ch : ChannelId) (n : Nat) : (s.keepWord ch n).control = s.control := by
  unfold State.keepWord
  dsimp only
  split <;> simp

@[simp] theorem control_wordAssembled (s : State) (ch : ChannelId) (n : Nat) :
    (s.wordAssembled ch n).control = s.control := by
  unfold State.wordAssembled
  dsimp only
  split
  · split
    · simp
    · split <;> simp
  · simp

@[simp] theorem control_needWord (s : State) (ch : ChannelId) : (s.needWord ch).control = s.control := by
  unfold State.needWord
  dsimp only
  split
  · split
    · split <;> simp
    · simp
  · simp

@[simp] theorem control_lastWordOut (s : State) (ch : ChannelId) : (s.lastWordOut ch).control = s.control := by
  unfold State.lastWordOut
  dsimp only
  split <;> simp

@[simp] theorem control_connectUnit (s : State) (ch : ChannelId) (k : Conn) :
    (s.connectUnit ch k).control = s.control := by
  unfold State.connectUnit
  dsimp only
  split
  · split <;> simp
  · have told : ∀ m, ((if k.alert then
        (s.setChan ch ((s.chan ch).connected k (k.alert && s.hasInterlace ch))).alert ch
        else s.setChan ch ((s.chan ch).connected k (k.alert && s.hasInterlace ch))).send m).control = s.control := by
      intro m
      split <;> simp
    split
    · rw [control_needWord, told]
    · exact told _

@[simp] theorem control_terminate (s : State) (ch : ChannelId) : (s.terminate ch).control = s.control := by
  unfold State.terminate
  dsimp only
  split <;> simp

@[simp] theorem control_takeIor (s : State) (ch : ChannelId) : (s.takeIor ch).control = s.control := by
  unfold State.takeIor
  dsimp only
  split <;> simp

@[simp] theorem control_takeHeld (s : State) (ch : ChannelId) : (s.takeHeld ch).control = s.control := by
  unfold State.takeHeld
  dsimp only
  split
  · rfl
  · split
    · split <;> simp
    · split <;> simp

@[simp] theorem control_loadInterlace (s : State) (ch : ChannelId) (m : Word) :
    (s.loadInterlace ch m).control = s.control := by
  unfold State.loadInterlace
  dsimp only
  split <;> simp

/-! ### The instructions keep the control state -/

/-- A next state of the result, if any, has the control state of `s`. -/
def HoldsControl (s : State) (r : Result) : Prop := ∀ t, r = .next t → t.control = s.control

theorem HoldsControl.next {s t : State} (h : t.control = s.control) : HoldsControl s (.next t) := by
  intro u hu
  cases hu
  exact h

theorem HoldsControl.refused {s : State} (e : Refusal) : HoldsControl s (.refused e) := fun _ hu => nomatch hu

theorem HoldsControl.ite {c : Prop} [Decidable c] {s : State} {p q : Result} (hp : HoldsControl s p)
    (hq : HoldsControl s q) : HoldsControl s (if c then p else q) := by
  split
  · exact hp
  · exact hq

theorem HoldsControl.atEA {s : State} {code : BitVec 6} {r : Ref} {k : Addr → Result} (h : ∀ t, HoldsControl s (k t)) :
    HoldsControl s (s.atEA code r k) := by
  rcases atEA_cases s code r k with ⟨t, -, e⟩ | ⟨t, -, e⟩ <;> rw [e]
  · exact h t
  · exact .next rfl

theorem HoldsControl.atShiftEA {s : State} {code : BitVec 6} {r : Ref} {k : Addr → Result}
    (h : ∀ t, HoldsControl s (k t)) : HoldsControl s (s.atShiftEA code r k) := by
  rcases atShiftEA_cases s code r k with ⟨t, -, e⟩ | ⟨t, -, e⟩ <;> rw [e]
  · exact h t
  · exact .next rfl

theorem HoldsControl.withOperand {s : State} {code : BitVec 6} {r : Ref} {k : Word → State}
    (h : ∀ m, (k m).control = s.control) : HoldsControl s (s.withOperand code r k) := .atEA fun _ => .next (h _)

theorem HoldsControl.shiftRight (s : State) (t : Addr) : HoldsControl s (s.shiftRight t) := by
  unfold State.shiftRight
  dsimp only
  split
  iterate 3 exact .next rfl
  exact .refused _

theorem HoldsControl.shiftLeft (s : State) (t : Addr) : HoldsControl s (s.shiftLeft t) := by
  unfold State.shiftLeft
  dsimp only
  split
  iterate 3 exact .next rfl
  exact .refused _

theorem HoldsControl.bufferControl (s : State) (ch : ChannelId) (k : Conn) :
    HoldsControl s (s.bufferControl ch k) := by
  refine .next ?_
  split <;> simp

theorem HoldsControl.ioControl (s : State) (ch : ChannelId) (b9 : Bool) (fn : BitVec 5) (unit : BitVec 6) :
    HoldsControl s (s.ioControl ch b9 fn unit) :=
  .ite (.next (by simp)) <|
    .ite (.ite (.next (by simp)) (.ite (.next (by simp)) (.refused _))) <|
      .ite (.next (by simp)) <| .ite (.next (by simp)) <| .ite (.next (by simp)) <|
        .ite (.next (by simp)) (.refused _)

theorem HoldsControl.channelTest (s : State) (ch : ChannelId) (fn : BitVec 5) (k : Bool) :
    HoldsControl s (s.channelTest ch fn k) := .next rfl

theorem HoldsControl.deviceTest (s : State) (ch : ChannelId) (fn : BitVec 5) (unit : BitVec 6) :
    HoldsControl s (s.deviceTest ch fn unit) := .next rfl

theorem HoldsControl.memoryIntoBuffer (s : State) (code : BitVec 6) (ch : ChannelId) (r : Ref) :
    HoldsControl s (s.memoryIntoBuffer code ch r) := .atEA fun _ => .ite (.next (by simp)) (.next rfl)

theorem HoldsControl.bufferIntoMemory (s : State) (code : BitVec 6) (ch : ChannelId) (r : Ref) :
    HoldsControl s (s.bufferIntoMemory code ch r) := .atEA fun _ => .ite (.next (by simp)) (.next rfl)

theorem HoldsControl.execMul (r : Ref) (s : State) : HoldsControl s (execMul r s) := by
  refine .withOperand fun m => ?_
  split <;> rfl

theorem HoldsControl.execDiv (r : Ref) (s : State) : HoldsControl s (execDiv r s) := by
  refine .withOperand fun m => ?_
  dsimp only
  split <;> rfl

theorem HoldsControl.execBru (r : Ref) (s : State) : HoldsControl s (execBru r s) := by
  refine .atEA fun t => .next ?_
  split <;> rfl

theorem HoldsControl.execBrx (r : Ref) (s : State) : HoldsControl s (execBrx r s) := by
  refine .atEA fun t => .next ?_
  split <;> rfl

theorem HoldsControl.execExttest (t3 t2 : Bool) (s : State) : HoldsControl s (execExttest t3 t2 s) :=
  .ite (.next rfl) (.refused _)

theorem HoldsControl.execRch (f : RegFn) (s : State) : HoldsControl s (execRch f s) :=
  .ite (.refused _) (.next (by simp))

/-- PIN: one alerted channel, none, or several (48 R388). -/
theorem HoldsControl.execPin (r : Ref) (s : State) : HoldsControl s (execPin r s) := by
  refine .atEA fun t => ?_
  dsimp only
  split
  · split
    · exact .next (control_request s .pinRequest)
    · exact .next (control_request s .pinRequest)
  · exact .next rfl
  · exact .refused _

/-- POT: the arm-interrupt unit, an interlace, a subchannel or an external device (48 R389). -/
theorem HoldsControl.execPot (r : Ref) (s : State) : HoldsControl s (execPot r s) := by
  refine .atEA fun t => ?_
  dsimp only
  refine .ite (.refused _) (.ite (.next rfl) ?_)
  split
  · exact .ite (.refused _) (.next (control_loadInterlace s _ _))
  · split
    · exact .next rfl
    · exact .ite (.next (control_request s .potRequest)) (.next (control_request s .potRequest))

theorem HoldsControl.internalTest (s : State) (f : IoFn) : HoldsControl s (s.internalTest f) := by
  unfold State.internalTest
  refine .ite (.refused _) ?_
  split
  iterate 8 exact .next rfl
  exact .ite (.next rfl) (.refused _)

theorem HoldsControl.execSks (f : IoFn) (s : State) : HoldsControl s (execSks f s) := by
  unfold Machine.execSks
  split
  · exact .ite (.ite (.refused _) (.execExttest _ _ s)) (.ite (.next rfl) (.refused _))
  · refine .ite (.deviceTest s _ _ _) ?_
    split
    iterate 4 exact .channelTest s _ _ _
    exact .ite (.refused _) (.next rfl)
  · exact .internalTest s f
  · exact .next rfl

/-- EOM and EOD in the Input/Output Control mode. -/
theorem HoldsControl.ioControl_mode {f : IoFn} (hi : Bool) (s : State) (hm : f.mode = 1) :
    HoldsControl s (exec (if hi then .eod f else .eom f) s) := by
  rw [exec_ioControl_mode hi s (by rw [hm]; rfl)]
  exact .ioControl s _ _ _ _

/-- A general EOM that no closer row names is an Input/Output Control word, or is unlisted. -/
theorem HoldsControl.eom {ctx : ChannelId → ChanCtx} {f : IoFn} (s : State)
    (hw : (Instr.eom f).wellFormed ctx = true) : HoldsControl s (exec (.eom f) s) := by
  rcases Bool.or_eq_true_iff.1 hw with h | h
  · have hm : f.mode = 1 := eq_of_beq (Bool.and_eq_true_iff.1 (Bool.and_eq_true_iff.1 h).1).1
    exact .ioControl_mode false s hm
  · obtain ⟨hm, hn⟩ := Bool.and_eq_true_iff.1 h
    have unlisted : f.b1 = true ∨ f.b9 = true ∨ f.fn.toNat ∉ [1, 2, 4, 8, 16, 64, 128] := by
      by_contra hc
      simp only [not_or, not_not, Bool.not_eq_true] at hc
      obtain ⟨h1, h9, hfn⟩ := hc
      rw [h1, h9, List.contains_iff_mem.2 hfn] at hn
      exact nomatch hn
    rw [exec_eom_unlisted (congrArg BitVec.toNat (eq_of_beq hm)) unlisted]
    exact .refused _

/-- Of a general EOD the same; it has no System mode. -/
theorem HoldsControl.eod {ctx : ChannelId → ChanCtx} {f : IoFn} (s : State)
    (hw : (Instr.eod f).wellFormed ctx = true) : HoldsControl s (exec (.eod f) s) := by
  rcases Bool.or_eq_true_iff.1 hw with h | hm
  · rcases Bool.or_eq_true_iff.1 h with h | h
    · have hm : f.mode = 1 := eq_of_beq (Bool.and_eq_true_iff.1 (Bool.and_eq_true_iff.1 h).1).1
      exact .ioControl_mode true s hm
    · obtain ⟨hm, hn⟩ := Bool.and_eq_true_iff.1 h
      have unlisted : f.b1 = true ∨ f.b9 = true ∨ f.fn.extractLsb' 8 4 ≠ 0 := by
        by_contra hc
        simp only [not_or, not_not, Bool.not_eq_true] at hc
        obtain ⟨h1, h9, hfn⟩ := hc
        rw [h1, h9, hfn] at hn
        exact nomatch hn
      rw [exec_eod_unlisted (congrArg BitVec.toNat (eq_of_beq hm)) unlisted]
      exact .refused _
  · rw [exec_eod_system (congrArg BitVec.toNat (eq_of_beq hm))]
    exact .refused _

/-- The instructions that set what the control state shows. -/
def setsControl : Instr → Bool
  | .eir | .dir | .setext _ _ _ _ | .rtcarm | .rtcdisarm => true
  | _ => false

theorem eq_of_setsControl {i : Instr} (h : setsControl i = true) :
    i = .eir ∨ i = .dir ∨ i = .rtcarm ∨ i = .rtcdisarm ∨ ∃ s3 s2 r3 r2, i = .setext s3 s2 r3 r2 := by
  unfold setsControl at h
  split at h
  · exact .inl rfl
  · exact .inr (.inl rfl)
  · exact .inr (.inr (.inr (.inr ⟨_, _, _, _, rfl⟩)))
  · exact .inr (.inr (.inl rfl))
  · exact .inr (.inr (.inr (.inl rfl)))
  · exact nomatch h

/-- No other instruction changes the control state. The arms stand in groups of one shape, as those of `exec` in
`KeepsResult.exec`. -/
theorem HoldsControl.exec {ctx : ChannelId → ChanCtx} {i : Instr} (s : State) (hw : i.wellFormed ctx = true)
    (hi : setsControl i = false) : HoldsControl s (exec i s) := by
  match i with
  | .eir | .dir | .setext _ _ _ _ | .rtcarm | .rtcdisarm => exact nomatch hi
  | .hlt | .nop | .rov | .reo | .ovt | .bpt1 | .bpt2 | .bpt3 | .bpt4 | .iet | .idt | .air | .pfst | .syssks _
  | .syseom _ | .pop _ _ => exact .next rfl
  | .cla | .clb | .clr | .cab | .cba | .xab | .bac | .abc | .clx | .cxa | .cax | .xxa | .cbx | .cxb | .xxb | .ste
  | .lde | .xee | .cna => exact .next (control_registerChange s _)
  | .lda _ | .ldb _ | .ldx _ | .add _ | .adc _ | .sub _ | .suc _ | .etr _ | .mrg _ | .eor _ | .brr _ | .ske _
  | .skg _ | .skm _ | .ska _ | .skb _ | .skn _ | .skd _ =>
    dsimp only [Machine.exec]
    exact .withOperand fun _ => rfl
  | .eax _ | .exu _ | .sta _ | .stb _ | .stx _ | .xma _ | .adm _ | .min _ | .skr _ | .brm _ =>
    exact .atEA fun _ => .next rfl
  | .mul r => exact .execMul r s
  | .div r => exact .execDiv r s
  | .bru r => exact .execBru r s
  | .brx r => exact .execBrx r s
  | .rch f => exact .execRch f s
  | .rsh _ | .rcy _ | .lrsh _ => exact .atShiftEA fun t => .shiftRight s t
  | .lsh _ | .lcy _ | .nod _ => exact .atShiftEA fun t => .shiftLeft s t
  | .exttest t3 t2 => exact .execExttest t3 t2 s
  | .eom f => exact .eom s hw
  | .eod f => exact .eod s hw
  | .sks f => exact .execSks f s
  | .miw r | .miy r => exact .memoryIntoBuffer s _ _ r
  | .wim r | .yim r => exact .bufferIntoMemory s _ _ r
  | .pin r => exact .execPin r s
  | .pot r => exact .execPot r s
  | .connect _ _ | .dsc _ | .rkb _ _ | .typ _ _ | .rpt _ _ | .ptl _ _ | .ppt _ _ | .rcd _ _ | .rcb _ _ | .pcd _ _
  | .pcb _ _ | .plp _ _ | .wtb _ _ _ | .wtd _ _ _ | .eft _ _ _ | .ert _ _ _ | .rtb _ _ _ | .rtd _ _ _ | .sfb _ _ _
  | .sfd _ _ _ | .srb _ _ _ | .srd _ _ _ => exact .bufferControl s _ _
  | .alc _ | .asc _ | .top _ | .ilc _ _ | .ioctl _ _ _ | .src _ | .rts _ | .rew _ _ | .srr _ | .pol _ | .psc _ _
  | .psp _ _ => exact .ioControl s _ _ _ _
  | .cat _ | .czt _ | .cet _ | .cit _ | .brtw | .brty | .betw | .bety => exact .channelTest s _ _ _
  | .devtest _ _ _ | .crt _ | .fct _ | .cft _ | .pbt _ | .cpt _ | .trt _ _ | .fpt _ _ | .btt _ _ | .ett _ _
  | .dt2 _ _ | .dt5 _ _ | .dt8 _ _ | .tgt _ _ | .magpak _ _ | .tft _ | .pft _ | .prt _ | .ept _ =>
    exact .deviceTest s _ _ _

/-- Settles O6: each of the five instructions sets its own field and no other; the rest keep the control state. -/
theorem controlStateChanges : Obligations.ControlStateChanges := by
  intro ctx i s t hw ht
  cases hi : setsControl i with
  | false =>
    obtain ⟨hien, hem2, hem3, hrtc, hconsole, hpower, hblocks, hsubs, hparity, hschedule, hcfg⟩ :=
      (control_eq_iff s t).1 (HoldsControl.exec s hw hi t ht)
    exact ⟨fun h => absurd hien h, fun h => absurd h (not_or.2 ⟨not_not.2 hem2, not_not.2 hem3⟩),
      fun h => absurd hrtc h, hconsole, hpower, hblocks, hsubs, hparity, hschedule, hcfg⟩
  | true =>
    have same {α : Type} {v : α} {c : Prop} (h : v ≠ v) : c := absurd rfl h
    rcases eq_of_setsControl hi with rfl | rfl | rfl | rfl | ⟨s3, s2, r3, r2, rfl⟩
    · cases ht
      exact ⟨fun _ => .inl rfl, fun h => h.elim same same, same, rfl, rfl, rfl, rfl, rfl, rfl, rfl⟩
    · cases ht
      exact ⟨fun _ => .inr rfl, fun h => h.elim same same, same, rfl, rfl, rfl, rfl, rfl, rfl, rfl⟩
    · cases ht
      exact ⟨same, fun h => h.elim same same, fun _ => .inl rfl, rfl, rfl, rfl, rfl, rfl, rfl, rfl⟩
    · cases ht
      exact ⟨same, fun h => h.elim same same, fun _ => .inr rfl, rfl, rfl, rfl, rfl, rfl, rfl, rfl⟩
    · simp only [exec, execSetext] at ht
      split at ht
      · cases ht
        exact ⟨same, fun _ => ⟨s3, s2, r3, r2, rfl⟩, same, rfl, rfl, rfl, rfl, rfl, rfl, rfl⟩
      · exact nomatch ht

end Sys2Proof.Machine
end

section
/-! PROOFS. The operator's set and clear buttons, MEMORY CLEAR and FILL (70_reset_and_hazards R592 to R598), and a
memory increment on the second memory path (49_io_devices R501). -/

namespace Sys2Proof.Machine

open Sys2Proof

/-! ### The operator's procedures -/

theorem operatorEvent_next {ok : Bool} (h : ok = true) (t : State) : operatorEvent ok t = .next t := if_pos h

theorem isIdle_of_between {s : State} (hp : s.power = .on) (hr : s.console.runSwitch = .idle) (hb : s.Between) :
    s.isIdle = true := by
  rcases hb with hc | hc <;> simp [State.isIdle, hp, hr, hc]

/-- The set button of bit `i`, counted from the left. -/
theorem bit_or_twoPow (w : Word) (i : Fin 24) {k : Nat} (hk : k < 24) :
    bit (w ||| BitVec.twoPow 24 (23 - i.val)) k = if k = i.val then true else bit w k := by
  have hi := i.isLt
  have single : bit (BitVec.twoPow 24 (23 - i.val)) k = decide (k = i.val) := by
    simp only [bit, BitVec.getMsbD_eq_getLsbD, BitVec.getLsbD_twoPow, hk, decide_true, Bool.true_and]
    rw [← Bool.decide_and]
    exact decide_eq_decide.2 (by omega)
  rw [bit_or, single]
  by_cases h : k = i.val <;> simp [h]

/-! ### MEMORY CLEAR (70 R598) -/

/-- A zero stored where nothing is protected reads back, also where no memory is installed. -/
theorem store_zero_memRead {s : State} {a : PAddr} (h : s.lockedOut a = false) : (s.store a 0).memRead a = 0 := by
  rw [store_memRead_self]
  split
  · rfl
  · next hw =>
    refine memRead_absent s a (Nat.not_lt.1 fun installed => hw ?_)
    simp only [State.lockedOut, installed, decide_true, Bool.true_and] at h
    simp only [State.writable, installed, decide_true, Bool.true_and, h, Bool.not_false]

/-- MEMORY CLEAR changes memory and the requests of the lock-out only. -/
theorem clearMemory_frame (s : State) (n : Nat) :
    ∃ mem waiting, s.clearMemory n = { s with mem := mem, waiting := waiting } := by
  induction n with
  | zero => exact ⟨s.mem, s.waiting, rfl⟩
  | succ n ih =>
    obtain ⟨mem, waiting, h⟩ := ih
    rw [State.clearMemory, h]
    exact ⟨_, _, rfl⟩

theorem clearMemory_succ_memRead (s : State) (n : Nat) (k : PAddr) :
    (s.clearMemory (n + 1)).memRead k = ((s.clearMemory n).store (s.phys (BitVec.ofNat 14 n)) 0).memRead k := by
  obtain ⟨mem, waiting, h⟩ := clearMemory_frame s n
  rw [State.clearMemory, h]
  rfl

/-- A word that none of the first `n` program addresses reaches has not changed. -/
theorem clearMemory_memRead_other {s : State} {k : PAddr} (n : Nat) (hk : ∀ e, s.phys e ≠ k) :
    (s.clearMemory n).memRead k = s.memRead k := by
  induction n with
  | zero => rfl
  | succ n ih => rw [clearMemory_succ_memRead, store_memRead_ne _ _ _ (hk _).symm, ih]

/-- The words that the first `n` program addresses reach read zero where the lock-out does not protect them. -/
theorem clearMemory_memRead_reached {s : State} {n : Nat} {e : Addr} (he : e.toNat < n)
    (hl : s.lockedOut (s.phys e) = false) : (s.clearMemory n).memRead (s.phys e) = 0 := by
  induction n with
  | zero => exact absurd he (Nat.not_lt_zero _)
  | succ n ih =>
    rw [clearMemory_succ_memRead]
    by_cases hlast : s.phys e = s.phys (BitVec.ofNat 14 n)
    · have hcleared : (s.clearMemory n).lockedOut (s.phys e) = false := by
        obtain ⟨mem, waiting, h⟩ := clearMemory_frame s n
        rw [h]
        exact hl
      rw [← hlast]
      exact store_zero_memRead hcleared
    · have hne : e.toNat ≠ n := fun h => hlast (by rw [← h, BitVec.ofNat_toNat, BitVec.setWidth_eq])
      rw [store_memRead_ne _ _ _ hlast]
      exact ih (by omega)

/-- Every program address is cleared, a protected word staying (70 R598; log 43). -/
theorem memoryClear_memRead (s : State) (e : Addr) : (s.clearMemory 16384).memRead (s.phys e) =
    if s.lockedOut (s.phys e) then s.memRead (s.phys e) else 0 := by
  cases hl : s.lockedOut (s.phys e) with
  | true => exact (Keeps.clearMemory s 16384).guarded _ hl
  | false => exact clearMemory_memRead_reached e.isLt hl

/-! ### FILL (70 R596) -/

/-- The fields of the connect that FILL makes (log 33). -/
def fillConn (unit : BitVec 6) : Conn :=
  { alert := false, reverse := false, noLeader := true, binary := true, cpw := 3, unit := unit }

/-- FILL from an input unit: the forced instruction, X, and the connected channel W. -/
theorem fill_input {s : State} {u : BitVec 6} (hw : s.hasChan .w = true) (hu : u ≠ 0) (hi : u.msb = false) :
    s.fill u = { s with
      c := 0o03200002, cState := .forced, x := 0o77777771, halted := false
      chans := s.chans.set .w ((s.chan .w).connected (fillConn u) false)
      out := .connect .w u false true true :: s.out } := by
  refine (if_pos hw).trans ((connectUnit_plain _ .w (fillConn u) hu (.inl rfl)).trans ?_)
  exact if_neg (by simp [fillConn, hi])

theorem applyEvent_fill {s : State} (hp : s.power = .on) (hr : s.console.runSwitch = .run) (hl : s.halted = true)
    (h1 : s.p = 1) : applyEvent (.fill 0o04) s = .next (s.fill 0o04) :=
  operatorEvent_next (by simp [hp, hr, hl, h1]) _

/-! ### The second memory path (49 R501) -/

theorem increment_whole_toNat (w : Word) : (increment .whole w).toNat = (w.toNat + 1) % 2 ^ 24 := by
  simp [increment]

/-- Settles O60: the buttons as their record updates, MEMORY CLEAR by what it leaves of each address, FILL by its next
state, and the increment by the rule of a store. -/
theorem hostSide : Obligations.HostSide := by
  refine fun s => ⟨fun hp hr hb => ?operator, fun hp hr hl h1 hw => ?fill, fun hp a => ?increment⟩
  case operator =>
    have idle := isIdle_of_between hp hr hb
    refine ⟨fun i => ⟨_, operatorEvent_next idle _, fun k hk => bit_or_twoPow s.a i hk⟩, operatorEvent_next idle _,
      s.clearMemory 16384, operatorEvent_next idle _, ?_, memoryClear_memRead s,
      fun k => clearMemory_memRead_other 16384⟩
    obtain ⟨mem, waiting, h⟩ := clearMemory_frame s 16384
    rw [h]
  case fill =>
    have hfill := fill_input (u := 0o04) hw (by decide) (by decide)
    exact ⟨_, (applyEvent_fill hp hr hl h1).trans (congrArg Host.Outcome.next hfill), rfl, rfl, rfl, rfl, rfl, rfl,
      rfl, rfl, rfl, rfl, rfl⟩
  case increment =>
    exact ⟨_, increment .whole (s.memRead a), poweredEvent_on hp _, increment_whole_toNat _, rfl,
      store_stored s a _⟩

end Sys2Proof.Machine
end

section
/-! PROOFS. The closest row of a word (30_encoding R109, R111): of each format the decoder answers the general form
where that form is well formed, and a row of its own, well formed too, where it is not. -/

namespace Sys2Proof.Machine

open Sys2Proof

/-! ### The closest row -/

/-- `i` is the row that stands for the word of the general form `general`: that form itself where it is well formed, and
a closer row where it is not. -/
def ClosestRow (ctx : ChannelId → ChanCtx) (general i : Instr) : Prop :=
  general.wellFormed ctx = true ∧ i = general ∨ general.wellFormed ctx = false ∧ i.wellFormed ctx = true

theorem ClosestRow.wellFormed {ctx : ChannelId → ChanCtx} {general i : Instr} (h : ClosestRow ctx general i) :
    i.wellFormed ctx = true := by
  rcases h with ⟨hw, rfl⟩ | ⟨-, hw⟩
  · exact hw
  · exact hw

theorem ClosestRow.eq {ctx : ChannelId → ChanCtx} {general i : Instr} (h : ClosestRow ctx general i)
    (hw : general.wellFormed ctx = true) : i = general := by
  rcases h with ⟨-, h⟩ | ⟨hn, -⟩
  · exact h
  · exact absurd hw (Bool.not_eq_true _ ▸ hn)

/-! ### Unit addresses in two octal digits -/

theorem append_extract (unit : BitVec 6) : unit.extractLsb' 3 3 ++ unit.extractLsb' 0 3 = unit := by
  revert unit; decide

theorem exists_digits (unit : BitVec 6) : ∃ a b : BitVec 3, unit = a ++ b := ⟨_, _, (append_extract unit).symm⟩

theorem extract_high (a b : BitVec 3) : (a ++ b).extractLsb' 3 3 = a := by
  revert a b; decide

theorem extract_low (a b : BitVec 3) : (a ++ b).extractLsb' 0 3 = b := by
  revert a b; decide

theorem toNat_beq {w : Nat} (x y : BitVec w) : (x == y) = (x.toNat == y.toNat) := by
  rw [Bool.eq_iff_iff, beq_iff_eq, beq_iff_eq, BitVec.toNat_eq]

theorem append_beq (a b c d : BitVec 3) :
    (a ++ b == c ++ d) = (a.toNat == c.toNat && b.toNat == d.toNat) := by
  rw [Bool.eq_iff_iff, beq_iff_eq, Bool.and_eq_true, ← toNat_beq, ← toNat_beq, beq_iff_eq, beq_iff_eq]
  refine ⟨fun h => ⟨?_, ?_⟩, fun ⟨hac, hbd⟩ => by rw [hac, hbd]⟩
  · rw [← extract_high a b, h, extract_high]
  · rw [← extract_low a b, h, extract_low]

/-- The connects that have a row of their own, by the digits of the unit. -/
theorem namedConnect_digits (rev nl bin : Bool) (a b : BitVec 3) :
    namedConnect (BitVec.ofBool rev ++ BitVec.ofBool nl ++ BitVec.ofBool bin) (a ++ b) =
      (!rev && !nl && !bin && a.toNat == 4 && b.toNat == 4 ||
      !rev && nl && !bin &&
        ((a.toNat == 0 || a.toNat == 4) && (b.toNat == 1 || b.toNat == 4) || a.toNat == 6 && b.toNat == 0) ||
      !rev && nl && ((a.toNat == 0 || a.toNat == 4) && b.toNat == 6 || [5, 1, 3].contains a.toNat) ||
      nl && bin && a.toNat == 7 || rev && nl && a.toNat == 3) := by
  revert rev nl bin a b; decide

/-- The device commands that have a row of their own, by the digits of the unit. -/
theorem namedIoctl_digits (fn : BitVec 5) (a b : BitVec 3) :
    namedIoctl fn (a ++ b) =
      (a.toNat == 0 && b.toNat == 6 && fn.toNat == 0b01000 || a.toNat == 1 && b.toNat == 0 && fn.toNat == 0b01111 ||
      a.toNat == 1 && fn.toNat == 0b10000 || a.toNat == 6 && b.toNat == 0 && fn.toNat == 0b00001 ||
      a.toNat == 6 && b.toNat == 0 && (fn.extractLsb' 0 2 == 0b10 || fn.extractLsb' 0 2 == 0b11)) := by
  have unit06 : (a ++ b == (0o06 : BitVec 6)) = (a.toNat == 0 && b.toNat == 6) := append_beq a b 0 6
  have unit10 : (a ++ b == (0o10 : BitVec 6)) = (a.toNat == 1 && b.toNat == 0) := append_beq a b 1 0
  have unit60 : (a ++ b == (0o60 : BitVec 6)) = (a.toNat == 6 && b.toNat == 0) := append_beq a b 6 0
  unfold namedIoctl
  rw [extract_high, unit06, unit10, unit60, toNat_beq a, toNat_beq fn, toNat_beq fn, toNat_beq fn, toNat_beq fn]
  rfl

/-- The device tests that have a row of their own, by the digits of the unit. -/
theorem namedDevtest_digits (fn : BitVec 5) (a b : BitVec 3) :
    namedDevtest fn (a ++ b) =
      (a.toNat == 0 && b.toNat == 6 && (fn.toNat == 0b01000 || fn.toNat == 0b10000 || fn.toNat == 0b00100) ||
      a.toNat == 4 && b.toNat == 6 && (fn.toNat == 0b01000 || fn.toNat == 0b10000) ||
      a.toNat == 1 &&
        [0b00010, 0b10000, 0b01000, 0b00100, 0b11001, 0b11011, 0b11101, 0b01011, 0b00001].contains fn.toNat ||
      a.toNat == 1 && b.toNat == 0 && fn.toNat == 0b01111 ||
      a.toNat == 6 && b.toNat == 0 && (fn.toNat == 0b00100 || fn.toNat == 0b01000 || fn.toNat == 0b10000)) := by
  have unit06 : (a ++ b == (0o06 : BitVec 6)) = (a.toNat == 0 && b.toNat == 6) := append_beq a b 0 6
  have unit46 : (a ++ b == (0o46 : BitVec 6)) = (a.toNat == 4 && b.toNat == 6) := append_beq a b 4 6
  have unit10 : (a ++ b == (0o10 : BitVec 6)) = (a.toNat == 1 && b.toNat == 0) := append_beq a b 1 0
  have unit60 : (a ++ b == (0o60 : BitVec 6)) = (a.toNat == 6 && b.toNat == 0) := append_beq a b 6 0
  unfold namedDevtest
  rw [extract_high, unit06, unit46, unit10, unit60, toNat_beq a]
  simp only [toNat_beq fn]
  rfl

/-! ### Register changes -/

theorem closestRow_regFn (ctx : ChannelId → ChanCtx) (f : RegFn) : ClosestRow ctx (.rch f) (decodeRegFn f) := by
  cases hn : f.named with
  | false =>
    refine .inl ⟨by simp [Instr.wellFormed, hn], ?_⟩
    simp only [RegFn.named, List.contains_eq_mem, decide_eq_false_iff_not, List.mem_cons, not_or] at hn
    simp only [decodeRegFn, hn, if_false]
  | true =>
    refine .inr ⟨by simp [Instr.wellFormed, hn], ?_⟩
    simp only [RegFn.named, List.contains_eq_mem, decide_eq_true_eq] at hn
    fin_cases hn <;> rfl

/-! ### Units of a channel -/

/-- Buffer Control (48_io_instructions R355, R356): the named connects and DSC, by bits 12 to 14 and the unit. -/
theorem closestRow_connect (ctx : ChannelId → ChanCtx) (ch : ChannelId) (c : Conn) :
    ClosestRow ctx (.connect ch c) (decodeConnect ch c) := by
  obtain ⟨alert, rev, nl, bin, cpw, unit⟩ := c
  obtain ⟨a, b, rfl⟩ := exists_digits unit
  have zero : (a ++ b == (0 : BitVec 6)) = (a.toNat == 0 && b.toNat == 0) := append_beq a b 0 0
  simp only [ClosestRow, Instr.wellFormed, namedConnect_digits, zero]
  clear zero
  unfold decodeConnect
  dsimp only
  rw [extract_high, extract_low]
  split
  case h_1 =>
    split
    · refine .inr ⟨?_, rfl⟩
      simp_all
    · refine .inl ⟨?_, rfl⟩
      cases alert <;> simp_all
  case h_22 =>
    refine .inl ⟨?_, rfl⟩
    simp only [Bool.and_eq_true, Bool.not_eq_true', Bool.or_eq_false_iff, Bool.and_eq_false_iff, Bool.not_eq_false',
      beq_eq_false_iff_ne, List.contains_eq_mem, decide_eq_false_iff_not, List.mem_cons, List.not_mem_nil]
    grind
  all_goals
    refine .inr ⟨?_, rfl⟩
    simp [*]

/-- The device commands, where the channel's interlace is not alerted (48_io_instructions R357). -/
theorem closestRow_ioctl {ctx : ChannelId → ChanCtx} {ch : ChannelId} (hc : ctx ch ≠ .alerted) (fn : BitVec 5)
    {unit : BitVec 6} (hu : unit ≠ 0) : ClosestRow ctx (.ioctl ch fn unit) (decodeIoctl ch fn unit) := by
  have wf : (Instr.ioctl ch fn unit).wellFormed ctx = !namedIoctl fn unit := by
    simp only [Instr.wellFormed, bne_iff_ne.2 hc, bne_iff_ne.2 hu, Bool.true_and]
  clear hu
  obtain ⟨a, b, rfl⟩ := exists_digits unit
  rw [ClosestRow, wf, namedIoctl_digits]
  clear wf
  unfold decodeIoctl
  dsimp only
  rw [extract_high, extract_low]
  split
  case h_5 =>
    split
    · refine .inr ⟨?_, bne_iff_ne.2 hc⟩
      simp [*]
    · split
      · refine .inr ⟨?_, bne_iff_ne.2 hc⟩
        simp [*]
      · refine .inl ⟨Bool.not_eq_true' _ ▸ ?_, rfl⟩
        simp_all
  case h_6 =>
    refine .inl ⟨Bool.not_eq_true' _ ▸ ?_, rfl⟩
    simp_all
  all_goals
    refine .inr ⟨?_, bne_iff_ne.2 hc⟩
    simp [*]

theorem closestRow_devtest (ctx : ChannelId → ChanCtx) (ch : ChannelId) (fn : BitVec 5) {unit : BitVec 6}
    (hu : unit ≠ 0) : ClosestRow ctx (.devtest ch fn unit) (decodeDevtest ch fn unit) := by
  have wf : (Instr.devtest ch fn unit).wellFormed ctx = !namedDevtest fn unit := by
    simp only [Instr.wellFormed, bne_iff_ne.2 hu, Bool.true_and]
  clear hu
  obtain ⟨a, b, rfl⟩ := exists_digits unit
  rw [ClosestRow, wf, namedDevtest_digits]
  clear wf
  unfold decodeDevtest
  dsimp only
  rw [extract_high, extract_low]
  split
  case h_19 =>
    refine .inl ⟨Bool.not_eq_true' _ ▸ ?_, rfl⟩
    simp_all
  all_goals
    refine .inr ⟨?_, rfl⟩
    simp [*]

/-! ### EOM, EOD and SKS -/

/-- An interlace-control word of a channel that is not alerted has bits 17 to 23 zero but the channel's, and is not the
word of ASC or of TOP (48_io_instructions R357, R359). -/
theorem wellFormed_ilc_unit_zero (ctx : ChannelId → ChanCtx) (ch : ChannelId) {f : Fields} (hu : f.unit = 0)
    (hasc : f.fn ≠ 0b01000) (htop : f.fn ≠ 0b10000) : (Instr.ilc ch f.ilcFn).wellFormed ctx = true := by
  have others : ∀ fn : BitVec 5, fn ≠ 0b01000 → fn ≠ 0b10000 →
      (!(!fn.getMsbD 0 && fn.getMsbD 1 && !fn.getMsbD 2 && fn.extractLsb' 0 2 == 0) &&
        !(fn.getMsbD 0 && !fn.getMsbD 1 && !fn.getMsbD 2 && fn.extractLsb' 0 2 == 0)) = true := by decide
  have h := others f.fn hasc htop
  rw [Bool.and_eq_true] at h
  simp [Instr.wellFormed, Fields.ilcFn, hu] at h ⊢
  exact .inr h

/-- The Input/Output Control mode, with either general form. -/
theorem closestRow_ioControl {ctx : ChannelId → ChanCtx} {general : IoFn → Instr} (ch : ChannelId) {f : Fields}
    (hg : (general f.ioFn).wellFormed ctx = (f.b9 && !isAlcFn f.ioFn)) :
    ClosestRow ctx (general f.ioFn) (decodeIoControl ctx general ch f) := by
  unfold decodeIoControl
  cases h9 : f.b9 with
  | true =>
    rw [if_pos rfl]
    split
    next ha => exact .inr ⟨by simp [hg, ha], rfl⟩
    next ha => exact .inl ⟨by simp [hg, h9, ha], rfl⟩
  | false =>
    refine .inr ⟨by simp [hg, h9], ?_⟩
    rw [if_neg Bool.false_ne_true]
    split
    next hc => simp [Instr.wellFormed, hc]
    next hc =>
      split
      next hu =>
        split
        next => exact bne_iff_ne.2 hc
        next hasc =>
          split
          next =>
            split
            next ht => simp [Instr.wellFormed, ht]
            next ht => cases h : ctx ch <;> simp_all [Instr.wellFormed]
          next htop => exact wellFormed_ilc_unit_zero ctx ch hu hasc htop
      next hu => exact (closestRow_ioctl hc f.fn hu).wellFormed

theorem closestRow_internalControl {ctx : ChannelId → ChanCtx} {f : Fields} (hm : f.mode = 2) :
    ClosestRow ctx (.eom f.ioFn) (decodeInternalControl f) := by
  have wf : (Instr.eom f.ioFn).wellFormed ctx =
      !(!f.b1 && !f.b9 && [1, 2, 4, 8, 16, 64, 128].contains f.fn12.toNat) := by
    simp [Instr.wellFormed, Fields.ioFn, hm]
  rw [ClosestRow, wf]
  unfold decodeInternalControl
  split
  next h => exact .inl ⟨by cases h1 : f.b1 <;> simp_all, rfl⟩
  next h =>
    split
    case h_8 => exact .inl ⟨by simp_all, rfl⟩
    all_goals exact .inr ⟨by simp_all, rfl⟩

theorem closestRow_internalTest {ctx : ChannelId → ChanCtx} {f : Fields} (hm : f.mode = 2) :
    ClosestRow ctx (.sks f.ioFn) (decodeInternalTest f) := by
  have wf : (Instr.sks f.ioFn).wellFormed ctx = !(!f.b1 && !f.b9 &&
      [1, 2, 4, 8, 16, 32, 64, 128, 256, 512, 1024, 2048].contains f.fn12.toNat) := by
    simp [Instr.wellFormed, Fields.ioFn, hm]
  rw [ClosestRow, wf]
  unfold decodeInternalTest
  split
  next h => exact .inl ⟨by cases h1 : f.b1 <;> simp_all, rfl⟩
  next h =>
    split
    case h_13 => exact .inl ⟨by simp_all, rfl⟩
    all_goals exact .inr ⟨by simp_all, rfl⟩

/-- Every word of code 02 (30_encoding R111). -/
theorem closestRow_eom (ctx : ChannelId → ChanCtx) (f : Fields) : ClosestRow ctx (.eom f.ioFn) (decodeEom ctx f) := by
  have mode : f.ioFn.mode = f.mode := rfl
  unfold decodeEom
  dsimp only
  split
  next hm => exact .inr ⟨by simp [Instr.wellFormed, mode, BitVec.toNat_eq, hm], (closestRow_connect ctx _ _).wellFormed⟩
  next hm =>
    refine closestRow_ioControl _ ?_
    simp only [Instr.wellFormed, mode, toNat_beq f.mode, hm]
    simp [Fields.ioFn]
  next hm => exact closestRow_internalControl (BitVec.eq_of_toNat_eq hm)
  next h0 h1 h2 => exact .inr ⟨by simp_all [Instr.wellFormed, BitVec.toNat_eq], rfl⟩

/-! ### The fields of a general form, and every word of EOM, EOD and SKS -/

theorem fn5_ioFn (f : Fields) : f.ioFn.fn5 = f.fn := by
  apply BitVec.eq_of_getLsbD_eq
  intro i hi
  simp only [Fields.ioFn, Fields.fn12, IoFn.fn5, BitVec.getLsbD_append, BitVec.getLsbD_extractLsb']
  interval_cases i <;> simp

theorem unit_ioFn (f : Fields) : f.ioFn.unit = f.unit := by
  apply BitVec.eq_of_getLsbD_eq
  intro i hi
  simp only [Fields.ioFn, Fields.fn12, IoFn.unit, BitVec.getLsbD_append, BitVec.getLsbD_extractLsb']
  interval_cases i <;> simp

theorem extract_fn12_control (f : Fields) : f.fn12.extractLsb' 8 4 = f.fn.extractLsb' 1 4 := by
  apply BitVec.eq_of_getLsbD_eq
  intro i hi
  simp only [Fields.fn12, BitVec.getLsbD_append, BitVec.getLsbD_extractLsb']
  interval_cases i <;> simp

theorem extract_fn12_test (f : Fields) :
    (f.fn12.extractLsb' 2 10 == 0) = (f.fn == 0 && !f.b17 && f.unit.extractLsb' 2 4 == 0) := by
  have bits : f.fn12.extractLsb' 2 10 = f.fn ++ BitVec.ofBool f.b17 ++ f.unit.extractLsb' 2 4 := by
    apply BitVec.eq_of_getLsbD_eq
    intro i hi
    simp only [Fields.fn12, BitVec.getLsbD_append, BitVec.getLsbD_extractLsb']
    interval_cases i <;> simp
  rw [bits, toNat_beq, toNat_beq f.fn, toNat_beq (f.unit.extractLsb' 2 4), append_toNat, append_toNat]
  rw [Bool.eq_iff_iff]
  cases f.b17 <;> simp

/-- Every word of code 06 (30_encoding R111, 47_control R317). -/
theorem closestRow_eod (ctx : ChannelId → ChanCtx) (f : Fields) : ClosestRow ctx (.eod f.ioFn) (decodeEod ctx f) := by
  have mode : f.ioFn.mode = f.mode := rfl
  unfold decodeEod
  dsimp only
  split
  next hm => exact .inr ⟨by simp [Instr.wellFormed, mode, BitVec.toNat_eq, hm], (closestRow_connect ctx _ _).wellFormed⟩
  next hm =>
    refine closestRow_ioControl _ ?_
    simp only [Instr.wellFormed, mode, toNat_beq f.mode, hm]
    simp [Fields.ioFn]
  next hm =>
    have wf : (Instr.eod f.ioFn).wellFormed ctx = !(!f.b1 && !f.b9 && f.fn.extractLsb' 1 4 == 0) := by
      simp [Instr.wellFormed, toNat_beq f.mode, hm, Fields.ioFn, extract_fn12_control]
    rw [ClosestRow, wf]
    split
    next h => exact .inl ⟨by cases h1 : f.b1 <;> cases h9 : f.b9 <;> simp_all, rfl⟩
    next h => exact .inr ⟨by simp_all, rfl⟩
  next h0 h1 h2 =>
    have lt := f.mode.isLt
    have hm : f.mode.toNat = 3 := by
      rw [imp_false] at h0 h1 h2
      omega
    exact .inl ⟨by simp [Instr.wellFormed, mode, BitVec.toNat_eq, hm], rfl⟩

/-- Every word of code 40 (48_io_instructions R353, 47_control R318). -/
theorem closestRow_sks (ctx : ChannelId → ChanCtx) (f : Fields) : ClosestRow ctx (.sks f.ioFn) (decodeSks f) := by
  have mode : f.ioFn.mode = f.mode := rfl
  unfold decodeSks
  dsimp only
  split
  next hm =>
    have wf : (Instr.sks f.ioFn).wellFormed ctx =
        !(f.b9 && !f.b1 && f.fn == 0 && !f.b17 && f.unit.extractLsb' 2 4 == 0) := by
      rw [Bool.and_assoc, Bool.and_assoc (f.b9 && !f.b1), ← Bool.and_assoc (f.fn == 0), ← extract_fn12_test]
      simp [Instr.wellFormed, toNat_beq f.mode, hm, Fields.ioFn]
    rw [ClosestRow, wf]
    split
    next h => exact .inr ⟨by rw [h]; rfl, rfl⟩
    next h => exact .inl ⟨by rw [Bool.eq_false_of_not_eq_true h]; rfl, rfl⟩
  next hm =>
    have wf : (Instr.sks f.ioFn).wellFormed ctx = (f.unit == 0 && !([16, 8, 4, 2].contains f.fn.toNat)) := by
      simp [Instr.wellFormed, mode, toNat_beq f.mode, hm, unit_ioFn, fn5_ioFn]
    rw [ClosestRow, wf]
    split
    next hu =>
      split
      case h_5 => exact .inl ⟨by simp_all, rfl⟩
      all_goals exact .inr ⟨by simp_all, rfl⟩
    next hu => exact .inr ⟨by rw [beq_eq_false_iff_ne.2 hu]; rfl, (closestRow_devtest ctx _ _ hu).wellFormed⟩
  next hm => exact closestRow_internalTest (BitVec.eq_of_toNat_eq hm)
  next h0 h1 h2 => exact .inr ⟨by simp_all [Instr.wellFormed, BitVec.toNat_eq], rfl⟩

end Sys2Proof.Machine
end

section
/-! PROOFS. What the decoder answers is well formed, and which words it refuses as unassigned (30_encoding R109,
R110). -/

namespace Sys2Proof.Machine

open Sys2Proof

theorem kindBits_ref (f : Fields) : f.ref.kindBits = f.mode ++ f.fn.extractLsb' 2 3 := by
  apply BitVec.eq_of_getLsbD_eq
  intro i hi
  simp only [Fields.ref, Fields.addr, Ref.kindBits, BitVec.getLsbD_append, BitVec.getLsbD_extractLsb']
  interval_cases i <;> simp

theorem decodeShift_wellFormed {ctx : ChannelId → ChanCtx} {left : Bool} {f : Fields} {i : Instr}
    (h : decodeShift left f = .ok i) : i.wellFormed ctx = true := by
  have indirect : f.ref.indirect = f.b9 := rfl
  unfold decodeShift at h
  rw [← kindBits_ref] at h
  dsimp only at h
  split at h
  all_goals
    split at h
    next hk => cases h; simp [Instr.wellFormed, hk]
    next hk =>
      split at h
      next hk => cases h; simp [Instr.wellFormed, hk]
      next hk' =>
        split at h
        next hz => cases h; cases h9 : f.b9 <;> simp_all [Instr.wellFormed]
        next => cases h

theorem decodeShift_ne_unassigned (left : Bool) (f : Fields) : decodeShift left f ≠ .error .unassignedCode := by
  unfold decodeShift
  dsimp only
  split
  all_goals
    split
    · exact nofun
    · split
      · exact nofun
      · split <;> exact nofun

/-- By the code: a memory reference has no other form, a shift is named by its kind, and the other codes answer the
closest row. -/
theorem decodeFields_wellFormed {ctx : ChannelId → ChanCtx} {f : Fields} {i : Instr}
    (h : decodeFields ctx f = .ok i) : i.wellFormed ctx = true := by
  unfold decodeFields at h
  split at h
  · cases h; rfl
  · split at h
    case h_3 => cases h; exact (closestRow_eom ctx f).wellFormed
    case h_4 => cases h; exact (closestRow_eod ctx f).wellFormed
    case h_19 => cases h; exact (closestRow_sks ctx f).wellFormed
    case h_22 =>
      split at h
      · cases h
      · cases h; exact (closestRow_regFn ctx f.regFn).wellFormed
    case h_37 | h_38 => exact decodeShift_wellFormed h
    case h_47 => cases h
    all_goals cases h; rfl

/-- The codes the manual assigns (30_encoding R109). -/
def assignedCodes : List Nat :=
  [0o00, 0o01, 0o02, 0o06, 0o10, 0o12, 0o13, 0o14, 0o16, 0o17, 0o20, 0o23, 0o30, 0o32, 0o33, 0o35, 0o36, 0o37, 0o40,
   0o41, 0o43, 0o46, 0o50, 0o51, 0o52, 0o53, 0o54, 0o55, 0o56, 0o57, 0o60, 0o61, 0o62, 0o63, 0o64, 0o65, 0o66, 0o67,
   0o70, 0o71, 0o72, 0o73, 0o74, 0o75, 0o76, 0o77]

theorem mem_assignedCodes (code : BitVec 6) (h : code.toNat ∉ unassignedCodes) : code.toNat ∈ assignedCodes := by
  revert code; decide

/-- A word of an assigned code, or of a Programmed Operator, is never refused as unassigned. -/
theorem decodeFields_assigned (ctx : ChannelId → ChanCtx) {f : Fields}
    (h : f.b2 = false → f.code.toNat ∈ assignedCodes) : decodeFields ctx f ≠ .error .unassignedCode := by
  unfold decodeFields
  split
  · exact nofun
  · next h2 =>
    have hcode := h (Bool.eq_false_of_not_eq_true h2)
    generalize f.code.toNat = n at hcode
    fin_cases hcode
    -- In the order of the list: the register changes are its 22nd code, the shifts its 37th and 38th.
    iterate 21 exact nofun
    · change ite _ _ _ ≠ _
      split <;> exact nofun
    iterate 14 exact nofun
    iterate 2 exact decodeShift_ne_unassigned _ f
    all_goals exact nofun

theorem decodeFields_unassigned (ctx : ChannelId → ChanCtx) {f : Fields} (h2 : f.b2 = false)
    (hcode : f.code.toNat ∈ unassignedCodes) : decodeFields ctx f = .error .unassignedCode := by
  unfold decodeFields
  rw [h2]
  generalize f.code.toNat = n at hcode
  fin_cases hcode <;> rfl

theorem decodeFields_unassigned_iff (ctx : ChannelId → ChanCtx) (f : Fields) :
    decodeFields ctx f = .error .unassignedCode ↔ f.b2 = false ∧ f.code.toNat ∈ unassignedCodes := by
  refine ⟨fun h => ?_, fun ⟨h2, hcode⟩ => decodeFields_unassigned ctx h2 hcode⟩
  by_contra hn
  exact decodeFields_assigned ctx (fun h2 => mem_assignedCodes f.code fun hcode => hn ⟨h2, hcode⟩) h

/-- Settles O12: a word's instruction is that of its fields. -/
theorem decodeWellFormed : Obligations.DecodeWellFormed :=
  ⟨fun _ _ _ h => decodeFields_wellFormed h, fun ctx w => decodeFields_unassigned_iff ctx (Fields.split w)⟩

end Sys2Proof.Machine
end

section
/-! PROOFS. Decoding what the encoder writes (30_encoding R100 to R120, 48_io_instructions R355 to R359,
49_io_devices). -/

namespace Sys2Proof.Machine

open Sys2Proof

/-! ### Memory references -/

/-- The instructions with an effective address whose code alone names them. -/
def addressForms : List ((Ref → Instr) × BitVec 6) :=
  [(.lda, 0o76), (.sta, 0o35), (.ldb, 0o75), (.stb, 0o36), (.ldx, 0o71), (.stx, 0o37), (.eax, 0o77), (.xma, 0o62),
   (.add, 0o55), (.adc, 0o57), (.adm, 0o63), (.min, 0o61), (.sub, 0o54), (.suc, 0o56), (.mul, 0o64), (.div, 0o65),
   (.etr, 0o14), (.mrg, 0o16), (.eor, 0o17), (.bru, 0o01), (.brx, 0o41), (.brm, 0o43), (.brr, 0o51), (.ske, 0o50),
   (.skg, 0o73), (.skm, 0o70), (.ska, 0o72), (.skb, 0o52), (.skn, 0o53), (.skr, 0o60), (.skd, 0o74), (.exu, 0o23),
   (.miw, 0o12), (.wim, 0o32), (.miy, 0o10), (.yim, 0o30), (.pin, 0o33), (.pot, 0o13)]

/-- The shifts, whose kind is in their address (46_shift R280). -/
def shiftForms : List ((Ref → Instr) × BitVec 6) :=
  [(.rsh, 0o66), (.rcy, 0o66), (.lrsh, 0o66), (.lsh, 0o67), (.lcy, 0o67), (.nod, 0o67)]

theorem memoryReferences_eq (r : Ref) :
    memoryReferences r = (addressForms ++ shiftForms).map fun k => (k.1 r, k.2) := rfl

theorem decodeFields_addressForm {k : (Ref → Instr) × BitVec 6} (hk : k ∈ addressForms) (ctx : ChannelId → ChanCtx)
    (r : Ref) : decodeFields ctx (r.fields k.2) = .ok (k.1 r) := by
  refine Eq.trans ?_ (congrArg (fun q => Except.ok (k.1 q)) (Ref.fields_ref r k.2))
  fin_cases hk <;> rfl

theorem decodeFields_shiftForm {k : (Ref → Instr) × BitVec 6} (hk : k ∈ shiftForms) (ctx : ChannelId → ChanCtx)
    (r : Ref) : decodeFields ctx (r.fields k.2) = decodeShift (k.2 == 0o67) (r.fields k.2) := by
  fin_cases hk <;> rfl

theorem kind_fields (r : Ref) (code : BitVec 6) :
    (r.fields code).mode ++ (r.fields code).fn.extractLsb' 2 3 = r.kindBits := by
  rw [← kindBits_ref, Ref.fields_ref]

/-- A well-formed shift is the one its word's own bits name. -/
theorem decodeShift_fields {ctx : ChannelId → ChanCtx} {k : (Ref → Instr) × BitVec 6} (hk : k ∈ shiftForms)
    {r : Ref} (hw : (k.1 r).wellFormed ctx = true) :
    decodeShift (k.2 == 0o67) (r.fields k.2) = .ok (k.1 r) := by
  have indirect : (r.fields k.2).b9 = r.indirect := rfl
  simp only [decodeShift, kind_fields, Ref.fields_ref, indirect]
  fin_cases hk
  all_goals simp only [Instr.wellFormed] at hw
  · cases hi : r.indirect <;> simp_all
  · simp_all
  · simp_all
  · cases hi : r.indirect <;> simp_all
  · simp_all
  · simp_all

/-! ### Register changes -/

theorem regFn_fields (f : RegFn) : f.fields.regFn = f := by
  obtain ⟨b1, b14, b15, b16, b17, b18, b19, b20, b21, b22, b23⟩ := f
  simp only [RegFn.fields, Fields.regFn, RegFn.mk.injEq, BitVec.getMsbD, BitVec.getLsbD_append]
  simp

/-- Bits 9 to 13 of a register-change word are zero (43_register_change R221). -/
theorem unused_fields (f : RegFn) :
    (f.fields.b9 || f.fields.mode != 0 || f.fields.fn.extractLsb' 3 2 != 0) = false := by
  have unused : ∀ b14 b15 b16 : Bool,
      (0#2 ++ BitVec.ofBool b14 ++ BitVec.ofBool b15 ++ BitVec.ofBool b16 : BitVec 5).extractLsb' 3 2 = 0 := by decide
  simp [RegFn.fields, unused]

theorem decodeFields_registerChange (ctx : ChannelId → ChanCtx) {f : Fields} (h2 : f.b2 = false) (hcode : f.code = 0o46)
    (hunused : (f.b9 || f.mode != 0 || f.fn.extractLsb' 3 2 != 0) = false) :
    decodeFields ctx f = .ok (decodeRegFn f.regFn) := by
  unfold decodeFields
  rw [h2, hcode, hunused]
  rfl

theorem decodeFields_regFn (ctx : ChannelId → ChanCtx) (f : RegFn) :
    decodeFields ctx f.fields = .ok (decodeRegFn f) := by
  rw [decodeFields_registerChange ctx rfl rfl (unused_fields f), regFn_fields]

/-! ### Words that name a channel -/

/-- The general form of an Input/Output Control word for a channel: EOM for W to D, EOD for E to H. -/
def generalControl (ch : ChannelId) : IoFn → Instr := if ch.hi then .eod else .eom

theorem decodeFields_connect (ctx : ChannelId → ChanCtx) (ch : ChannelId) (b9 : Bool) (fn : BitVec 5)
    (unit : BitVec 6) : decodeFields ctx (chanFields ch b9 0b00 fn unit) =
      .ok (decodeConnect ch (chanFields ch b9 0b00 fn unit).conn) := by
  cases ch <;> rfl

theorem decodeFields_control (ctx : ChannelId → ChanCtx) (ch : ChannelId) (b9 : Bool) (fn : BitVec 5)
    (unit : BitVec 6) : decodeFields ctx (chanFields ch b9 0b01 fn unit) =
      .ok (decodeIoControl ctx (generalControl ch) ch (chanFields ch b9 0b01 fn unit)) := by
  cases ch <;> rfl

/-- A word of ALC (48_io_instructions R358). -/
theorem decodeFields_alc (ctx : ChannelId → ChanCtx) (ch : ChannelId) :
    decodeFields ctx (chanFields ch true 0b01 0 0) = .ok (.alc ch) := by
  cases ch <;> rfl

/-- An interlace-control word, with the channel's interlace alerted. -/
theorem decodeFields_alerted {ctx : ChannelId → ChanCtx} {ch : ChannelId} (hc : ctx ch = .alerted) (fn : BitVec 5)
    (unit : BitVec 6) : decodeFields ctx (chanFields ch false 0b01 fn unit) =
      .ok (.ilc ch (chanFields ch false 0b01 fn unit).ilcFn) := by
  rw [decodeFields_control]
  exact congrArg _ (if_pos hc)

/-- A device command, with the channel's interlace not alerted. -/
theorem decodeFields_command {ctx : ChannelId → ChanCtx} {ch : ChannelId} (hc : ctx ch ≠ .alerted) (fn : BitVec 5)
    {unit : BitVec 6} (hu : unit ≠ 0) :
    decodeFields ctx (chanFields ch false 0b01 fn unit) = .ok (decodeIoctl ch fn unit) := by
  rw [decodeFields_control]
  exact congrArg _ ((if_neg hc).trans (if_neg hu))

/-- A word with unit 00, with the channel's interlace not alerted. -/
theorem decodeFields_unit_zero {ctx : ChannelId → ChanCtx} {ch : ChannelId} (hc : ctx ch ≠ .alerted) (fn : BitVec 5)
    {unit : BitVec 6} (hu : unit = 0) : decodeFields ctx (chanFields ch false 0b01 fn unit) =
      .ok (if fn = 0b01000 then .asc ch
        else if fn = 0b10000 then (if ctx ch = .tapeInput then .rts ch else .top ch)
        else .ilc ch (chanFields ch false 0b01 fn unit).ilcFn) := by
  rw [decodeFields_control]
  exact congrArg _ ((if_neg hc).trans (if_pos hu))

theorem decodeFields_test (ctx : ChannelId → ChanCtx) (ch : ChannelId) {fn : BitVec 5} {unit : BitVec 6}
    (hu : unit ≠ 0) : decodeFields ctx (testFields ch fn unit) = .ok (decodeDevtest ch fn unit) := by
  have row : decodeFields ctx (testFields ch fn unit) = .ok (decodeSks (testFields ch fn unit)) := by
    cases ch <;> rfl
  have mode : decodeSks (testFields ch fn unit) = decodeDevtest ch fn unit := by
    cases ch <;> exact if_neg hu
  rw [row, mode]

theorem conn_fields (ch : ChannelId) (k : Conn) :
    (chanFields ch k.alert 0b00
      (BitVec.ofBool k.reverse ++ BitVec.ofBool k.noLeader ++ BitVec.ofBool k.binary ++ k.cpw) k.unit).conn = k := by
  obtain ⟨alert, rev, nl, bin, cpw, unit⟩ := k
  have bits : ∀ (rev nl bin : Bool) (cpw : BitVec 2),
      let fn : BitVec 5 := BitVec.ofBool rev ++ BitVec.ofBool nl ++ BitVec.ofBool bin ++ cpw
      fn.getMsbD 0 = rev ∧ fn.getMsbD 1 = nl ∧ fn.getMsbD 2 = bin ∧ fn.extractLsb' 0 2 = cpw := by decide
  obtain ⟨hrev, hnl, hbin, hcpw⟩ := bits rev nl bin cpw
  simp only [chanFields, Fields.conn, hrev, hnl, hbin, hcpw]

theorem ilcFn_fields (ch : ChannelId) (k : IlcFn) :
    (chanFields ch false 0b01 (BitVec.ofBool k.ia ++ BitVec.ofBool k.er ++ BitVec.ofBool k.zc ++ k.fc)
      (BitVec.ofBool k.hiAddr ++ k.hiCount)).ilcFn = k := by
  obtain ⟨ia, er, zc, fc, hiAddr, hiCount⟩ := k
  have bits : ∀ (ia er zc : Bool) (fc : BitVec 2),
      let fn : BitVec 5 := BitVec.ofBool ia ++ BitVec.ofBool er ++ BitVec.ofBool zc ++ fc
      fn.getMsbD 0 = ia ∧ fn.getMsbD 1 = er ∧ fn.getMsbD 2 = zc ∧ fn.extractLsb' 0 2 = fc := by decide
  have high : ∀ (hiAddr : Bool) (hiCount : BitVec 5), let unit : BitVec 6 := BitVec.ofBool hiAddr ++ hiCount
      unit.getMsbD 0 = hiAddr ∧ unit.extractLsb' 0 5 = hiCount := by decide
  obtain ⟨hia, her, hzc, hfc⟩ := bits ia er zc fc
  obtain ⟨haddr, hcount⟩ := high hiAddr hiCount
  simp only [chanFields, Fields.ilcFn, hia, her, hzc, hfc, haddr, hcount]

/-! ### The rows of the devices -/

/-- The connects of 49_io_devices are rows of Buffer Control. -/
theorem decodeConnect_row {ch : ChannelId} {k : DevFn} {n : BitVec 3} {c : Conn} {row : Instr × Conn}
    (h : row ∈ (connects ch k n c).tail) : decodeConnect ch row.2 = row.1 := by
  fin_cases h <;> simp [decodeConnect, extract_high, extract_low]

theorem decodeIoctl_row {ch : ChannelId} {n : BitVec 3} {fn : BitVec 5} {unit : BitVec 6}
    {row : Instr × BitVec 5 × BitVec 6} (h : row ∈ (commands ch n fn unit).tail) :
    decodeIoctl ch row.2.1 row.2.2 = row.1 := by
  have printer : ∀ m : BitVec 3, (m ++ 0b10#2).toNat ≠ 1 ∧ (m ++ 0b11#2).toNat ≠ 1 ∧
      (m ++ 0b10#2).extractLsb' 0 2 = 0b10#2 ∧ (m ++ 0b11#2).extractLsb' 0 2 = 0b11#2 ∧
      (m ++ 0b10#2).extractLsb' 2 3 = m ∧ (m ++ 0b11#2).extractLsb' 2 3 = m := by decide
  fin_cases h <;> simp [decodeIoctl, extract_high, extract_low, printer n]

theorem decodeDevtest_row {ch : ChannelId} {n : BitVec 3} {row : Instr × BitVec 5 × BitVec 6}
    (h : row ∈ deviceTests ch n) : decodeDevtest ch row.2.1 row.2.2 = row.1 := by
  fin_cases h <;> simp [decodeDevtest, extract_high, extract_low]

theorem decodeDevtest_tape {ch : ChannelId} {n : BitVec 3} {row : Instr × BitVec 5 × Bool}
    (h : row ∈ tapeTests ch n) : decodeDevtest ch row.2.1 (0b001#3 ++ n) = row.1 := by
  fin_cases h <;> simp [decodeDevtest, extract_high, extract_low]

theorem tapeUnit_ne_zero (n : BitVec 3) : (0b001#3 ++ n : BitVec 6) ≠ 0 := by
  revert n; decide

theorem unit_ne_zero_of_command {ch : ChannelId} {n : BitVec 3} {fn : BitVec 5} {unit : BitVec 6}
    {row : Instr × BitVec 5 × BitVec 6} (h : row ∈ (commands ch n fn unit).tail) : row.2.2 ≠ 0 := by
  fin_cases h
  iterate 3 exact ne_of_beq_false rfl
  · exact tapeUnit_ne_zero n
  all_goals exact ne_of_beq_false rfl

theorem unit_ne_zero_of_test {ch : ChannelId} {n : BitVec 3} {row : Instr × BitVec 5 × BitVec 6}
    (h : row ∈ deviceTests ch n) : row.2.2 ≠ 0 := by
  fin_cases h
  iterate 9 exact ne_of_beq_false rfl
  all_goals exact tapeUnit_ne_zero n

/-- A named connect is a Buffer Control word. -/
theorem decodeFields_devFields (ctx : ChannelId → ChanCtx) (ch : ChannelId) (k : DevFn) (rld : BitVec 3)
    (unit : BitVec 6) : decodeFields ctx (devFields ch k rld unit) =
      .ok (decodeConnect ch ⟨k.alert, rld.getMsbD 0, rld.getMsbD 1, rld.getMsbD 2, k.cpw, unit⟩) := by
  have bits : ∀ (rld : BitVec 3) (cpw : BitVec 2), (rld ++ cpw).getMsbD 0 = rld.getMsbD 0 ∧
      (rld ++ cpw).getMsbD 1 = rld.getMsbD 1 ∧ (rld ++ cpw).getMsbD 2 = rld.getMsbD 2 ∧
      (rld ++ cpw).extractLsb' 0 2 = cpw := by decide
  obtain ⟨hrev, hnl, hbin, hcpw⟩ := bits rld k.cpw
  rw [devFields, decodeFields_connect]
  simp only [chanFields, Fields.conn, hrev, hnl, hbin, hcpw]

theorem decodeFields_encode_connect {ch : ChannelId} {k : DevFn} {n : BitVec 3} {c : Conn} {i : Instr}
    (ctx : ChannelId → ChanCtx) (h : i ∈ (connects ch k n c).tail.map Prod.fst) :
    decodeFields ctx (encodeFields i) = .ok i := by
  obtain ⟨row, hrow, rfl⟩ := List.mem_map.1 h
  have fields : decodeFields ctx (encodeFields row.1) = .ok (decodeConnect ch row.2) := by
    fin_cases hrow <;> exact decodeFields_devFields ctx ch k _ _
  rw [fields, decodeConnect_row hrow]

theorem decodeFields_encode_command {ctx : ChannelId → ChanCtx} {ch : ChannelId} {n : BitVec 3} {fn : BitVec 5}
    {unit : BitVec 6} {i : Instr} (hc : ctx ch ≠ .alerted) (h : i ∈ (commands ch n fn unit).tail.map Prod.fst) :
    decodeFields ctx (encodeFields i) = .ok i := by
  obtain ⟨row, hrow, rfl⟩ := List.mem_map.1 h
  have fields : encodeFields row.1 = chanFields ch false 0b01 row.2.1 row.2.2 := by
    fin_cases hrow <;> rfl
  rw [fields, decodeFields_command hc _ (unit_ne_zero_of_command hrow), decodeIoctl_row hrow]

theorem decodeFields_encode_test {ch : ChannelId} {n : BitVec 3} {i : Instr} (ctx : ChannelId → ChanCtx)
    (h : i ∈ (deviceTests ch n).map Prod.fst) : decodeFields ctx (encodeFields i) = .ok i := by
  obtain ⟨row, hrow, rfl⟩ := List.mem_map.1 h
  have fields : encodeFields row.1 = testFields ch row.2.1 row.2.2 := by
    fin_cases hrow <;> rfl
  rw [fields, decodeFields_test ctx ch (unit_ne_zero_of_test hrow), decodeDevtest_row hrow]

theorem decodeFields_encode_tape {ch : ChannelId} {n : BitVec 3} {i : Instr} (ctx : ChannelId → ChanCtx)
    (h : i ∈ (tapeTests ch n).map Prod.fst) : decodeFields ctx (encodeFields i) = .ok i := by
  obtain ⟨row, hrow, rfl⟩ := List.mem_map.1 h
  have fields : encodeFields row.1 = testFields ch row.2.1 (0b001#3 ++ n) := by
    fin_cases hrow <;> rfl
  rw [fields, decodeFields_test ctx ch (tapeUnit_ne_zero n), decodeDevtest_tape hrow]

/-! ### The general forms -/

theorem ioFn_fields (f : IoFn) (code : BitVec 6) : (f.fields code).ioFn = f := by
  simp only [IoFn.fields, Fields.ioFn, Fields.fn12_ofAddr, Fields.mode_ofAddr]
  rfl

theorem sysFn_fields (k : SysFn) (code : BitVec 6) : (k.fields code).sysFn = k := by
  simp only [SysFn.fields, Fields.sysFn, Fields.fn12_ofAddr]
  rfl

theorem sysMode_fields (k : SysFn) (code : BitVec 6) : (k.fields code).mode = 3 :=
  Fields.mode_ofAddr _ _ _ _ _ _ _

/-! ### The statement -/

theorem decodeFields_encode_address {r : Ref} {i : Instr} (ctx : ChannelId → ChanCtx)
    (h : i ∈ addressForms.map fun k => k.1 r) : decodeFields ctx (encodeFields i) = .ok i := by
  obtain ⟨k, hk, rfl⟩ := List.mem_map.1 h
  have fields : encodeFields (k.1 r) = r.fields k.2 := by fin_cases hk <;> rfl
  rw [fields, decodeFields_addressForm hk]

theorem decodeFields_encode_shift {ctx : ChannelId → ChanCtx} {r : Ref} {i : Instr} (hw : i.wellFormed ctx = true)
    (h : i ∈ shiftForms.map fun k => k.1 r) : decodeFields ctx (encodeFields i) = .ok i := by
  obtain ⟨k, hk, rfl⟩ := List.mem_map.1 h
  have fields : encodeFields (k.1 r) = r.fields k.2 := by fin_cases hk <;> rfl
  rw [fields, decodeFields_shiftForm hk, decodeShift_fields hk hw]

/-- An interlace-control word of a channel that is not alerted has unit 00, and is not the word of ASC or of TOP. -/
theorem decodeFields_encode_ilc {ctx : ChannelId → ChanCtx} {ch : ChannelId} {k : IlcFn}
    (hw : (Instr.ilc ch k).wellFormed ctx = true) : decodeFields ctx (encodeFields (.ilc ch k)) = .ok (.ilc ch k) := by
  rw [encodeFields]
  by_cases hc : ctx ch = .alerted
  · rw [decodeFields_alerted hc, ilcFn_fields]
  · have back := ilcFn_fields ch k
    obtain ⟨ia, er, zc, fc, hiAddr, hiCount⟩ := k
    simp only [Instr.wellFormed, beq_eq_false_iff_ne.2 hc, Bool.false_or, Bool.and_eq_true, Bool.not_eq_true',
      beq_iff_eq] at hw
    obtain ⟨⟨⟨rfl, rfl⟩, hasc⟩, htop⟩ := hw
    have others : ∀ (ia er zc : Bool) (fc : BitVec 2),
        (!ia && er && !zc && fc == 0) = false → (ia && !er && !zc && fc == 0) = false →
        let fn : BitVec 5 := BitVec.ofBool ia ++ BitVec.ofBool er ++ BitVec.ofBool zc ++ fc
        fn ≠ 0b01000 ∧ fn ≠ 0b10000 := by decide
    obtain ⟨hfn1, hfn2⟩ := others ia er zc fc hasc htop
    have unit : (BitVec.ofBool false ++ (0 : BitVec 5) : BitVec 6) = 0 := by decide
    refine (decodeFields_unit_zero hc _ unit).trans ?_
    rw [if_neg hfn1, if_neg hfn2]
    exact congrArg (fun q => Except.ok (Instr.ilc ch q)) back

theorem decodeFields_encode_syseom (ctx : ChannelId → ChanCtx) (k : SysFn) :
    decodeFields ctx (encodeFields (.syseom k)) = .ok (.syseom k) := by
  have row : decodeFields ctx (k.fields 0o02) = .ok (decodeEom ctx (k.fields 0o02)) := rfl
  refine row.trans ?_
  rw [decodeEom, sysMode_fields, sysFn_fields]
  rfl

theorem decodeFields_encode_syssks (ctx : ChannelId → ChanCtx) (k : SysFn) :
    decodeFields ctx (encodeFields (.syssks k)) = .ok (.syssks k) := by
  have row : decodeFields ctx (k.fields 0o40) = .ok (decodeSks (k.fields 0o40)) := rfl
  refine row.trans ?_
  rw [decodeSks, sysMode_fields, sysFn_fields]
  rfl

theorem decodeFields_encode_setext (ctx : ChannelId → ChanCtx) (s3 s2 : Bool) (r3 r2 : BitVec 3) :
    decodeFields ctx (encodeFields (.setext s3 s2 r3 r2)) = .ok (.setext s3 s2 r3 r2) := by
  have bits : ∀ s3 : Bool, (0#4 ++ BitVec.ofBool s3 : BitVec 5).extractLsb' 1 4 = 0 ∧
      (0#4 ++ BitVec.ofBool s3 : BitVec 5).getMsbD 4 = s3 := by decide
  have row : decodeFields ctx (encodeFields (.setext s3 s2 r3 r2)) =
      .ok (decodeEod ctx (encodeFields (.setext s3 s2 r3 r2))) := rfl
  rw [row]
  simp [encodeFields, decodeEod, bits s3, extract_high, extract_low]

/-- By the format of the word: a row with no general form, a row of a device table, or a general form that is the
closest row of its own word. -/
theorem decodeFields_encodeFields {ctx : ChannelId → ChanCtx} {i : Instr} (hw : i.wellFormed ctx = true) :
    decodeFields ctx (encodeFields i) = .ok i := by
  match i with
  | .lda r | .sta r | .ldb r | .stb r | .ldx r | .stx r | .eax r | .xma r | .add r | .adc r | .adm r | .min r | .sub r
  | .suc r | .mul r | .div r | .etr r | .mrg r | .eor r | .bru r | .brx r | .brm r | .brr r | .ske r | .skg r | .skm r
  | .ska r | .skb r | .skn r | .skr r | .skd r | .exu r | .miw r | .wim r | .miy r | .yim r | .pin r | .pot r =>
    exact decodeFields_encode_address (r := r) ctx (by simp [addressForms])
  | .rsh r | .rcy r | .lrsh r | .lsh r | .lcy r | .nod r =>
    exact decodeFields_encode_shift (r := r) hw (by simp [shiftForms])
  | .pop code r => exact congrArg (fun q => Except.ok (Instr.pop code q)) (Ref.fields_ref r code)
  | .cla | .clb | .clr | .cab | .cba | .xab | .bac | .abc | .clx | .cxa | .cax | .xxa | .cbx | .cxb | .xxb | .ste
  | .lde | .xee | .cna => exact decodeFields_regFn ctx _
  | .rch f => exact (decodeFields_regFn ctx f).trans (congrArg _ ((closestRow_regFn ctx f).eq hw))
  | .eom f =>
    have row := closestRow_eom ctx (f.fields 0o02)
    rw [ioFn_fields] at row
    exact congrArg _ (row.eq hw)
  | .eod f =>
    have row := closestRow_eod ctx (f.fields 0o06)
    rw [ioFn_fields] at row
    exact congrArg _ (row.eq hw)
  | .sks f =>
    have row := closestRow_sks ctx (f.fields 0o40)
    rw [ioFn_fields] at row
    exact congrArg _ (row.eq hw)
  | .connect ch k =>
    refine (decodeFields_connect ctx ch _ _ _).trans ?_
    rw [conn_fields]
    exact congrArg _ ((closestRow_connect ctx ch k).eq hw)
  | .ilc ch k => exact decodeFields_encode_ilc hw
  | .ioctl ch fn unit =>
    have parts := hw
    simp only [Instr.wellFormed, Bool.and_eq_true, bne_iff_ne] at parts
    obtain ⟨⟨hc, hu⟩, -⟩ := parts
    exact (decodeFields_command hc fn hu).trans (congrArg _ ((closestRow_ioctl hc fn hu).eq hw))
  | .devtest ch fn unit =>
    have hu : unit ≠ 0 := bne_iff_ne.1 (Bool.and_eq_true_iff.1 hw).1
    exact (decodeFields_test ctx ch hu).trans (congrArg _ ((closestRow_devtest ctx ch fn hu).eq hw))
  | .asc ch => exact decodeFields_unit_zero (bne_iff_ne.1 hw) _ rfl
  | .top ch =>
    have hc : ctx ch = .plain := eq_of_beq hw
    refine (decodeFields_unit_zero (by rw [hc]; exact nofun) _ rfl).trans ?_
    rw [hc]
    rfl
  | .rts ch =>
    have hc : ctx ch = .tapeInput := eq_of_beq hw
    refine (decodeFields_unit_zero (by rw [hc]; exact nofun) _ rfl).trans ?_
    rw [hc]
    rfl
  | .syseom k => exact decodeFields_encode_syseom ctx k
  | .syssks k => exact decodeFields_encode_syssks ctx k
  | .dsc ch => cases ch <;> rfl
  | .alc ch => exact decodeFields_alc ctx ch
  | .setext s3 s2 r3 r2 => exact decodeFields_encode_setext ctx s3 s2 r3 r2
  | .exttest t3 t2 => cases t3 <;> cases t2 <;> rfl
  | .hlt | .nop | .rov | .eir | .dir | .reo | .air | .rtcarm | .rtcdisarm | .ovt | .idt | .iet | .betw | .bety | .bpt4
  | .bpt3 | .bpt2 | .bpt1 | .brtw | .brty | .pfst => rfl
  | .cat ch | .czt ch | .cet ch | .cit ch => cases ch <;> rfl
  | .rkb ch k | .typ ch k | .rpt ch k | .ptl ch k | .ppt ch k | .rcd ch k | .rcb ch k | .pcd ch k | .pcb ch k
  | .plp ch k =>
    exact decodeFields_encode_connect (ch := ch) (k := k) (n := 0) (c := ⟨false, false, false, false, 0, 0⟩) ctx
      (by simp [connects])
  | .wtb ch k n | .wtd ch k n | .eft ch k n | .ert ch k n | .rtb ch k n | .rtd ch k n | .sfb ch k n | .sfd ch k n
  | .srb ch k n | .srd ch k n =>
    exact decodeFields_encode_connect (ch := ch) (k := k) (n := n) (c := ⟨false, false, false, false, 0, 0⟩) ctx
      (by simp [connects])
  | .src ch | .srr ch | .pol ch =>
    exact decodeFields_encode_command (ch := ch) (n := 0) (fn := 0) (unit := 0) (bne_iff_ne.1 hw) (by simp [commands])
  | .rew ch n | .psc ch n | .psp ch n =>
    exact decodeFields_encode_command (ch := ch) (n := n) (fn := 0) (unit := 0) (bne_iff_ne.1 hw) (by simp [commands])
  | .crt ch | .fct ch | .cft ch | .pbt ch | .cpt ch | .tft ch | .pft ch | .prt ch | .ept ch =>
    exact decodeFields_encode_test (ch := ch) (n := 0) ctx (by simp [deviceTests])
  | .dt2 ch n | .dt5 ch n | .dt8 ch n | .tgt ch n | .magpak ch n =>
    exact decodeFields_encode_test (ch := ch) (n := n) ctx (by simp [deviceTests])
  | .trt ch n | .fpt ch n | .btt ch n | .ett ch n =>
    exact decodeFields_encode_tape (ch := ch) (n := n) ctx (by simp [tapeTests])

/-- Settles O11: a word's instruction is that of its fields, which the encoder writes. -/
theorem decodeEncode : Obligations.DecodeEncode :=
  fun ctx i hw => (decode_encode_fields ctx i).trans (decodeFields_encodeFields hw)

end Sys2Proof.Machine
end

section
/-! PROOFS. Indirect chains (30_encoding R105, R106): the addresses a chain comes to, an end found within the number of
addresses there are or nowhere, and an instruction whose chain never ends. -/

namespace Sys2Proof.Machine

open Sys2Proof

/-! ### A sequence in a finite type -/

/-- In the iterates of a function on `BitVec w`, what holds of the first `2 ^ w` holds of all: by then one has come
back. -/
theorem iterate_forall_of_lt {w : Nat} (f : BitVec w → BitVec w) (t : BitVec w) {p : BitVec w → Prop}
    (h : ∀ k < 2 ^ w, p (f^[k] t)) (k : Nat) : p (f^[k] t) := by
  induction k using Nat.strong_induction_on with
  | _ k ih =>
    by_cases hk : k < 2 ^ w
    · exact h k hk
    · obtain ⟨i, hi, j, hj, hne, heq⟩ : ∃ i ∈ Finset.range (2 ^ w + 1), ∃ j ∈ Finset.range (2 ^ w + 1), i ≠ j ∧
          (f^[i] t).toNat = (f^[j] t).toNat :=
        Finset.exists_ne_map_eq_of_card_lt_of_maps_to (t := Finset.range (2 ^ w)) (by simp)
          fun i _ => Finset.mem_coe.2 (Finset.mem_range.2 (f^[i] t).isLt)
      have back {i j : Nat} (hij : i < j) (hj : j ≤ k) (he : f^[i] t = f^[j] t) : p (f^[k] t) := by
        have earlier : f^[k] t = f^[k - j + i] t := by
          rw [Function.iterate_add_apply, he, ← Function.iterate_add_apply, Nat.sub_add_cancel hj]
        rw [earlier]
        exact ih _ (by omega)
      rw [Finset.mem_range] at hi hj
      rcases Nat.lt_or_gt_of_ne hne with hij | hij
      · exact back hij (by omega) (BitVec.eq_of_toNat_eq heq)
      · exact back hij (by omega) (BitVec.eq_of_toNat_eq heq.symm)

/-! ### The addresses of a chain -/

/-- The address of the word at `t`: one level of R105. -/
def State.chainNext (s : State) (t : Addr) : Addr := s.indexedAddr (bit (s.read t) 1) (addrField (s.read t))

/-- The chain that has come to `t` never ends: every word it comes to is indirect. -/
def State.ChainEndless (s : State) (t : Addr) : Prop := ∀ k, bit (s.read (s.chainNext^[k] t)) 9 = true

/-- Through `n` words the chain is not at its end where each of them is indirect, and is then at the `n`-th address. -/
theorem eaLevels_endless_iff {s : State} {n : Nat} {indexed : Bool} {a u : Addr} :
    s.eaLevels n indexed true a = .endless u ↔
      (∀ k < n, bit (s.read (s.chainNext^[k] (s.indexedAddr indexed a))) 9 = true) ∧
        u = s.chainNext^[n] (s.indexedAddr indexed a) := by
  induction n generalizing indexed a with
  | zero =>
    rw [eaLevels_zero, EARes.endless.injEq, Function.iterate_zero_apply]
    exact ⟨fun h => ⟨fun k hk => absurd hk (Nat.not_lt_zero k), h.symm⟩, fun h => h.2.symm⟩
  | succ n ih =>
    rw [eaLevels_succ, Nat.forall_lt_succ_left]
    simp only [Function.iterate_zero_apply, Function.iterate_succ_apply]
    cases h9 : bit (s.read (s.indexedAddr indexed a)) 9 with
    | false => simp [eaLevels_direct]
    | true =>
      rw [ih]
      simp [State.chainNext]

/-- An address found stays the one found through more words. -/
theorem eaLevels_addr_mono {s : State} {n m : Nat} (h : n ≤ m) {indexed indirect : Bool} {a t : Addr}
    (ht : s.eaLevels n indexed indirect a = .addr t) : s.eaLevels m indexed indirect a = .addr t := by
  induction n generalizing m indexed indirect a with
  | zero =>
    cases indirect with
    | false => rwa [eaLevels_direct] at ht ⊢
    | true => rw [eaLevels_zero] at ht; cases ht
  | succ n ih =>
    cases indirect with
    | false => rwa [eaLevels_direct] at ht ⊢
    | true =>
      obtain ⟨m, rfl⟩ : ∃ k, m = k + 1 := ⟨m - 1, by omega⟩
      rw [eaLevels_succ] at ht ⊢
      exact ih (by omega) ht

/-- Rule R105, word by word. -/
theorem eaChain_iff {s : State} {indexed indirect : Bool} {a t : Addr} :
    EAChain s indexed indirect a t ↔ ∃ n, s.eaLevels n indexed indirect a = .addr t := by
  constructor
  · intro h
    induction h with
    | direct indexed a => exact ⟨0, eaLevels_direct s 0 indexed a⟩
    | indirect indexed a w t read rest ih =>
      obtain ⟨n, hn⟩ := ih
      subst read
      exact ⟨n + 1, (eaLevels_succ s n indexed a).trans hn⟩
  · rintro ⟨n, hn⟩
    induction n generalizing indexed indirect a with
    | zero =>
      cases indirect with
      | false => rw [eaLevels_direct] at hn; cases hn; exact .direct indexed a
      | true => rw [eaLevels_zero] at hn; cases hn
    | succ n ih =>
      cases indirect with
      | false => rw [eaLevels_direct] at hn; cases hn; exact .direct indexed a
      | true =>
        rw [eaLevels_succ] at hn
        exact .indirect indexed a _ t rfl (ih hn)

/-! ### The effective address -/

/-- The bound of the model is enough: a chain not at its end within as many words as there are addresses has none. -/
theorem ea_endless_iff {s : State} {r : Ref} {u : Addr} (hr : r.indirect = true) :
    s.ea r = .endless u ↔
      s.ChainEndless (s.indexedAddr r.indexed r.addr) ∧
        u = s.chainNext^[chainBound] (s.indexedAddr r.indexed r.addr) := by
  rw [State.ea, hr, eaLevels_endless_iff]
  refine and_congr_left fun _ => ⟨fun h => ?_, fun h k _ => h k⟩
  exact iterate_forall_of_lt s.chainNext _ (p := fun t => bit (s.read t) 9 = true) h

theorem ea_addr_of_eaLevels {s : State} {r : Ref} {n : Nat} {t : Addr}
    (h : s.eaLevels n r.indexed r.indirect r.addr = .addr t) : s.ea r = .addr t := by
  cases hea : s.ea r with
  | addr u =>
    have hmax := eaLevels_addr_mono (Nat.le_max_left n chainBound) h
    rw [eaLevels_addr_mono (Nat.le_max_right n chainBound) hea] at hmax
    exact hmax
  | endless u =>
    have hr := ea_endless_indirect hea
    obtain ⟨never, -⟩ := (ea_endless_iff hr).1 hea
    rw [hr, eaLevels_endless_iff.2 ⟨fun k _ => never k, rfl⟩] at h
    cases h

theorem ea_addr_iff {s : State} {r : Ref} {t : Addr} :
    s.ea r = .addr t ↔ EAChain s r.indexed r.indirect r.addr t :=
  ⟨fun h => eaChain_iff.2 ⟨chainBound, h⟩, fun h => (eaChain_iff.1 h).elim fun _ => ea_addr_of_eaLevels⟩

/-- Settles O9: an address answered is the chain's, and the other answer is `endless`. -/
theorem effectiveAddress : Obligations.EffectiveAddress := by
  refine fun s r => ⟨fun t => ea_addr_iff, ?_⟩
  simp only [← ea_addr_iff]
  cases s.ea r with
  | addr t => simp
  | endless t => simp

/-! ### An instruction in an endless chain -/

theorem exec_endless {s : State} {r : Ref} {t : Addr} {k : (Ref → Instr) × BitVec 6}
    (hk : k ∈ addressForms ++ shiftForms) (h : s.ea r = .endless t) : exec (k.1 r) s = .next (s.holdChain k.2 t) := by
  rcases List.mem_append.1 hk with hk | hk
  · fin_cases hk <;> exact atEA_endless _ h
  · fin_cases hk <;> exact atShiftEA_endless _ (shiftEA_endless h)

/-- An indirect shift word stands for a shift of its code, whatever its own bits (log 21). -/
theorem decodeShift_indirect (left : Bool) {f : Fields} (h9 : f.b9 = true) :
    ∃ k ∈ shiftForms, k.2 = (if left then 0o67 else 0o66) ∧ decodeShift left f = .ok (k.1 f.ref) := by
  unfold decodeShift
  rw [h9]
  simp only [Bool.or_true, if_true]
  cases left with
  | false =>
    rw [if_neg Bool.false_ne_true, if_neg Bool.false_ne_true]
    split
    · exact ⟨(.rcy, 0o66), by simp [shiftForms], rfl, rfl⟩
    · split
      · exact ⟨(.lrsh, 0o66), by simp [shiftForms], rfl, rfl⟩
      · exact ⟨(.rsh, 0o66), by simp [shiftForms], rfl, rfl⟩
  | true =>
    rw [if_pos rfl, if_pos rfl]
    split
    · exact ⟨(.lcy, 0o67), by simp [shiftForms], rfl, rfl⟩
    · split
      · exact ⟨(.nod, 0o67), by simp [shiftForms], rfl, rfl⟩
      · exact ⟨(.lsh, 0o67), by simp [shiftForms], rfl, rfl⟩

/-- The word left in C stands for an instruction of the same code; for a shift it may be another kind's. -/
theorem decode_refWord_indirect {k : (Ref → Instr) × BitVec 6} (hk : k ∈ addressForms ++ shiftForms)
    (ctx : ChannelId → ChanCtx) (t : Addr) :
    ∃ j ∈ addressForms ++ shiftForms, j.2 = k.2 ∧ decode ctx (refWord k.2 true t) = .ok (j.1 ⟨false, true, t⟩) := by
  rw [decode_refWord]
  rcases List.mem_append.1 hk with ha | hs
  · exact ⟨k, hk, rfl, decodeFields_addressForm ha ctx _⟩
  · obtain ⟨j, hj, hcode, hdecode⟩ := decodeShift_indirect (k.2 == 0o67) (f := Ref.fields ⟨false, true, t⟩ k.2) rfl
    refine ⟨j, List.mem_append_right _ hj, hcode.trans ?_, ?_⟩
    · fin_cases hs <;> rfl
    · rw [decodeFields_shiftForm hs, hdecode, Ref.fields_ref]

theorem chainEndless_iterate {s : State} {t : Addr} (h : s.ChainEndless t) (n : Nat) :
    s.ChainEndless (s.chainNext^[n] t) := fun k => by
  rw [← Function.iterate_add_apply]
  exact h (k + n)

section Hung

variable {s : State} (hs : s.schedule = []) (hp : s.power = .on) (ha : s.airAlert = false)
  (hh : s.console.runSwitch = .run → s.console.hold = false) {k : (Ref → Instr) × BitVec 6}
  (hk : k ∈ addressForms ++ shiftForms)

include hs hp ha hh hk

/-- A turn inside an endless chain comes to another address of it. -/
theorem step_chainEndless {t : Addr} (ht : s.ChainEndless t) :
    ∃ u, s.ChainEndless u ∧ step (s.holdChain k.2 t) = .next (s.holdChain k.2 u) := by
  refine ⟨s.chainNext^[chainBound] t, chainEndless_iterate ht chainBound, ?_⟩
  let v : State := s.holdChain k.2 t
  obtain ⟨j, hj, hcode, hdecode⟩ := decode_refWord_indirect hk v.context t
  have hea : v.ea ⟨false, true, t⟩ = .endless (s.chainNext^[chainBound] t) :=
    (eaLevels_congr (t := v) (s := s) rfl rfl rfl rfl rfl _ _ _ _).trans
      ((ea_endless_iff (r := ⟨false, true, t⟩) rfl).2 ⟨ht, rfl⟩)
  have alert : v.airAlert = true → afterAir (j.1 ⟨false, true, t⟩) = true := fun h => nomatch ha.symm.trans h
  rw [step_goes_on (s := v) hs hp hh (.inr (.inl rfl)), runC_ok hdecode alert (tooShort_unfinished (.inr (.inl rfl))),
    exec_endless hj hea, hcode]
  rfl

theorem runs_chainEndless (n : Nat) {t : Addr} (ht : s.ChainEndless t) :
    ∃ u, Runs (s.holdChain k.2 t) n (s.holdChain k.2 u) := by
  induction n generalizing t with
  | zero => exact ⟨t, .done _⟩
  | succ n ih =>
    obtain ⟨u, hu, first⟩ := step_chainEndless hs hp ha hh hk ht
    obtain ⟨v, rest⟩ := ih hu
    exact ⟨v, .more _ _ _ _ first rest⟩

/-- The run is over as hung (70_reset_and_hazards R605). -/
theorem endsAs_hung_of_chainEndless {t : Addr} (ht : s.ChainEndless t) : (s.holdChain k.2 t).EndsAs .hung := by
  refine ⟨fun turn hturn => ?_, hp, fun n => ?_⟩
  · rw [show (s.holdChain k.2 t).schedule = [] from hs] at hturn
    exact nomatch hturn
  · obtain ⟨u, hruns⟩ := runs_chainEndless hs hp ha hh hk n ht
    exact ⟨_, hruns, fun hb => hb.elim nofun nofun⟩

end Hung

/-- Settles O10: the instruction holds, and every turn from there comes to another address of the same chain. -/
theorem endlessChain : Obligations.EndlessChain := by
  intro s r t i code hi hea
  rw [memoryReferences_eq] at hi
  obtain ⟨k, hk, heq⟩ := List.mem_map.1 hi
  cases heq
  refine ⟨exec_endless hk hea, fun hs hp ha hh => ?_⟩
  obtain ⟨never, hat⟩ := (ea_endless_iff (ea_endless_indirect hea)).1 hea
  have ht : s.ChainEndless t := hat ▸ chainEndless_iterate never chainBound
  exact ⟨fun n => runs_chainEndless hs hp ha hh hk n ht, endsAs_hung_of_chainEndless hs hp ha hh hk ht⟩

end Sys2Proof.Machine
end

section
/-! PROOFS. A step runs the instruction that the fetched word stands for (30_encoding R101), and how far P goes on (60
R531, 70_reset_and_hazards R592, R595). -/

namespace Sys2Proof.Machine

open Sys2Proof

theorem fetch_forced {s : State} (hc : s.cState = .forced) :
    s.fetch = { s with origin := .console, cState := .none } := by
  simp [State.fetch, hc]

theorem advanced_console {s : State} (n : Addr) (h : s.origin = .console) (hh : s.console.hold = false) :
    s.advanced n = s.p + n := by
  simp [State.advanced, h, hh]

theorem advanced_hold {s : State} (n : Addr) (hh : s.console.hold = true) : s.advanced n = s.p := by
  cases ho : s.origin <;> simp [State.advanced, ho, hh]

/-- Settles O14: what the fetch brings to C, by where it comes from, and the run of the instruction in C. -/
theorem stepRunsDecoded : Obligations.StepRunsDecoded := by
  refine ⟨fun s i h ha hd => ?sequence, fun s i l h hack ha hd => ?interrupt, fun s i h hc ha hd => ?forced,
    fun s i hs hp hh hc ha hd => ?unfinished, fun s n => ⟨?advances, fun l => advanced_interrupt n, advanced_hold n⟩⟩
  case sequence =>
    rw [step_fetch h.schedule h.power (.inl h.cState) h.run h.hold h.halted, fetch_sequence h.cState h.ack, ← h.cState]
    exact runC_ok hd ha (tooShort_sequence rfl)
  case interrupt =>
    intro u ht
    have hc : s.cState = .none := h.cState
    rw [step_fetch (s := s) h.schedule h.power (.inl hc) h.run h.hold h.halted, fetch_interrupt hc hack, ← hc]
    exact runC_ok (s := u) hd ha ht
  case forced =>
    rw [step_fetch (s := s) h.schedule h.power (.inr hc) h.run h.hold h.halted, fetch_forced hc]
    exact runC_ok hd ha (tooShort_console rfl)
  case unfinished => rw [step_goes_on hs hp hh hc, runC_ok hd ha (tooShort_unfinished hc)]
  case advances =>
    rintro (ho | ho)
    · exact advanced_sequence n ho
    · exact advanced_console n ho

end Sys2Proof.Machine
end
